-- ==== Sys2Proof/Word.lean ====
section
/-! DEFINITION. The word types: XLEN is 64 (00_scope R2), memory is bytes (20_memory R101), an
instruction word is at most 32 bits (30_encoding R159). -/

namespace Sys2Proof

/-- A register, CSR or address value (00_scope R2). -/
abbrev Word := BitVec 64

/-- One byte of memory. -/
abbrev Byte := BitVec 8

/-- An instruction word; a 16-bit parcel stands in the low half (30_encoding R153). -/
abbrev InstrWord := BitVec 32

/-- A general or floating-point register number (30_encoding R163). -/
abbrev RegNum := BitVec 5

/-- A 3-bit register field of a compressed instruction (30_encoding R164). -/
abbrev CRegNum := BitVec 3

/-- A CSR address (10_state R47). -/
abbrev CsrAddr := BitVec 12

end Sys2Proof
end

