-- ==== Sys2Proof/Config.lean ====
section
/-! DEFINITION. What the spec leaves open (00_scope R12). A constant declared `opaque` has no body:
nothing in Lean can evaluate it, so a theorem that mentions it holds whatever it is. One more,
`Config.semihost`, stands in Machine/State.lean, since it takes a hart. The parameters
that are data (the memory map, the alignment choice, the disabled rows, the number of harts) are
fields of State instead, and every theorem about all states covers all their values. -/

namespace Sys2Proof

/-- The two floating-point formats: S is 32 bits, D is 64 bits (46_float R381). -/
inductive FpFmt
  | S
  | D
  deriving DecidableEq, Repr, Inhabited

/-- The operation an FP_ARITH call names, apart from its format (46_float R381). In the conversions the
format is that of the floating-point side; for `fcvtFF` it is the format converted TO. -/
inductive FpOp
  | fmadd | fmsub | fnmsub | fnmadd
  | fadd | fsub | fmul | fdiv | fsqrt
  | fmin | fmax
  | feq | flt | fle
  | fcvtWF | fcvtWuF | fcvtLF | fcvtLuF
  | fcvtFW | fcvtFWu | fcvtFL | fcvtFLu
  | fcvtFF
  deriving DecidableEq, Repr, Inhabited

/-- A resolved rounding mode (46_float R382). -/
inductive RoundingMode
  | rne | rtz | rdn | rup | rmm
  deriving DecidableEq, Repr, Inhabited

/-- What FP_ARITH returns: a bit pattern, of which an instruction uses as many low bits as its
destination has, and the five flags NV DZ OF UF NX (46_float R381, R383). -/
structure FpResult where
  value : Word
  flags : BitVec 5
  deriving DecidableEq, Repr, Inhabited

/-- One sample of the CLINT inputs a hart sees (60_exceptions R547). -/
structure ClintSample where
  mtime : Word
  mtip  : Bool
  msip  : Bool
  deriving DecidableEq, Repr, Inhabited

/-- What SEMIHOST returns: a new a0 and new memory contents (45_system R350). -/
structure SemihostReturn where
  a0  : Word
  mem : List (Nat × Byte)
  deriving DecidableEq, Repr, Inhabited

/-- FP_ARITH, the open floating-point arithmetic: a total function of the operation, the unboxed
operands (singles and integers zero- or sign-extended to 64 bits) and the rounding mode, absent for an
operation without one (46_float R381). Log 8. -/
opaque Config.fpArith : FpFmt → FpOp → List Word → Option RoundingMode → FpResult

/-- BREAKPOINT, an attached debugger's answer to hart `h` at draw `n` (45_system R351). Log 10. -/
opaque Config.breakpoint : (h n : Nat) → Bool

/-- CYCLE, what mcycle advances by (10_state R81). Log 6. -/
opaque Config.cycle : (n : Nat) → Word

/-- TLB_USE: the index of the usable entry an access uses; any number at or above their count means
that it walks (20_memory R112). Log 6. -/
opaque Config.tlbUse : (n : Nat) → Nat

/-- DEVICE_READ, what a device answers to a load (20_memory R102). Log 6. -/
opaque Config.deviceRead : (n : Nat) → Word

/-- SPURIOUS_WAKE, whether an interrupt check wakes a waiting hart for no enabled reason
(60_exceptions R536). Log 6. -/
opaque Config.spuriousWake : (n : Nat) → Bool

/-- The inputs MTIME, MTIP(h), MSIP(h) at a sample (60_exceptions R547). Log 6. -/
opaque Config.clint : (h n : Nat) → ClintSample

/-- Which hart takes the step, as an index into the other harts (20_memory R127). Log 19. -/
opaque Config.schedule : (n : Nat) → Nat

/-- A register value the spec leaves unspecified after an unresolved trap (60_exceptions R531).
Log 11. -/
opaque Config.unspecified : (n : Nat) → Word

/-- UNSAFE_SENTINEL, what a diagnostic translation answers on a fault (20_memory R125). Log 25. -/
opaque Config.unsafeSentinel : Word

/-- The entry address of State.reset. DESIGN CHOICE (unsafe for a claim about runs from State.reset):
the spec leaves `entry_pc` to the host; the worked examples of 95_test_vectors use this one. Log 5. -/
def Config.entryPc : Word := 0x80000000#64

/-- The RAM of State.reset's memory map, base and size. DESIGN CHOICE (unsafe for a claim about runs
from State.reset): PMAP is open; the worked examples of 95_test_vectors use this one. Log 1. -/
def Config.ramBase : Nat := 0x80000000

/-- See `Config.ramBase`. Log 1. -/
def Config.ramSize : Nat := 0x8000

end Sys2Proof
end

