-- ==== Sys2Proof/Syntax.lean ====
section
/-! DEFINITION. The instructions: one constructor of `Instr` per row of spec/opcode_table.json, its
arguments the row's operands as the segments assemble them (30_encoding R151), each as wide as its
largest destination bit, which is also the width it is sign-extended from where the row gives one. -/

namespace Sys2Proof

/-- The operand names of the table (30_encoding R176). -/
inductive OpName
  | rd | rs1 | rs2 | rs3 | imm | shamt | uimm | csr | fm | pred | succ | rm | aq | rl
  deriving DecidableEq, Repr

/-- The mnemonics of the table, a dot written as an underscore (30_encoding R152). -/
inductive Mnemonic
  | LUI | AUIPC | JAL | JALR | BEQ | BNE | BLT | BGE | BLTU | BGEU | LB | LH | LW | LD | LBU | LHU
  | LWU | SB | SH | SW | SD | ADDI | SLTI | SLTIU | XORI | ORI | ANDI | SLLI | SRLI | SRAI | ADD
  | SUB | SLL | SLT | SLTU | XOR | SRL | SRA | OR | AND | FENCE | ECALL | EBREAK | ADDIW | SLLIW
  | SRLIW | SRAIW | ADDW | SUBW | SLLW | SRLW | SRAW | FENCE_I | CSRRW | CSRRS | CSRRC | CSRRWI
  | CSRRSI | CSRRCI | MUL | MULH | MULHSU | MULHU | DIV | DIVU | REM | REMU | MULW | DIVW | DIVUW
  | REMW | REMUW | LR_W | SC_W | AMOSWAP_W | AMOADD_W | AMOXOR_W | AMOAND_W | AMOOR_W | AMOMIN_W
  | AMOMAX_W | AMOMINU_W | AMOMAXU_W | LR_D | SC_D | AMOSWAP_D | AMOADD_D | AMOXOR_D | AMOAND_D
  | AMOOR_D | AMOMIN_D | AMOMAX_D | AMOMINU_D | AMOMAXU_D | SRET | MRET | WFI | SFENCE_VMA | FLW
  | FSW | FMADD_S | FMSUB_S | FNMSUB_S | FNMADD_S | FADD_S | FSUB_S | FMUL_S | FDIV_S | FSQRT_S
  | FSGNJ_S | FSGNJN_S | FSGNJX_S | FMIN_S | FMAX_S | FLE_S | FLT_S | FEQ_S | FCLASS_S | FCVT_W_S
  | FCVT_S_W | FCVT_WU_S | FCVT_S_WU | FCVT_L_S | FCVT_S_L | FCVT_LU_S | FCVT_S_LU | FMV_X_W
  | FMV_W_X | FLD | FSD | FMADD_D | FMSUB_D | FNMSUB_D | FNMADD_D | FADD_D | FSUB_D | FMUL_D
  | FDIV_D | FSQRT_D | FSGNJ_D | FSGNJN_D | FSGNJX_D | FMIN_D | FMAX_D | FLE_D | FLT_D | FEQ_D
  | FCLASS_D | FCVT_W_D | FCVT_D_W | FCVT_WU_D | FCVT_D_WU | FCVT_L_D | FCVT_D_L | FCVT_LU_D
  | FCVT_D_LU | FCVT_S_D | FCVT_D_S | FMV_X_D | FMV_D_X | C_ADDI4SPN | C_FLD | C_LW | C_LD | C_FSD
  | C_SW | C_SD | C_NOP | C_ADDI | C_ADDIW | C_LI | C_ADDI16SP | C_LUI | C_SRLI | C_SRAI | C_ANDI
  | C_SUB | C_XOR | C_OR | C_AND | C_SUBW | C_ADDW | C_J | C_BEQZ | C_BNEZ | C_SLLI | C_FLDSP
  | C_LWSP | C_LDSP | C_JR | C_MV | C_EBREAK | C_JALR | C_ADD | C_FSDSP | C_SWSP | C_SDSP
  deriving DecidableEq, Repr

/-- An instruction. -/
inductive Instr
  /-- LUI (40_integer R201). -/
  | lui (rd : RegNum) (imm : BitVec 32)
  /-- AUIPC (40_integer R202). -/
  | auipc (rd : RegNum) (imm : BitVec 32)
  /-- JAL (41_control R251). -/
  | jal (rd : RegNum) (imm : BitVec 21)
  /-- JALR (41_control R252). -/
  | jalr (rd rs1 : RegNum) (imm : BitVec 12)
  /-- BEQ (41_control R253). -/
  | beq (rs1 rs2 : RegNum) (imm : BitVec 13)
  /-- BNE (41_control R254). -/
  | bne (rs1 rs2 : RegNum) (imm : BitVec 13)
  /-- BLT (41_control R255). -/
  | blt (rs1 rs2 : RegNum) (imm : BitVec 13)
  /-- BGE (41_control R256). -/
  | bge (rs1 rs2 : RegNum) (imm : BitVec 13)
  /-- BLTU (41_control R257). -/
  | bltu (rs1 rs2 : RegNum) (imm : BitVec 13)
  /-- BGEU (41_control R258). -/
  | bgeu (rs1 rs2 : RegNum) (imm : BitVec 13)
  /-- LB (42_loadstore R271). -/
  | lb (rd rs1 : RegNum) (imm : BitVec 12)
  /-- LH (42_loadstore R272). -/
  | lh (rd rs1 : RegNum) (imm : BitVec 12)
  /-- LW (42_loadstore R273). -/
  | lw (rd rs1 : RegNum) (imm : BitVec 12)
  /-- LD (42_loadstore R274). -/
  | ld (rd rs1 : RegNum) (imm : BitVec 12)
  /-- LBU (42_loadstore R275). -/
  | lbu (rd rs1 : RegNum) (imm : BitVec 12)
  /-- LHU (42_loadstore R276). -/
  | lhu (rd rs1 : RegNum) (imm : BitVec 12)
  /-- LWU (42_loadstore R277). -/
  | lwu (rd rs1 : RegNum) (imm : BitVec 12)
  /-- SB (42_loadstore R278). -/
  | sb (rs1 rs2 : RegNum) (imm : BitVec 12)
  /-- SH (42_loadstore R279). -/
  | sh (rs1 rs2 : RegNum) (imm : BitVec 12)
  /-- SW (42_loadstore R280). -/
  | sw (rs1 rs2 : RegNum) (imm : BitVec 12)
  /-- SD (42_loadstore R281). -/
  | sd (rs1 rs2 : RegNum) (imm : BitVec 12)
  /-- ADDI (40_integer R203). -/
  | addi (rd rs1 : RegNum) (imm : BitVec 12)
  /-- SLTI (40_integer R204). -/
  | slti (rd rs1 : RegNum) (imm : BitVec 12)
  /-- SLTIU (40_integer R205). -/
  | sltiu (rd rs1 : RegNum) (imm : BitVec 12)
  /-- XORI (40_integer R206). -/
  | xori (rd rs1 : RegNum) (imm : BitVec 12)
  /-- ORI (40_integer R207). -/
  | ori (rd rs1 : RegNum) (imm : BitVec 12)
  /-- ANDI (40_integer R208). -/
  | andi (rd rs1 : RegNum) (imm : BitVec 12)
  /-- SLLI (40_integer R209). -/
  | slli (rd rs1 : RegNum) (shamt : BitVec 6)
  /-- SRLI (40_integer R210). -/
  | srli (rd rs1 : RegNum) (shamt : BitVec 6)
  /-- SRAI (40_integer R211). -/
  | srai (rd rs1 : RegNum) (shamt : BitVec 6)
  /-- ADD (40_integer R212). -/
  | add (rd rs1 rs2 : RegNum)
  /-- SUB (40_integer R213). -/
  | sub (rd rs1 rs2 : RegNum)
  /-- SLL (40_integer R214). -/
  | sll (rd rs1 rs2 : RegNum)
  /-- SLT (40_integer R215). -/
  | slt (rd rs1 rs2 : RegNum)
  /-- SLTU (40_integer R216). -/
  | sltu (rd rs1 rs2 : RegNum)
  /-- XOR (40_integer R217). -/
  | xor (rd rs1 rs2 : RegNum)
  /-- SRL (40_integer R218). -/
  | srl (rd rs1 rs2 : RegNum)
  /-- SRA (40_integer R219). -/
  | sra (rd rs1 rs2 : RegNum)
  /-- OR (40_integer R220). -/
  | or (rd rs1 rs2 : RegNum)
  /-- AND (40_integer R221). -/
  | and (rd rs1 rs2 : RegNum)
  /-- FENCE (45_system R340). -/
  | fence (rd rs1 : RegNum) (fm pred succ : BitVec 4)
  /-- ECALL (45_system R349). -/
  | ecall
  /-- EBREAK (45_system R352). -/
  | ebreak
  /-- ADDIW (40_integer R222). -/
  | addiw (rd rs1 : RegNum) (imm : BitVec 12)
  /-- SLLIW (40_integer R223). -/
  | slliw (rd rs1 : RegNum) (shamt : BitVec 5)
  /-- SRLIW (40_integer R224). -/
  | srliw (rd rs1 : RegNum) (shamt : BitVec 5)
  /-- SRAIW (40_integer R225). -/
  | sraiw (rd rs1 : RegNum) (shamt : BitVec 5)
  /-- ADDW (40_integer R226). -/
  | addw (rd rs1 rs2 : RegNum)
  /-- SUBW (40_integer R227). -/
  | subw (rd rs1 rs2 : RegNum)
  /-- SLLW (40_integer R228). -/
  | sllw (rd rs1 rs2 : RegNum)
  /-- SRLW (40_integer R229). -/
  | srlw (rd rs1 rs2 : RegNum)
  /-- SRAW (40_integer R230). -/
  | sraw (rd rs1 rs2 : RegNum)
  /-- FENCE.I (45_system R341). -/
  | fenceI (rd rs1 : RegNum) (imm : BitVec 12)
  /-- CSRRW (45_system R343). -/
  | csrrw (rd rs1 : RegNum) (csr : CsrAddr)
  /-- CSRRS (45_system R344). -/
  | csrrs (rd rs1 : RegNum) (csr : CsrAddr)
  /-- CSRRC (45_system R345). -/
  | csrrc (rd rs1 : RegNum) (csr : CsrAddr)
  /-- CSRRWI (45_system R346). -/
  | csrrwi (rd : RegNum) (uimm : BitVec 5) (csr : CsrAddr)
  /-- CSRRSI (45_system R347). -/
  | csrrsi (rd : RegNum) (uimm : BitVec 5) (csr : CsrAddr)
  /-- CSRRCI (45_system R348). -/
  | csrrci (rd : RegNum) (uimm : BitVec 5) (csr : CsrAddr)
  /-- MUL (43_muldiv R291). -/
  | mul (rd rs1 rs2 : RegNum)
  /-- MULH (43_muldiv R292). -/
  | mulh (rd rs1 rs2 : RegNum)
  /-- MULHSU (43_muldiv R293). -/
  | mulhsu (rd rs1 rs2 : RegNum)
  /-- MULHU (43_muldiv R294). -/
  | mulhu (rd rs1 rs2 : RegNum)
  /-- DIV (43_muldiv R295). -/
  | div (rd rs1 rs2 : RegNum)
  /-- DIVU (43_muldiv R296). -/
  | divu (rd rs1 rs2 : RegNum)
  /-- REM (43_muldiv R297). -/
  | rem (rd rs1 rs2 : RegNum)
  /-- REMU (43_muldiv R298). -/
  | remu (rd rs1 rs2 : RegNum)
  /-- MULW (43_muldiv R299). -/
  | mulw (rd rs1 rs2 : RegNum)
  /-- DIVW (43_muldiv R300). -/
  | divw (rd rs1 rs2 : RegNum)
  /-- DIVUW (43_muldiv R301). -/
  | divuw (rd rs1 rs2 : RegNum)
  /-- REMW (43_muldiv R302). -/
  | remw (rd rs1 rs2 : RegNum)
  /-- REMUW (43_muldiv R303). -/
  | remuw (rd rs1 rs2 : RegNum)
  /-- LR.W (44_atomics R313). -/
  | lrW (rd rs1 : RegNum) (aq rl : BitVec 1)
  /-- SC.W (44_atomics R314). -/
  | scW (rd rs1 rs2 : RegNum) (aq rl : BitVec 1)
  /-- AMOSWAP.W (44_atomics R315). -/
  | amoswapW (rd rs1 rs2 : RegNum) (aq rl : BitVec 1)
  /-- AMOADD.W (44_atomics R316). -/
  | amoaddW (rd rs1 rs2 : RegNum) (aq rl : BitVec 1)
  /-- AMOXOR.W (44_atomics R317). -/
  | amoxorW (rd rs1 rs2 : RegNum) (aq rl : BitVec 1)
  /-- AMOAND.W (44_atomics R318). -/
  | amoandW (rd rs1 rs2 : RegNum) (aq rl : BitVec 1)
  /-- AMOOR.W (44_atomics R319). -/
  | amoorW (rd rs1 rs2 : RegNum) (aq rl : BitVec 1)
  /-- AMOMIN.W (44_atomics R320). -/
  | amominW (rd rs1 rs2 : RegNum) (aq rl : BitVec 1)
  /-- AMOMAX.W (44_atomics R321). -/
  | amomaxW (rd rs1 rs2 : RegNum) (aq rl : BitVec 1)
  /-- AMOMINU.W (44_atomics R322). -/
  | amominuW (rd rs1 rs2 : RegNum) (aq rl : BitVec 1)
  /-- AMOMAXU.W (44_atomics R323). -/
  | amomaxuW (rd rs1 rs2 : RegNum) (aq rl : BitVec 1)
  /-- LR.D (44_atomics R324). -/
  | lrD (rd rs1 : RegNum) (aq rl : BitVec 1)
  /-- SC.D (44_atomics R325). -/
  | scD (rd rs1 rs2 : RegNum) (aq rl : BitVec 1)
  /-- AMOSWAP.D (44_atomics R326). -/
  | amoswapD (rd rs1 rs2 : RegNum) (aq rl : BitVec 1)
  /-- AMOADD.D (44_atomics R327). -/
  | amoaddD (rd rs1 rs2 : RegNum) (aq rl : BitVec 1)
  /-- AMOXOR.D (44_atomics R328). -/
  | amoxorD (rd rs1 rs2 : RegNum) (aq rl : BitVec 1)
  /-- AMOAND.D (44_atomics R329). -/
  | amoandD (rd rs1 rs2 : RegNum) (aq rl : BitVec 1)
  /-- AMOOR.D (44_atomics R330). -/
  | amoorD (rd rs1 rs2 : RegNum) (aq rl : BitVec 1)
  /-- AMOMIN.D (44_atomics R331). -/
  | amominD (rd rs1 rs2 : RegNum) (aq rl : BitVec 1)
  /-- AMOMAX.D (44_atomics R332). -/
  | amomaxD (rd rs1 rs2 : RegNum) (aq rl : BitVec 1)
  /-- AMOMINU.D (44_atomics R333). -/
  | amominuD (rd rs1 rs2 : RegNum) (aq rl : BitVec 1)
  /-- AMOMAXU.D (44_atomics R334). -/
  | amomaxuD (rd rs1 rs2 : RegNum) (aq rl : BitVec 1)
  /-- SRET (45_system R357). -/
  | sret
  /-- MRET (45_system R356). -/
  | mret
  /-- WFI (45_system R358). -/
  | wfi
  /-- SFENCE.VMA (45_system R359). -/
  | sfenceVma (rs1 rs2 : RegNum)
  /-- FLW (46_float R385). -/
  | flw (rd rs1 : RegNum) (imm : BitVec 12)
  /-- FSW (46_float R386). -/
  | fsw (rs1 rs2 : RegNum) (imm : BitVec 12)
  /-- FMADD.S (46_float R387). -/
  | fmaddS (rd rs1 rs2 rs3 : RegNum) (rm : BitVec 3)
  /-- FMSUB.S (46_float R388). -/
  | fmsubS (rd rs1 rs2 rs3 : RegNum) (rm : BitVec 3)
  /-- FNMSUB.S (46_float R389). -/
  | fnmsubS (rd rs1 rs2 rs3 : RegNum) (rm : BitVec 3)
  /-- FNMADD.S (46_float R390). -/
  | fnmaddS (rd rs1 rs2 rs3 : RegNum) (rm : BitVec 3)
  /-- FADD.S (46_float R391). -/
  | faddS (rd rs1 rs2 : RegNum) (rm : BitVec 3)
  /-- FSUB.S (46_float R392). -/
  | fsubS (rd rs1 rs2 : RegNum) (rm : BitVec 3)
  /-- FMUL.S (46_float R393). -/
  | fmulS (rd rs1 rs2 : RegNum) (rm : BitVec 3)
  /-- FDIV.S (46_float R394). -/
  | fdivS (rd rs1 rs2 : RegNum) (rm : BitVec 3)
  /-- FSQRT.S (46_float R395). -/
  | fsqrtS (rd rs1 : RegNum) (rm : BitVec 3)
  /-- FSGNJ.S (46_float R396). -/
  | fsgnjS (rd rs1 rs2 : RegNum)
  /-- FSGNJN.S (46_float R397). -/
  | fsgnjnS (rd rs1 rs2 : RegNum)
  /-- FSGNJX.S (46_float R398). -/
  | fsgnjxS (rd rs1 rs2 : RegNum)
  /-- FMIN.S (46_float R399). -/
  | fminS (rd rs1 rs2 : RegNum)
  /-- FMAX.S (46_float R400). -/
  | fmaxS (rd rs1 rs2 : RegNum)
  /-- FLE.S (46_float R401). -/
  | fleS (rd rs1 rs2 : RegNum)
  /-- FLT.S (46_float R402). -/
  | fltS (rd rs1 rs2 : RegNum)
  /-- FEQ.S (46_float R403). -/
  | feqS (rd rs1 rs2 : RegNum)
  /-- FCLASS.S (46_float R404). -/
  | fclassS (rd rs1 : RegNum)
  /-- FCVT.W.S (46_float R405). -/
  | fcvtWS (rd rs1 : RegNum) (rm : BitVec 3)
  /-- FCVT.S.W (46_float R406). -/
  | fcvtSW (rd rs1 : RegNum) (rm : BitVec 3)
  /-- FCVT.WU.S (46_float R407). -/
  | fcvtWuS (rd rs1 : RegNum) (rm : BitVec 3)
  /-- FCVT.S.WU (46_float R408). -/
  | fcvtSWu (rd rs1 : RegNum) (rm : BitVec 3)
  /-- FCVT.L.S (46_float R409). -/
  | fcvtLS (rd rs1 : RegNum) (rm : BitVec 3)
  /-- FCVT.S.L (46_float R410). -/
  | fcvtSL (rd rs1 : RegNum) (rm : BitVec 3)
  /-- FCVT.LU.S (46_float R411). -/
  | fcvtLuS (rd rs1 : RegNum) (rm : BitVec 3)
  /-- FCVT.S.LU (46_float R412). -/
  | fcvtSLu (rd rs1 : RegNum) (rm : BitVec 3)
  /-- FMV.X.W (46_float R413). -/
  | fmvXW (rd rs1 : RegNum)
  /-- FMV.W.X (46_float R414). -/
  | fmvWX (rd rs1 : RegNum)
  /-- FLD (46_float R415). -/
  | fld (rd rs1 : RegNum) (imm : BitVec 12)
  /-- FSD (46_float R416). -/
  | fsd (rs1 rs2 : RegNum) (imm : BitVec 12)
  /-- FMADD.D (46_float R417). -/
  | fmaddD (rd rs1 rs2 rs3 : RegNum) (rm : BitVec 3)
  /-- FMSUB.D (46_float R418). -/
  | fmsubD (rd rs1 rs2 rs3 : RegNum) (rm : BitVec 3)
  /-- FNMSUB.D (46_float R419). -/
  | fnmsubD (rd rs1 rs2 rs3 : RegNum) (rm : BitVec 3)
  /-- FNMADD.D (46_float R420). -/
  | fnmaddD (rd rs1 rs2 rs3 : RegNum) (rm : BitVec 3)
  /-- FADD.D (46_float R421). -/
  | faddD (rd rs1 rs2 : RegNum) (rm : BitVec 3)
  /-- FSUB.D (46_float R422). -/
  | fsubD (rd rs1 rs2 : RegNum) (rm : BitVec 3)
  /-- FMUL.D (46_float R423). -/
  | fmulD (rd rs1 rs2 : RegNum) (rm : BitVec 3)
  /-- FDIV.D (46_float R424). -/
  | fdivD (rd rs1 rs2 : RegNum) (rm : BitVec 3)
  /-- FSQRT.D (46_float R425). -/
  | fsqrtD (rd rs1 : RegNum) (rm : BitVec 3)
  /-- FSGNJ.D (46_float R426). -/
  | fsgnjD (rd rs1 rs2 : RegNum)
  /-- FSGNJN.D (46_float R427). -/
  | fsgnjnD (rd rs1 rs2 : RegNum)
  /-- FSGNJX.D (46_float R428). -/
  | fsgnjxD (rd rs1 rs2 : RegNum)
  /-- FMIN.D (46_float R429). -/
  | fminD (rd rs1 rs2 : RegNum)
  /-- FMAX.D (46_float R430). -/
  | fmaxD (rd rs1 rs2 : RegNum)
  /-- FLE.D (46_float R431). -/
  | fleD (rd rs1 rs2 : RegNum)
  /-- FLT.D (46_float R432). -/
  | fltD (rd rs1 rs2 : RegNum)
  /-- FEQ.D (46_float R433). -/
  | feqD (rd rs1 rs2 : RegNum)
  /-- FCLASS.D (46_float R434). -/
  | fclassD (rd rs1 : RegNum)
  /-- FCVT.W.D (46_float R435). -/
  | fcvtWD (rd rs1 : RegNum) (rm : BitVec 3)
  /-- FCVT.D.W (46_float R436). -/
  | fcvtDW (rd rs1 : RegNum) (rm : BitVec 3)
  /-- FCVT.WU.D (46_float R437). -/
  | fcvtWuD (rd rs1 : RegNum) (rm : BitVec 3)
  /-- FCVT.D.WU (46_float R438). -/
  | fcvtDWu (rd rs1 : RegNum) (rm : BitVec 3)
  /-- FCVT.L.D (46_float R439). -/
  | fcvtLD (rd rs1 : RegNum) (rm : BitVec 3)
  /-- FCVT.D.L (46_float R440). -/
  | fcvtDL (rd rs1 : RegNum) (rm : BitVec 3)
  /-- FCVT.LU.D (46_float R441). -/
  | fcvtLuD (rd rs1 : RegNum) (rm : BitVec 3)
  /-- FCVT.D.LU (46_float R442). -/
  | fcvtDLu (rd rs1 : RegNum) (rm : BitVec 3)
  /-- FCVT.S.D (46_float R443). -/
  | fcvtSD (rd rs1 : RegNum) (rm : BitVec 3)
  /-- FCVT.D.S (46_float R444). -/
  | fcvtDS (rd rs1 : RegNum) (rm : BitVec 3)
  /-- FMV.X.D (46_float R445). -/
  | fmvXD (rd rs1 : RegNum)
  /-- FMV.D.X (46_float R446). -/
  | fmvDX (rd rs1 : RegNum)
  /-- C.ADDI4SPN (47_compressed R462). -/
  | cAddi4spn (rd : CRegNum) (imm : BitVec 10)
  /-- C.FLD (47_compressed R463). -/
  | cFld (rd rs1 : CRegNum) (imm : BitVec 8)
  /-- C.LW (47_compressed R464). -/
  | cLw (rd rs1 : CRegNum) (imm : BitVec 7)
  /-- C.LD (47_compressed R465). -/
  | cLd (rd rs1 : CRegNum) (imm : BitVec 8)
  /-- C.FSD (47_compressed R466). -/
  | cFsd (rs1 rs2 : CRegNum) (imm : BitVec 8)
  /-- C.SW (47_compressed R467). -/
  | cSw (rs1 rs2 : CRegNum) (imm : BitVec 7)
  /-- C.SD (47_compressed R468). -/
  | cSd (rs1 rs2 : CRegNum) (imm : BitVec 8)
  /-- C.NOP (47_compressed R469). -/
  | cNop (imm : BitVec 6)
  /-- C.ADDI (47_compressed R470). -/
  | cAddi (rd : RegNum) (imm : BitVec 6)
  /-- C.ADDIW (47_compressed R471). -/
  | cAddiw (rd : RegNum) (imm : BitVec 6)
  /-- C.LI (47_compressed R472). -/
  | cLi (rd : RegNum) (imm : BitVec 6)
  /-- C.ADDI16SP (47_compressed R473). -/
  | cAddi16sp (imm : BitVec 10)
  /-- C.LUI (47_compressed R474). -/
  | cLui (rd : RegNum) (imm : BitVec 18)
  /-- C.SRLI (47_compressed R475). -/
  | cSrli (rd : CRegNum) (shamt : BitVec 6)
  /-- C.SRAI (47_compressed R476). -/
  | cSrai (rd : CRegNum) (shamt : BitVec 6)
  /-- C.ANDI (47_compressed R477). -/
  | cAndi (rd : CRegNum) (imm : BitVec 6)
  /-- C.SUB (47_compressed R478). -/
  | cSub (rd rs2 : CRegNum)
  /-- C.XOR (47_compressed R479). -/
  | cXor (rd rs2 : CRegNum)
  /-- C.OR (47_compressed R480). -/
  | cOr (rd rs2 : CRegNum)
  /-- C.AND (47_compressed R481). -/
  | cAnd (rd rs2 : CRegNum)
  /-- C.SUBW (47_compressed R482). -/
  | cSubw (rd rs2 : CRegNum)
  /-- C.ADDW (47_compressed R483). -/
  | cAddw (rd rs2 : CRegNum)
  /-- C.J (47_compressed R484). -/
  | cJ (imm : BitVec 12)
  /-- C.BEQZ (47_compressed R485). -/
  | cBeqz (rs1 : CRegNum) (imm : BitVec 9)
  /-- C.BNEZ (47_compressed R486). -/
  | cBnez (rs1 : CRegNum) (imm : BitVec 9)
  /-- C.SLLI (47_compressed R487). -/
  | cSlli (rd : RegNum) (shamt : BitVec 6)
  /-- C.FLDSP (47_compressed R488). -/
  | cFldsp (rd : RegNum) (imm : BitVec 9)
  /-- C.LWSP (47_compressed R489). -/
  | cLwsp (rd : RegNum) (imm : BitVec 8)
  /-- C.LDSP (47_compressed R490). -/
  | cLdsp (rd : RegNum) (imm : BitVec 9)
  /-- C.JR (47_compressed R491). -/
  | cJr (rs1 : RegNum)
  /-- C.MV (47_compressed R492). -/
  | cMv (rd rs2 : RegNum)
  /-- C.EBREAK (47_compressed R493). -/
  | cEbreak
  /-- C.JALR (47_compressed R494). -/
  | cJalr (rs1 : RegNum)
  /-- C.ADD (47_compressed R495). -/
  | cAdd (rd rs2 : RegNum)
  /-- C.FSDSP (47_compressed R496). -/
  | cFsdsp (rs2 : RegNum) (imm : BitVec 9)
  /-- C.SWSP (47_compressed R497). -/
  | cSwsp (rs2 : RegNum) (imm : BitVec 8)
  /-- C.SDSP (47_compressed R498). -/
  | cSdsp (rs2 : RegNum) (imm : BitVec 9)
  deriving DecidableEq, Repr

/-! The pseudo-instructions the spec uses (30_encoding R174). -/

/-- `nop` is `addi x0, x0, 0`. -/
def Instr.nop : Instr := .addi 0 0 0

/-- `mv rd, rs` is `addi rd, rs, 0`. -/
def Instr.mv (rd rs : RegNum) : Instr := .addi rd rs 0

/-- `li rd, imm` is `addi rd, x0, imm` for a 12-bit immediate. -/
def Instr.li (rd : RegNum) (imm : BitVec 12) : Instr := .addi rd 0 imm

/-- `not rd, rs` is `xori rd, rs, -1`. -/
def Instr.notOf (rd rs : RegNum) : Instr := .xori rd rs (-1)

/-- `neg rd, rs` is `sub rd, x0, rs`. -/
def Instr.neg (rd rs : RegNum) : Instr := .sub rd 0 rs

/-- `sext.w rd, rs` is `addiw rd, rs, 0`. -/
def Instr.sextW (rd rs : RegNum) : Instr := .addiw rd rs 0

/-- `seqz rd, rs` is `sltiu rd, rs, 1`. -/
def Instr.seqz (rd rs : RegNum) : Instr := .sltiu rd rs 1

/-- `j off` is `jal x0, off`. -/
def Instr.j (off : BitVec 21) : Instr := .jal 0 off

/-- `jr rs` is `jalr x0, 0(rs)`. -/
def Instr.jr (rs : RegNum) : Instr := .jalr 0 rs 0

/-- `ret` is `jalr x0, 0(x1)`. -/
def Instr.ret : Instr := .jalr 0 1 0

/-- `csrr rd, csr` is `csrrs rd, csr, x0`. -/
def Instr.csrr (rd : RegNum) (csr : CsrAddr) : Instr := .csrrs rd 0 csr

/-- `csrw csr, rs` is `csrrw x0, csr, rs`. -/
def Instr.csrw (csr : CsrAddr) (rs : RegNum) : Instr := .csrrw 0 rs csr

/-- `csrs csr, rs` is `csrrs x0, csr, rs`. -/
def Instr.csrs (csr : CsrAddr) (rs : RegNum) : Instr := .csrrs 0 rs csr

/-- `csrc csr, rs` is `csrrc x0, csr, rs`. -/
def Instr.csrc (csr : CsrAddr) (rs : RegNum) : Instr := .csrrc 0 rs csr

end Sys2Proof
end

