-- ==== Sys2Proof/WellFormed.lean ====
section
/-! DEFINITION. When an instruction's operands are values its encoding can carry: immediates have zeros
where the format has no bit (30_encoding R162, R165), and no operand is in its row's exclusion set
(30_encoding R158). Written from those rules, not from the decoder's table. -/

namespace Sys2Proof

/-- Whether every operand of the instruction is one its encoding carries. -/
def Instr.wellFormed : Instr → Bool
  | .lui _ imm => imm.extractLsb' 0 12 == 0#12
  | .auipc _ imm => imm.extractLsb' 0 12 == 0#12
  | .jal _ imm => !imm.getLsbD 0
  | .jalr _ _ _ => true
  | .beq _ _ imm => !imm.getLsbD 0
  | .bne _ _ imm => !imm.getLsbD 0
  | .blt _ _ imm => !imm.getLsbD 0
  | .bge _ _ imm => !imm.getLsbD 0
  | .bltu _ _ imm => !imm.getLsbD 0
  | .bgeu _ _ imm => !imm.getLsbD 0
  | .lb _ _ _ => true
  | .lh _ _ _ => true
  | .lw _ _ _ => true
  | .ld _ _ _ => true
  | .lbu _ _ _ => true
  | .lhu _ _ _ => true
  | .lwu _ _ _ => true
  | .sb _ _ _ => true
  | .sh _ _ _ => true
  | .sw _ _ _ => true
  | .sd _ _ _ => true
  | .addi _ _ _ => true
  | .slti _ _ _ => true
  | .sltiu _ _ _ => true
  | .xori _ _ _ => true
  | .ori _ _ _ => true
  | .andi _ _ _ => true
  | .slli _ _ _ => true
  | .srli _ _ _ => true
  | .srai _ _ _ => true
  | .add _ _ _ => true
  | .sub _ _ _ => true
  | .sll _ _ _ => true
  | .slt _ _ _ => true
  | .sltu _ _ _ => true
  | .xor _ _ _ => true
  | .srl _ _ _ => true
  | .sra _ _ _ => true
  | .or _ _ _ => true
  | .and _ _ _ => true
  | .fence _ _ _ _ _ => true
  | .ecall => true
  | .ebreak => true
  | .addiw _ _ _ => true
  | .slliw _ _ _ => true
  | .srliw _ _ _ => true
  | .sraiw _ _ _ => true
  | .addw _ _ _ => true
  | .subw _ _ _ => true
  | .sllw _ _ _ => true
  | .srlw _ _ _ => true
  | .sraw _ _ _ => true
  | .fenceI _ _ _ => true
  | .csrrw _ _ _ => true
  | .csrrs _ _ _ => true
  | .csrrc _ _ _ => true
  | .csrrwi _ _ _ => true
  | .csrrsi _ _ _ => true
  | .csrrci _ _ _ => true
  | .mul _ _ _ => true
  | .mulh _ _ _ => true
  | .mulhsu _ _ _ => true
  | .mulhu _ _ _ => true
  | .div _ _ _ => true
  | .divu _ _ _ => true
  | .rem _ _ _ => true
  | .remu _ _ _ => true
  | .mulw _ _ _ => true
  | .divw _ _ _ => true
  | .divuw _ _ _ => true
  | .remw _ _ _ => true
  | .remuw _ _ _ => true
  | .lrW _ _ _ _ => true
  | .scW _ _ _ _ _ => true
  | .amoswapW _ _ _ _ _ => true
  | .amoaddW _ _ _ _ _ => true
  | .amoxorW _ _ _ _ _ => true
  | .amoandW _ _ _ _ _ => true
  | .amoorW _ _ _ _ _ => true
  | .amominW _ _ _ _ _ => true
  | .amomaxW _ _ _ _ _ => true
  | .amominuW _ _ _ _ _ => true
  | .amomaxuW _ _ _ _ _ => true
  | .lrD _ _ _ _ => true
  | .scD _ _ _ _ _ => true
  | .amoswapD _ _ _ _ _ => true
  | .amoaddD _ _ _ _ _ => true
  | .amoxorD _ _ _ _ _ => true
  | .amoandD _ _ _ _ _ => true
  | .amoorD _ _ _ _ _ => true
  | .amominD _ _ _ _ _ => true
  | .amomaxD _ _ _ _ _ => true
  | .amominuD _ _ _ _ _ => true
  | .amomaxuD _ _ _ _ _ => true
  | .sret => true
  | .mret => true
  | .wfi => true
  | .sfenceVma _ _ => true
  | .flw _ _ _ => true
  | .fsw _ _ _ => true
  | .fmaddS _ _ _ _ _ => true
  | .fmsubS _ _ _ _ _ => true
  | .fnmsubS _ _ _ _ _ => true
  | .fnmaddS _ _ _ _ _ => true
  | .faddS _ _ _ _ => true
  | .fsubS _ _ _ _ => true
  | .fmulS _ _ _ _ => true
  | .fdivS _ _ _ _ => true
  | .fsqrtS _ _ _ => true
  | .fsgnjS _ _ _ => true
  | .fsgnjnS _ _ _ => true
  | .fsgnjxS _ _ _ => true
  | .fminS _ _ _ => true
  | .fmaxS _ _ _ => true
  | .fleS _ _ _ => true
  | .fltS _ _ _ => true
  | .feqS _ _ _ => true
  | .fclassS _ _ => true
  | .fcvtWS _ _ _ => true
  | .fcvtSW _ _ _ => true
  | .fcvtWuS _ _ _ => true
  | .fcvtSWu _ _ _ => true
  | .fcvtLS _ _ _ => true
  | .fcvtSL _ _ _ => true
  | .fcvtLuS _ _ _ => true
  | .fcvtSLu _ _ _ => true
  | .fmvXW _ _ => true
  | .fmvWX _ _ => true
  | .fld _ _ _ => true
  | .fsd _ _ _ => true
  | .fmaddD _ _ _ _ _ => true
  | .fmsubD _ _ _ _ _ => true
  | .fnmsubD _ _ _ _ _ => true
  | .fnmaddD _ _ _ _ _ => true
  | .faddD _ _ _ _ => true
  | .fsubD _ _ _ _ => true
  | .fmulD _ _ _ _ => true
  | .fdivD _ _ _ _ => true
  | .fsqrtD _ _ _ => true
  | .fsgnjD _ _ _ => true
  | .fsgnjnD _ _ _ => true
  | .fsgnjxD _ _ _ => true
  | .fminD _ _ _ => true
  | .fmaxD _ _ _ => true
  | .fleD _ _ _ => true
  | .fltD _ _ _ => true
  | .feqD _ _ _ => true
  | .fclassD _ _ => true
  | .fcvtWD _ _ _ => true
  | .fcvtDW _ _ _ => true
  | .fcvtWuD _ _ _ => true
  | .fcvtDWu _ _ _ => true
  | .fcvtLD _ _ _ => true
  | .fcvtDL _ _ _ => true
  | .fcvtLuD _ _ _ => true
  | .fcvtDLu _ _ _ => true
  | .fcvtSD _ _ _ => true
  | .fcvtDS _ _ _ => true
  | .fmvXD _ _ => true
  | .fmvDX _ _ => true
  | .cAddi4spn _ imm => imm.extractLsb' 0 2 == 0#2 && imm != 0#10
  | .cFld _ _ imm => imm.extractLsb' 0 3 == 0#3
  | .cLw _ _ imm => imm.extractLsb' 0 2 == 0#2
  | .cLd _ _ imm => imm.extractLsb' 0 3 == 0#3
  | .cFsd _ _ imm => imm.extractLsb' 0 3 == 0#3
  | .cSw _ _ imm => imm.extractLsb' 0 2 == 0#2
  | .cSd _ _ imm => imm.extractLsb' 0 3 == 0#3
  | .cNop _ => true
  | .cAddi rd _ => rd != 0#5
  | .cAddiw rd _ => rd != 0#5
  | .cLi _ _ => true
  | .cAddi16sp imm => imm.extractLsb' 0 4 == 0#4 && imm != 0#10
  | .cLui rd imm => rd != 2#5 && imm.extractLsb' 0 12 == 0#12 && imm != 0#18
  | .cSrli _ _ => true
  | .cSrai _ _ => true
  | .cAndi _ _ => true
  | .cSub _ _ => true
  | .cXor _ _ => true
  | .cOr _ _ => true
  | .cAnd _ _ => true
  | .cSubw _ _ => true
  | .cAddw _ _ => true
  | .cJ imm => !imm.getLsbD 0
  | .cBeqz _ imm => !imm.getLsbD 0
  | .cBnez _ imm => !imm.getLsbD 0
  | .cSlli _ _ => true
  | .cFldsp _ imm => imm.extractLsb' 0 3 == 0#3
  | .cLwsp rd imm => rd != 0#5 && imm.extractLsb' 0 2 == 0#2
  | .cLdsp rd imm => rd != 0#5 && imm.extractLsb' 0 3 == 0#3
  | .cJr rs1 => rs1 != 0#5
  | .cMv _ rs2 => rs2 != 0#5
  | .cEbreak => true
  | .cJalr rs1 => rs1 != 0#5
  | .cAdd _ rs2 => rs2 != 0#5
  | .cFsdsp _ imm => imm.extractLsb' 0 3 == 0#3
  | .cSwsp _ imm => imm.extractLsb' 0 2 == 0#2
  | .cSdsp _ imm => imm.extractLsb' 0 3 == 0#3

/-- `Instr.wellFormed` as a proposition. -/
abbrev WellFormed (i : Instr) : Prop := i.wellFormed = true

end Sys2Proof
end

