-- ==== Sys2Proof/Decode.lean ====
section
/-! DEFINITION. The decoder (30_encoding R150 to R158): a table of definitions, each a mask, the bits
under it, and operands made of segments; a word of a length matches at most one. After it the encoder,
written from the same table. Rows: spec/opcode_table.json. -/

namespace Sys2Proof

/-- The decoder's mode; every hart's mode is 64 (30_encoding R153). -/
inductive Mode
  | m32
  | m64
  deriving DecidableEq, Repr

/-- Bits `hi` down to `lo` of the word, placed at `shift` in the value (30_encoding R150). -/
structure Segment where
  hi    : Nat
  lo    : Nat
  shift : Nat
  deriving DecidableEq, Repr

/-- `k` one bits. -/
def onesMask (k : Nat) : InstrWord := BitVec.ofNat 32 (2 ^ k - 1)

/-- A segment's contribution to its operand (30_encoding R150). -/
def Segment.extract (s : Segment) (w : InstrWord) : InstrWord :=
  ((w >>> s.lo) &&& onesMask (s.hi - s.lo + 1)) <<< s.shift

/-- The bits a segment gives the word when its operand is `v`. -/
def Segment.deposit (s : Segment) (v : InstrWord) : InstrWord :=
  ((v >>> s.shift) &&& onesMask (s.hi - s.lo + 1)) <<< s.lo

/-- An operand: its name in the rules, its label, its segments, the raw values it excludes
(30_encoding R151). Its `sext` is the width of the `Instr` argument it becomes. -/
structure Operand where
  name     : OpName
  label    : String
  segments : List Segment
  exclude  : List InstrWord := []
  deriving DecidableEq, Repr

/-- The operand's value in a word, before any sign extension (30_encoding R151). -/
def Operand.extract (o : Operand) (w : InstrWord) : InstrWord :=
  o.segments.foldl (fun acc s => acc ||| s.extract w) 0

/-- Whether the word's value of the operand is excluded (30_encoding R151). -/
def Operand.excludes (o : Operand) (w : InstrWord) : Bool :=
  o.exclude.contains (o.extract w)

/-- The bits of the word that carry the operand's value `v`. -/
def Operand.deposit (o : Operand) (v : InstrWord) : InstrWord :=
  o.segments.foldl (fun acc s => acc ||| s.deposit v) 0

/-- A row of the table (30_encoding R152); `text` is the mnemonic as the table spells it. -/
structure Definition where
  mnemonic : Mnemonic
  text     : String
  length   : Nat
  mask     : InstrWord
  bits     : InstrWord
  mode     : Option Mode
  operands : List Operand
  deriving DecidableEq, Repr

/-- Whether a definition matches a word of length `len` in a mode, `disabled` being the parameter
RVC_DISABLED (30_encoding R153). -/
def Definition.matchesWord (d : Definition) (disabled : List Mnemonic) (mode : Mode) (len : Nat)
    (w : InstrWord) : Bool :=
  (d.length == len) && (d.mode == none || d.mode == some mode) && ((w &&& d.mask) == d.bits) &&
    (d.operands.all fun o => !o.excludes w) && !disabled.contains d.mnemonic

/-- The value of the named operand in the word (30_encoding R156). -/
def Definition.value (d : Definition) (w : InstrWord) (n : OpName) : InstrWord :=
  match d.operands.find? (fun o => o.name == n) with
  | some o => o.extract w
  | none => 0

/-- The word that carries the given operand values. -/
def Definition.assemble (d : Definition) (v : OpName → InstrWord) : InstrWord :=
  d.operands.foldl (fun acc o => acc ||| o.deposit (v o.name)) d.bits

/-! The operands the rows share (30_encoding R162 to R165). -/

/-- `rd` = [11:7]<<0. -/
def opRd : Operand := { name := .rd, label := "rd", segments := [⟨11, 7, 0⟩] }

/-- `imm` = [31:12]<<12. -/
def opImmU : Operand := { name := .imm, label := "imm", segments := [⟨31, 12, 12⟩] }

/-- `imm` = [31:31]<<20 [19:12]<<12 [20:20]<<11 [30:21]<<1. -/
def opImmJ : Operand := { name := .imm, label := "imm", segments := [⟨31, 31, 20⟩, ⟨19, 12, 12⟩, ⟨20, 20, 11⟩, ⟨30, 21, 1⟩] }

/-- `rs1` = [19:15]<<0. -/
def opRs1 : Operand := { name := .rs1, label := "rs1", segments := [⟨19, 15, 0⟩] }

/-- `imm` = [31:20]<<0. -/
def opImmI : Operand := { name := .imm, label := "imm", segments := [⟨31, 20, 0⟩] }

/-- `rs2` = [24:20]<<0. -/
def opRs2 : Operand := { name := .rs2, label := "rs2", segments := [⟨24, 20, 0⟩] }

/-- `imm` = [31:31]<<12 [7:7]<<11 [30:25]<<5 [11:8]<<1. -/
def opImmB : Operand := { name := .imm, label := "imm", segments := [⟨31, 31, 12⟩, ⟨7, 7, 11⟩, ⟨30, 25, 5⟩, ⟨11, 8, 1⟩] }

/-- `imm` = [31:25]<<5 [11:7]<<0. -/
def opImmS : Operand := { name := .imm, label := "imm", segments := [⟨31, 25, 5⟩, ⟨11, 7, 0⟩] }

/-- `shamt` = [25:20]<<0. -/
def opShamt6 : Operand := { name := .shamt, label := "shamt", segments := [⟨25, 20, 0⟩] }

/-- `fm` = [31:28]<<0. -/
def opFm : Operand := { name := .fm, label := "fm", segments := [⟨31, 28, 0⟩] }

/-- `pred` = [27:24]<<0. -/
def opPred : Operand := { name := .pred, label := "pred", segments := [⟨27, 24, 0⟩] }

/-- `succ` = [23:20]<<0. -/
def opSucc : Operand := { name := .succ, label := "succ", segments := [⟨23, 20, 0⟩] }

/-- `shamt` = [24:20]<<0. -/
def opShamt5 : Operand := { name := .shamt, label := "shamt", segments := [⟨24, 20, 0⟩] }

/-- `csr` = [31:20]<<0. -/
def opCsr : Operand := { name := .csr, label := "csr", segments := [⟨31, 20, 0⟩] }

/-- `uimm` = [19:15]<<0. -/
def opUimm : Operand := { name := .uimm, label := "uimm", segments := [⟨19, 15, 0⟩] }

/-- `aq` = [26:26]<<0. -/
def opAq : Operand := { name := .aq, label := "aq", segments := [⟨26, 26, 0⟩] }

/-- `rl` = [25:25]<<0. -/
def opRl : Operand := { name := .rl, label := "rl", segments := [⟨25, 25, 0⟩] }

/-- `rs3` = [31:27]<<0. -/
def opRs3 : Operand := { name := .rs3, label := "rs3", segments := [⟨31, 27, 0⟩] }

/-- `rm` = [14:12]<<0. -/
def opRm : Operand := { name := .rm, label := "rm", segments := [⟨14, 12, 0⟩] }

/-- `rd'` = [4:2]<<0. -/
def opCRdLow : Operand := { name := .rd, label := "rd'", segments := [⟨4, 2, 0⟩] }

/-- `nzuimm` = [12:11]<<4 [10:7]<<6 [6:6]<<2 [5:5]<<3. -/
def opCAddi4spn : Operand := { name := .imm, label := "nzuimm", segments := [⟨12, 11, 4⟩, ⟨10, 7, 6⟩, ⟨6, 6, 2⟩, ⟨5, 5, 3⟩], exclude := [0] }

/-- `rs1'` = [9:7]<<0. -/
def opCRs1Mid : Operand := { name := .rs1, label := "rs1'", segments := [⟨9, 7, 0⟩] }

/-- `uimm` = [12:10]<<3 [6:5]<<6. -/
def opCOff8 : Operand := { name := .imm, label := "uimm", segments := [⟨12, 10, 3⟩, ⟨6, 5, 6⟩] }

/-- `uimm` = [12:10]<<3 [6:6]<<2 [5:5]<<6. -/
def opCOff4 : Operand := { name := .imm, label := "uimm", segments := [⟨12, 10, 3⟩, ⟨6, 6, 2⟩, ⟨5, 5, 6⟩] }

/-- `rs2'` = [4:2]<<0. -/
def opCRs2Low : Operand := { name := .rs2, label := "rs2'", segments := [⟨4, 2, 0⟩] }

/-- `imm` = [12:12]<<5 [6:2]<<0. -/
def opCImm6 : Operand := { name := .imm, label := "imm", segments := [⟨12, 12, 5⟩, ⟨6, 2, 0⟩] }

/-- `rd` = [11:7]<<0. -/
def opCRdNot0 : Operand := { name := .rd, label := "rd", segments := [⟨11, 7, 0⟩], exclude := [0] }

/-- `nzimm` = [12:12]<<9 [6:6]<<4 [5:5]<<6 [4:3]<<7 [2:2]<<5. -/
def opCAddi16sp : Operand := { name := .imm, label := "nzimm", segments := [⟨12, 12, 9⟩, ⟨6, 6, 4⟩, ⟨5, 5, 6⟩, ⟨4, 3, 7⟩, ⟨2, 2, 5⟩], exclude := [0] }

/-- `rd` = [11:7]<<0. -/
def opCRdNot2 : Operand := { name := .rd, label := "rd", segments := [⟨11, 7, 0⟩], exclude := [2] }

/-- `nzimm` = [12:12]<<17 [6:2]<<12. -/
def opCLui : Operand := { name := .imm, label := "nzimm", segments := [⟨12, 12, 17⟩, ⟨6, 2, 12⟩], exclude := [0] }

/-- `rd'` = [9:7]<<0. -/
def opCRdMid : Operand := { name := .rd, label := "rd'", segments := [⟨9, 7, 0⟩] }

/-- `shamt` = [12:12]<<5 [6:2]<<0. -/
def opCShamt : Operand := { name := .shamt, label := "shamt", segments := [⟨12, 12, 5⟩, ⟨6, 2, 0⟩] }

/-- `offset` = [12:12]<<11 [11:11]<<4 [10:9]<<8 [8:8]<<10 [7:7]<<6 [6:6]<<7 [5:3]<<1 [2:2]<<5. -/
def opCJump : Operand := { name := .imm, label := "offset", segments := [⟨12, 12, 11⟩, ⟨11, 11, 4⟩, ⟨10, 9, 8⟩, ⟨8, 8, 10⟩, ⟨7, 7, 6⟩, ⟨6, 6, 7⟩, ⟨5, 3, 1⟩, ⟨2, 2, 5⟩] }

/-- `offset` = [12:12]<<8 [11:10]<<3 [6:5]<<6 [4:3]<<1 [2:2]<<5. -/
def opCBranch : Operand := { name := .imm, label := "offset", segments := [⟨12, 12, 8⟩, ⟨11, 10, 3⟩, ⟨6, 5, 6⟩, ⟨4, 3, 1⟩, ⟨2, 2, 5⟩] }

/-- `uimm` = [12:12]<<5 [6:5]<<3 [4:2]<<6. -/
def opCLoadSp8 : Operand := { name := .imm, label := "uimm", segments := [⟨12, 12, 5⟩, ⟨6, 5, 3⟩, ⟨4, 2, 6⟩] }

/-- `uimm` = [12:12]<<5 [6:4]<<2 [3:2]<<6. -/
def opCLoadSp4 : Operand := { name := .imm, label := "uimm", segments := [⟨12, 12, 5⟩, ⟨6, 4, 2⟩, ⟨3, 2, 6⟩] }

/-- `rs1` = [11:7]<<0. -/
def opCRs1Not0 : Operand := { name := .rs1, label := "rs1", segments := [⟨11, 7, 0⟩], exclude := [0] }

/-- `rs2` = [6:2]<<0. -/
def opCRs2Not0 : Operand := { name := .rs2, label := "rs2", segments := [⟨6, 2, 0⟩], exclude := [0] }

/-- `rs2` = [6:2]<<0. -/
def opCRs2 : Operand := { name := .rs2, label := "rs2", segments := [⟨6, 2, 0⟩] }

/-- `uimm` = [12:10]<<3 [9:7]<<6. -/
def opCStoreSp8 : Operand := { name := .imm, label := "uimm", segments := [⟨12, 10, 3⟩, ⟨9, 7, 6⟩] }

/-- `uimm` = [12:9]<<2 [8:7]<<6. -/
def opCStoreSp4 : Operand := { name := .imm, label := "uimm", segments := [⟨12, 9, 2⟩, ⟨8, 7, 6⟩] }

/-- The rows of RV64I and Zifencei. -/
def registryBase : List Definition := [
  ⟨.LUI, "LUI", 32, 0x0000007f, 0x00000037, none, [opRd, opImmU]⟩,
  ⟨.AUIPC, "AUIPC", 32, 0x0000007f, 0x00000017, none, [opRd, opImmU]⟩,
  ⟨.JAL, "JAL", 32, 0x0000007f, 0x0000006f, none, [opRd, opImmJ]⟩,
  ⟨.JALR, "JALR", 32, 0x0000707f, 0x00000067, none, [opRd, opRs1, opImmI]⟩,
  ⟨.BEQ, "BEQ", 32, 0x0000707f, 0x00000063, none, [opRs1, opRs2, opImmB]⟩,
  ⟨.BNE, "BNE", 32, 0x0000707f, 0x00001063, none, [opRs1, opRs2, opImmB]⟩,
  ⟨.BLT, "BLT", 32, 0x0000707f, 0x00004063, none, [opRs1, opRs2, opImmB]⟩,
  ⟨.BGE, "BGE", 32, 0x0000707f, 0x00005063, none, [opRs1, opRs2, opImmB]⟩,
  ⟨.BLTU, "BLTU", 32, 0x0000707f, 0x00006063, none, [opRs1, opRs2, opImmB]⟩,
  ⟨.BGEU, "BGEU", 32, 0x0000707f, 0x00007063, none, [opRs1, opRs2, opImmB]⟩,
  ⟨.LB, "LB", 32, 0x0000707f, 0x00000003, none, [opRd, opRs1, opImmI]⟩,
  ⟨.LH, "LH", 32, 0x0000707f, 0x00001003, none, [opRd, opRs1, opImmI]⟩,
  ⟨.LW, "LW", 32, 0x0000707f, 0x00002003, none, [opRd, opRs1, opImmI]⟩,
  ⟨.LD, "LD", 32, 0x0000707f, 0x00003003, (some .m64), [opRd, opRs1, opImmI]⟩,
  ⟨.LBU, "LBU", 32, 0x0000707f, 0x00004003, none, [opRd, opRs1, opImmI]⟩,
  ⟨.LHU, "LHU", 32, 0x0000707f, 0x00005003, none, [opRd, opRs1, opImmI]⟩,
  ⟨.LWU, "LWU", 32, 0x0000707f, 0x00006003, (some .m64), [opRd, opRs1, opImmI]⟩,
  ⟨.SB, "SB", 32, 0x0000707f, 0x00000023, none, [opRs1, opRs2, opImmS]⟩,
  ⟨.SH, "SH", 32, 0x0000707f, 0x00001023, none, [opRs1, opRs2, opImmS]⟩,
  ⟨.SW, "SW", 32, 0x0000707f, 0x00002023, none, [opRs1, opRs2, opImmS]⟩,
  ⟨.SD, "SD", 32, 0x0000707f, 0x00003023, (some .m64), [opRs1, opRs2, opImmS]⟩,
  ⟨.ADDI, "ADDI", 32, 0x0000707f, 0x00000013, none, [opRd, opRs1, opImmI]⟩,
  ⟨.SLTI, "SLTI", 32, 0x0000707f, 0x00002013, none, [opRd, opRs1, opImmI]⟩,
  ⟨.SLTIU, "SLTIU", 32, 0x0000707f, 0x00003013, none, [opRd, opRs1, opImmI]⟩,
  ⟨.XORI, "XORI", 32, 0x0000707f, 0x00004013, none, [opRd, opRs1, opImmI]⟩,
  ⟨.ORI, "ORI", 32, 0x0000707f, 0x00006013, none, [opRd, opRs1, opImmI]⟩,
  ⟨.ANDI, "ANDI", 32, 0x0000707f, 0x00007013, none, [opRd, opRs1, opImmI]⟩,
  ⟨.SLLI, "SLLI", 32, 0xfc00707f, 0x00001013, (some .m64), [opRd, opRs1, opShamt6]⟩,
  ⟨.SRLI, "SRLI", 32, 0xfc00707f, 0x00005013, (some .m64), [opRd, opRs1, opShamt6]⟩,
  ⟨.SRAI, "SRAI", 32, 0xfc00707f, 0x40005013, (some .m64), [opRd, opRs1, opShamt6]⟩,
  ⟨.ADD, "ADD", 32, 0xfe00707f, 0x00000033, none, [opRd, opRs1, opRs2]⟩,
  ⟨.SUB, "SUB", 32, 0xfe00707f, 0x40000033, none, [opRd, opRs1, opRs2]⟩,
  ⟨.SLL, "SLL", 32, 0xfe00707f, 0x00001033, none, [opRd, opRs1, opRs2]⟩,
  ⟨.SLT, "SLT", 32, 0xfe00707f, 0x00002033, none, [opRd, opRs1, opRs2]⟩,
  ⟨.SLTU, "SLTU", 32, 0xfe00707f, 0x00003033, none, [opRd, opRs1, opRs2]⟩,
  ⟨.XOR, "XOR", 32, 0xfe00707f, 0x00004033, none, [opRd, opRs1, opRs2]⟩,
  ⟨.SRL, "SRL", 32, 0xfe00707f, 0x00005033, none, [opRd, opRs1, opRs2]⟩,
  ⟨.SRA, "SRA", 32, 0xfe00707f, 0x40005033, none, [opRd, opRs1, opRs2]⟩,
  ⟨.OR, "OR", 32, 0xfe00707f, 0x00006033, none, [opRd, opRs1, opRs2]⟩,
  ⟨.AND, "AND", 32, 0xfe00707f, 0x00007033, none, [opRd, opRs1, opRs2]⟩,
  ⟨.FENCE, "FENCE", 32, 0x0000707f, 0x0000000f, none, [opRd, opRs1, opFm, opPred, opSucc]⟩,
  ⟨.ECALL, "ECALL", 32, 0xffffffff, 0x00000073, none, []⟩,
  ⟨.EBREAK, "EBREAK", 32, 0xffffffff, 0x00100073, none, []⟩,
  ⟨.ADDIW, "ADDIW", 32, 0x0000707f, 0x0000001b, (some .m64), [opRd, opRs1, opImmI]⟩,
  ⟨.SLLIW, "SLLIW", 32, 0xfe00707f, 0x0000101b, (some .m64), [opRd, opRs1, opShamt5]⟩,
  ⟨.SRLIW, "SRLIW", 32, 0xfe00707f, 0x0000501b, (some .m64), [opRd, opRs1, opShamt5]⟩,
  ⟨.SRAIW, "SRAIW", 32, 0xfe00707f, 0x4000501b, (some .m64), [opRd, opRs1, opShamt5]⟩,
  ⟨.ADDW, "ADDW", 32, 0xfe00707f, 0x0000003b, (some .m64), [opRd, opRs1, opRs2]⟩,
  ⟨.SUBW, "SUBW", 32, 0xfe00707f, 0x4000003b, (some .m64), [opRd, opRs1, opRs2]⟩,
  ⟨.SLLW, "SLLW", 32, 0xfe00707f, 0x0000103b, (some .m64), [opRd, opRs1, opRs2]⟩,
  ⟨.SRLW, "SRLW", 32, 0xfe00707f, 0x0000503b, (some .m64), [opRd, opRs1, opRs2]⟩,
  ⟨.SRAW, "SRAW", 32, 0xfe00707f, 0x4000503b, (some .m64), [opRd, opRs1, opRs2]⟩,
  ⟨.FENCE_I, "FENCE.I", 32, 0x0000707f, 0x0000100f, none, [opRd, opRs1, opImmI]⟩]

/-- The rows of Zicsr and the privileged instructions. -/
def registryZicsr : List Definition := [
  ⟨.CSRRW, "CSRRW", 32, 0x0000707f, 0x00001073, none, [opRd, opRs1, opCsr]⟩,
  ⟨.CSRRS, "CSRRS", 32, 0x0000707f, 0x00002073, none, [opRd, opRs1, opCsr]⟩,
  ⟨.CSRRC, "CSRRC", 32, 0x0000707f, 0x00003073, none, [opRd, opRs1, opCsr]⟩,
  ⟨.CSRRWI, "CSRRWI", 32, 0x0000707f, 0x00005073, none, [opRd, opUimm, opCsr]⟩,
  ⟨.CSRRSI, "CSRRSI", 32, 0x0000707f, 0x00006073, none, [opRd, opUimm, opCsr]⟩,
  ⟨.CSRRCI, "CSRRCI", 32, 0x0000707f, 0x00007073, none, [opRd, opUimm, opCsr]⟩,
  ⟨.SRET, "SRET", 32, 0xffffffff, 0x10200073, none, []⟩,
  ⟨.MRET, "MRET", 32, 0xffffffff, 0x30200073, none, []⟩,
  ⟨.WFI, "WFI", 32, 0xffffffff, 0x10500073, none, []⟩,
  ⟨.SFENCE_VMA, "SFENCE.VMA", 32, 0xfe007fff, 0x12000073, none, [opRs1, opRs2]⟩]

/-- The rows of M. -/
def registryM : List Definition := [
  ⟨.MUL, "MUL", 32, 0xfe00707f, 0x02000033, none, [opRd, opRs1, opRs2]⟩,
  ⟨.MULH, "MULH", 32, 0xfe00707f, 0x02001033, none, [opRd, opRs1, opRs2]⟩,
  ⟨.MULHSU, "MULHSU", 32, 0xfe00707f, 0x02002033, none, [opRd, opRs1, opRs2]⟩,
  ⟨.MULHU, "MULHU", 32, 0xfe00707f, 0x02003033, none, [opRd, opRs1, opRs2]⟩,
  ⟨.DIV, "DIV", 32, 0xfe00707f, 0x02004033, none, [opRd, opRs1, opRs2]⟩,
  ⟨.DIVU, "DIVU", 32, 0xfe00707f, 0x02005033, none, [opRd, opRs1, opRs2]⟩,
  ⟨.REM, "REM", 32, 0xfe00707f, 0x02006033, none, [opRd, opRs1, opRs2]⟩,
  ⟨.REMU, "REMU", 32, 0xfe00707f, 0x02007033, none, [opRd, opRs1, opRs2]⟩,
  ⟨.MULW, "MULW", 32, 0xfe00707f, 0x0200003b, (some .m64), [opRd, opRs1, opRs2]⟩,
  ⟨.DIVW, "DIVW", 32, 0xfe00707f, 0x0200403b, (some .m64), [opRd, opRs1, opRs2]⟩,
  ⟨.DIVUW, "DIVUW", 32, 0xfe00707f, 0x0200503b, (some .m64), [opRd, opRs1, opRs2]⟩,
  ⟨.REMW, "REMW", 32, 0xfe00707f, 0x0200603b, (some .m64), [opRd, opRs1, opRs2]⟩,
  ⟨.REMUW, "REMUW", 32, 0xfe00707f, 0x0200703b, (some .m64), [opRd, opRs1, opRs2]⟩]

/-- The rows of A. -/
def registryA : List Definition := [
  ⟨.LR_W, "LR.W", 32, 0xf9f0707f, 0x1000202f, none, [opRd, opRs1, opAq, opRl]⟩,
  ⟨.SC_W, "SC.W", 32, 0xf800707f, 0x1800202f, none, [opRd, opRs1, opRs2, opAq, opRl]⟩,
  ⟨.AMOSWAP_W, "AMOSWAP.W", 32, 0xf800707f, 0x0800202f, none, [opRd, opRs1, opRs2, opAq, opRl]⟩,
  ⟨.AMOADD_W, "AMOADD.W", 32, 0xf800707f, 0x0000202f, none, [opRd, opRs1, opRs2, opAq, opRl]⟩,
  ⟨.AMOXOR_W, "AMOXOR.W", 32, 0xf800707f, 0x2000202f, none, [opRd, opRs1, opRs2, opAq, opRl]⟩,
  ⟨.AMOAND_W, "AMOAND.W", 32, 0xf800707f, 0x6000202f, none, [opRd, opRs1, opRs2, opAq, opRl]⟩,
  ⟨.AMOOR_W, "AMOOR.W", 32, 0xf800707f, 0x4000202f, none, [opRd, opRs1, opRs2, opAq, opRl]⟩,
  ⟨.AMOMIN_W, "AMOMIN.W", 32, 0xf800707f, 0x8000202f, none, [opRd, opRs1, opRs2, opAq, opRl]⟩,
  ⟨.AMOMAX_W, "AMOMAX.W", 32, 0xf800707f, 0xa000202f, none, [opRd, opRs1, opRs2, opAq, opRl]⟩,
  ⟨.AMOMINU_W, "AMOMINU.W", 32, 0xf800707f, 0xc000202f, none, [opRd, opRs1, opRs2, opAq, opRl]⟩,
  ⟨.AMOMAXU_W, "AMOMAXU.W", 32, 0xf800707f, 0xe000202f, none, [opRd, opRs1, opRs2, opAq, opRl]⟩,
  ⟨.LR_D, "LR.D", 32, 0xf9f0707f, 0x1000302f, (some .m64), [opRd, opRs1, opAq, opRl]⟩,
  ⟨.SC_D, "SC.D", 32, 0xf800707f, 0x1800302f, (some .m64), [opRd, opRs1, opRs2, opAq, opRl]⟩,
  ⟨.AMOSWAP_D, "AMOSWAP.D", 32, 0xf800707f, 0x0800302f, (some .m64), [opRd, opRs1, opRs2, opAq, opRl]⟩,
  ⟨.AMOADD_D, "AMOADD.D", 32, 0xf800707f, 0x0000302f, (some .m64), [opRd, opRs1, opRs2, opAq, opRl]⟩,
  ⟨.AMOXOR_D, "AMOXOR.D", 32, 0xf800707f, 0x2000302f, (some .m64), [opRd, opRs1, opRs2, opAq, opRl]⟩,
  ⟨.AMOAND_D, "AMOAND.D", 32, 0xf800707f, 0x6000302f, (some .m64), [opRd, opRs1, opRs2, opAq, opRl]⟩,
  ⟨.AMOOR_D, "AMOOR.D", 32, 0xf800707f, 0x4000302f, (some .m64), [opRd, opRs1, opRs2, opAq, opRl]⟩,
  ⟨.AMOMIN_D, "AMOMIN.D", 32, 0xf800707f, 0x8000302f, (some .m64), [opRd, opRs1, opRs2, opAq, opRl]⟩,
  ⟨.AMOMAX_D, "AMOMAX.D", 32, 0xf800707f, 0xa000302f, (some .m64), [opRd, opRs1, opRs2, opAq, opRl]⟩,
  ⟨.AMOMINU_D, "AMOMINU.D", 32, 0xf800707f, 0xc000302f, (some .m64), [opRd, opRs1, opRs2, opAq, opRl]⟩,
  ⟨.AMOMAXU_D, "AMOMAXU.D", 32, 0xf800707f, 0xe000302f, (some .m64), [opRd, opRs1, opRs2, opAq, opRl]⟩]

/-- The rows of F. -/
def registryF : List Definition := [
  ⟨.FLW, "FLW", 32, 0x0000707f, 0x00002007, none, [opRd, opRs1, opImmI]⟩,
  ⟨.FSW, "FSW", 32, 0x0000707f, 0x00002027, none, [opRs1, opRs2, opImmS]⟩,
  ⟨.FMADD_S, "FMADD.S", 32, 0x0600007f, 0x00000043, none, [opRd, opRs1, opRs2, opRs3, opRm]⟩,
  ⟨.FMSUB_S, "FMSUB.S", 32, 0x0600007f, 0x00000047, none, [opRd, opRs1, opRs2, opRs3, opRm]⟩,
  ⟨.FNMSUB_S, "FNMSUB.S", 32, 0x0600007f, 0x0000004b, none, [opRd, opRs1, opRs2, opRs3, opRm]⟩,
  ⟨.FNMADD_S, "FNMADD.S", 32, 0x0600007f, 0x0000004f, none, [opRd, opRs1, opRs2, opRs3, opRm]⟩,
  ⟨.FADD_S, "FADD.S", 32, 0xfe00007f, 0x00000053, none, [opRd, opRs1, opRs2, opRm]⟩,
  ⟨.FSUB_S, "FSUB.S", 32, 0xfe00007f, 0x08000053, none, [opRd, opRs1, opRs2, opRm]⟩,
  ⟨.FMUL_S, "FMUL.S", 32, 0xfe00007f, 0x10000053, none, [opRd, opRs1, opRs2, opRm]⟩,
  ⟨.FDIV_S, "FDIV.S", 32, 0xfe00007f, 0x18000053, none, [opRd, opRs1, opRs2, opRm]⟩,
  ⟨.FSQRT_S, "FSQRT.S", 32, 0xfff0007f, 0x58000053, none, [opRd, opRs1, opRm]⟩,
  ⟨.FSGNJ_S, "FSGNJ.S", 32, 0xfe00707f, 0x20000053, none, [opRd, opRs1, opRs2]⟩,
  ⟨.FSGNJN_S, "FSGNJN.S", 32, 0xfe00707f, 0x20001053, none, [opRd, opRs1, opRs2]⟩,
  ⟨.FSGNJX_S, "FSGNJX.S", 32, 0xfe00707f, 0x20002053, none, [opRd, opRs1, opRs2]⟩,
  ⟨.FMIN_S, "FMIN.S", 32, 0xfe00707f, 0x28000053, none, [opRd, opRs1, opRs2]⟩,
  ⟨.FMAX_S, "FMAX.S", 32, 0xfe00707f, 0x28001053, none, [opRd, opRs1, opRs2]⟩,
  ⟨.FLE_S, "FLE.S", 32, 0xfe00707f, 0xa0000053, none, [opRd, opRs1, opRs2]⟩,
  ⟨.FLT_S, "FLT.S", 32, 0xfe00707f, 0xa0001053, none, [opRd, opRs1, opRs2]⟩,
  ⟨.FEQ_S, "FEQ.S", 32, 0xfe00707f, 0xa0002053, none, [opRd, opRs1, opRs2]⟩,
  ⟨.FCLASS_S, "FCLASS.S", 32, 0xfff0707f, 0xe0001053, none, [opRd, opRs1]⟩,
  ⟨.FCVT_W_S, "FCVT.W.S", 32, 0xfff0007f, 0xc0000053, none, [opRd, opRs1, opRm]⟩,
  ⟨.FCVT_S_W, "FCVT.S.W", 32, 0xfff0007f, 0xd0000053, none, [opRd, opRs1, opRm]⟩,
  ⟨.FCVT_WU_S, "FCVT.WU.S", 32, 0xfff0007f, 0xc0100053, none, [opRd, opRs1, opRm]⟩,
  ⟨.FCVT_S_WU, "FCVT.S.WU", 32, 0xfff0007f, 0xd0100053, none, [opRd, opRs1, opRm]⟩,
  ⟨.FCVT_L_S, "FCVT.L.S", 32, 0xfff0007f, 0xc0200053, (some .m64), [opRd, opRs1, opRm]⟩,
  ⟨.FCVT_S_L, "FCVT.S.L", 32, 0xfff0007f, 0xd0200053, (some .m64), [opRd, opRs1, opRm]⟩,
  ⟨.FCVT_LU_S, "FCVT.LU.S", 32, 0xfff0007f, 0xc0300053, (some .m64), [opRd, opRs1, opRm]⟩,
  ⟨.FCVT_S_LU, "FCVT.S.LU", 32, 0xfff0007f, 0xd0300053, (some .m64), [opRd, opRs1, opRm]⟩,
  ⟨.FMV_X_W, "FMV.X.W", 32, 0xfff0707f, 0xe0000053, none, [opRd, opRs1]⟩,
  ⟨.FMV_W_X, "FMV.W.X", 32, 0xfff0707f, 0xf0000053, none, [opRd, opRs1]⟩]

/-- The rows of D. -/
def registryD : List Definition := [
  ⟨.FLD, "FLD", 32, 0x0000707f, 0x00003007, none, [opRd, opRs1, opImmI]⟩,
  ⟨.FSD, "FSD", 32, 0x0000707f, 0x00003027, none, [opRs1, opRs2, opImmS]⟩,
  ⟨.FMADD_D, "FMADD.D", 32, 0x0600007f, 0x02000043, none, [opRd, opRs1, opRs2, opRs3, opRm]⟩,
  ⟨.FMSUB_D, "FMSUB.D", 32, 0x0600007f, 0x02000047, none, [opRd, opRs1, opRs2, opRs3, opRm]⟩,
  ⟨.FNMSUB_D, "FNMSUB.D", 32, 0x0600007f, 0x0200004b, none, [opRd, opRs1, opRs2, opRs3, opRm]⟩,
  ⟨.FNMADD_D, "FNMADD.D", 32, 0x0600007f, 0x0200004f, none, [opRd, opRs1, opRs2, opRs3, opRm]⟩,
  ⟨.FADD_D, "FADD.D", 32, 0xfe00007f, 0x02000053, none, [opRd, opRs1, opRs2, opRm]⟩,
  ⟨.FSUB_D, "FSUB.D", 32, 0xfe00007f, 0x0a000053, none, [opRd, opRs1, opRs2, opRm]⟩,
  ⟨.FMUL_D, "FMUL.D", 32, 0xfe00007f, 0x12000053, none, [opRd, opRs1, opRs2, opRm]⟩,
  ⟨.FDIV_D, "FDIV.D", 32, 0xfe00007f, 0x1a000053, none, [opRd, opRs1, opRs2, opRm]⟩,
  ⟨.FSQRT_D, "FSQRT.D", 32, 0xfff0007f, 0x5a000053, none, [opRd, opRs1, opRm]⟩,
  ⟨.FSGNJ_D, "FSGNJ.D", 32, 0xfe00707f, 0x22000053, none, [opRd, opRs1, opRs2]⟩,
  ⟨.FSGNJN_D, "FSGNJN.D", 32, 0xfe00707f, 0x22001053, none, [opRd, opRs1, opRs2]⟩,
  ⟨.FSGNJX_D, "FSGNJX.D", 32, 0xfe00707f, 0x22002053, none, [opRd, opRs1, opRs2]⟩,
  ⟨.FMIN_D, "FMIN.D", 32, 0xfe00707f, 0x2a000053, none, [opRd, opRs1, opRs2]⟩,
  ⟨.FMAX_D, "FMAX.D", 32, 0xfe00707f, 0x2a001053, none, [opRd, opRs1, opRs2]⟩,
  ⟨.FLE_D, "FLE.D", 32, 0xfe00707f, 0xa2000053, none, [opRd, opRs1, opRs2]⟩,
  ⟨.FLT_D, "FLT.D", 32, 0xfe00707f, 0xa2001053, none, [opRd, opRs1, opRs2]⟩,
  ⟨.FEQ_D, "FEQ.D", 32, 0xfe00707f, 0xa2002053, none, [opRd, opRs1, opRs2]⟩,
  ⟨.FCLASS_D, "FCLASS.D", 32, 0xfff0707f, 0xe2001053, none, [opRd, opRs1]⟩,
  ⟨.FCVT_W_D, "FCVT.W.D", 32, 0xfff0007f, 0xc2000053, none, [opRd, opRs1, opRm]⟩,
  ⟨.FCVT_D_W, "FCVT.D.W", 32, 0xfff0007f, 0xd2000053, none, [opRd, opRs1, opRm]⟩,
  ⟨.FCVT_WU_D, "FCVT.WU.D", 32, 0xfff0007f, 0xc2100053, none, [opRd, opRs1, opRm]⟩,
  ⟨.FCVT_D_WU, "FCVT.D.WU", 32, 0xfff0007f, 0xd2100053, none, [opRd, opRs1, opRm]⟩,
  ⟨.FCVT_L_D, "FCVT.L.D", 32, 0xfff0007f, 0xc2200053, (some .m64), [opRd, opRs1, opRm]⟩,
  ⟨.FCVT_D_L, "FCVT.D.L", 32, 0xfff0007f, 0xd2200053, (some .m64), [opRd, opRs1, opRm]⟩,
  ⟨.FCVT_LU_D, "FCVT.LU.D", 32, 0xfff0007f, 0xc2300053, (some .m64), [opRd, opRs1, opRm]⟩,
  ⟨.FCVT_D_LU, "FCVT.D.LU", 32, 0xfff0007f, 0xd2300053, (some .m64), [opRd, opRs1, opRm]⟩,
  ⟨.FCVT_S_D, "FCVT.S.D", 32, 0xfff0007f, 0x40100053, none, [opRd, opRs1, opRm]⟩,
  ⟨.FCVT_D_S, "FCVT.D.S", 32, 0xfff0007f, 0x42000053, none, [opRd, opRs1, opRm]⟩,
  ⟨.FMV_X_D, "FMV.X.D", 32, 0xfff0707f, 0xe2000053, (some .m64), [opRd, opRs1]⟩,
  ⟨.FMV_D_X, "FMV.D.X", 32, 0xfff0707f, 0xf2000053, (some .m64), [opRd, opRs1]⟩]

/-- The rows of C. -/
def registryC : List Definition := [
  ⟨.C_ADDI4SPN, "C.ADDI4SPN", 16, 0xe003, 0x0000, none, [opCRdLow, opCAddi4spn]⟩,
  ⟨.C_FLD, "C.FLD", 16, 0xe003, 0x2000, none, [opCRdLow, opCRs1Mid, opCOff8]⟩,
  ⟨.C_LW, "C.LW", 16, 0xe003, 0x4000, none, [opCRdLow, opCRs1Mid, opCOff4]⟩,
  ⟨.C_LD, "C.LD", 16, 0xe003, 0x6000, (some .m64), [opCRdLow, opCRs1Mid, opCOff8]⟩,
  ⟨.C_FSD, "C.FSD", 16, 0xe003, 0xa000, none, [opCRs1Mid, opCRs2Low, opCOff8]⟩,
  ⟨.C_SW, "C.SW", 16, 0xe003, 0xc000, none, [opCRs1Mid, opCRs2Low, opCOff4]⟩,
  ⟨.C_SD, "C.SD", 16, 0xe003, 0xe000, (some .m64), [opCRs1Mid, opCRs2Low, opCOff8]⟩,
  ⟨.C_NOP, "C.NOP", 16, 0xef83, 0x0001, none, [opCImm6]⟩,
  ⟨.C_ADDI, "C.ADDI", 16, 0xe003, 0x0001, none, [opCRdNot0, opCImm6]⟩,
  ⟨.C_ADDIW, "C.ADDIW", 16, 0xe003, 0x2001, (some .m64), [opCRdNot0, opCImm6]⟩,
  ⟨.C_LI, "C.LI", 16, 0xe003, 0x4001, none, [opRd, opCImm6]⟩,
  ⟨.C_ADDI16SP, "C.ADDI16SP", 16, 0xef83, 0x6101, none, [opCAddi16sp]⟩,
  ⟨.C_LUI, "C.LUI", 16, 0xe003, 0x6001, none, [opCRdNot2, opCLui]⟩,
  ⟨.C_SRLI, "C.SRLI", 16, 0xec03, 0x8001, none, [opCRdMid, opCShamt]⟩,
  ⟨.C_SRAI, "C.SRAI", 16, 0xec03, 0x8401, none, [opCRdMid, opCShamt]⟩,
  ⟨.C_ANDI, "C.ANDI", 16, 0xec03, 0x8801, none, [opCRdMid, opCImm6]⟩,
  ⟨.C_SUB, "C.SUB", 16, 0xfc63, 0x8c01, none, [opCRdMid, opCRs2Low]⟩,
  ⟨.C_XOR, "C.XOR", 16, 0xfc63, 0x8c21, none, [opCRdMid, opCRs2Low]⟩,
  ⟨.C_OR, "C.OR", 16, 0xfc63, 0x8c41, none, [opCRdMid, opCRs2Low]⟩,
  ⟨.C_AND, "C.AND", 16, 0xfc63, 0x8c61, none, [opCRdMid, opCRs2Low]⟩,
  ⟨.C_SUBW, "C.SUBW", 16, 0xfc63, 0x9c01, (some .m64), [opCRdMid, opCRs2Low]⟩,
  ⟨.C_ADDW, "C.ADDW", 16, 0xfc63, 0x9c21, (some .m64), [opCRdMid, opCRs2Low]⟩,
  ⟨.C_J, "C.J", 16, 0xe003, 0xa001, none, [opCJump]⟩,
  ⟨.C_BEQZ, "C.BEQZ", 16, 0xe003, 0xc001, none, [opCRs1Mid, opCBranch]⟩,
  ⟨.C_BNEZ, "C.BNEZ", 16, 0xe003, 0xe001, none, [opCRs1Mid, opCBranch]⟩,
  ⟨.C_SLLI, "C.SLLI", 16, 0xe003, 0x0002, none, [opRd, opCShamt]⟩,
  ⟨.C_FLDSP, "C.FLDSP", 16, 0xe003, 0x2002, none, [opRd, opCLoadSp8]⟩,
  ⟨.C_LWSP, "C.LWSP", 16, 0xe003, 0x4002, none, [opCRdNot0, opCLoadSp4]⟩,
  ⟨.C_LDSP, "C.LDSP", 16, 0xe003, 0x6002, (some .m64), [opCRdNot0, opCLoadSp8]⟩,
  ⟨.C_JR, "C.JR", 16, 0xf07f, 0x8002, none, [opCRs1Not0]⟩,
  ⟨.C_MV, "C.MV", 16, 0xf003, 0x8002, none, [opRd, opCRs2Not0]⟩,
  ⟨.C_EBREAK, "C.EBREAK", 16, 0xffff, 0x9002, none, []⟩,
  ⟨.C_JALR, "C.JALR", 16, 0xf07f, 0x9002, none, [opCRs1Not0]⟩,
  ⟨.C_ADD, "C.ADD", 16, 0xf003, 0x9002, none, [opRd, opCRs2Not0]⟩,
  ⟨.C_FSDSP, "C.FSDSP", 16, 0xe003, 0xa002, none, [opCRs2, opCStoreSp8]⟩,
  ⟨.C_SWSP, "C.SWSP", 16, 0xe003, 0xc002, none, [opCRs2, opCStoreSp4]⟩,
  ⟨.C_SDSP, "C.SDSP", 16, 0xe003, 0xe002, (some .m64), [opCRs2, opCStoreSp8]⟩]

/-- The loaded table, 197 rows (30_encoding R152). -/
def registry : List Definition :=
  registryBase ++ registryZicsr ++ registryM ++ registryA ++ registryF ++ registryD ++ registryC

/-- The two kinds of DecodeError (30_encoding R155). -/
inductive DecodeError
  | noMatch
  | ambiguous
  deriving DecidableEq, Repr

/-- The unique definition that matches (30_encoding R154, R155). -/
def lookup (disabled : List Mnemonic) (mode : Mode) (len : Nat) (w : InstrWord) :
    Except DecodeError Definition :=
  match registry.filter (fun d => d.matchesWord disabled mode len w) with
  | [] => .error .noMatch
  | [d] => .ok d
  | _ => .error .ambiguous

/-- The instruction a mnemonic and its operand values make. -/
def Mnemonic.build (v : OpName → InstrWord) : Mnemonic → Instr
  | .LUI => .lui ((v .rd).setWidth 5) ((v .imm).setWidth 32)
  | .AUIPC => .auipc ((v .rd).setWidth 5) ((v .imm).setWidth 32)
  | .JAL => .jal ((v .rd).setWidth 5) ((v .imm).setWidth 21)
  | .JALR => .jalr ((v .rd).setWidth 5) ((v .rs1).setWidth 5) ((v .imm).setWidth 12)
  | .BEQ => .beq ((v .rs1).setWidth 5) ((v .rs2).setWidth 5) ((v .imm).setWidth 13)
  | .BNE => .bne ((v .rs1).setWidth 5) ((v .rs2).setWidth 5) ((v .imm).setWidth 13)
  | .BLT => .blt ((v .rs1).setWidth 5) ((v .rs2).setWidth 5) ((v .imm).setWidth 13)
  | .BGE => .bge ((v .rs1).setWidth 5) ((v .rs2).setWidth 5) ((v .imm).setWidth 13)
  | .BLTU => .bltu ((v .rs1).setWidth 5) ((v .rs2).setWidth 5) ((v .imm).setWidth 13)
  | .BGEU => .bgeu ((v .rs1).setWidth 5) ((v .rs2).setWidth 5) ((v .imm).setWidth 13)
  | .LB => .lb ((v .rd).setWidth 5) ((v .rs1).setWidth 5) ((v .imm).setWidth 12)
  | .LH => .lh ((v .rd).setWidth 5) ((v .rs1).setWidth 5) ((v .imm).setWidth 12)
  | .LW => .lw ((v .rd).setWidth 5) ((v .rs1).setWidth 5) ((v .imm).setWidth 12)
  | .LD => .ld ((v .rd).setWidth 5) ((v .rs1).setWidth 5) ((v .imm).setWidth 12)
  | .LBU => .lbu ((v .rd).setWidth 5) ((v .rs1).setWidth 5) ((v .imm).setWidth 12)
  | .LHU => .lhu ((v .rd).setWidth 5) ((v .rs1).setWidth 5) ((v .imm).setWidth 12)
  | .LWU => .lwu ((v .rd).setWidth 5) ((v .rs1).setWidth 5) ((v .imm).setWidth 12)
  | .SB => .sb ((v .rs1).setWidth 5) ((v .rs2).setWidth 5) ((v .imm).setWidth 12)
  | .SH => .sh ((v .rs1).setWidth 5) ((v .rs2).setWidth 5) ((v .imm).setWidth 12)
  | .SW => .sw ((v .rs1).setWidth 5) ((v .rs2).setWidth 5) ((v .imm).setWidth 12)
  | .SD => .sd ((v .rs1).setWidth 5) ((v .rs2).setWidth 5) ((v .imm).setWidth 12)
  | .ADDI => .addi ((v .rd).setWidth 5) ((v .rs1).setWidth 5) ((v .imm).setWidth 12)
  | .SLTI => .slti ((v .rd).setWidth 5) ((v .rs1).setWidth 5) ((v .imm).setWidth 12)
  | .SLTIU => .sltiu ((v .rd).setWidth 5) ((v .rs1).setWidth 5) ((v .imm).setWidth 12)
  | .XORI => .xori ((v .rd).setWidth 5) ((v .rs1).setWidth 5) ((v .imm).setWidth 12)
  | .ORI => .ori ((v .rd).setWidth 5) ((v .rs1).setWidth 5) ((v .imm).setWidth 12)
  | .ANDI => .andi ((v .rd).setWidth 5) ((v .rs1).setWidth 5) ((v .imm).setWidth 12)
  | .SLLI => .slli ((v .rd).setWidth 5) ((v .rs1).setWidth 5) ((v .shamt).setWidth 6)
  | .SRLI => .srli ((v .rd).setWidth 5) ((v .rs1).setWidth 5) ((v .shamt).setWidth 6)
  | .SRAI => .srai ((v .rd).setWidth 5) ((v .rs1).setWidth 5) ((v .shamt).setWidth 6)
  | .ADD => .add ((v .rd).setWidth 5) ((v .rs1).setWidth 5) ((v .rs2).setWidth 5)
  | .SUB => .sub ((v .rd).setWidth 5) ((v .rs1).setWidth 5) ((v .rs2).setWidth 5)
  | .SLL => .sll ((v .rd).setWidth 5) ((v .rs1).setWidth 5) ((v .rs2).setWidth 5)
  | .SLT => .slt ((v .rd).setWidth 5) ((v .rs1).setWidth 5) ((v .rs2).setWidth 5)
  | .SLTU => .sltu ((v .rd).setWidth 5) ((v .rs1).setWidth 5) ((v .rs2).setWidth 5)
  | .XOR => .xor ((v .rd).setWidth 5) ((v .rs1).setWidth 5) ((v .rs2).setWidth 5)
  | .SRL => .srl ((v .rd).setWidth 5) ((v .rs1).setWidth 5) ((v .rs2).setWidth 5)
  | .SRA => .sra ((v .rd).setWidth 5) ((v .rs1).setWidth 5) ((v .rs2).setWidth 5)
  | .OR => .or ((v .rd).setWidth 5) ((v .rs1).setWidth 5) ((v .rs2).setWidth 5)
  | .AND => .and ((v .rd).setWidth 5) ((v .rs1).setWidth 5) ((v .rs2).setWidth 5)
  | .FENCE => .fence ((v .rd).setWidth 5) ((v .rs1).setWidth 5) ((v .fm).setWidth 4) ((v .pred).setWidth 4) ((v .succ).setWidth 4)
  | .ECALL => .ecall
  | .EBREAK => .ebreak
  | .ADDIW => .addiw ((v .rd).setWidth 5) ((v .rs1).setWidth 5) ((v .imm).setWidth 12)
  | .SLLIW => .slliw ((v .rd).setWidth 5) ((v .rs1).setWidth 5) ((v .shamt).setWidth 5)
  | .SRLIW => .srliw ((v .rd).setWidth 5) ((v .rs1).setWidth 5) ((v .shamt).setWidth 5)
  | .SRAIW => .sraiw ((v .rd).setWidth 5) ((v .rs1).setWidth 5) ((v .shamt).setWidth 5)
  | .ADDW => .addw ((v .rd).setWidth 5) ((v .rs1).setWidth 5) ((v .rs2).setWidth 5)
  | .SUBW => .subw ((v .rd).setWidth 5) ((v .rs1).setWidth 5) ((v .rs2).setWidth 5)
  | .SLLW => .sllw ((v .rd).setWidth 5) ((v .rs1).setWidth 5) ((v .rs2).setWidth 5)
  | .SRLW => .srlw ((v .rd).setWidth 5) ((v .rs1).setWidth 5) ((v .rs2).setWidth 5)
  | .SRAW => .sraw ((v .rd).setWidth 5) ((v .rs1).setWidth 5) ((v .rs2).setWidth 5)
  | .FENCE_I => .fenceI ((v .rd).setWidth 5) ((v .rs1).setWidth 5) ((v .imm).setWidth 12)
  | .CSRRW => .csrrw ((v .rd).setWidth 5) ((v .rs1).setWidth 5) ((v .csr).setWidth 12)
  | .CSRRS => .csrrs ((v .rd).setWidth 5) ((v .rs1).setWidth 5) ((v .csr).setWidth 12)
  | .CSRRC => .csrrc ((v .rd).setWidth 5) ((v .rs1).setWidth 5) ((v .csr).setWidth 12)
  | .CSRRWI => .csrrwi ((v .rd).setWidth 5) ((v .uimm).setWidth 5) ((v .csr).setWidth 12)
  | .CSRRSI => .csrrsi ((v .rd).setWidth 5) ((v .uimm).setWidth 5) ((v .csr).setWidth 12)
  | .CSRRCI => .csrrci ((v .rd).setWidth 5) ((v .uimm).setWidth 5) ((v .csr).setWidth 12)
  | .MUL => .mul ((v .rd).setWidth 5) ((v .rs1).setWidth 5) ((v .rs2).setWidth 5)
  | .MULH => .mulh ((v .rd).setWidth 5) ((v .rs1).setWidth 5) ((v .rs2).setWidth 5)
  | .MULHSU => .mulhsu ((v .rd).setWidth 5) ((v .rs1).setWidth 5) ((v .rs2).setWidth 5)
  | .MULHU => .mulhu ((v .rd).setWidth 5) ((v .rs1).setWidth 5) ((v .rs2).setWidth 5)
  | .DIV => .div ((v .rd).setWidth 5) ((v .rs1).setWidth 5) ((v .rs2).setWidth 5)
  | .DIVU => .divu ((v .rd).setWidth 5) ((v .rs1).setWidth 5) ((v .rs2).setWidth 5)
  | .REM => .rem ((v .rd).setWidth 5) ((v .rs1).setWidth 5) ((v .rs2).setWidth 5)
  | .REMU => .remu ((v .rd).setWidth 5) ((v .rs1).setWidth 5) ((v .rs2).setWidth 5)
  | .MULW => .mulw ((v .rd).setWidth 5) ((v .rs1).setWidth 5) ((v .rs2).setWidth 5)
  | .DIVW => .divw ((v .rd).setWidth 5) ((v .rs1).setWidth 5) ((v .rs2).setWidth 5)
  | .DIVUW => .divuw ((v .rd).setWidth 5) ((v .rs1).setWidth 5) ((v .rs2).setWidth 5)
  | .REMW => .remw ((v .rd).setWidth 5) ((v .rs1).setWidth 5) ((v .rs2).setWidth 5)
  | .REMUW => .remuw ((v .rd).setWidth 5) ((v .rs1).setWidth 5) ((v .rs2).setWidth 5)
  | .LR_W => .lrW ((v .rd).setWidth 5) ((v .rs1).setWidth 5) ((v .aq).setWidth 1) ((v .rl).setWidth 1)
  | .SC_W => .scW ((v .rd).setWidth 5) ((v .rs1).setWidth 5) ((v .rs2).setWidth 5) ((v .aq).setWidth 1) ((v .rl).setWidth 1)
  | .AMOSWAP_W => .amoswapW ((v .rd).setWidth 5) ((v .rs1).setWidth 5) ((v .rs2).setWidth 5) ((v .aq).setWidth 1) ((v .rl).setWidth 1)
  | .AMOADD_W => .amoaddW ((v .rd).setWidth 5) ((v .rs1).setWidth 5) ((v .rs2).setWidth 5) ((v .aq).setWidth 1) ((v .rl).setWidth 1)
  | .AMOXOR_W => .amoxorW ((v .rd).setWidth 5) ((v .rs1).setWidth 5) ((v .rs2).setWidth 5) ((v .aq).setWidth 1) ((v .rl).setWidth 1)
  | .AMOAND_W => .amoandW ((v .rd).setWidth 5) ((v .rs1).setWidth 5) ((v .rs2).setWidth 5) ((v .aq).setWidth 1) ((v .rl).setWidth 1)
  | .AMOOR_W => .amoorW ((v .rd).setWidth 5) ((v .rs1).setWidth 5) ((v .rs2).setWidth 5) ((v .aq).setWidth 1) ((v .rl).setWidth 1)
  | .AMOMIN_W => .amominW ((v .rd).setWidth 5) ((v .rs1).setWidth 5) ((v .rs2).setWidth 5) ((v .aq).setWidth 1) ((v .rl).setWidth 1)
  | .AMOMAX_W => .amomaxW ((v .rd).setWidth 5) ((v .rs1).setWidth 5) ((v .rs2).setWidth 5) ((v .aq).setWidth 1) ((v .rl).setWidth 1)
  | .AMOMINU_W => .amominuW ((v .rd).setWidth 5) ((v .rs1).setWidth 5) ((v .rs2).setWidth 5) ((v .aq).setWidth 1) ((v .rl).setWidth 1)
  | .AMOMAXU_W => .amomaxuW ((v .rd).setWidth 5) ((v .rs1).setWidth 5) ((v .rs2).setWidth 5) ((v .aq).setWidth 1) ((v .rl).setWidth 1)
  | .LR_D => .lrD ((v .rd).setWidth 5) ((v .rs1).setWidth 5) ((v .aq).setWidth 1) ((v .rl).setWidth 1)
  | .SC_D => .scD ((v .rd).setWidth 5) ((v .rs1).setWidth 5) ((v .rs2).setWidth 5) ((v .aq).setWidth 1) ((v .rl).setWidth 1)
  | .AMOSWAP_D => .amoswapD ((v .rd).setWidth 5) ((v .rs1).setWidth 5) ((v .rs2).setWidth 5) ((v .aq).setWidth 1) ((v .rl).setWidth 1)
  | .AMOADD_D => .amoaddD ((v .rd).setWidth 5) ((v .rs1).setWidth 5) ((v .rs2).setWidth 5) ((v .aq).setWidth 1) ((v .rl).setWidth 1)
  | .AMOXOR_D => .amoxorD ((v .rd).setWidth 5) ((v .rs1).setWidth 5) ((v .rs2).setWidth 5) ((v .aq).setWidth 1) ((v .rl).setWidth 1)
  | .AMOAND_D => .amoandD ((v .rd).setWidth 5) ((v .rs1).setWidth 5) ((v .rs2).setWidth 5) ((v .aq).setWidth 1) ((v .rl).setWidth 1)
  | .AMOOR_D => .amoorD ((v .rd).setWidth 5) ((v .rs1).setWidth 5) ((v .rs2).setWidth 5) ((v .aq).setWidth 1) ((v .rl).setWidth 1)
  | .AMOMIN_D => .amominD ((v .rd).setWidth 5) ((v .rs1).setWidth 5) ((v .rs2).setWidth 5) ((v .aq).setWidth 1) ((v .rl).setWidth 1)
  | .AMOMAX_D => .amomaxD ((v .rd).setWidth 5) ((v .rs1).setWidth 5) ((v .rs2).setWidth 5) ((v .aq).setWidth 1) ((v .rl).setWidth 1)
  | .AMOMINU_D => .amominuD ((v .rd).setWidth 5) ((v .rs1).setWidth 5) ((v .rs2).setWidth 5) ((v .aq).setWidth 1) ((v .rl).setWidth 1)
  | .AMOMAXU_D => .amomaxuD ((v .rd).setWidth 5) ((v .rs1).setWidth 5) ((v .rs2).setWidth 5) ((v .aq).setWidth 1) ((v .rl).setWidth 1)
  | .SRET => .sret
  | .MRET => .mret
  | .WFI => .wfi
  | .SFENCE_VMA => .sfenceVma ((v .rs1).setWidth 5) ((v .rs2).setWidth 5)
  | .FLW => .flw ((v .rd).setWidth 5) ((v .rs1).setWidth 5) ((v .imm).setWidth 12)
  | .FSW => .fsw ((v .rs1).setWidth 5) ((v .rs2).setWidth 5) ((v .imm).setWidth 12)
  | .FMADD_S => .fmaddS ((v .rd).setWidth 5) ((v .rs1).setWidth 5) ((v .rs2).setWidth 5) ((v .rs3).setWidth 5) ((v .rm).setWidth 3)
  | .FMSUB_S => .fmsubS ((v .rd).setWidth 5) ((v .rs1).setWidth 5) ((v .rs2).setWidth 5) ((v .rs3).setWidth 5) ((v .rm).setWidth 3)
  | .FNMSUB_S => .fnmsubS ((v .rd).setWidth 5) ((v .rs1).setWidth 5) ((v .rs2).setWidth 5) ((v .rs3).setWidth 5) ((v .rm).setWidth 3)
  | .FNMADD_S => .fnmaddS ((v .rd).setWidth 5) ((v .rs1).setWidth 5) ((v .rs2).setWidth 5) ((v .rs3).setWidth 5) ((v .rm).setWidth 3)
  | .FADD_S => .faddS ((v .rd).setWidth 5) ((v .rs1).setWidth 5) ((v .rs2).setWidth 5) ((v .rm).setWidth 3)
  | .FSUB_S => .fsubS ((v .rd).setWidth 5) ((v .rs1).setWidth 5) ((v .rs2).setWidth 5) ((v .rm).setWidth 3)
  | .FMUL_S => .fmulS ((v .rd).setWidth 5) ((v .rs1).setWidth 5) ((v .rs2).setWidth 5) ((v .rm).setWidth 3)
  | .FDIV_S => .fdivS ((v .rd).setWidth 5) ((v .rs1).setWidth 5) ((v .rs2).setWidth 5) ((v .rm).setWidth 3)
  | .FSQRT_S => .fsqrtS ((v .rd).setWidth 5) ((v .rs1).setWidth 5) ((v .rm).setWidth 3)
  | .FSGNJ_S => .fsgnjS ((v .rd).setWidth 5) ((v .rs1).setWidth 5) ((v .rs2).setWidth 5)
  | .FSGNJN_S => .fsgnjnS ((v .rd).setWidth 5) ((v .rs1).setWidth 5) ((v .rs2).setWidth 5)
  | .FSGNJX_S => .fsgnjxS ((v .rd).setWidth 5) ((v .rs1).setWidth 5) ((v .rs2).setWidth 5)
  | .FMIN_S => .fminS ((v .rd).setWidth 5) ((v .rs1).setWidth 5) ((v .rs2).setWidth 5)
  | .FMAX_S => .fmaxS ((v .rd).setWidth 5) ((v .rs1).setWidth 5) ((v .rs2).setWidth 5)
  | .FLE_S => .fleS ((v .rd).setWidth 5) ((v .rs1).setWidth 5) ((v .rs2).setWidth 5)
  | .FLT_S => .fltS ((v .rd).setWidth 5) ((v .rs1).setWidth 5) ((v .rs2).setWidth 5)
  | .FEQ_S => .feqS ((v .rd).setWidth 5) ((v .rs1).setWidth 5) ((v .rs2).setWidth 5)
  | .FCLASS_S => .fclassS ((v .rd).setWidth 5) ((v .rs1).setWidth 5)
  | .FCVT_W_S => .fcvtWS ((v .rd).setWidth 5) ((v .rs1).setWidth 5) ((v .rm).setWidth 3)
  | .FCVT_S_W => .fcvtSW ((v .rd).setWidth 5) ((v .rs1).setWidth 5) ((v .rm).setWidth 3)
  | .FCVT_WU_S => .fcvtWuS ((v .rd).setWidth 5) ((v .rs1).setWidth 5) ((v .rm).setWidth 3)
  | .FCVT_S_WU => .fcvtSWu ((v .rd).setWidth 5) ((v .rs1).setWidth 5) ((v .rm).setWidth 3)
  | .FCVT_L_S => .fcvtLS ((v .rd).setWidth 5) ((v .rs1).setWidth 5) ((v .rm).setWidth 3)
  | .FCVT_S_L => .fcvtSL ((v .rd).setWidth 5) ((v .rs1).setWidth 5) ((v .rm).setWidth 3)
  | .FCVT_LU_S => .fcvtLuS ((v .rd).setWidth 5) ((v .rs1).setWidth 5) ((v .rm).setWidth 3)
  | .FCVT_S_LU => .fcvtSLu ((v .rd).setWidth 5) ((v .rs1).setWidth 5) ((v .rm).setWidth 3)
  | .FMV_X_W => .fmvXW ((v .rd).setWidth 5) ((v .rs1).setWidth 5)
  | .FMV_W_X => .fmvWX ((v .rd).setWidth 5) ((v .rs1).setWidth 5)
  | .FLD => .fld ((v .rd).setWidth 5) ((v .rs1).setWidth 5) ((v .imm).setWidth 12)
  | .FSD => .fsd ((v .rs1).setWidth 5) ((v .rs2).setWidth 5) ((v .imm).setWidth 12)
  | .FMADD_D => .fmaddD ((v .rd).setWidth 5) ((v .rs1).setWidth 5) ((v .rs2).setWidth 5) ((v .rs3).setWidth 5) ((v .rm).setWidth 3)
  | .FMSUB_D => .fmsubD ((v .rd).setWidth 5) ((v .rs1).setWidth 5) ((v .rs2).setWidth 5) ((v .rs3).setWidth 5) ((v .rm).setWidth 3)
  | .FNMSUB_D => .fnmsubD ((v .rd).setWidth 5) ((v .rs1).setWidth 5) ((v .rs2).setWidth 5) ((v .rs3).setWidth 5) ((v .rm).setWidth 3)
  | .FNMADD_D => .fnmaddD ((v .rd).setWidth 5) ((v .rs1).setWidth 5) ((v .rs2).setWidth 5) ((v .rs3).setWidth 5) ((v .rm).setWidth 3)
  | .FADD_D => .faddD ((v .rd).setWidth 5) ((v .rs1).setWidth 5) ((v .rs2).setWidth 5) ((v .rm).setWidth 3)
  | .FSUB_D => .fsubD ((v .rd).setWidth 5) ((v .rs1).setWidth 5) ((v .rs2).setWidth 5) ((v .rm).setWidth 3)
  | .FMUL_D => .fmulD ((v .rd).setWidth 5) ((v .rs1).setWidth 5) ((v .rs2).setWidth 5) ((v .rm).setWidth 3)
  | .FDIV_D => .fdivD ((v .rd).setWidth 5) ((v .rs1).setWidth 5) ((v .rs2).setWidth 5) ((v .rm).setWidth 3)
  | .FSQRT_D => .fsqrtD ((v .rd).setWidth 5) ((v .rs1).setWidth 5) ((v .rm).setWidth 3)
  | .FSGNJ_D => .fsgnjD ((v .rd).setWidth 5) ((v .rs1).setWidth 5) ((v .rs2).setWidth 5)
  | .FSGNJN_D => .fsgnjnD ((v .rd).setWidth 5) ((v .rs1).setWidth 5) ((v .rs2).setWidth 5)
  | .FSGNJX_D => .fsgnjxD ((v .rd).setWidth 5) ((v .rs1).setWidth 5) ((v .rs2).setWidth 5)
  | .FMIN_D => .fminD ((v .rd).setWidth 5) ((v .rs1).setWidth 5) ((v .rs2).setWidth 5)
  | .FMAX_D => .fmaxD ((v .rd).setWidth 5) ((v .rs1).setWidth 5) ((v .rs2).setWidth 5)
  | .FLE_D => .fleD ((v .rd).setWidth 5) ((v .rs1).setWidth 5) ((v .rs2).setWidth 5)
  | .FLT_D => .fltD ((v .rd).setWidth 5) ((v .rs1).setWidth 5) ((v .rs2).setWidth 5)
  | .FEQ_D => .feqD ((v .rd).setWidth 5) ((v .rs1).setWidth 5) ((v .rs2).setWidth 5)
  | .FCLASS_D => .fclassD ((v .rd).setWidth 5) ((v .rs1).setWidth 5)
  | .FCVT_W_D => .fcvtWD ((v .rd).setWidth 5) ((v .rs1).setWidth 5) ((v .rm).setWidth 3)
  | .FCVT_D_W => .fcvtDW ((v .rd).setWidth 5) ((v .rs1).setWidth 5) ((v .rm).setWidth 3)
  | .FCVT_WU_D => .fcvtWuD ((v .rd).setWidth 5) ((v .rs1).setWidth 5) ((v .rm).setWidth 3)
  | .FCVT_D_WU => .fcvtDWu ((v .rd).setWidth 5) ((v .rs1).setWidth 5) ((v .rm).setWidth 3)
  | .FCVT_L_D => .fcvtLD ((v .rd).setWidth 5) ((v .rs1).setWidth 5) ((v .rm).setWidth 3)
  | .FCVT_D_L => .fcvtDL ((v .rd).setWidth 5) ((v .rs1).setWidth 5) ((v .rm).setWidth 3)
  | .FCVT_LU_D => .fcvtLuD ((v .rd).setWidth 5) ((v .rs1).setWidth 5) ((v .rm).setWidth 3)
  | .FCVT_D_LU => .fcvtDLu ((v .rd).setWidth 5) ((v .rs1).setWidth 5) ((v .rm).setWidth 3)
  | .FCVT_S_D => .fcvtSD ((v .rd).setWidth 5) ((v .rs1).setWidth 5) ((v .rm).setWidth 3)
  | .FCVT_D_S => .fcvtDS ((v .rd).setWidth 5) ((v .rs1).setWidth 5) ((v .rm).setWidth 3)
  | .FMV_X_D => .fmvXD ((v .rd).setWidth 5) ((v .rs1).setWidth 5)
  | .FMV_D_X => .fmvDX ((v .rd).setWidth 5) ((v .rs1).setWidth 5)
  | .C_ADDI4SPN => .cAddi4spn ((v .rd).setWidth 3) ((v .imm).setWidth 10)
  | .C_FLD => .cFld ((v .rd).setWidth 3) ((v .rs1).setWidth 3) ((v .imm).setWidth 8)
  | .C_LW => .cLw ((v .rd).setWidth 3) ((v .rs1).setWidth 3) ((v .imm).setWidth 7)
  | .C_LD => .cLd ((v .rd).setWidth 3) ((v .rs1).setWidth 3) ((v .imm).setWidth 8)
  | .C_FSD => .cFsd ((v .rs1).setWidth 3) ((v .rs2).setWidth 3) ((v .imm).setWidth 8)
  | .C_SW => .cSw ((v .rs1).setWidth 3) ((v .rs2).setWidth 3) ((v .imm).setWidth 7)
  | .C_SD => .cSd ((v .rs1).setWidth 3) ((v .rs2).setWidth 3) ((v .imm).setWidth 8)
  | .C_NOP => .cNop ((v .imm).setWidth 6)
  | .C_ADDI => .cAddi ((v .rd).setWidth 5) ((v .imm).setWidth 6)
  | .C_ADDIW => .cAddiw ((v .rd).setWidth 5) ((v .imm).setWidth 6)
  | .C_LI => .cLi ((v .rd).setWidth 5) ((v .imm).setWidth 6)
  | .C_ADDI16SP => .cAddi16sp ((v .imm).setWidth 10)
  | .C_LUI => .cLui ((v .rd).setWidth 5) ((v .imm).setWidth 18)
  | .C_SRLI => .cSrli ((v .rd).setWidth 3) ((v .shamt).setWidth 6)
  | .C_SRAI => .cSrai ((v .rd).setWidth 3) ((v .shamt).setWidth 6)
  | .C_ANDI => .cAndi ((v .rd).setWidth 3) ((v .imm).setWidth 6)
  | .C_SUB => .cSub ((v .rd).setWidth 3) ((v .rs2).setWidth 3)
  | .C_XOR => .cXor ((v .rd).setWidth 3) ((v .rs2).setWidth 3)
  | .C_OR => .cOr ((v .rd).setWidth 3) ((v .rs2).setWidth 3)
  | .C_AND => .cAnd ((v .rd).setWidth 3) ((v .rs2).setWidth 3)
  | .C_SUBW => .cSubw ((v .rd).setWidth 3) ((v .rs2).setWidth 3)
  | .C_ADDW => .cAddw ((v .rd).setWidth 3) ((v .rs2).setWidth 3)
  | .C_J => .cJ ((v .imm).setWidth 12)
  | .C_BEQZ => .cBeqz ((v .rs1).setWidth 3) ((v .imm).setWidth 9)
  | .C_BNEZ => .cBnez ((v .rs1).setWidth 3) ((v .imm).setWidth 9)
  | .C_SLLI => .cSlli ((v .rd).setWidth 5) ((v .shamt).setWidth 6)
  | .C_FLDSP => .cFldsp ((v .rd).setWidth 5) ((v .imm).setWidth 9)
  | .C_LWSP => .cLwsp ((v .rd).setWidth 5) ((v .imm).setWidth 8)
  | .C_LDSP => .cLdsp ((v .rd).setWidth 5) ((v .imm).setWidth 9)
  | .C_JR => .cJr ((v .rs1).setWidth 5)
  | .C_MV => .cMv ((v .rd).setWidth 5) ((v .rs2).setWidth 5)
  | .C_EBREAK => .cEbreak
  | .C_JALR => .cJalr ((v .rs1).setWidth 5)
  | .C_ADD => .cAdd ((v .rd).setWidth 5) ((v .rs2).setWidth 5)
  | .C_FSDSP => .cFsdsp ((v .rs2).setWidth 5) ((v .imm).setWidth 9)
  | .C_SWSP => .cSwsp ((v .rs2).setWidth 5) ((v .imm).setWidth 8)
  | .C_SDSP => .cSdsp ((v .rs2).setWidth 5) ((v .imm).setWidth 9)

/-- The instruction's mnemonic. -/
def Instr.mnemonic : Instr → Mnemonic
  | .lui _ _ => .LUI
  | .auipc _ _ => .AUIPC
  | .jal _ _ => .JAL
  | .jalr _ _ _ => .JALR
  | .beq _ _ _ => .BEQ
  | .bne _ _ _ => .BNE
  | .blt _ _ _ => .BLT
  | .bge _ _ _ => .BGE
  | .bltu _ _ _ => .BLTU
  | .bgeu _ _ _ => .BGEU
  | .lb _ _ _ => .LB
  | .lh _ _ _ => .LH
  | .lw _ _ _ => .LW
  | .ld _ _ _ => .LD
  | .lbu _ _ _ => .LBU
  | .lhu _ _ _ => .LHU
  | .lwu _ _ _ => .LWU
  | .sb _ _ _ => .SB
  | .sh _ _ _ => .SH
  | .sw _ _ _ => .SW
  | .sd _ _ _ => .SD
  | .addi _ _ _ => .ADDI
  | .slti _ _ _ => .SLTI
  | .sltiu _ _ _ => .SLTIU
  | .xori _ _ _ => .XORI
  | .ori _ _ _ => .ORI
  | .andi _ _ _ => .ANDI
  | .slli _ _ _ => .SLLI
  | .srli _ _ _ => .SRLI
  | .srai _ _ _ => .SRAI
  | .add _ _ _ => .ADD
  | .sub _ _ _ => .SUB
  | .sll _ _ _ => .SLL
  | .slt _ _ _ => .SLT
  | .sltu _ _ _ => .SLTU
  | .xor _ _ _ => .XOR
  | .srl _ _ _ => .SRL
  | .sra _ _ _ => .SRA
  | .or _ _ _ => .OR
  | .and _ _ _ => .AND
  | .fence _ _ _ _ _ => .FENCE
  | .ecall => .ECALL
  | .ebreak => .EBREAK
  | .addiw _ _ _ => .ADDIW
  | .slliw _ _ _ => .SLLIW
  | .srliw _ _ _ => .SRLIW
  | .sraiw _ _ _ => .SRAIW
  | .addw _ _ _ => .ADDW
  | .subw _ _ _ => .SUBW
  | .sllw _ _ _ => .SLLW
  | .srlw _ _ _ => .SRLW
  | .sraw _ _ _ => .SRAW
  | .fenceI _ _ _ => .FENCE_I
  | .csrrw _ _ _ => .CSRRW
  | .csrrs _ _ _ => .CSRRS
  | .csrrc _ _ _ => .CSRRC
  | .csrrwi _ _ _ => .CSRRWI
  | .csrrsi _ _ _ => .CSRRSI
  | .csrrci _ _ _ => .CSRRCI
  | .mul _ _ _ => .MUL
  | .mulh _ _ _ => .MULH
  | .mulhsu _ _ _ => .MULHSU
  | .mulhu _ _ _ => .MULHU
  | .div _ _ _ => .DIV
  | .divu _ _ _ => .DIVU
  | .rem _ _ _ => .REM
  | .remu _ _ _ => .REMU
  | .mulw _ _ _ => .MULW
  | .divw _ _ _ => .DIVW
  | .divuw _ _ _ => .DIVUW
  | .remw _ _ _ => .REMW
  | .remuw _ _ _ => .REMUW
  | .lrW _ _ _ _ => .LR_W
  | .scW _ _ _ _ _ => .SC_W
  | .amoswapW _ _ _ _ _ => .AMOSWAP_W
  | .amoaddW _ _ _ _ _ => .AMOADD_W
  | .amoxorW _ _ _ _ _ => .AMOXOR_W
  | .amoandW _ _ _ _ _ => .AMOAND_W
  | .amoorW _ _ _ _ _ => .AMOOR_W
  | .amominW _ _ _ _ _ => .AMOMIN_W
  | .amomaxW _ _ _ _ _ => .AMOMAX_W
  | .amominuW _ _ _ _ _ => .AMOMINU_W
  | .amomaxuW _ _ _ _ _ => .AMOMAXU_W
  | .lrD _ _ _ _ => .LR_D
  | .scD _ _ _ _ _ => .SC_D
  | .amoswapD _ _ _ _ _ => .AMOSWAP_D
  | .amoaddD _ _ _ _ _ => .AMOADD_D
  | .amoxorD _ _ _ _ _ => .AMOXOR_D
  | .amoandD _ _ _ _ _ => .AMOAND_D
  | .amoorD _ _ _ _ _ => .AMOOR_D
  | .amominD _ _ _ _ _ => .AMOMIN_D
  | .amomaxD _ _ _ _ _ => .AMOMAX_D
  | .amominuD _ _ _ _ _ => .AMOMINU_D
  | .amomaxuD _ _ _ _ _ => .AMOMAXU_D
  | .sret => .SRET
  | .mret => .MRET
  | .wfi => .WFI
  | .sfenceVma _ _ => .SFENCE_VMA
  | .flw _ _ _ => .FLW
  | .fsw _ _ _ => .FSW
  | .fmaddS _ _ _ _ _ => .FMADD_S
  | .fmsubS _ _ _ _ _ => .FMSUB_S
  | .fnmsubS _ _ _ _ _ => .FNMSUB_S
  | .fnmaddS _ _ _ _ _ => .FNMADD_S
  | .faddS _ _ _ _ => .FADD_S
  | .fsubS _ _ _ _ => .FSUB_S
  | .fmulS _ _ _ _ => .FMUL_S
  | .fdivS _ _ _ _ => .FDIV_S
  | .fsqrtS _ _ _ => .FSQRT_S
  | .fsgnjS _ _ _ => .FSGNJ_S
  | .fsgnjnS _ _ _ => .FSGNJN_S
  | .fsgnjxS _ _ _ => .FSGNJX_S
  | .fminS _ _ _ => .FMIN_S
  | .fmaxS _ _ _ => .FMAX_S
  | .fleS _ _ _ => .FLE_S
  | .fltS _ _ _ => .FLT_S
  | .feqS _ _ _ => .FEQ_S
  | .fclassS _ _ => .FCLASS_S
  | .fcvtWS _ _ _ => .FCVT_W_S
  | .fcvtSW _ _ _ => .FCVT_S_W
  | .fcvtWuS _ _ _ => .FCVT_WU_S
  | .fcvtSWu _ _ _ => .FCVT_S_WU
  | .fcvtLS _ _ _ => .FCVT_L_S
  | .fcvtSL _ _ _ => .FCVT_S_L
  | .fcvtLuS _ _ _ => .FCVT_LU_S
  | .fcvtSLu _ _ _ => .FCVT_S_LU
  | .fmvXW _ _ => .FMV_X_W
  | .fmvWX _ _ => .FMV_W_X
  | .fld _ _ _ => .FLD
  | .fsd _ _ _ => .FSD
  | .fmaddD _ _ _ _ _ => .FMADD_D
  | .fmsubD _ _ _ _ _ => .FMSUB_D
  | .fnmsubD _ _ _ _ _ => .FNMSUB_D
  | .fnmaddD _ _ _ _ _ => .FNMADD_D
  | .faddD _ _ _ _ => .FADD_D
  | .fsubD _ _ _ _ => .FSUB_D
  | .fmulD _ _ _ _ => .FMUL_D
  | .fdivD _ _ _ _ => .FDIV_D
  | .fsqrtD _ _ _ => .FSQRT_D
  | .fsgnjD _ _ _ => .FSGNJ_D
  | .fsgnjnD _ _ _ => .FSGNJN_D
  | .fsgnjxD _ _ _ => .FSGNJX_D
  | .fminD _ _ _ => .FMIN_D
  | .fmaxD _ _ _ => .FMAX_D
  | .fleD _ _ _ => .FLE_D
  | .fltD _ _ _ => .FLT_D
  | .feqD _ _ _ => .FEQ_D
  | .fclassD _ _ => .FCLASS_D
  | .fcvtWD _ _ _ => .FCVT_W_D
  | .fcvtDW _ _ _ => .FCVT_D_W
  | .fcvtWuD _ _ _ => .FCVT_WU_D
  | .fcvtDWu _ _ _ => .FCVT_D_WU
  | .fcvtLD _ _ _ => .FCVT_L_D
  | .fcvtDL _ _ _ => .FCVT_D_L
  | .fcvtLuD _ _ _ => .FCVT_LU_D
  | .fcvtDLu _ _ _ => .FCVT_D_LU
  | .fcvtSD _ _ _ => .FCVT_S_D
  | .fcvtDS _ _ _ => .FCVT_D_S
  | .fmvXD _ _ => .FMV_X_D
  | .fmvDX _ _ => .FMV_D_X
  | .cAddi4spn _ _ => .C_ADDI4SPN
  | .cFld _ _ _ => .C_FLD
  | .cLw _ _ _ => .C_LW
  | .cLd _ _ _ => .C_LD
  | .cFsd _ _ _ => .C_FSD
  | .cSw _ _ _ => .C_SW
  | .cSd _ _ _ => .C_SD
  | .cNop _ => .C_NOP
  | .cAddi _ _ => .C_ADDI
  | .cAddiw _ _ => .C_ADDIW
  | .cLi _ _ => .C_LI
  | .cAddi16sp _ => .C_ADDI16SP
  | .cLui _ _ => .C_LUI
  | .cSrli _ _ => .C_SRLI
  | .cSrai _ _ => .C_SRAI
  | .cAndi _ _ => .C_ANDI
  | .cSub _ _ => .C_SUB
  | .cXor _ _ => .C_XOR
  | .cOr _ _ => .C_OR
  | .cAnd _ _ => .C_AND
  | .cSubw _ _ => .C_SUBW
  | .cAddw _ _ => .C_ADDW
  | .cJ _ => .C_J
  | .cBeqz _ _ => .C_BEQZ
  | .cBnez _ _ => .C_BNEZ
  | .cSlli _ _ => .C_SLLI
  | .cFldsp _ _ => .C_FLDSP
  | .cLwsp _ _ => .C_LWSP
  | .cLdsp _ _ => .C_LDSP
  | .cJr _ => .C_JR
  | .cMv _ _ => .C_MV
  | .cEbreak => .C_EBREAK
  | .cJalr _ => .C_JALR
  | .cAdd _ _ => .C_ADD
  | .cFsdsp _ _ => .C_FSDSP
  | .cSwsp _ _ => .C_SWSP
  | .cSdsp _ _ => .C_SDSP

/-- The instruction's operand values, by name. -/
def Instr.operands : Instr → List (OpName × InstrWord)
  | .lui rd imm => [(.rd, rd.setWidth 32), (.imm, imm.setWidth 32)]
  | .auipc rd imm => [(.rd, rd.setWidth 32), (.imm, imm.setWidth 32)]
  | .jal rd imm => [(.rd, rd.setWidth 32), (.imm, imm.setWidth 32)]
  | .jalr rd rs1 imm => [(.rd, rd.setWidth 32), (.rs1, rs1.setWidth 32), (.imm, imm.setWidth 32)]
  | .beq rs1 rs2 imm => [(.rs1, rs1.setWidth 32), (.rs2, rs2.setWidth 32), (.imm, imm.setWidth 32)]
  | .bne rs1 rs2 imm => [(.rs1, rs1.setWidth 32), (.rs2, rs2.setWidth 32), (.imm, imm.setWidth 32)]
  | .blt rs1 rs2 imm => [(.rs1, rs1.setWidth 32), (.rs2, rs2.setWidth 32), (.imm, imm.setWidth 32)]
  | .bge rs1 rs2 imm => [(.rs1, rs1.setWidth 32), (.rs2, rs2.setWidth 32), (.imm, imm.setWidth 32)]
  | .bltu rs1 rs2 imm => [(.rs1, rs1.setWidth 32), (.rs2, rs2.setWidth 32), (.imm, imm.setWidth 32)]
  | .bgeu rs1 rs2 imm => [(.rs1, rs1.setWidth 32), (.rs2, rs2.setWidth 32), (.imm, imm.setWidth 32)]
  | .lb rd rs1 imm => [(.rd, rd.setWidth 32), (.rs1, rs1.setWidth 32), (.imm, imm.setWidth 32)]
  | .lh rd rs1 imm => [(.rd, rd.setWidth 32), (.rs1, rs1.setWidth 32), (.imm, imm.setWidth 32)]
  | .lw rd rs1 imm => [(.rd, rd.setWidth 32), (.rs1, rs1.setWidth 32), (.imm, imm.setWidth 32)]
  | .ld rd rs1 imm => [(.rd, rd.setWidth 32), (.rs1, rs1.setWidth 32), (.imm, imm.setWidth 32)]
  | .lbu rd rs1 imm => [(.rd, rd.setWidth 32), (.rs1, rs1.setWidth 32), (.imm, imm.setWidth 32)]
  | .lhu rd rs1 imm => [(.rd, rd.setWidth 32), (.rs1, rs1.setWidth 32), (.imm, imm.setWidth 32)]
  | .lwu rd rs1 imm => [(.rd, rd.setWidth 32), (.rs1, rs1.setWidth 32), (.imm, imm.setWidth 32)]
  | .sb rs1 rs2 imm => [(.rs1, rs1.setWidth 32), (.rs2, rs2.setWidth 32), (.imm, imm.setWidth 32)]
  | .sh rs1 rs2 imm => [(.rs1, rs1.setWidth 32), (.rs2, rs2.setWidth 32), (.imm, imm.setWidth 32)]
  | .sw rs1 rs2 imm => [(.rs1, rs1.setWidth 32), (.rs2, rs2.setWidth 32), (.imm, imm.setWidth 32)]
  | .sd rs1 rs2 imm => [(.rs1, rs1.setWidth 32), (.rs2, rs2.setWidth 32), (.imm, imm.setWidth 32)]
  | .addi rd rs1 imm => [(.rd, rd.setWidth 32), (.rs1, rs1.setWidth 32), (.imm, imm.setWidth 32)]
  | .slti rd rs1 imm => [(.rd, rd.setWidth 32), (.rs1, rs1.setWidth 32), (.imm, imm.setWidth 32)]
  | .sltiu rd rs1 imm => [(.rd, rd.setWidth 32), (.rs1, rs1.setWidth 32), (.imm, imm.setWidth 32)]
  | .xori rd rs1 imm => [(.rd, rd.setWidth 32), (.rs1, rs1.setWidth 32), (.imm, imm.setWidth 32)]
  | .ori rd rs1 imm => [(.rd, rd.setWidth 32), (.rs1, rs1.setWidth 32), (.imm, imm.setWidth 32)]
  | .andi rd rs1 imm => [(.rd, rd.setWidth 32), (.rs1, rs1.setWidth 32), (.imm, imm.setWidth 32)]
  | .slli rd rs1 shamt => [(.rd, rd.setWidth 32), (.rs1, rs1.setWidth 32), (.shamt, shamt.setWidth 32)]
  | .srli rd rs1 shamt => [(.rd, rd.setWidth 32), (.rs1, rs1.setWidth 32), (.shamt, shamt.setWidth 32)]
  | .srai rd rs1 shamt => [(.rd, rd.setWidth 32), (.rs1, rs1.setWidth 32), (.shamt, shamt.setWidth 32)]
  | .add rd rs1 rs2 => [(.rd, rd.setWidth 32), (.rs1, rs1.setWidth 32), (.rs2, rs2.setWidth 32)]
  | .sub rd rs1 rs2 => [(.rd, rd.setWidth 32), (.rs1, rs1.setWidth 32), (.rs2, rs2.setWidth 32)]
  | .sll rd rs1 rs2 => [(.rd, rd.setWidth 32), (.rs1, rs1.setWidth 32), (.rs2, rs2.setWidth 32)]
  | .slt rd rs1 rs2 => [(.rd, rd.setWidth 32), (.rs1, rs1.setWidth 32), (.rs2, rs2.setWidth 32)]
  | .sltu rd rs1 rs2 => [(.rd, rd.setWidth 32), (.rs1, rs1.setWidth 32), (.rs2, rs2.setWidth 32)]
  | .xor rd rs1 rs2 => [(.rd, rd.setWidth 32), (.rs1, rs1.setWidth 32), (.rs2, rs2.setWidth 32)]
  | .srl rd rs1 rs2 => [(.rd, rd.setWidth 32), (.rs1, rs1.setWidth 32), (.rs2, rs2.setWidth 32)]
  | .sra rd rs1 rs2 => [(.rd, rd.setWidth 32), (.rs1, rs1.setWidth 32), (.rs2, rs2.setWidth 32)]
  | .or rd rs1 rs2 => [(.rd, rd.setWidth 32), (.rs1, rs1.setWidth 32), (.rs2, rs2.setWidth 32)]
  | .and rd rs1 rs2 => [(.rd, rd.setWidth 32), (.rs1, rs1.setWidth 32), (.rs2, rs2.setWidth 32)]
  | .fence rd rs1 fm pred succ => [(.rd, rd.setWidth 32), (.rs1, rs1.setWidth 32), (.fm, fm.setWidth 32), (.pred, pred.setWidth 32), (.succ, succ.setWidth 32)]
  | .ecall => []
  | .ebreak => []
  | .addiw rd rs1 imm => [(.rd, rd.setWidth 32), (.rs1, rs1.setWidth 32), (.imm, imm.setWidth 32)]
  | .slliw rd rs1 shamt => [(.rd, rd.setWidth 32), (.rs1, rs1.setWidth 32), (.shamt, shamt.setWidth 32)]
  | .srliw rd rs1 shamt => [(.rd, rd.setWidth 32), (.rs1, rs1.setWidth 32), (.shamt, shamt.setWidth 32)]
  | .sraiw rd rs1 shamt => [(.rd, rd.setWidth 32), (.rs1, rs1.setWidth 32), (.shamt, shamt.setWidth 32)]
  | .addw rd rs1 rs2 => [(.rd, rd.setWidth 32), (.rs1, rs1.setWidth 32), (.rs2, rs2.setWidth 32)]
  | .subw rd rs1 rs2 => [(.rd, rd.setWidth 32), (.rs1, rs1.setWidth 32), (.rs2, rs2.setWidth 32)]
  | .sllw rd rs1 rs2 => [(.rd, rd.setWidth 32), (.rs1, rs1.setWidth 32), (.rs2, rs2.setWidth 32)]
  | .srlw rd rs1 rs2 => [(.rd, rd.setWidth 32), (.rs1, rs1.setWidth 32), (.rs2, rs2.setWidth 32)]
  | .sraw rd rs1 rs2 => [(.rd, rd.setWidth 32), (.rs1, rs1.setWidth 32), (.rs2, rs2.setWidth 32)]
  | .fenceI rd rs1 imm => [(.rd, rd.setWidth 32), (.rs1, rs1.setWidth 32), (.imm, imm.setWidth 32)]
  | .csrrw rd rs1 csr => [(.rd, rd.setWidth 32), (.rs1, rs1.setWidth 32), (.csr, csr.setWidth 32)]
  | .csrrs rd rs1 csr => [(.rd, rd.setWidth 32), (.rs1, rs1.setWidth 32), (.csr, csr.setWidth 32)]
  | .csrrc rd rs1 csr => [(.rd, rd.setWidth 32), (.rs1, rs1.setWidth 32), (.csr, csr.setWidth 32)]
  | .csrrwi rd uimm csr => [(.rd, rd.setWidth 32), (.uimm, uimm.setWidth 32), (.csr, csr.setWidth 32)]
  | .csrrsi rd uimm csr => [(.rd, rd.setWidth 32), (.uimm, uimm.setWidth 32), (.csr, csr.setWidth 32)]
  | .csrrci rd uimm csr => [(.rd, rd.setWidth 32), (.uimm, uimm.setWidth 32), (.csr, csr.setWidth 32)]
  | .mul rd rs1 rs2 => [(.rd, rd.setWidth 32), (.rs1, rs1.setWidth 32), (.rs2, rs2.setWidth 32)]
  | .mulh rd rs1 rs2 => [(.rd, rd.setWidth 32), (.rs1, rs1.setWidth 32), (.rs2, rs2.setWidth 32)]
  | .mulhsu rd rs1 rs2 => [(.rd, rd.setWidth 32), (.rs1, rs1.setWidth 32), (.rs2, rs2.setWidth 32)]
  | .mulhu rd rs1 rs2 => [(.rd, rd.setWidth 32), (.rs1, rs1.setWidth 32), (.rs2, rs2.setWidth 32)]
  | .div rd rs1 rs2 => [(.rd, rd.setWidth 32), (.rs1, rs1.setWidth 32), (.rs2, rs2.setWidth 32)]
  | .divu rd rs1 rs2 => [(.rd, rd.setWidth 32), (.rs1, rs1.setWidth 32), (.rs2, rs2.setWidth 32)]
  | .rem rd rs1 rs2 => [(.rd, rd.setWidth 32), (.rs1, rs1.setWidth 32), (.rs2, rs2.setWidth 32)]
  | .remu rd rs1 rs2 => [(.rd, rd.setWidth 32), (.rs1, rs1.setWidth 32), (.rs2, rs2.setWidth 32)]
  | .mulw rd rs1 rs2 => [(.rd, rd.setWidth 32), (.rs1, rs1.setWidth 32), (.rs2, rs2.setWidth 32)]
  | .divw rd rs1 rs2 => [(.rd, rd.setWidth 32), (.rs1, rs1.setWidth 32), (.rs2, rs2.setWidth 32)]
  | .divuw rd rs1 rs2 => [(.rd, rd.setWidth 32), (.rs1, rs1.setWidth 32), (.rs2, rs2.setWidth 32)]
  | .remw rd rs1 rs2 => [(.rd, rd.setWidth 32), (.rs1, rs1.setWidth 32), (.rs2, rs2.setWidth 32)]
  | .remuw rd rs1 rs2 => [(.rd, rd.setWidth 32), (.rs1, rs1.setWidth 32), (.rs2, rs2.setWidth 32)]
  | .lrW rd rs1 aq rl => [(.rd, rd.setWidth 32), (.rs1, rs1.setWidth 32), (.aq, aq.setWidth 32), (.rl, rl.setWidth 32)]
  | .scW rd rs1 rs2 aq rl => [(.rd, rd.setWidth 32), (.rs1, rs1.setWidth 32), (.rs2, rs2.setWidth 32), (.aq, aq.setWidth 32), (.rl, rl.setWidth 32)]
  | .amoswapW rd rs1 rs2 aq rl => [(.rd, rd.setWidth 32), (.rs1, rs1.setWidth 32), (.rs2, rs2.setWidth 32), (.aq, aq.setWidth 32), (.rl, rl.setWidth 32)]
  | .amoaddW rd rs1 rs2 aq rl => [(.rd, rd.setWidth 32), (.rs1, rs1.setWidth 32), (.rs2, rs2.setWidth 32), (.aq, aq.setWidth 32), (.rl, rl.setWidth 32)]
  | .amoxorW rd rs1 rs2 aq rl => [(.rd, rd.setWidth 32), (.rs1, rs1.setWidth 32), (.rs2, rs2.setWidth 32), (.aq, aq.setWidth 32), (.rl, rl.setWidth 32)]
  | .amoandW rd rs1 rs2 aq rl => [(.rd, rd.setWidth 32), (.rs1, rs1.setWidth 32), (.rs2, rs2.setWidth 32), (.aq, aq.setWidth 32), (.rl, rl.setWidth 32)]
  | .amoorW rd rs1 rs2 aq rl => [(.rd, rd.setWidth 32), (.rs1, rs1.setWidth 32), (.rs2, rs2.setWidth 32), (.aq, aq.setWidth 32), (.rl, rl.setWidth 32)]
  | .amominW rd rs1 rs2 aq rl => [(.rd, rd.setWidth 32), (.rs1, rs1.setWidth 32), (.rs2, rs2.setWidth 32), (.aq, aq.setWidth 32), (.rl, rl.setWidth 32)]
  | .amomaxW rd rs1 rs2 aq rl => [(.rd, rd.setWidth 32), (.rs1, rs1.setWidth 32), (.rs2, rs2.setWidth 32), (.aq, aq.setWidth 32), (.rl, rl.setWidth 32)]
  | .amominuW rd rs1 rs2 aq rl => [(.rd, rd.setWidth 32), (.rs1, rs1.setWidth 32), (.rs2, rs2.setWidth 32), (.aq, aq.setWidth 32), (.rl, rl.setWidth 32)]
  | .amomaxuW rd rs1 rs2 aq rl => [(.rd, rd.setWidth 32), (.rs1, rs1.setWidth 32), (.rs2, rs2.setWidth 32), (.aq, aq.setWidth 32), (.rl, rl.setWidth 32)]
  | .lrD rd rs1 aq rl => [(.rd, rd.setWidth 32), (.rs1, rs1.setWidth 32), (.aq, aq.setWidth 32), (.rl, rl.setWidth 32)]
  | .scD rd rs1 rs2 aq rl => [(.rd, rd.setWidth 32), (.rs1, rs1.setWidth 32), (.rs2, rs2.setWidth 32), (.aq, aq.setWidth 32), (.rl, rl.setWidth 32)]
  | .amoswapD rd rs1 rs2 aq rl => [(.rd, rd.setWidth 32), (.rs1, rs1.setWidth 32), (.rs2, rs2.setWidth 32), (.aq, aq.setWidth 32), (.rl, rl.setWidth 32)]
  | .amoaddD rd rs1 rs2 aq rl => [(.rd, rd.setWidth 32), (.rs1, rs1.setWidth 32), (.rs2, rs2.setWidth 32), (.aq, aq.setWidth 32), (.rl, rl.setWidth 32)]
  | .amoxorD rd rs1 rs2 aq rl => [(.rd, rd.setWidth 32), (.rs1, rs1.setWidth 32), (.rs2, rs2.setWidth 32), (.aq, aq.setWidth 32), (.rl, rl.setWidth 32)]
  | .amoandD rd rs1 rs2 aq rl => [(.rd, rd.setWidth 32), (.rs1, rs1.setWidth 32), (.rs2, rs2.setWidth 32), (.aq, aq.setWidth 32), (.rl, rl.setWidth 32)]
  | .amoorD rd rs1 rs2 aq rl => [(.rd, rd.setWidth 32), (.rs1, rs1.setWidth 32), (.rs2, rs2.setWidth 32), (.aq, aq.setWidth 32), (.rl, rl.setWidth 32)]
  | .amominD rd rs1 rs2 aq rl => [(.rd, rd.setWidth 32), (.rs1, rs1.setWidth 32), (.rs2, rs2.setWidth 32), (.aq, aq.setWidth 32), (.rl, rl.setWidth 32)]
  | .amomaxD rd rs1 rs2 aq rl => [(.rd, rd.setWidth 32), (.rs1, rs1.setWidth 32), (.rs2, rs2.setWidth 32), (.aq, aq.setWidth 32), (.rl, rl.setWidth 32)]
  | .amominuD rd rs1 rs2 aq rl => [(.rd, rd.setWidth 32), (.rs1, rs1.setWidth 32), (.rs2, rs2.setWidth 32), (.aq, aq.setWidth 32), (.rl, rl.setWidth 32)]
  | .amomaxuD rd rs1 rs2 aq rl => [(.rd, rd.setWidth 32), (.rs1, rs1.setWidth 32), (.rs2, rs2.setWidth 32), (.aq, aq.setWidth 32), (.rl, rl.setWidth 32)]
  | .sret => []
  | .mret => []
  | .wfi => []
  | .sfenceVma rs1 rs2 => [(.rs1, rs1.setWidth 32), (.rs2, rs2.setWidth 32)]
  | .flw rd rs1 imm => [(.rd, rd.setWidth 32), (.rs1, rs1.setWidth 32), (.imm, imm.setWidth 32)]
  | .fsw rs1 rs2 imm => [(.rs1, rs1.setWidth 32), (.rs2, rs2.setWidth 32), (.imm, imm.setWidth 32)]
  | .fmaddS rd rs1 rs2 rs3 rm => [(.rd, rd.setWidth 32), (.rs1, rs1.setWidth 32), (.rs2, rs2.setWidth 32), (.rs3, rs3.setWidth 32), (.rm, rm.setWidth 32)]
  | .fmsubS rd rs1 rs2 rs3 rm => [(.rd, rd.setWidth 32), (.rs1, rs1.setWidth 32), (.rs2, rs2.setWidth 32), (.rs3, rs3.setWidth 32), (.rm, rm.setWidth 32)]
  | .fnmsubS rd rs1 rs2 rs3 rm => [(.rd, rd.setWidth 32), (.rs1, rs1.setWidth 32), (.rs2, rs2.setWidth 32), (.rs3, rs3.setWidth 32), (.rm, rm.setWidth 32)]
  | .fnmaddS rd rs1 rs2 rs3 rm => [(.rd, rd.setWidth 32), (.rs1, rs1.setWidth 32), (.rs2, rs2.setWidth 32), (.rs3, rs3.setWidth 32), (.rm, rm.setWidth 32)]
  | .faddS rd rs1 rs2 rm => [(.rd, rd.setWidth 32), (.rs1, rs1.setWidth 32), (.rs2, rs2.setWidth 32), (.rm, rm.setWidth 32)]
  | .fsubS rd rs1 rs2 rm => [(.rd, rd.setWidth 32), (.rs1, rs1.setWidth 32), (.rs2, rs2.setWidth 32), (.rm, rm.setWidth 32)]
  | .fmulS rd rs1 rs2 rm => [(.rd, rd.setWidth 32), (.rs1, rs1.setWidth 32), (.rs2, rs2.setWidth 32), (.rm, rm.setWidth 32)]
  | .fdivS rd rs1 rs2 rm => [(.rd, rd.setWidth 32), (.rs1, rs1.setWidth 32), (.rs2, rs2.setWidth 32), (.rm, rm.setWidth 32)]
  | .fsqrtS rd rs1 rm => [(.rd, rd.setWidth 32), (.rs1, rs1.setWidth 32), (.rm, rm.setWidth 32)]
  | .fsgnjS rd rs1 rs2 => [(.rd, rd.setWidth 32), (.rs1, rs1.setWidth 32), (.rs2, rs2.setWidth 32)]
  | .fsgnjnS rd rs1 rs2 => [(.rd, rd.setWidth 32), (.rs1, rs1.setWidth 32), (.rs2, rs2.setWidth 32)]
  | .fsgnjxS rd rs1 rs2 => [(.rd, rd.setWidth 32), (.rs1, rs1.setWidth 32), (.rs2, rs2.setWidth 32)]
  | .fminS rd rs1 rs2 => [(.rd, rd.setWidth 32), (.rs1, rs1.setWidth 32), (.rs2, rs2.setWidth 32)]
  | .fmaxS rd rs1 rs2 => [(.rd, rd.setWidth 32), (.rs1, rs1.setWidth 32), (.rs2, rs2.setWidth 32)]
  | .fleS rd rs1 rs2 => [(.rd, rd.setWidth 32), (.rs1, rs1.setWidth 32), (.rs2, rs2.setWidth 32)]
  | .fltS rd rs1 rs2 => [(.rd, rd.setWidth 32), (.rs1, rs1.setWidth 32), (.rs2, rs2.setWidth 32)]
  | .feqS rd rs1 rs2 => [(.rd, rd.setWidth 32), (.rs1, rs1.setWidth 32), (.rs2, rs2.setWidth 32)]
  | .fclassS rd rs1 => [(.rd, rd.setWidth 32), (.rs1, rs1.setWidth 32)]
  | .fcvtWS rd rs1 rm => [(.rd, rd.setWidth 32), (.rs1, rs1.setWidth 32), (.rm, rm.setWidth 32)]
  | .fcvtSW rd rs1 rm => [(.rd, rd.setWidth 32), (.rs1, rs1.setWidth 32), (.rm, rm.setWidth 32)]
  | .fcvtWuS rd rs1 rm => [(.rd, rd.setWidth 32), (.rs1, rs1.setWidth 32), (.rm, rm.setWidth 32)]
  | .fcvtSWu rd rs1 rm => [(.rd, rd.setWidth 32), (.rs1, rs1.setWidth 32), (.rm, rm.setWidth 32)]
  | .fcvtLS rd rs1 rm => [(.rd, rd.setWidth 32), (.rs1, rs1.setWidth 32), (.rm, rm.setWidth 32)]
  | .fcvtSL rd rs1 rm => [(.rd, rd.setWidth 32), (.rs1, rs1.setWidth 32), (.rm, rm.setWidth 32)]
  | .fcvtLuS rd rs1 rm => [(.rd, rd.setWidth 32), (.rs1, rs1.setWidth 32), (.rm, rm.setWidth 32)]
  | .fcvtSLu rd rs1 rm => [(.rd, rd.setWidth 32), (.rs1, rs1.setWidth 32), (.rm, rm.setWidth 32)]
  | .fmvXW rd rs1 => [(.rd, rd.setWidth 32), (.rs1, rs1.setWidth 32)]
  | .fmvWX rd rs1 => [(.rd, rd.setWidth 32), (.rs1, rs1.setWidth 32)]
  | .fld rd rs1 imm => [(.rd, rd.setWidth 32), (.rs1, rs1.setWidth 32), (.imm, imm.setWidth 32)]
  | .fsd rs1 rs2 imm => [(.rs1, rs1.setWidth 32), (.rs2, rs2.setWidth 32), (.imm, imm.setWidth 32)]
  | .fmaddD rd rs1 rs2 rs3 rm => [(.rd, rd.setWidth 32), (.rs1, rs1.setWidth 32), (.rs2, rs2.setWidth 32), (.rs3, rs3.setWidth 32), (.rm, rm.setWidth 32)]
  | .fmsubD rd rs1 rs2 rs3 rm => [(.rd, rd.setWidth 32), (.rs1, rs1.setWidth 32), (.rs2, rs2.setWidth 32), (.rs3, rs3.setWidth 32), (.rm, rm.setWidth 32)]
  | .fnmsubD rd rs1 rs2 rs3 rm => [(.rd, rd.setWidth 32), (.rs1, rs1.setWidth 32), (.rs2, rs2.setWidth 32), (.rs3, rs3.setWidth 32), (.rm, rm.setWidth 32)]
  | .fnmaddD rd rs1 rs2 rs3 rm => [(.rd, rd.setWidth 32), (.rs1, rs1.setWidth 32), (.rs2, rs2.setWidth 32), (.rs3, rs3.setWidth 32), (.rm, rm.setWidth 32)]
  | .faddD rd rs1 rs2 rm => [(.rd, rd.setWidth 32), (.rs1, rs1.setWidth 32), (.rs2, rs2.setWidth 32), (.rm, rm.setWidth 32)]
  | .fsubD rd rs1 rs2 rm => [(.rd, rd.setWidth 32), (.rs1, rs1.setWidth 32), (.rs2, rs2.setWidth 32), (.rm, rm.setWidth 32)]
  | .fmulD rd rs1 rs2 rm => [(.rd, rd.setWidth 32), (.rs1, rs1.setWidth 32), (.rs2, rs2.setWidth 32), (.rm, rm.setWidth 32)]
  | .fdivD rd rs1 rs2 rm => [(.rd, rd.setWidth 32), (.rs1, rs1.setWidth 32), (.rs2, rs2.setWidth 32), (.rm, rm.setWidth 32)]
  | .fsqrtD rd rs1 rm => [(.rd, rd.setWidth 32), (.rs1, rs1.setWidth 32), (.rm, rm.setWidth 32)]
  | .fsgnjD rd rs1 rs2 => [(.rd, rd.setWidth 32), (.rs1, rs1.setWidth 32), (.rs2, rs2.setWidth 32)]
  | .fsgnjnD rd rs1 rs2 => [(.rd, rd.setWidth 32), (.rs1, rs1.setWidth 32), (.rs2, rs2.setWidth 32)]
  | .fsgnjxD rd rs1 rs2 => [(.rd, rd.setWidth 32), (.rs1, rs1.setWidth 32), (.rs2, rs2.setWidth 32)]
  | .fminD rd rs1 rs2 => [(.rd, rd.setWidth 32), (.rs1, rs1.setWidth 32), (.rs2, rs2.setWidth 32)]
  | .fmaxD rd rs1 rs2 => [(.rd, rd.setWidth 32), (.rs1, rs1.setWidth 32), (.rs2, rs2.setWidth 32)]
  | .fleD rd rs1 rs2 => [(.rd, rd.setWidth 32), (.rs1, rs1.setWidth 32), (.rs2, rs2.setWidth 32)]
  | .fltD rd rs1 rs2 => [(.rd, rd.setWidth 32), (.rs1, rs1.setWidth 32), (.rs2, rs2.setWidth 32)]
  | .feqD rd rs1 rs2 => [(.rd, rd.setWidth 32), (.rs1, rs1.setWidth 32), (.rs2, rs2.setWidth 32)]
  | .fclassD rd rs1 => [(.rd, rd.setWidth 32), (.rs1, rs1.setWidth 32)]
  | .fcvtWD rd rs1 rm => [(.rd, rd.setWidth 32), (.rs1, rs1.setWidth 32), (.rm, rm.setWidth 32)]
  | .fcvtDW rd rs1 rm => [(.rd, rd.setWidth 32), (.rs1, rs1.setWidth 32), (.rm, rm.setWidth 32)]
  | .fcvtWuD rd rs1 rm => [(.rd, rd.setWidth 32), (.rs1, rs1.setWidth 32), (.rm, rm.setWidth 32)]
  | .fcvtDWu rd rs1 rm => [(.rd, rd.setWidth 32), (.rs1, rs1.setWidth 32), (.rm, rm.setWidth 32)]
  | .fcvtLD rd rs1 rm => [(.rd, rd.setWidth 32), (.rs1, rs1.setWidth 32), (.rm, rm.setWidth 32)]
  | .fcvtDL rd rs1 rm => [(.rd, rd.setWidth 32), (.rs1, rs1.setWidth 32), (.rm, rm.setWidth 32)]
  | .fcvtLuD rd rs1 rm => [(.rd, rd.setWidth 32), (.rs1, rs1.setWidth 32), (.rm, rm.setWidth 32)]
  | .fcvtDLu rd rs1 rm => [(.rd, rd.setWidth 32), (.rs1, rs1.setWidth 32), (.rm, rm.setWidth 32)]
  | .fcvtSD rd rs1 rm => [(.rd, rd.setWidth 32), (.rs1, rs1.setWidth 32), (.rm, rm.setWidth 32)]
  | .fcvtDS rd rs1 rm => [(.rd, rd.setWidth 32), (.rs1, rs1.setWidth 32), (.rm, rm.setWidth 32)]
  | .fmvXD rd rs1 => [(.rd, rd.setWidth 32), (.rs1, rs1.setWidth 32)]
  | .fmvDX rd rs1 => [(.rd, rd.setWidth 32), (.rs1, rs1.setWidth 32)]
  | .cAddi4spn rd imm => [(.rd, rd.setWidth 32), (.imm, imm.setWidth 32)]
  | .cFld rd rs1 imm => [(.rd, rd.setWidth 32), (.rs1, rs1.setWidth 32), (.imm, imm.setWidth 32)]
  | .cLw rd rs1 imm => [(.rd, rd.setWidth 32), (.rs1, rs1.setWidth 32), (.imm, imm.setWidth 32)]
  | .cLd rd rs1 imm => [(.rd, rd.setWidth 32), (.rs1, rs1.setWidth 32), (.imm, imm.setWidth 32)]
  | .cFsd rs1 rs2 imm => [(.rs1, rs1.setWidth 32), (.rs2, rs2.setWidth 32), (.imm, imm.setWidth 32)]
  | .cSw rs1 rs2 imm => [(.rs1, rs1.setWidth 32), (.rs2, rs2.setWidth 32), (.imm, imm.setWidth 32)]
  | .cSd rs1 rs2 imm => [(.rs1, rs1.setWidth 32), (.rs2, rs2.setWidth 32), (.imm, imm.setWidth 32)]
  | .cNop imm => [(.imm, imm.setWidth 32)]
  | .cAddi rd imm => [(.rd, rd.setWidth 32), (.imm, imm.setWidth 32)]
  | .cAddiw rd imm => [(.rd, rd.setWidth 32), (.imm, imm.setWidth 32)]
  | .cLi rd imm => [(.rd, rd.setWidth 32), (.imm, imm.setWidth 32)]
  | .cAddi16sp imm => [(.imm, imm.setWidth 32)]
  | .cLui rd imm => [(.rd, rd.setWidth 32), (.imm, imm.setWidth 32)]
  | .cSrli rd shamt => [(.rd, rd.setWidth 32), (.shamt, shamt.setWidth 32)]
  | .cSrai rd shamt => [(.rd, rd.setWidth 32), (.shamt, shamt.setWidth 32)]
  | .cAndi rd imm => [(.rd, rd.setWidth 32), (.imm, imm.setWidth 32)]
  | .cSub rd rs2 => [(.rd, rd.setWidth 32), (.rs2, rs2.setWidth 32)]
  | .cXor rd rs2 => [(.rd, rd.setWidth 32), (.rs2, rs2.setWidth 32)]
  | .cOr rd rs2 => [(.rd, rd.setWidth 32), (.rs2, rs2.setWidth 32)]
  | .cAnd rd rs2 => [(.rd, rd.setWidth 32), (.rs2, rs2.setWidth 32)]
  | .cSubw rd rs2 => [(.rd, rd.setWidth 32), (.rs2, rs2.setWidth 32)]
  | .cAddw rd rs2 => [(.rd, rd.setWidth 32), (.rs2, rs2.setWidth 32)]
  | .cJ imm => [(.imm, imm.setWidth 32)]
  | .cBeqz rs1 imm => [(.rs1, rs1.setWidth 32), (.imm, imm.setWidth 32)]
  | .cBnez rs1 imm => [(.rs1, rs1.setWidth 32), (.imm, imm.setWidth 32)]
  | .cSlli rd shamt => [(.rd, rd.setWidth 32), (.shamt, shamt.setWidth 32)]
  | .cFldsp rd imm => [(.rd, rd.setWidth 32), (.imm, imm.setWidth 32)]
  | .cLwsp rd imm => [(.rd, rd.setWidth 32), (.imm, imm.setWidth 32)]
  | .cLdsp rd imm => [(.rd, rd.setWidth 32), (.imm, imm.setWidth 32)]
  | .cJr rs1 => [(.rs1, rs1.setWidth 32)]
  | .cMv rd rs2 => [(.rd, rd.setWidth 32), (.rs2, rs2.setWidth 32)]
  | .cEbreak => []
  | .cJalr rs1 => [(.rs1, rs1.setWidth 32)]
  | .cAdd rd rs2 => [(.rd, rd.setWidth 32), (.rs2, rs2.setWidth 32)]
  | .cFsdsp rs2 imm => [(.rs2, rs2.setWidth 32), (.imm, imm.setWidth 32)]
  | .cSwsp rs2 imm => [(.rs2, rs2.setWidth 32), (.imm, imm.setWidth 32)]
  | .cSdsp rs2 imm => [(.rs2, rs2.setWidth 32), (.imm, imm.setWidth 32)]

/-- The value of the named operand, 0 where the instruction has none of that name. -/
def Instr.operand (i : Instr) (n : OpName) : InstrWord :=
  ((i.operands.find? (fun p => p.1 == n)).map Prod.snd).getD 0

/-- Decode a word of length `len` bits, in mode 64 (30_encoding R153, R155). -/
def decodeWord (disabled : List Mnemonic) (len : Nat) (w : InstrWord) : Except DecodeError Instr :=
  match lookup disabled .m64 len w with
  | .ok d => .ok (d.mnemonic.build (d.value w))
  | .error e => .error e

/-- The length in bits of the instruction whose first parcel is given (30_encoding R159). -/
def parcelLength (p0 : BitVec 16) : Nat := if p0.extractLsb' 0 2 = 3#2 then 32 else 16

/-- Why a list of bytes does not begin with an instruction. -/
inductive BytesError
  | truncated
  | word (e : DecodeError)
  deriving DecidableEq, Repr

/-- Decode the instruction at the head of a list of bytes, lowest address first, each parcel
little-endian (20_memory R103), and answer it with the bytes after it. -/
def decodeBytes (disabled : List Mnemonic) : List Byte → Except BytesError (Instr × List Byte)
  | b0 :: b1 :: rest =>
    if parcelLength (b1 ++ b0) = 16 then
      match decodeWord disabled 16 ((b1 ++ b0).setWidth 32) with
      | .ok i => .ok (i, rest)
      | .error e => .error (.word e)
    else
      match rest with
      | b2 :: b3 :: rest' =>
        match decodeWord disabled 32 (b3 ++ b2 ++ b1 ++ b0) with
        | .ok i => .ok (i, rest')
        | .error e => .error (.word e)
      | _ => .error .truncated
  | _ => .error .truncated

/-- The table's row of a mnemonic. -/
def rowOf (m : Mnemonic) : Option Definition := registry.find? (fun d => d.mnemonic == m)

/-- The instruction's length in bits, 16 or 32. -/
def Instr.length (i : Instr) : Nat :=
  match rowOf i.mnemonic with
  | some d => d.length
  | none => 0

/-- The word of an instruction, a parcel in the low half (30_encoding R161 to R165). -/
def encode (i : Instr) : InstrWord :=
  match rowOf i.mnemonic with
  | some d => d.assemble i.operand
  | none => 0

/-- The bytes of the low `n` bytes of a word, lowest address first (20_memory R103). -/
def wordBytes (n : Nat) (w : InstrWord) : List Byte :=
  (List.range n).map fun k => w.extractLsb' (8 * k) 8

/-- The bytes of an instruction as memory holds them. -/
def encodeBytes (i : Instr) : List Byte := wordBytes (i.length / 8) (encode i)

/-- The bytes of a word whose bits above `nbits` are 0, up to the longest instruction. -/
def tableWordBytes (nbits w : Nat) : List Byte := wordBytes 4 (BitVec.ofNat 32 (w % 2 ^ nbits))

/-- The instruction the decoder reads from an opcode-table word of `nbits` bits. -/
def decodeTableWord (nbits w : Nat) : Option Instr :=
  match decodeBytes [] (tableWordBytes nbits w) with
  | .ok (i, _) => some i
  | .error _ => none

/-- The diagnostic text of an operand: `label=hex` (30_encoding R175). -/
def Operand.dump (o : Operand) (w : InstrWord) : String :=
  o.label ++ "=" ++ String.ofList (Nat.toDigits 16 (o.extract w).toNat)

/-- The diagnostic text of a word: the mnemonic and its operands (30_encoding R175). -/
def dumpWord (disabled : List Mnemonic) (len : Nat) (w : InstrWord) : Option String :=
  match lookup disabled .m64 len w with
  | .ok d => some (d.operands.foldl (fun acc o => acc ++ " " ++ o.dump w) d.text.toLower)
  | .error _ => none

end Sys2Proof
end

