-- ==== Sys2Proof/Machine/State.lean ====
section
/-! DEFINITION. The machine's state as plain data, its state after reset, and the reasons a step can
stop. INVENTORY.md lists every field with the rule that names it. Helper functions that a repair may
have to mend stand in Ops.lean and the files beside it. -/

namespace Sys2Proof.Machine

/-- The privilege levels (10_state R41). `H` is a code only: no rule enters it (60_exceptions R540).
Log 12. -/
inductive Priv
  | U | S | H | M
  deriving DecidableEq, Repr, Inhabited

/-- What a misaligned non-atomic load or store does: the parameter MISALIGNED_DATA (20_memory R105).
Log 2. -/
inductive MisalignedData
  | trap | bytewise
  deriving DecidableEq, Repr, Inhabited

/-- Whether the bytes that a misaligned store wrote before a later byte faulted stay written. The spec
says both: 20_memory R105 and the loop of R107 that they stay, 00_scope R18 and 60_exceptions R523
that an instruction that raises commits none. DESIGN CHOICE: both are modelled; `Platform.reset` follows
R18 and R523. Log 13. -/
inductive PartialStore
  | kept | undone
  deriving DecidableEq, Repr, Inhabited

/-- Which function the open parameter FP_ARITH is: any function at all, or the intended IEEE 754
instantiation (46_float R381). Log 8. -/
inductive FpUnit
  | uninterpreted | ieee754
  deriving DecidableEq, Repr, Inhabited

/-- Who owns a region of physical memory (20_memory R100). -/
inductive RegionKind
  | ram
  | device (d : Nat)
  deriving DecidableEq, Repr, Inhabited

/-- A region of the parameter PMAP: the bytes `base` to `base + size - 1` (20_memory R100). -/
structure Region where
  base : Nat
  size : Nat
  kind : RegionKind
  deriving DecidableEq, Repr, Inhabited

/-- The open parameters of 00_scope R12 that are data, and the reading of a point on which the spec's
rules differ. No step changes them. Logs 1, 2, 3, 8, 10, 13. -/
structure Platform where
  pmap         : List Region
  misaligned   : MisalignedData
  partialStore : PartialStore
  rvcDisabled  : List Mnemonic
  debugger     : Bool
  fpUnit       : FpUnit
  deriving DecidableEq, Repr, Inhabited

/-- The CSRs with storage of their own (10_state R48, R56). -/
inductive CsrReg
  | fcsr | mstatus | medeleg | mideleg | mie | mip
  | mtvec | mcounteren | mscratch | mepc | mcause | mtval
  | stvec | scounteren | sscratch | sepc | scause | stval | satp
  | mcycle | minstret
  deriving DecidableEq, Repr, Inhabited

/-- The storage behind the CSRs; `mstatus` holds the writable bits, `mip` the bits SSIP, STIP and SEIP
(10_state R56, R64, R72). -/
structure CsrFile where
  fcsr       : Word := 0
  mstatus    : Word := 0
  medeleg    : Word := 0
  mideleg    : Word := 0
  mie        : Word := 0
  mip        : Word := 0
  mtvec      : Word := 0
  mcounteren : Word := 0
  mscratch   : Word := 0
  mepc       : Word := 0
  mcause     : Word := 0
  mtval      : Word := 0
  stvec      : Word := 0
  scounteren : Word := 0
  sscratch   : Word := 0
  sepc       : Word := 0
  scause     : Word := 0
  stval      : Word := 0
  satp       : Word := 0
  mcycle     : Word := 0
  minstret   : Word := 0
  deriving DecidableEq, Repr, Inhabited

/-- What an unresolved trap reports to the host (60_exceptions R531). -/
structure HaltReport where
  interrupt : Bool
  code      : Word
  tval      : Word
  epc       : Word
  deriving DecidableEq, Repr, Inhabited

/-- A valid LR/SC reservation: physical address and width in bytes (44_atomics R310). -/
structure Reservation where
  paddr : Word
  width : Nat
  deriving DecidableEq, Repr, Inhabited

/-- One hart's state (10_state R30). `res` is `none` when no reservation is valid; `halted` holds the
report of the unresolved trap that set the flag (10_state R44). -/
structure Hart where
  id       : Nat
  x        : Vector Word 32
  f        : Vector Word 32
  pc       : Word
  priv     : Priv
  csr      : CsrFile
  wfi      : Bool
  semihost : Bool
  halted   : Option HaltReport
  res      : Option Reservation
  deriving DecidableEq, Repr

end Sys2Proof.Machine

namespace Sys2Proof

/-- SEMIHOST, the open host call: it is given the whole hart state and the machine's memory, and the
counter lets two calls with equal arguments differ (45_system R350, 92_eei_decisions D34). Log 9. -/
opaque Config.semihost : (n : Nat) → Machine.Hart → List Host.Cell → SemihostReturn

end Sys2Proof

namespace Sys2Proof.Machine

/-- A TLB entry (20_memory R111). -/
structure TlbEntry where
  pteAddr : Word
  vpn     : Word
  asid    : BitVec 16
  hart    : Nat
  base    : Word
  size    : Word
  raw     : Word
  deriving DecidableEq, Repr, Inhabited

/-- An access a device saw (20_memory R102). Log 15. -/
inductive BusEvent
  | read (device : Nat) (paddr : Word) (width : Nat) (answer : Word)
  | write (device : Nat) (paddr : Word) (width : Nat) (value : Word)
  deriving DecidableEq, Repr

/-- The environment's answers that are already fixed, the next one first. Where the list of a kind is
empty, the draw of that kind is free. Log 6. -/
structure Tape where
  tlbUse     : List Nat := []
  cycle      : List Word := []
  deviceRead : List Word := []
  wake       : List Bool := []
  breakpoint : List Bool := []
  clint      : List ClintSample := []
  schedule   : List Nat := []
  deriving DecidableEq, Repr, Inhabited

/-- What the running step has done so far, read at its end by the counters and the interrupt check
(10_state R81, R82, 60_exceptions R520). Clear between steps. Log 14. -/
structure StepNote where
  retired       : Bool := false
  trapped       : Bool := false
  wroteMcycle   : Bool := false
  wroteMinstret : Bool := false
  deriving DecidableEq, Repr, Inhabited

/-- The machine: the hart that stepped last, or is acted on, the other harts, and what they share
(60_exceptions R550). Each step begins by choosing the hart that takes it (20_memory R127, log 19). -/
structure State where
  hart   : Hart
  others : List Hart
  mem    : List Host.Cell
  tlb    : List TlbEntry
  mtime  : Word
  plat   : Platform
  tape   : Tape
  tick   : Nat
  bus    : List BusEvent
  note   : StepNote
  deriving DecidableEq, Repr

/-- Why a step ends the run. -/
inductive Fault
  /-- Raised by `step` when every hart has halted, so that none may take the step: "a model must treat
  `halted` as a failure of the run" (60_exceptions R531, 20_memory R127). Safe. -/
  | hartHalted
  deriving DecidableEq, Repr

/-- Why a step gives no meaning. -/
inductive Refusal
  /-- Raised by an arm of `exec` for an instruction without a meaning. Safe. -/
  | notModelled (mnemonic : String)
  /-- Raised by `step` when `pc` is odd, which only a host write outside the spec can cause
  (70_reset_and_hazards R584). Safe. -/
  | oddPc
  /-- Raised by `step` on a word that matches two rows of the table, host-fatal and impossible with
  this table (30_encoding R154). Safe. -/
  | ambiguousDecode
  deriving DecidableEq, Repr

/-- The causes of synchronous exceptions that are ever raised (60_exceptions R521). -/
inductive Cause
  | instrAccess | illegalInstr | breakpoint
  | loadMisaligned | loadAccess | storeMisaligned | storeAccess
  | ecallU | ecallS | ecallM
  | instrPage | loadPage | storePage
  deriving DecidableEq, Repr, Inhabited

/-- The interrupts that are ever taken (60_exceptions R533). -/
inductive Irq
  | ssi | msi | sti | mti
  deriving DecidableEq, Repr, Inhabited

/-- A raised exception: its cause and its trap value (00_scope R18). -/
structure Trap where
  cause : Cause
  tval  : Word
  deriving DecidableEq, Repr, Inhabited

/-- The access types of a translation (20_memory R108). -/
inductive Access
  | fetch | read | write
  deriving DecidableEq, Repr, Inhabited

/-- A computation that may raise. The state of `raise` holds only what survives a trap
(20_memory R121). -/
inductive Attempt (α : Type) where
  | ok (a : α) (s : State)
  | raise (t : Trap) (s : State)
  deriving DecidableEq, Repr

/-- What executing an instruction answers. -/
abbrev Result := Host.Outcome State Fault Refusal

/-- A hart right after `reset(entry)` (70_reset_and_hazards R580). -/
def Hart.reset (id : Nat) (entry : Word) : Hart where
  id       := id
  x        := Vector.replicate 32 0
  f        := Vector.replicate 32 0
  pc       := entry
  priv     := .M
  csr      := {}
  wfi      := false
  semihost := false
  halted   := none
  res      := none

/-- The platform of `State.reset`. DESIGN CHOICE for each field. Logs 1, 2, 3, 8, 10, 13. -/
def Platform.reset : Platform where
  pmap         := [⟨Config.ramBase, Config.ramSize, .ram⟩]
  misaligned   := .trap
  partialStore := .undone
  rvcDisabled  := []
  debugger     := false
  fpUnit       := .ieee754

/-- The machine right after reset: one hart, nothing loaded (70_reset_and_hazards R580, R581). The
entry address, the platform, the number of harts and the empty tape are DESIGN CHOICES: logs 1 to 6. -/
def State.reset : State where
  hart   := Hart.reset 0 Config.entryPc
  others := []
  mem    := []
  tlb    := []
  mtime  := 0
  plat   := Platform.reset
  tape   := {}
  tick   := 0
  bus    := []
  note   := {}

end Sys2Proof.Machine
end

