-- ==== Sys2Proof/Machine/Operands.lean ====
section
/-! DEFINITION. Operand forms: extensions, bit fields, register fields, NaN-boxing and rounding modes,
as plain functions on words. -/

namespace Sys2Proof.Machine

/-- The low 32 bits of a word. -/
def low32 (v : Word) : BitVec 32 := v.setWidth 32

/-- `sext_32` of a 32-bit value (00_scope R14). -/
def sext32 (v : BitVec 32) : Word := v.signExtend 64

/-- `zext` of a narrower value to a word (00_scope R14). -/
def zextWord {n : Nat} (v : BitVec n) : Word := v.setWidth 64

/-- `sext` of a narrower value to a word (00_scope R14). -/
def sextWord {n : Nat} (v : BitVec n) : Word := v.signExtend 64

/-- 1 or 0, the result of a comparison (40_integer R204). -/
def boolWord (b : Bool) : Word := if b then 1 else 0

/-- The low `n` bytes of a word, zero-extended (20_memory R103). -/
def lowBytes (n : Nat) (v : Word) : Word := v &&& BitVec.ofNat 64 (2 ^ (8 * n) - 1)

/-- The `n`-bit field of a word whose lowest bit is `lo` (00_scope R13). -/
def field (lo n : Nat) (v : Word) : BitVec n := v.extractLsb' lo n

/-- A word with its `n`-bit field at `lo` replaced. -/
def putField {n : Nat} (lo : Nat) (x : BitVec n) (v : Word) : Word :=
  (v &&& ~~~(BitVec.ofNat 64 (2 ^ n - 1) <<< lo)) ||| (x.setWidth 64 <<< lo)

/-- A bit as a one-bit field. -/
def bit1 (b : Bool) : BitVec 1 := if b then 1 else 0

/-- An even address: bit 0 cleared (41_control R250, 10_state R75). -/
def clearBit0 (v : Word) : Word := v &&& ~~~1#64

/-- The register a 3-bit field names: 8 + r' (30_encoding R164). -/
def primeReg (r : CRegNum) : RegNum := 8#5 + r.setWidth 5

/-- A register number as an index of a register file. -/
def regIndex (r : RegNum) : Fin 32 := ⟨r.toNat, r.isLt⟩

/-- The privilege code (10_state R41). -/
def privBits : Priv → BitVec 2
  | .U => 0
  | .S => 1
  | .H => 2
  | .M => 3

/-- The privilege of a code (10_state R41). -/
def privOf (b : BitVec 2) : Priv :=
  if b = 0 then .U else if b = 1 then .S else if b = 2 then .H else .M

/-- A single-precision value as an FPR holds it (10_state R36). -/
def boxSingle (r : BitVec 32) : Word := 0xFFFFFFFF#32 ++ r

/-- The single-precision value an FPR holds, the canonical NaN when it is not boxed (10_state R36). -/
def unboxSingle (v : Word) : BitVec 32 :=
  if field 32 32 v = 0xFFFFFFFF#32 then low32 v else 0x7FC00000#32

/-- A static rounding mode (46_float R382). -/
def staticMode (rm : BitVec 3) : Option RoundingMode :=
  if rm = 0 then some .rne
  else if rm = 1 then some .rtz
  else if rm = 2 then some .rdn
  else if rm = 3 then some .rup
  else if rm = 4 then some .rmm
  else none

/-- The rounding mode of an `rm` field under the dynamic mode `frm`; `none` is illegal
(46_float R382). -/
def resolveMode (rm frm : BitVec 3) : Option RoundingMode :=
  if rm = 7 then staticMode frm else staticMode rm

end Sys2Proof.Machine
end

