-- ==== Sys2Proof/Machine/Flags.lean ====
section
/-! DEFINITION. The status fields and flags: mstatus (10_state R64, R65), sstatus (R66), fcsr (R60 to
R62). The hart has no integer condition codes (R45). All functions act on the stored word of
`CsrFile.mstatus` or `CsrFile.fcsr`. -/

namespace Sys2Proof.Machine

/-- The writable bits of mstatus (10_state R64). -/
def mstatusWritable : Word := 0x00000000000E79AA#64

/-- The mask of sstatus (10_state R66). -/
def sstatusMask : Word := 0x80000003000DE762#64

/-- mstatus.SIE. -/
def statusSIE (v : Word) : Bool := v.getLsbD 1
/-- mstatus.MIE. -/
def statusMIE (v : Word) : Bool := v.getLsbD 3
/-- mstatus.SPIE. -/
def statusSPIE (v : Word) : Bool := v.getLsbD 5
/-- mstatus.MPIE. -/
def statusMPIE (v : Word) : Bool := v.getLsbD 7
/-- mstatus.SPP: 0 is U, 1 is S. -/
def statusSPP (v : Word) : Bool := v.getLsbD 8
/-- mstatus.MPP. -/
def statusMPP (v : Word) : BitVec 2 := field 11 2 v
/-- mstatus.FS. -/
def statusFS (v : Word) : BitVec 2 := field 13 2 v
/-- mstatus.MPRV. -/
def statusMPRV (v : Word) : Bool := v.getLsbD 17
/-- mstatus.SUM. -/
def statusSUM (v : Word) : Bool := v.getLsbD 18
/-- mstatus.MXR. -/
def statusMXR (v : Word) : Bool := v.getLsbD 19

/-- What a read of mstatus returns: the stored fields, UXL = SXL = 2, SD = (FS = 3)
(10_state R64). -/
def statusView (v : Word) : Word :=
  (v &&& mstatusWritable) ||| 0x0000000A00000000#64 |||
    (if statusFS v = 3 then 0x8000000000000000#64 else 0)

/-- The legalisation of a write to mstatus: bits outside the write mask keep their value, and MPP = 2
keeps the old MPP (10_state R65). -/
def legaliseStatus (old new : Word) : Word :=
  let kept := (old &&& ~~~mstatusWritable) ||| (new &&& mstatusWritable)
  if statusMPP kept = 2 then putField 11 (statusMPP old) kept else kept

/-- The status after a trap into M from privilege `p` (60_exceptions R528). -/
def statusTrapM (p : Priv) (v : Word) : Word :=
  putField 11 (privBits p) (putField 3 0#1 (putField 7 (bit1 (statusMIE v)) v))

/-- The status after a trap into S from privilege `p`, U or S (60_exceptions R528). -/
def statusTrapS (p : Priv) (v : Word) : Word :=
  putField 8 (bit1 (p != .U)) (putField 1 0#1 (putField 5 (bit1 (statusSIE v)) v))

/-- The status after MRET to privilege `p` (45_system R356). -/
def statusMret (p : Priv) (v : Word) : Word :=
  let w := putField 11 0#2 (putField 7 1#1 (putField 3 (bit1 (statusMPIE v)) v))
  if p = .M then w else putField 17 0#1 w

/-- The status after SRET (45_system R357). -/
def statusSret (v : Word) : Word :=
  putField 17 0#1 (putField 8 0#1 (putField 5 1#1 (putField 1 (bit1 (statusSPIE v)) v)))

/-- The status with FS = 3, Dirty (46_float R380, 10_state R59). -/
def statusDirtyFS (v : Word) : Word := putField 13 3#2 v

/-- The accrued exception flags of fcsr (10_state R60). -/
def fcsrFlags (v : Word) : BitVec 5 := field 0 5 v

/-- The dynamic rounding mode of fcsr (10_state R61). -/
def fcsrFrm (v : Word) : BitVec 3 := field 5 3 v

/-- fcsr with more flags accrued; none is ever cleared (46_float R383). -/
def accrueFlags (fl : BitVec 5) (v : Word) : Word := v ||| fl.setWidth 64

end Sys2Proof.Machine
end

