-- ==== Sys2Proof/Machine/Ops.lean ====
section
/-! DEFINITION. The shared operations: memory, registers, draws, taking an exception and returning
from one. Every meaning is written over these. -/

namespace Sys2Proof.Machine

/-! ### Sequencing -/

/-- Run `f` after a computation that did not raise. -/
def Attempt.bind {α β : Type} (c : Attempt α) (f : α → State → Attempt β) : Attempt β :=
  match c with
  | .ok a s => f a s
  | .raise t s => .raise t s

/-! ### One field at a time -/

/-- The hart replaced. -/
def State.setHart (h : Hart) (s : State) : State := { s with hart := h }
/-- The pc replaced. -/
def State.setPc (v : Word) (s : State) : State := { s with hart := { s.hart with pc := v } }
/-- The privilege replaced. -/
def State.setPriv (p : Priv) (s : State) : State := { s with hart := { s.hart with priv := p } }
/-- The CSR storage replaced. -/
def State.setCsrFile (c : CsrFile) (s : State) : State := { s with hart := { s.hart with csr := c } }
/-- The wait-for-interrupt flag replaced. -/
def State.setWfi (b : Bool) (s : State) : State := { s with hart := { s.hart with wfi := b } }
/-- The semihosting flag replaced. -/
def State.setSemihost (b : Bool) (s : State) : State :=
  { s with hart := { s.hart with semihost := b } }
/-- The halted flag and its report replaced. -/
def State.setHalted (r : Option HaltReport) (s : State) : State :=
  { s with hart := { s.hart with halted := r } }
/-- The reservation replaced. -/
def State.setRes (r : Option Reservation) (s : State) : State :=
  { s with hart := { s.hart with res := r } }
/-- The general registers replaced. -/
def State.setGprs (x : Vector Word 32) (s : State) : State := { s with hart := { s.hart with x := x } }
/-- The floating-point registers replaced. -/
def State.setFprs (f : Vector Word 32) (s : State) : State := { s with hart := { s.hart with f := f } }
/-- RAM replaced. -/
def State.setMem (m : List Host.Cell) (s : State) : State := { s with mem := m }
/-- The TLB replaced. -/
def State.setTlb (t : List TlbEntry) (s : State) : State := { s with tlb := t }
/-- The note of the running step replaced. -/
def State.setNote (n : StepNote) (s : State) : State := { s with note := n }

/-! ### Registers -/

/-- `x[r]`: register 0 reads 0 (10_state R32). -/
def readX (r : RegNum) (s : State) : Word := if r = 0 then 0 else s.hart.x[regIndex r]

/-- `x[r] <- v`: a write to register 0 is discarded (10_state R32). -/
def writeX (r : RegNum) (v : Word) (s : State) : State :=
  if r = 0 then s else s.setGprs (s.hart.x.set (regIndex r) v)

/-- `f[r]` (10_state R35). -/
def readF (r : RegNum) (s : State) : Word := s.hart.f[regIndex r]

/-- `f[r] <- v` (10_state R35). -/
def writeF (r : RegNum) (v : Word) (s : State) : State :=
  s.setFprs (s.hart.f.set (regIndex r) v)

/-- The stored value of a CSR. -/
def CsrFile.get (c : CsrFile) : CsrReg → Word
  | .fcsr => c.fcsr
  | .mstatus => c.mstatus
  | .medeleg => c.medeleg
  | .mideleg => c.mideleg
  | .mie => c.mie
  | .mip => c.mip
  | .mtvec => c.mtvec
  | .mcounteren => c.mcounteren
  | .mscratch => c.mscratch
  | .mepc => c.mepc
  | .mcause => c.mcause
  | .mtval => c.mtval
  | .stvec => c.stvec
  | .scounteren => c.scounteren
  | .sscratch => c.sscratch
  | .sepc => c.sepc
  | .scause => c.scause
  | .stval => c.stval
  | .satp => c.satp
  | .mcycle => c.mcycle
  | .minstret => c.minstret

/-- The storage with one CSR replaced. -/
def CsrFile.put (c : CsrFile) (v : Word) : CsrReg → CsrFile
  | .fcsr => { c with fcsr := v }
  | .mstatus => { c with mstatus := v }
  | .medeleg => { c with medeleg := v }
  | .mideleg => { c with mideleg := v }
  | .mie => { c with mie := v }
  | .mip => { c with mip := v }
  | .mtvec => { c with mtvec := v }
  | .mcounteren => { c with mcounteren := v }
  | .mscratch => { c with mscratch := v }
  | .mepc => { c with mepc := v }
  | .mcause => { c with mcause := v }
  | .mtval => { c with mtval := v }
  | .stvec => { c with stvec := v }
  | .scounteren => { c with scounteren := v }
  | .sscratch => { c with sscratch := v }
  | .sepc => { c with sepc := v }
  | .scause => { c with scause := v }
  | .stval => { c with stval := v }
  | .satp => { c with satp := v }
  | .mcycle => { c with mcycle := v }
  | .minstret => { c with minstret := v }

/-- The stored value of a CSR of the stepping hart. -/
def getCsr (r : CsrReg) (s : State) : Word := s.hart.csr.get r

/-- Store a CSR of the stepping hart, with no mask and no check. -/
def setCsr (r : CsrReg) (v : Word) (s : State) : State := s.setCsrFile (s.hart.csr.put v r)

/-! ### Memory -/

/-- The byte at an address; an unlisted one reads 0 (20_memory R101). Log 21. -/
def Memory.readByte : List Host.Cell → Nat → Byte
  | [], _ => 0
  | (k, b) :: m, a => if k = a then b else Memory.readByte m a

/-- Memory with one byte replaced, in canonical form (20_memory R101). -/
def Memory.writeByte : List Host.Cell → Nat → Byte → List Host.Cell
  | [], a, b => if b = 0 then [] else [(a, b)]
  | (k, c) :: m, a, b =>
    if a < k then (if b = 0 then (k, c) :: m else (a, b) :: (k, c) :: m)
    else if a = k then (if b = 0 then m else (a, b) :: m)
    else (k, c) :: Memory.writeByte m a b

/-- The canonical form: addresses strictly rising, no entry that reads as an unlisted one does. -/
abbrev Memory.wf (m : List Host.Cell) : Prop :=
  m.Pairwise (fun c d => c.1 < d.1) ∧ ∀ c ∈ m, c.2 ≠ 0

/-- `n` bytes from `a`, little-endian, zero-extended (20_memory R103). -/
def Memory.readLE (m : List Host.Cell) (a : Nat) : Nat → Word
  | 0 => 0
  | n + 1 => (Memory.readLE m (a + 1) n <<< 8) ||| (Memory.readByte m a).setWidth 64

/-- The low `n` bytes of `v` stored from `a`, little-endian (20_memory R103). -/
def Memory.writeLE (m : List Host.Cell) (a : Nat) : Nat → Word → List Host.Cell
  | 0, _ => m
  | n + 1, v => Memory.writeLE (Memory.writeByte m a (v.setWidth 8)) (a + 1) n (v >>> 8)

/-- A list of cells in canonical form, a later cell winning over an earlier one. -/
def Memory.normalise (m : List Host.Cell) : List Host.Cell :=
  m.foldl (fun acc c => Memory.writeByte acc c.1 c.2) []

/-- Whether a region holds all of `n` bytes from `a`; no address at or above 2^56 exists
(20_memory R100, R109). -/
def Region.holds (r : Region) (a n : Nat) : Bool :=
  decide (r.base ≤ a) && decide (a + n ≤ r.base + r.size) && decide (a + n ≤ 2 ^ 56)

/-- The region that holds all of `n` bytes from `a` (20_memory R100). -/
def findRegion (pmap : List Region) (a n : Nat) : Option Region := pmap.find? (fun r => r.holds a n)

/-- Whether the ranges of `n` bytes from `a` and `k` bytes from `b` share a byte. -/
def rangesOverlap (a n b k : Nat) : Bool := decide (max a b < min (a + n) (b + k))

/-- A hart whose reservation is cleared if it overlaps `n` bytes from `a` (20_memory R132). -/
def Hart.breakReservation (a n : Nat) (h : Hart) : Hart :=
  { h with res := h.res.filter fun r => !rangesOverlap r.paddr.toNat r.width a n }

/-- ClearReservations: every hart's overlapping reservation is cleared, the writer's included
(20_memory R132). -/
def clearReservations (a n : Nat) (s : State) : State :=
  { s with hart := s.hart.breakReservation a n, others := s.others.map (·.breakReservation a n) }

/-! ### Draws (00_scope R12). Log 6. -/

/-- The counter of free draws moved on. -/
def State.nextTick (s : State) : State := { s with tick := s.tick + 1 }

/-- CYCLE (10_state R81). -/
def drawCycle (s : State) : Word × State :=
  match s.tape.cycle with
  | v :: l => (v, { s with tape := { s.tape with cycle := l } })
  | [] => (Config.cycle s.tick, s.nextTick)

/-- TLB_USE (20_memory R112). -/
def drawTlbUse (s : State) : Nat × State :=
  match s.tape.tlbUse with
  | v :: l => (v, { s with tape := { s.tape with tlbUse := l } })
  | [] => (Config.tlbUse s.tick, s.nextTick)

/-- DEVICE_READ (20_memory R102). -/
def drawDeviceRead (s : State) : Word × State :=
  match s.tape.deviceRead with
  | v :: l => (v, { s with tape := { s.tape with deviceRead := l } })
  | [] => (Config.deviceRead s.tick, s.nextTick)

/-- SPURIOUS_WAKE (60_exceptions R536). -/
def drawWake (s : State) : Bool × State :=
  match s.tape.wake with
  | v :: l => (v, { s with tape := { s.tape with wake := l } })
  | [] => (Config.spuriousWake s.tick, s.nextTick)

/-- BREAKPOINT: false with no debugger attached (45_system R351). Log 10. -/
def drawBreakpoint (s : State) : Bool × State :=
  if s.plat.debugger then
    match s.tape.breakpoint with
    | v :: l => (v, { s with tape := { s.tape with breakpoint := l } })
    | [] => (Config.breakpoint s.hart.id s.tick, s.nextTick)
  else (false, s)

/-- Which hart takes the step (20_memory R127). -/
def drawSchedule (s : State) : Nat × State :=
  match s.tape.schedule with
  | v :: l => (v, { s with tape := { s.tape with schedule := l } })
  | [] => (Config.schedule s.tick, s.nextTick)

/-- The raw answer of the platform timer device. -/
def drawClint (s : State) : ClintSample × State :=
  match s.tape.clint with
  | v :: l => (v, { s with tape := { s.tape with clint := l } })
  | [] => (Config.clint s.hart.id s.tick, s.nextTick)

/-- A sample of MTIME, MTIP and MSIP; MTIME never decreases between samples (60_exceptions R547).
Log 7. -/
def sampleClint (s : State) : ClintSample × State :=
  let (c, s') := drawClint s
  let t := if c.mtime < s.mtime then s.mtime else c.mtime
  ({ c with mtime := t }, { s' with mtime := t })

/-! ### The physical interface -/

/-- PhysRead: `n` bytes at a physical address, or nothing where no region holds them. A device answers
with a draw and sees the access (20_memory R100 to R103). Log 15. -/
def physRead (pa : Word) (n : Nat) (s : State) : Option (Word × State) :=
  match findRegion s.plat.pmap pa.toNat n with
  | none => none
  | some r =>
    match r.kind with
    | .ram => some (Memory.readLE s.mem pa.toNat n, s)
    | .device d =>
      let (v, s') := drawDeviceRead s
      some (lowBytes n v, { s' with bus := s'.bus ++ [.read d pa n (lowBytes n v)] })

/-- PhysWrite: the low `n` bytes of `v` at a physical address, or nothing where no region holds them.
A successful write clears the overlapping reservations of every hart (20_memory R100 to R103, R132). -/
def physWrite (pa : Word) (n : Nat) (v : Word) (s : State) : Option State :=
  match findRegion s.plat.pmap pa.toNat n with
  | none => none
  | some r =>
    match r.kind with
    | .ram => some (clearReservations pa.toNat n (s.setMem (Memory.writeLE s.mem pa.toNat n v)))
    | .device d =>
      some (clearReservations pa.toNat n { s with bus := s.bus ++ [.write d pa n (lowBytes n v)] })

/-! ### Taking an exception -/

/-- The code of an exception (60_exceptions R521). -/
def causeCode : Cause → Nat
  | .instrAccess => 1
  | .illegalInstr => 2
  | .breakpoint => 3
  | .loadMisaligned => 4
  | .loadAccess => 5
  | .storeMisaligned => 6
  | .storeAccess => 7
  | .ecallU => 8
  | .ecallS => 9
  | .ecallM => 11
  | .instrPage => 12
  | .loadPage => 13
  | .storePage => 15

/-- The code of an interrupt (60_exceptions R521). -/
def irqCode : Irq → Nat
  | .ssi => 1
  | .msi => 3
  | .sti => 5
  | .mti => 7

/-- Target: S only below M and when the cause is delegated (60_exceptions R527). -/
def trapTarget (interrupt : Bool) (code : Nat) (s : State) : Priv :=
  let deleg := if interrupt then getCsr .mideleg s else getCsr .medeleg s
  if (s.hart.priv = .U ∨ s.hart.priv = .S) ∧ deleg.getLsbD code = true then .S else .M

/-- The vector register of a target (10_state R74). -/
def trapVector (x : Priv) (s : State) : Word :=
  if x = .S then getCsr .stvec s else getCsr .mtvec s

/-- The base of a vector register (10_state R74). -/
def vectorBase (tvec : Word) : Word := tvec &&& ~~~3#64

/-- VectorTarget (60_exceptions R530). -/
def vectorTarget (tvec : Word) (interrupt : Bool) (code : Nat) : Word :=
  if tvec.getLsbD 0 && interrupt then vectorBase tvec + 4#64 * BitVec.ofNat 64 code
  else vectorBase tvec

/-- The cause register's value: the interrupt bit and the code (10_state R76). -/
def causeWord (interrupt : Bool) (code : Nat) : Word :=
  (if interrupt then 0x8000000000000000#64 else 0) ||| BitVec.ofNat 64 code

/-- The hart after an unresolved trap: halted, with the report, and with the registers the spec leaves
unspecified free among their legal values (60_exceptions R531). Log 11. -/
def unresolvedTrap (x : Priv) (interrupt : Bool) (code : Nat) (tval epc : Word) (s : State) : State :=
  let free := fun k => Config.unspecified (s.tick + k)
  let p := privOf (field 0 2 (free 1))
  let s1 := (s.setPc (clearBit0 (free 0))).setPriv (if p = .H then s.hart.priv else p)
  let s2 := setCsr .mstatus (legaliseStatus (getCsr .mstatus s) (free 2)) s1
  let s3 :=
    if x = .S then setCsr .sepc (clearBit0 (free 3)) (setCsr .scause (free 4) (setCsr .stval (free 5) s2))
    else setCsr .mepc (clearBit0 (free 3)) (setCsr .mcause (free 4) (setCsr .mtval (free 5) s2))
  { s3.setHalted (some ⟨interrupt, BitVec.ofNat 64 code, tval, epc⟩) with tick := s.tick + 6 }

/-- The registers a trap into `x` writes: epc, cause, tval and the status (60_exceptions R528). -/
def saveTrap (x : Priv) (interrupt : Bool) (code : Nat) (tval epc : Word) (s : State) : State :=
  if x = .S then
    setCsr .mstatus (statusTrapS s.hart.priv (getCsr .mstatus s))
      (setCsr .stval tval (setCsr .scause (causeWord interrupt code) (setCsr .sepc (clearBit0 epc) s)))
  else
    setCsr .mstatus (statusTrapM s.hart.priv (getCsr .mstatus s))
      (setCsr .mtval tval (setCsr .mcause (causeWord interrupt code) (setCsr .mepc (clearBit0 epc) s)))

/-- TrapEntry (60_exceptions R527 to R531): taking an exception or an interrupt. -/
def trapEntry (interrupt : Bool) (code : Nat) (tval epc : Word) (s : State) : State :=
  let x := trapTarget interrupt code s
  let tvec := trapVector x s
  if vectorBase tvec = 0 then unresolvedTrap x interrupt code tval epc s
  else
    ((((saveTrap x interrupt code tval epc s).setPriv x).setPc
      (vectorTarget tvec interrupt code)).setWfi false).setRes none

/-- A raised exception is taken at the end of its instruction: epc is the instruction's address, and
the step has trapped (60_exceptions R520, R529). -/
def takeException (t : Trap) (s : State) : State :=
  let s' := trapEntry false (causeCode t.cause) t.tval s.hart.pc s
  s'.setNote { s'.note with trapped := true }

/-- The return of MRET: privilege, enables, MPRV, reservation and pc (45_system R353, R356). -/
def returnM (s : State) : State :=
  let p := privOf (statusMPP (getCsr .mstatus s))
  (((setCsr .mstatus (statusMret p (getCsr .mstatus s)) s).setRes none).setPriv p).setPc
    (getCsr .mepc s)

/-- The return of SRET (45_system R353, R357). -/
def returnS (s : State) : State :=
  let p := if statusSPP (getCsr .mstatus s) then Priv.S else Priv.U
  (((setCsr .mstatus (statusSret (getCsr .mstatus s)) s).setRes none).setPriv p).setPc
    (getCsr .sepc s)

/-! ### Ending an instruction -/

/-- The instruction has retired (10_state R82). -/
def noteRetired (s : State) : State := s.setNote { s.note with retired := true }

/-- Retire with `pc <- target` (10_state R37). -/
def retireTo (target : Word) (s : State) : State := noteRetired (s.setPc target)

/-- Retire with `pc <- pc + len` (10_state R37, R38). -/
def retire (len : Word) (s : State) : State := retireTo (s.hart.pc + len) s

/-- Write `x[rd]` and retire. -/
def retireX (len : Word) (rd : RegNum) (v : Word) (s : State) : State := retire len (writeX rd v s)

/-- What `exec` answers for an instruction that may raise: the state it commits, or the state after
taking the exception (60_exceptions R520). -/
def settle (c : Attempt Unit) : Result :=
  match c with
  | .ok _ s => .next s
  | .raise t s => .next (takeException t s)

/-- An illegal-instruction exception whose tval is the instruction word (60_exceptions R522).
Log 17. -/
def illegalWord (i : Instr) : Trap := ⟨.illegalInstr, (encode i).setWidth 64⟩

end Sys2Proof.Machine
end

