-- ==== Sys2Proof/Machine/Mmu.lean ====
section
/-! DEFINITION. Address translation, the TLB, and the virtual access primitives of every load, store
and fetch (20_memory R105 to R124). -/

namespace Sys2Proof.Machine

/-- The page fault of an access type (20_memory R122). -/
def pageFault (acc : Access) (va : Word) : Trap :=
  match acc with
  | .fetch => ⟨.instrPage, va⟩
  | .read => ⟨.loadPage, va⟩
  | .write => ⟨.storePage, va⟩

/-- The access fault of an access type (20_memory R122). -/
def accessFault (acc : Access) (va : Word) : Trap :=
  match acc with
  | .fetch => ⟨.instrAccess, va⟩
  | .read => ⟨.loadAccess, va⟩
  | .write => ⟨.storeAccess, va⟩

/-- The effective privilege of an access (20_memory R108). -/
def effectivePriv (acc : Access) (s : State) : Priv :=
  let st := getCsr .mstatus s
  if acc ≠ .fetch ∧ s.hart.priv = .M ∧ statusMPRV st = true then privOf (statusMPP st)
  else s.hart.priv

/-- satp.MODE (10_state R80). -/
def satpMode (v : Word) : BitVec 4 := field 60 4 v
/-- satp.ASID (10_state R80). -/
def satpAsid (v : Word) : BitVec 16 := field 44 16 v
/-- satp.PPN (10_state R80). -/
def satpPpn (v : Word) : BitVec 44 := field 0 44 v

/-- The number of levels of a translation mode; `none` is bare (20_memory R109, R110). A mode satp
cannot hold counts as bare: log 27. -/
def modeLevels (mode : BitVec 4) : Option Nat :=
  if mode = 8 then some 3
  else if mode = 9 then some 4
  else if mode = 10 then some 5
  else none

/-- Whether the bits of `va` from the top of a virtual address of `levels` levels up are all equal
(20_memory R110). -/
def canonical (levels : Nat) (va : Word) : Bool :=
  let top := va.sshiftRight (11 + 9 * levels)
  top == 0 || top == BitVec.allOnes 64

/-- The page-table index of a level (20_memory R110). -/
def vpnIndex (level : Nat) (va : Word) : Word := zextWord (field (12 + 9 * level) 9 va)

/-! The fields of a PTE (20_memory R116). -/

/-- Valid. -/
def pteV (p : Word) : Bool := p.getLsbD 0
/-- Readable. -/
def pteR (p : Word) : Bool := p.getLsbD 1
/-- Writable. -/
def pteW (p : Word) : Bool := p.getLsbD 2
/-- Executable. -/
def pteX (p : Word) : Bool := p.getLsbD 3
/-- Accessible in U-mode. -/
def pteU (p : Word) : Bool := p.getLsbD 4
/-- Global. -/
def pteG (p : Word) : Bool := p.getLsbD 5
/-- Accessed. -/
def pteA (p : Word) : Bool := p.getLsbD 6
/-- Dirty. -/
def pteD (p : Word) : Bool := p.getLsbD 7
/-- The physical page number. -/
def ptePpn (p : Word) : BitVec 44 := field 10 44 p
/-- The address a PTE's page number names. -/
def pteBase (p : Word) : Word := zextWord (ptePpn p) <<< 12

/-- CheckPerm: whether the access is allowed (20_memory R117). -/
def permits (pte : Word) (acc : Access) (p : Priv) (status : Word) : Bool :=
  !(p == .U && !pteU pte) &&
  !(p == .S && pteU pte && (acc == .fetch || !statusSUM status)) &&
  !(acc == .fetch && !pteX pte) &&
  !(acc == .read && !pteR pte && !(statusMXR status && pteX pte)) &&
  !(acc == .write && !pteW pte)

/-- The PTE with A, and D for a write, set (20_memory R118). -/
def touchPte (pte : Word) (acc : Access) : Word :=
  pte ||| 0x40#64 ||| (if acc = .write then 0x80#64 else 0)

/-- Whether an access must set A or D (20_memory R118). -/
def needsTouch (pte : Word) (acc : Access) : Bool := !pteA pte || (acc == .write && !pteD pte)

/-- UpdateAD: the PTE after the access, written back when a bit was set (20_memory R118). -/
def updateAD (pte pteAddr : Word) (acc : Access) (va : Word) (s : State) : Attempt Word :=
  if needsTouch pte acc then
    match physWrite pteAddr 8 (touchPte pte acc) s with
    | some s' => .ok (touchPte pte acc) s'
    | none => .raise (accessFault acc va) s
  else .ok pte s

/-! ### The TLB -/

/-- Whether the entry's page holds virtual page `vpn` (20_memory R111). -/
def TlbEntry.covers (e : TlbEntry) (vpn : Word) : Bool :=
  let k := e.size.toNat.log2 - 12
  vpn >>> k == e.vpn >>> k

/-- Whether an access of hart `h` under address space `asid` may use the entry (20_memory R112). -/
def TlbEntry.usable (e : TlbEntry) (h : Nat) (asid : BitVec 16) (vpn : Word) : Bool :=
  e.hart == h && e.covers vpn && (e.asid == asid || pteG e.raw)

/-- Whether two entries have the same key (20_memory R120). -/
def TlbEntry.sameKey (e d : TlbEntry) : Bool :=
  e.vpn == d.vpn && e.asid == d.asid && e.hart == d.hart

/-- TlbInstall: an entry of the same key is replaced (20_memory R120). -/
def tlbInstall (e : TlbEntry) (s : State) : State :=
  s.setTlb (e :: s.tlb.filter fun d => !d.sameKey e)

/-- The entry's stored PTE replaced (20_memory R118). -/
def tlbSetRaw (e : TlbEntry) (raw : Word) (s : State) : State :=
  s.setTlb (s.tlb.map fun d => if d = e then { d with raw := raw } else d)

/-- Whether SFENCE.VMA by hart `h` removes the entry (20_memory R123). -/
def TlbEntry.flushed (e : TlbEntry) (h : Nat) (vaddr : Word) (asid : BitVec 16) : Bool :=
  e.hart == h && (vaddr == 0 || e.covers (vaddr >>> 12)) &&
    (asid == 0 || e.asid == asid || pteG e.raw)

/-- `flush(hart, vaddr, asid)` (20_memory R123, R124). -/
def tlbFlush (h : Nat) (vaddr : Word) (asid : BitVec 16) (s : State) : State :=
  s.setTlb (s.tlb.filter fun e => !e.flushed h vaddr asid)

/-- The usable entry this access uses, if any: the draw is made only where one exists
(20_memory R112). Log 22. -/
def tlbChoose (va : Word) (s : State) : Option TlbEntry × State :=
  match s.tlb.filter (fun e => e.usable s.hart.id (satpAsid (getCsr .satp s)) (va >>> 12)) with
  | [] => (none, s)
  | e :: es =>
    let (k, s') := drawTlbUse s
    ((e :: es)[k]?, s')

/-- What a translation answers: the physical address, and the address of the PTE it wrote back, if it
did. -/
structure Translated where
  pa   : Word
  back : Option Word
  deriving DecidableEq, Repr

/-- The address UpdateAD wrote back to, having turned `old` into `new` (20_memory R118). -/
def writtenBack (old new pteAddr : Word) : Option Word := if new = old then none else some pteAddr

/-- A hit: permissions and A/D on the entry's own PTE (20_memory R113). -/
def tlbHit (e : TlbEntry) (va : Word) (acc : Access) (p : Priv) (s : State) : Attempt Translated :=
  if permits e.raw acc p (getCsr .mstatus s) then
    (updateAD e.raw e.pteAddr acc va s).bind fun raw s' =>
      .ok ⟨e.base + (va &&& (e.size - 1)), writtenBack e.raw raw e.pteAddr⟩ (tlbSetRaw e raw s')
  else .raise (pageFault acc va) s

/-! ### The walk -/

/-- The size of a leaf's page at a level (20_memory R119). -/
def pageSize (level : Nat) : Word := 4096#64 <<< (9 * level)

/-- Whether a leaf at a level has its low page-number bits zero (20_memory R115). -/
def superpageAligned (level : Nat) (pte : Word) : Bool :=
  (ptePpn pte).toNat % 2 ^ (9 * level) == 0

/-- Walk from the table at `table`, `levels` levels left (20_memory R115). -/
def walk (va : Word) (acc : Access) (p : Priv) : Nat → Word → State → Attempt Translated
  | 0, _, s => .raise (pageFault acc va) s
  | level + 1, table, s =>
    let pteAddr := table + vpnIndex level va * 8#64
    match physRead pteAddr 8 s with
    | none => .raise (accessFault acc va) s
    | some (pte, s1) =>
      if !pteV pte || (pteW pte && !pteR pte) then .raise (pageFault acc va) s1
      else if pteR pte || pteX pte then
        if !permits pte acc p (getCsr .mstatus s1) then .raise (pageFault acc va) s1
        else if !superpageAligned level pte then .raise (pageFault acc va) s1
        else
          (updateAD pte pteAddr acc va s1).bind fun pte' s2 =>
            let e : TlbEntry :=
              { pteAddr := pteAddr, vpn := va >>> 12, asid := satpAsid (getCsr .satp s2),
                hart := s2.hart.id, base := pteBase pte, size := pageSize level, raw := pte' }
            .ok ⟨pteBase pte + (va &&& (pageSize level - 1)), writtenBack pte pte' pteAddr⟩
              (tlbInstall e s2)
      else walk va acc p level (pteBase pte) s1

/-- The levels of the active translation of an access; `none` where translation is the identity
(20_memory R109). -/
def activeLevels (acc : Access) (s : State) : Option Nat :=
  match effectivePriv acc s with
  | .M => none
  | .H => none
  | .S => modeLevels (satpMode (getCsr .satp s))
  | .U => modeLevels (satpMode (getCsr .satp s))

/-- Translate, with what it wrote back (20_memory R108 to R115). -/
def translation (va : Word) (acc : Access) (s : State) : Attempt Translated :=
  match activeLevels acc s with
  | none => .ok ⟨va, none⟩ s
  | some levels =>
    if !canonical levels va then .raise (pageFault acc va) s
    else
      match tlbChoose va s with
      | (some e, s') => tlbHit e va acc (effectivePriv acc s) s'
      | (none, s') =>
        walk va acc (effectivePriv acc s) levels (zextWord (satpPpn (getCsr .satp s)) <<< 12) s'

/-- Translate: the physical address alone (20_memory R108). -/
def translate (va : Word) (acc : Access) (s : State) : Attempt Word :=
  (translation va acc s).bind fun r s' => .ok r.pa s'

/-! ### Virtual accesses (20_memory R107) -/

/-- Whether an access of `n` bytes is aligned (20_memory R105). -/
def aligned (va : Word) (n : Nat) : Bool := va.toNat % n == 0

/-- One translated read. -/
def readAt (va : Word) (n : Nat) (acc : Access) (s : State) : Attempt Word :=
  (translate va acc s).bind fun pa s1 =>
    match physRead pa n s1 with
    | some (v, s2) => .ok v s2
    | none => .raise (accessFault acc va) s1

/-- One translated write. -/
def writeAt (va : Word) (n : Nat) (v : Word) (s : State) : Attempt Unit :=
  (translate va .write s).bind fun pa s1 =>
    match physWrite pa n v s1 with
    | some s2 => .ok () s2
    | none => .raise (accessFault .write va) s1

/-- `n` one-byte reads in ascending order (20_memory R105). DESIGN CHOICE: where a byte faults, the
devices have seen the reads before it, whatever `partialStore` is. Log 35. -/
def readBytewise (va : Word) : Nat → State → Attempt Word
  | 0, s => .ok 0 s
  | n + 1, s =>
    (readAt va 1 .read s).bind fun b s1 =>
      (readBytewise (va + 1) n s1).bind fun v s2 => .ok ((v <<< 8) ||| b) s2

/-- `n` one-byte writes in ascending order; the bytes before a failing one stay written
(20_memory R105, R107). -/
def writeBytewise (va : Word) : Nat → Word → State → Attempt Unit
  | 0, _, s => .ok () s
  | n + 1, v, s =>
    (writeAt va 1 (lowBytes 1 v) s).bind fun _ s1 => writeBytewise (va + 1) n (v >>> 8) s1

/-- RAM and the device events as they are without the bytes of a store that may still raise. -/
structure Survivors where
  mem : List Host.Cell
  bus : List BusEvent
  deriving DecidableEq, Repr

/-- A translation from `s` to `t` survives: the whole PTE it wrote back, as it stands in the RAM of
`t`, and the events of devices (20_memory R118, R121). -/
def Survivors.keep (k : Survivors) (back : Option Word) (s t : State) : Survivors where
  mem :=
    match back with
    | none => k.mem
    | some a =>
      match findRegion t.plat.pmap a.toNat 8 with
      | some ⟨_, _, .ram⟩ => Memory.writeLE k.mem a.toNat 8 (Memory.readLE t.mem a.toNat 8)
      | _ => k.mem
  bus := k.bus ++ t.bus.drop s.bus.length

/-- `s` with only what survives. -/
def Survivors.putIn (k : Survivors) (s : State) : State := { s with mem := k.mem, bus := k.bus }

/-- `writeBytewise`, except that where a byte faults none of the store's own bytes is committed and no
reservation is cleared for them: what survives, kept apart in `k`, is the A/D write-backs and TLB
installs of the translations made (60_exceptions R520, R523, 20_memory R121). The bytes are written,
and so seen by the later translations, in the order of R107. DESIGN CHOICE: that order where a byte
falls on a PTE that a later byte's translation uses, and that a write-back survives as the whole PTE
it wrote, bytes of the store that the PTE took in included. Log 13. -/
def writePrecise (va : Word) : Nat → Word → Survivors → State → Attempt Unit
  | 0, _, _, s => .ok () s
  | n + 1, v, k, s =>
    match translation va .write s with
    | .raise tr s1 => .raise tr ((k.keep none s s1).putIn s1)
    | .ok r s1 =>
      let k1 := k.keep r.back s s1
      match physWrite r.pa 1 (lowBytes 1 v) s1 with
      | none => .raise (accessFault .write va) (k1.putIn s1)
      | some s2 =>
        match writePrecise (va + 1) n (v >>> 8) k1 { s2 with hart := s1.hart, others := s1.others } with
        | .ok _ t => .ok () (clearReservations r.pa.toNat 1 t)
        | .raise tr t => .raise tr t

/-- A misaligned store in bytes. Where a byte faults, nothing of the store survives but what its
translations did (`undone`: 00_scope R18, 60_exceptions R523, 92_eei_decisions D39), or the bytes
already written stay written too (`kept`: 20_memory R105, R107). Log 13. -/
def storeBytewise (va : Word) (n : Nat) (v : Word) (s : State) : Attempt Unit :=
  match s.plat.partialStore with
  | .kept => writeBytewise va n v s
  | .undone => writePrecise va n v ⟨s.mem, s.bus⟩ s

/-- MemRead (20_memory R105, R107). -/
def memRead (va : Word) (n : Nat) (s : State) : Attempt Word :=
  if aligned va n then readAt va n .read s
  else if s.plat.misaligned = .trap then .raise ⟨.loadMisaligned, va⟩ s
  else readBytewise va n s

/-- MemWrite (20_memory R105, R107). -/
def memWrite (va : Word) (n : Nat) (v : Word) (s : State) : Attempt Unit :=
  if aligned va n then writeAt va n v s
  else if s.plat.misaligned = .trap then .raise ⟨.storeMisaligned, va⟩ s
  else storeBytewise va n v s

end Sys2Proof.Machine
end

