-- ==== Sys2Proof/Machine/Csr.lean ====
section
/-! DEFINITION. The CSR file: presence and metadata, the read and write algorithms, and the shared
operation of the CSR instructions (10_state R47 to R82, 45_system R342). -/

namespace Sys2Proof.Machine

/-- The CSRs whose reads are computed (10_state R48). -/
inductive ComputedCsr
  | frm | cycle | time | instret | misa | mip | zero | hartId
  deriving DecidableEq, Repr

/-- What an alias chain ends in: storage, or a computed CSR (10_state R50). -/
inductive CsrHome
  | plain (r : CsrReg)
  | computed (c : ComputedCsr)
  deriving DecidableEq, Repr

/-- The kind of a present CSR (10_state R48). -/
inductive CsrKind
  | home (h : CsrHome)
  | aliasOf (base : CsrAddr)
  deriving DecidableEq, Repr

/-- A present CSR's metadata; the masks of a read and of a write differ for mstatus, sip and mip
(10_state R48, R56). Log 16. -/
structure CsrMeta where
  addr      : CsrAddr
  kind      : CsrKind
  readMask  : Word
  writeMask : Word
  deriving DecidableEq, Repr

/-- A CSR with storage. -/
def plainCsr (a : CsrAddr) (r : CsrReg) (mask : Word) : CsrMeta := ⟨a, .home (.plain r), mask, mask⟩

/-- A computed CSR. -/
def computedCsr (a : CsrAddr) (c : ComputedCsr) (read write : Word) : CsrMeta :=
  ⟨a, .home (.computed c), read, write⟩

/-- A view of another CSR. -/
def aliasCsr (a base : CsrAddr) (read write : Word) : CsrMeta := ⟨a, .aliasOf base, read, write⟩

/-- All ones. -/
def allOnes64 : Word := BitVec.allOnes 64

/-- The U-level rows of 10_state R56. -/
def csrRowsU : List CsrMeta := [
  aliasCsr 0x001 0x003 0x1f 0x1f,
  computedCsr 0x002 .frm 0x7 0x7,
  plainCsr 0x003 .fcsr 0xff,
  computedCsr 0xC00 .cycle allOnes64 allOnes64,
  computedCsr 0xC01 .time allOnes64 allOnes64,
  computedCsr 0xC02 .instret allOnes64 allOnes64]

/-- The S-level rows of 10_state R56. -/
def csrRowsS : List CsrMeta := [
  aliasCsr 0x100 0x300 sstatusMask sstatusMask,
  aliasCsr 0x104 0x304 0x222 0x222,
  plainCsr 0x105 .stvec 0xfffffffffffffffd,
  plainCsr 0x106 .scounteren 0x7,
  plainCsr 0x140 .sscratch allOnes64,
  plainCsr 0x141 .sepc 0xfffffffffffffffe,
  plainCsr 0x142 .scause allOnes64,
  plainCsr 0x143 .stval allOnes64,
  aliasCsr 0x144 0x344 0x222 0x2,
  plainCsr 0x180 .satp allOnes64]

/-- The M-level rows of 10_state R56. -/
def csrRowsM : List CsrMeta := [
  computedCsr 0xF11 .zero allOnes64 allOnes64,
  computedCsr 0xF12 .zero allOnes64 allOnes64,
  computedCsr 0xF13 .zero allOnes64 allOnes64,
  computedCsr 0xF14 .hartId allOnes64 allOnes64,
  computedCsr 0xF15 .zero allOnes64 allOnes64,
  ⟨0x300, .home (.plain .mstatus), allOnes64, mstatusWritable⟩,
  computedCsr 0x301 .misa allOnes64 allOnes64,
  plainCsr 0x302 .medeleg 0xb3ff,
  plainCsr 0x303 .mideleg 0x222,
  plainCsr 0x304 .mie 0xaaa,
  plainCsr 0x305 .mtvec 0xfffffffffffffffd,
  plainCsr 0x306 .mcounteren 0x7,
  plainCsr 0x340 .mscratch allOnes64,
  plainCsr 0x341 .mepc 0xfffffffffffffffe,
  plainCsr 0x342 .mcause allOnes64,
  plainCsr 0x343 .mtval allOnes64,
  computedCsr 0x344 .mip allOnes64 0x222,
  plainCsr 0xB00 .mcycle allOnes64,
  plainCsr 0xB02 .minstret allOnes64]

/-- The present CSRs: the 35 rows of the table of 10_state R56; every other address is absent (R58).
DESIGN CHOICE: R56's text, 92_eei_decisions D35 and 70_reset_and_hazards R580 count 33, and the table
is followed. Log 33. -/
def csrTable : List CsrMeta := csrRowsU ++ csrRowsS ++ csrRowsM

/-- The metadata of an address, if it is present (10_state R47). -/
def csrFind (a : CsrAddr) : Option CsrMeta := csrTable.find? (fun m => m.addr == a)

/-- The lowest privilege that may access an address (10_state R49). -/
def csrPriv (a : CsrAddr) : BitVec 2 := a.extractLsb' 8 2

/-- Whether an address is read-only (10_state R49). -/
def csrReadOnly (a : CsrAddr) : Bool := a.extractLsb' 10 2 == 3#2

/-- The end of an alias chain and the AND of the masks along it; nothing when the chain is broken
(10_state R50). The fuel bounds the chain; no chain of the table is longer than one. -/
def resolveAlias : Nat → CsrKind → Word → Option (CsrHome × Word)
  | _, .home h, mask => some (h, mask)
  | 0, .aliasOf _, _ => none
  | fuel + 1, .aliasOf b, mask =>
    match csrFind b with
    | none => none
    | some m => resolveAlias fuel m.kind (mask &&& m.readMask)

/-- What misa reads (10_state R67). -/
def misaValue : Word := 0x800000000014112D#64

/-- What mip reads, of the stored bits and a sample (10_state R72). -/
def mipValue (stored : Word) (c : ClintSample) : Word :=
  stored ||| (if c.msip then 0x8#64 else 0) ||| (if c.mtip then 0x80#64 else 0)

/-- The value a CSR's storage or its supplier gives (10_state R50). -/
def homeRead (h : CsrHome) (s : State) : Word × State :=
  match h with
  | .plain .mstatus => (statusView (getCsr .mstatus s), s)
  | .plain r => (getCsr r s, s)
  | .computed .frm => (zextWord (fcsrFrm (getCsr .fcsr s)), s)
  | .computed .cycle => (getCsr .mcycle s, s)
  | .computed .instret => (getCsr .minstret s, s)
  | .computed .misa => (misaValue, s)
  | .computed .zero => (0, s)
  | .computed .hartId => (BitVec.ofNat 64 s.hart.id, s)
  | .computed .time =>
    let (c, s') := sampleClint s
    (c.mtime, s')
  | .computed .mip =>
    let (c, s') := sampleClint s
    (mipValue (getCsr .mip s) c, s')

/-- The legalisation of a write to storage: identity but for mstatus and satp (10_state R51, R65,
R80). -/
def legalise (r : CsrReg) (old new : Word) : Word :=
  match r with
  | .mstatus => legaliseStatus old new
  | .satp => if satpMode new = 0 || (modeLevels (satpMode new)).isSome then new else old
  | _ => new

/-- Whether a computed CSR has a setter (10_state R51). -/
def hasSetter : ComputedCsr → Bool
  | .frm => true
  | .misa => true
  | .mip => true
  | .cycle => false
  | .time => false
  | .instret => false
  | .zero => false
  | .hartId => false

/-- The setter of a computed CSR (10_state R61, R67, R72). -/
def computedWrite (c : ComputedCsr) (v : Word) (s : State) : State :=
  match c with
  | .frm => setCsr .fcsr (putField 5 (field 0 3 v) (getCsr .fcsr s)) s
  | .mip => setCsr .mip (v &&& 0x222) s
  | _ => s

/-- Merge a value into the home of an alias chain under a mask (10_state R51). -/
def homeWrite (h : CsrHome) (mask v : Word) (s : State) : State :=
  match h with
  | .plain r =>
    let old := getCsr r s
    setCsr r (legalise r old ((old &&& ~~~mask) ||| (v &&& mask))) s
  | .computed .mip => computedWrite .mip ((getCsr .mip s &&& ~~~mask) ||| (v &&& mask)) s
  | .computed c => computedWrite c (v &&& mask) s

/-- The kinds of CSR access fault (10_state R52). -/
inductive CsrError
  | notPresent | unprivileged | readOnly
  deriving DecidableEq, Repr

/-- CsrRead at privilege `p` (10_state R50). -/
def csrRead (a : CsrAddr) (p : Priv) (s : State) : Except CsrError (Word × State) :=
  match csrFind a with
  | none => .error .notPresent
  | some m =>
    if privBits p < csrPriv a then .error .unprivileged
    else
      match resolveAlias csrTable.length m.kind m.readMask with
      | none => .error .notPresent
      | some (h, mask) =>
        let (v, s') := homeRead h s
        .ok (v &&& mask, s')

/-- CsrWrite at privilege `p` (10_state R51). -/
def csrWrite (a : CsrAddr) (v : Word) (p : Priv) (s : State) : Except CsrError State :=
  match csrFind a with
  | none => .error .notPresent
  | some m =>
    if privBits p < csrPriv a then .error .unprivileged
    else if csrReadOnly a then .error .readOnly
    else
      match m.kind with
      | .home (.computed c) =>
        if hasSetter c then .ok (computedWrite c (v &&& m.writeMask) s) else .error .readOnly
      | k =>
        match resolveAlias csrTable.length k m.readMask with
        | none => .error .notPresent
        | some (h, _) => .ok (homeWrite h m.writeMask v s)

/-- Whether an address is fflags, frm or fcsr (10_state R59). -/
def isFpCsr (a : CsrAddr) : Bool := a == 0x001#12 || a == 0x002#12 || a == 0x003#12

/-- FS set to Dirty (10_state R59, 46_float R380). -/
def setDirtyFS (s : State) : State := setCsr .mstatus (statusDirtyFS (getCsr .mstatus s)) s

/-- The illegal-instruction exception of a CSR access fault: tval is the address (10_state R52). -/
def csrTrap (a : CsrAddr) : Trap := ⟨.illegalInstr, zextWord a⟩

/-- The effects of a CSR instruction's write beside the CSR: FS for the floating-point CSRs, the note
for the counters (10_state R59, R81, R82). -/
def afterCsrWrite (a : CsrAddr) (s : State) : State :=
  let s1 := if isFpCsr a then setDirtyFS s else s
  if a = 0xB00#12 then s1.setNote { s1.note with wroteMcycle := true }
  else if a = 0xB02#12 then s1.setNote { s1.note with wroteMinstret := true }
  else s1

/-- The read half of a CSR instruction; 0 when the form does not read (45_system R342). -/
def csrReadHalf (a : CsrAddr) (doRead : Bool) (s : State) : Attempt Word :=
  if doRead then
    match csrRead a s.hart.priv s with
    | .ok (t, s') => .ok t s'
    | .error _ => .raise (csrTrap a) s
  else .ok 0 s

/-- The write half of a CSR instruction (45_system R342). -/
def csrWriteHalf (a : CsrAddr) (doWrite : Bool) (v : Word) (s : State) : Attempt Unit :=
  if doWrite then
    match csrWrite a v s.hart.priv s with
    | .ok s' => .ok () (afterCsrWrite a s')
    | .error _ => .raise (csrTrap a) s
  else .ok () s

/-- The CSR instruction law: the FS gate, the read, the write of `f` of the value read, then `x[rd]`
(45_system R342, 10_state R59). -/
def csrInstr (rd : RegNum) (a : CsrAddr) (doRead doWrite : Bool) (f : Word → Word) (s : State) :
    Attempt Unit :=
  if isFpCsr a && statusFS (getCsr .mstatus s) == 0 then .raise (csrTrap a) s
  else
    (csrReadHalf a doRead s).bind fun t s1 =>
      (csrWriteHalf a doWrite (f t) s1).bind fun _ s2 =>
        .ok () (retire 4 (if doRead then writeX rd t s2 else s2))

end Sys2Proof.Machine
end

