-- ==== Sys2Proof/Machine/Ieee.lean ====
section
/-! DEFINITION. The intended instantiation of FP_ARITH (46_float R381): IEEE 754-2008 with the RISC-V
rules. Values are exact (a natural number times a power of two) until one rounding at the end.
PRESUMED beyond R381's text: tininess is detected after rounding. Log 8. -/

namespace Sys2Proof.Machine

/-- The precision of a format, hidden bit included. -/
def fmtPrecision : FpFmt → Nat
  | .S => 24
  | .D => 53

/-- The least exponent of a normal number. -/
def fmtEmin : FpFmt → Int
  | .S => -126
  | .D => -1022

/-- The width of the exponent field. -/
def fmtExpBits : FpFmt → Nat
  | .S => 8
  | .D => 11

/-- The magnitude pattern of infinity. -/
def fmtInfBits (fmt : FpFmt) : Nat := (2 ^ fmtExpBits fmt - 1) * 2 ^ (fmtPrecision fmt - 1)

/-- The weight of the sign bit. -/
def fmtSignBit (fmt : FpFmt) : Nat := 2 ^ (fmtExpBits fmt + fmtPrecision fmt - 1)

/-- The exponent of a format's smallest quantum. -/
def fmtQmin (fmt : FpFmt) : Int := fmtEmin fmt - ((fmtPrecision fmt : Int) - 1)

/-- A floating-point datum; `fin neg m e` is the nonzero number of magnitude m * 2^e. -/
inductive FpDatum
  | nan (signalling : Bool)
  | inf (neg : Bool)
  | zero (neg : Bool)
  | fin (neg : Bool) (m : Nat) (e : Int)
  deriving DecidableEq, Repr

/-- The datum of a bit pattern. -/
def unpackFp (fmt : FpFmt) (v : Word) : FpDatum :=
  let bits := v.toNat % (2 * fmtSignBit fmt)
  let neg := decide (fmtSignBit fmt ≤ bits)
  let mag := bits % fmtSignBit fmt
  let one := 2 ^ (fmtPrecision fmt - 1)
  let ex := mag / one
  let frac := mag % one
  if ex = 2 ^ fmtExpBits fmt - 1 then
    if frac = 0 then .inf neg else .nan (decide (frac < one / 2))
  else if ex = 0 then
    if frac = 0 then .zero neg else .fin neg frac (fmtQmin fmt)
  else .fin neg (one + frac) (fmtQmin fmt + ((ex : Int) - 1))

/-- A bit pattern of a sign and a magnitude. -/
def packMagnitude (fmt : FpFmt) (neg : Bool) (mag : Nat) : Word :=
  BitVec.ofNat 64 ((if neg then fmtSignBit fmt else 0) + mag)

/-- The canonical NaN (46_float R381). -/
def canonicalNaN (fmt : FpFmt) : Word :=
  packMagnitude fmt false (fmtInfBits fmt + 2 ^ (fmtPrecision fmt - 2))

/-- The flag NV (46_float R383). -/
def flagNV : BitVec 5 := 16
/-- The flag DZ. -/
def flagDZ : BitVec 5 := 8
/-- The flags OF and NX. -/
def flagsOFNX : BitVec 5 := 5
/-- The flags UF and NX. -/
def flagsUFNX : BitVec 5 := 3
/-- The flag NX. -/
def flagNX : BitVec 5 := 1

/-- A NaN result, with NV when the operation is invalid. -/
def nanResult (fmt : FpFmt) (invalid : Bool) : FpResult :=
  ⟨canonicalNaN fmt, if invalid then flagNV else 0⟩

/-- Round m / 2^d, plus something less than one unit of m when `sticky`, to a natural number; also
whether the result is inexact. -/
def roundShift (mode : RoundingMode) (neg : Bool) (m d : Nat) (sticky : Bool) : Nat × Bool :=
  let q := m / 2 ^ d
  let r := m % 2 ^ d
  let inexact := r != 0 || sticky
  let up :=
    match mode with
    | .rne => decide (2 ^ d < 2 * r) || (decide (2 * r = 2 ^ d) && (sticky || q % 2 == 1))
    | .rtz => false
    | .rdn => neg && inexact
    | .rup => !neg && inexact
    | .rmm => decide (2 ^ d ≤ 2 * r)
  (if up && inexact then q + 1 else q, inexact)

/-- The result of an overflow (46_float R381). -/
def overflowFp (fmt : FpFmt) (mode : RoundingMode) (neg : Bool) : FpResult :=
  let toInf :=
    match mode with
    | .rne => true
    | .rmm => true
    | .rtz => false
    | .rdn => neg
    | .rup => !neg
  ⟨packMagnitude fmt neg (if toInf then fmtInfBits fmt else fmtInfBits fmt - 1), flagsOFNX⟩

/-- Whether a number below the least normal stays below it when rounded with unbounded exponent. -/
def tinyAfterRounding (fmt : FpFmt) (mode : RoundingMode) (neg : Bool) (m : Nat) (e : Int)
    (sticky : Bool) : Bool :=
  let top := (m.log2 : Int) + e
  if fmtEmin fmt ≤ top then false
  else if top < fmtEmin fmt - 1 then true
  else
    let d := m.log2 + 1 - fmtPrecision fmt
    decide ((roundShift mode neg m d sticky).1 < 2 ^ (m.log2 + 1 - d))

/-- Round the nonzero magnitude m * 2^e to a format, once. -/
def roundFp (fmt : FpFmt) (mode : RoundingMode) (neg : Bool) (m : Nat) (e : Int) (sticky : Bool) :
    FpResult :=
  let p : Int := fmtPrecision fmt
  let q := max ((m.log2 : Int) + e - (p - 1)) (fmtQmin fmt)
  let d := q - e
  let (mant, inexact) :=
    if d ≤ 0 then (m * 2 ^ (-d).toNat, sticky) else roundShift mode neg m d.toNat sticky
  let mag := (q - fmtQmin fmt).toNat * 2 ^ (fmtPrecision fmt - 1) + mant
  if fmtInfBits fmt ≤ mag then overflowFp fmt mode neg
  else
    ⟨packMagnitude fmt neg mag,
      if !inexact then 0
      else if tinyAfterRounding fmt mode neg m e sticky then flagsUFNX
      else flagNX⟩

/-- Round an exact signed sum m * 2^e; a zero sum is -0 only when rounding down (46_float R392). -/
def roundInt (fmt : FpFmt) (mode : RoundingMode) (m e : Int) : FpResult :=
  if m = 0 then ⟨packMagnitude fmt (mode == .rdn) 0, 0⟩
  else roundFp fmt mode (decide (m < 0)) m.natAbs e false

/-- The datum with its sign changed. -/
def negateFp : FpDatum → FpDatum
  | .nan b => .nan b
  | .inf n => .inf !n
  | .zero n => .zero !n
  | .fin n m e => .fin (!n) m e

/-- The signed significand of a magnitude. -/
def signedMag (neg : Bool) (m : Nat) : Int := if neg then -(m : Int) else m

/-- Whether a datum is a signalling NaN. -/
def isSignalling : FpDatum → Bool
  | .nan b => b
  | _ => false

/-- Whether a datum is a NaN. -/
def isNaN : FpDatum → Bool
  | .nan _ => true
  | _ => false

/-- The bit pattern of an infinity or a zero. -/
def infResult (fmt : FpFmt) (neg : Bool) : FpResult := ⟨packMagnitude fmt neg (fmtInfBits fmt), 0⟩

/-- See `infResult`. -/
def zeroResult (fmt : FpFmt) (neg : Bool) : FpResult := ⟨packMagnitude fmt neg 0, 0⟩

/-- The sum of two data. -/
def addFp (fmt : FpFmt) (mode : RoundingMode) (a b : FpDatum) : FpResult :=
  if isNaN a || isNaN b then nanResult fmt (isSignalling a || isSignalling b)
  else
    match a, b with
    | .inf n, .inf k => if n = k then infResult fmt n else nanResult fmt true
    | .inf n, _ => infResult fmt n
    | _, .inf k => infResult fmt k
    | .zero n, .zero k => if n = k then zeroResult fmt n else zeroResult fmt (mode == .rdn)
    | .zero _, .fin k m e => roundFp fmt mode k m e false
    | .fin n m e, .zero _ => roundFp fmt mode n m e false
    | .fin n m e, .fin k l f =>
      let g := min e f
      roundInt fmt mode
        (signedMag n (m * 2 ^ (e - g).toNat) + signedMag k (l * 2 ^ (f - g).toNat)) g
    | _, _ => nanResult fmt false

/-- The exact product of two data, neither a NaN; `none` for infinity times zero. -/
def productFp (a b : FpDatum) : Option FpDatum :=
  match a, b with
  | .inf n, .inf k => some (.inf (n != k))
  | .inf n, .fin k _ _ => some (.inf (n != k))
  | .fin n _ _, .inf k => some (.inf (n != k))
  | .zero n, .zero k => some (.zero (n != k))
  | .zero n, .fin k _ _ => some (.zero (n != k))
  | .fin n _ _, .zero k => some (.zero (n != k))
  | .fin n m e, .fin k l f => some (.fin (n != k) (m * l) (e + f))
  | _, _ => none

/-- Round a datum to a format. -/
def roundDatum (fmt : FpFmt) (mode : RoundingMode) : FpDatum → FpResult
  | .nan b => nanResult fmt b
  | .inf n => infResult fmt n
  | .zero n => zeroResult fmt n
  | .fin n m e => roundFp fmt mode n m e false

/-- The product of two data. -/
def mulFp (fmt : FpFmt) (mode : RoundingMode) (a b : FpDatum) : FpResult :=
  if isNaN a || isNaN b then nanResult fmt (isSignalling a || isSignalling b)
  else
    match productFp a b with
    | none => nanResult fmt true
    | some d => roundDatum fmt mode d

/-- a * b + c with one rounding; infinity times zero is invalid whatever c is (46_float R387). -/
def fmaFp (fmt : FpFmt) (mode : RoundingMode) (negProduct : Bool) (a b c : FpDatum) : FpResult :=
  if isNaN a || isNaN b then
    nanResult fmt (isSignalling a || isSignalling b || isSignalling c)
  else
    match productFp a b with
    | none => nanResult fmt true
    | some d => addFp fmt mode (if negProduct then negateFp d else d) c

/-- The quotient of two data. -/
def divFp (fmt : FpFmt) (mode : RoundingMode) (a b : FpDatum) : FpResult :=
  if isNaN a || isNaN b then nanResult fmt (isSignalling a || isSignalling b)
  else
    match a, b with
    | .inf n, .fin k _ _ => infResult fmt (n != k)
    | .inf n, .zero k => infResult fmt (n != k)
    | .zero n, .fin k _ _ => zeroResult fmt (n != k)
    | .zero n, .inf k => zeroResult fmt (n != k)
    | .fin n _ _, .inf k => zeroResult fmt (n != k)
    | .fin n _ _, .zero k => ⟨packMagnitude fmt (n != k) (fmtInfBits fmt), flagDZ⟩
    | .fin n m e, .fin k l f =>
      let sh := fmtPrecision fmt + 3 + l.log2
      let num := m * 2 ^ sh
      roundFp fmt mode (n != k) (num / l) (e - f - sh) (num % l != 0)
    | _, _ => nanResult fmt true

/-- The integer square root, bit by bit: `r` so far, `b` bits to go. -/
def isqrtAux (n : Nat) : Nat → Nat → Nat
  | 0, r => r
  | b + 1, r => isqrtAux n b (if (r + 2 ^ b) * (r + 2 ^ b) ≤ n then r + 2 ^ b else r)

/-- The integer square root. -/
def isqrt (n : Nat) : Nat := isqrtAux n (n.log2 / 2 + 1) 0

/-- The square root of a datum (46_float R395). -/
def sqrtFp (fmt : FpFmt) (mode : RoundingMode) (a : FpDatum) : FpResult :=
  match a with
  | .nan b => nanResult fmt b
  | .inf n => if n then nanResult fmt true else infResult fmt false
  | .zero n => zeroResult fmt n
  | .fin n m e =>
    if n then nanResult fmt true
    else
      let sh := 2 * fmtPrecision fmt + 4 + (e % 2).toNat
      let num := m * 2 ^ sh
      let r := isqrt num
      roundFp fmt mode false r ((e - sh) / 2) (r * r != num)

/-- Whether a < b, for data that are no NaNs; the zeros are equal. -/
def ltFp (a b : FpDatum) : Bool :=
  match a, b with
  | .inf n, .inf k => n && !k
  | .inf n, _ => n
  | _, .inf k => !k
  | .zero _, .zero _ => false
  | .zero _, .fin k _ _ => !k
  | .fin n _ _, .zero _ => n
  | .fin n m e, .fin k l f =>
    let g := min e f
    decide (signedMag n (m * 2 ^ (e - g).toNat) < signedMag k (l * 2 ^ (f - g).toNat))
  | _, _ => false

/-- Whether a = b, for data that are no NaNs. -/
def eqFp (a b : FpDatum) : Bool := !ltFp a b && !ltFp b a

/-- FMIN and FMAX on patterns and their data (46_float R381). -/
def minMaxFp (fmt : FpFmt) (wantMax : Bool) (x y : Word) : FpResult :=
  let a := unpackFp fmt x
  let b := unpackFp fmt y
  let fl := if isSignalling a || isSignalling b then flagNV else 0
  if isNaN a && isNaN b then ⟨canonicalNaN fmt, fl⟩
  else if isNaN a then ⟨y, fl⟩
  else if isNaN b then ⟨x, fl⟩
  else
    let less := ltFp a b || (eqFp a b && a == .zero true)
    ⟨if less != wantMax then x else y, fl⟩

/-- A comparison: quiet ones are invalid only for a signalling NaN (46_float R381). -/
def compareFp (quiet : Bool) (rel : FpDatum → FpDatum → Bool) (a b : FpDatum) : FpResult :=
  if isNaN a || isNaN b then
    ⟨0, if !quiet || isSignalling a || isSignalling b then flagNV else 0⟩
  else ⟨boolWord (rel a b), 0⟩

/-- Conversion to an integer in `lo` to `hi`, as a bit pattern (46_float R381). -/
def toIntFp (mode : RoundingMode) (lo hi : Int) (a : FpDatum) : FpResult :=
  let pattern := fun v : Int => BitVec.ofInt 64 v
  match a with
  | .nan _ => ⟨pattern hi, flagNV⟩
  | .inf n => ⟨pattern (if n then lo else hi), flagNV⟩
  | .zero _ => ⟨0, 0⟩
  | .fin n m e =>
    let (mag, inexact) :=
      if 0 ≤ e then (m * 2 ^ e.toNat, false) else roundShift mode n m (-e).toNat false
    let v := signedMag n mag
    if v < lo then ⟨pattern lo, flagNV⟩
    else if hi < v then ⟨pattern hi, flagNV⟩
    else ⟨pattern v, if inexact then flagNX else 0⟩

/-- Conversion from an integer; zero converts to +0. -/
def ofIntFp (fmt : FpFmt) (mode : RoundingMode) (v : Int) : FpResult :=
  if v = 0 then zeroResult fmt false else roundFp fmt mode (decide (v < 0)) v.natAbs 0 false

/-- The format a conversion between formats reads. -/
def otherFmt : FpFmt → FpFmt
  | .S => .D
  | .D => .S

/-- The intended FP_ARITH (46_float R381). Operations without a rounding mode do not use `mode`. -/
def ieeeArith (fmt : FpFmt) (op : FpOp) (operands : List Word) (mode : Option RoundingMode) :
    FpResult :=
  let md := mode.getD .rne
  let x := operands.getD 0 0
  let y := operands.getD 1 0
  let z := operands.getD 2 0
  let a := unpackFp fmt x
  let b := unpackFp fmt y
  let c := unpackFp fmt z
  match op with
  | .fmadd => fmaFp fmt md false a b c
  | .fmsub => fmaFp fmt md false a b (negateFp c)
  | .fnmsub => fmaFp fmt md true a b c
  | .fnmadd => fmaFp fmt md true a b (negateFp c)
  | .fadd => addFp fmt md a b
  | .fsub => addFp fmt md a (negateFp b)
  | .fmul => mulFp fmt md a b
  | .fdiv => divFp fmt md a b
  | .fsqrt => sqrtFp fmt md a
  | .fmin => minMaxFp fmt false x y
  | .fmax => minMaxFp fmt true x y
  | .feq => compareFp true eqFp a b
  | .flt => compareFp false ltFp a b
  | .fle => compareFp false (fun d e => !ltFp e d) a b
  | .fcvtWF => toIntFp md (-2 ^ 31) (2 ^ 31 - 1) a
  | .fcvtWuF => toIntFp md 0 (2 ^ 32 - 1) a
  | .fcvtLF => toIntFp md (-2 ^ 63) (2 ^ 63 - 1) a
  | .fcvtLuF => toIntFp md 0 (2 ^ 64 - 1) a
  | .fcvtFW => ofIntFp fmt md (low32 x).toInt
  | .fcvtFWu => ofIntFp fmt md (low32 x).toNat
  | .fcvtFL => ofIntFp fmt md x.toInt
  | .fcvtFLu => ofIntFp fmt md x.toNat
  | .fcvtFF => roundDatum fmt md (unpackFp (otherFmt fmt) x)

end Sys2Proof.Machine
end

