-- ==== Sys2Proof/Machine/Integer.lean ====
section
/-! DEFINITION. Integer computational instructions (40_integer R200 to R230). -/

namespace Sys2Proof.Machine

/-- A shift amount masked to 6 bits (40_integer R200). -/
def shift6 (v : Word) : Nat := (field 0 6 v).toNat

/-- A shift amount masked to 5 bits (40_integer R200). -/
def shift5 (v : Word) : Nat := (field 0 5 v).toNat

/-- Whether SLLI's operands are those of the word 0x01F01013, which sets the semihosting flag
(30_encoding R172). -/
def isBackdoorSet (rd rs1 : RegNum) (shamt : BitVec 6) : Bool := rd == 0 && rs1 == 0 && shamt == 31

/-- Whether SRAI's operands are those of the word 0x40705013, which clears the semihosting flag
(30_encoding R172). -/
def isBackdoorClear (rd rs1 : RegNum) (shamt : BitVec 6) : Bool := rd == 0 && rs1 == 0 && shamt == 7

/-- LUI (40_integer R201). -/
def execLui (rd : RegNum) (imm : BitVec 32) (s : State) : Result :=
  .next (retireX 4 rd (sextWord imm) s)

/-- AUIPC (40_integer R202). -/
def execAuipc (rd : RegNum) (imm : BitVec 32) (s : State) : Result :=
  .next (retireX 4 rd (s.hart.pc + sextWord imm) s)

/-- ADDI (40_integer R203). -/
def execAddi (rd rs1 : RegNum) (imm : BitVec 12) (s : State) : Result :=
  .next (retireX 4 rd (readX rs1 s + sextWord imm) s)

/-- SLTI (40_integer R204). -/
def execSlti (rd rs1 : RegNum) (imm : BitVec 12) (s : State) : Result :=
  .next (retireX 4 rd (boolWord ((readX rs1 s).slt (sextWord imm))) s)

/-- SLTIU (40_integer R205). -/
def execSltiu (rd rs1 : RegNum) (imm : BitVec 12) (s : State) : Result :=
  .next (retireX 4 rd (boolWord ((readX rs1 s).ult (sextWord imm))) s)

/-- XORI (40_integer R206). -/
def execXori (rd rs1 : RegNum) (imm : BitVec 12) (s : State) : Result :=
  .next (retireX 4 rd (readX rs1 s ^^^ sextWord imm) s)

/-- ORI (40_integer R207). -/
def execOri (rd rs1 : RegNum) (imm : BitVec 12) (s : State) : Result :=
  .next (retireX 4 rd (readX rs1 s ||| sextWord imm) s)

/-- ANDI (40_integer R208). -/
def execAndi (rd rs1 : RegNum) (imm : BitVec 12) (s : State) : Result :=
  .next (retireX 4 rd (readX rs1 s &&& sextWord imm) s)

/-- SLLI (40_integer R209). -/
def execSlli (rd rs1 : RegNum) (shamt : BitVec 6) (s : State) : Result :=
  if isBackdoorSet rd rs1 shamt then .next (retire 4 (s.setSemihost true))
  else .next (retireX 4 rd (readX rs1 s <<< shamt.toNat) s)

/-- SRLI (40_integer R210). -/
def execSrli (rd rs1 : RegNum) (shamt : BitVec 6) (s : State) : Result :=
  .next (retireX 4 rd (readX rs1 s >>> shamt.toNat) s)

/-- SRAI (40_integer R211). -/
def execSrai (rd rs1 : RegNum) (shamt : BitVec 6) (s : State) : Result :=
  if isBackdoorClear rd rs1 shamt then .next (retire 4 (s.setSemihost false))
  else .next (retireX 4 rd ((readX rs1 s).sshiftRight shamt.toNat) s)

/-- ADD (40_integer R212). -/
def execAdd (rd rs1 rs2 : RegNum) (s : State) : Result :=
  .next (retireX 4 rd (readX rs1 s + readX rs2 s) s)

/-- SUB (40_integer R213). -/
def execSub (rd rs1 rs2 : RegNum) (s : State) : Result :=
  .next (retireX 4 rd (readX rs1 s - readX rs2 s) s)

/-- SLL (40_integer R214). -/
def execSll (rd rs1 rs2 : RegNum) (s : State) : Result :=
  .next (retireX 4 rd (readX rs1 s <<< shift6 (readX rs2 s)) s)

/-- SLT (40_integer R215). -/
def execSlt (rd rs1 rs2 : RegNum) (s : State) : Result :=
  .next (retireX 4 rd (boolWord ((readX rs1 s).slt (readX rs2 s))) s)

/-- SLTU (40_integer R216). -/
def execSltu (rd rs1 rs2 : RegNum) (s : State) : Result :=
  .next (retireX 4 rd (boolWord ((readX rs1 s).ult (readX rs2 s))) s)

/-- XOR (40_integer R217). -/
def execXor (rd rs1 rs2 : RegNum) (s : State) : Result :=
  .next (retireX 4 rd (readX rs1 s ^^^ readX rs2 s) s)

/-- SRL (40_integer R218). -/
def execSrl (rd rs1 rs2 : RegNum) (s : State) : Result :=
  .next (retireX 4 rd (readX rs1 s >>> shift6 (readX rs2 s)) s)

/-- SRA (40_integer R219). -/
def execSra (rd rs1 rs2 : RegNum) (s : State) : Result :=
  .next (retireX 4 rd ((readX rs1 s).sshiftRight (shift6 (readX rs2 s))) s)

/-- OR (40_integer R220). -/
def execOr (rd rs1 rs2 : RegNum) (s : State) : Result :=
  .next (retireX 4 rd (readX rs1 s ||| readX rs2 s) s)

/-- AND (40_integer R221). -/
def execAnd (rd rs1 rs2 : RegNum) (s : State) : Result :=
  .next (retireX 4 rd (readX rs1 s &&& readX rs2 s) s)

/-- ADDIW (40_integer R222). -/
def execAddiw (rd rs1 : RegNum) (imm : BitVec 12) (s : State) : Result :=
  .next (retireX 4 rd (sext32 (low32 (readX rs1 s + sextWord imm))) s)

/-- SLLIW (40_integer R223). -/
def execSlliw (rd rs1 : RegNum) (shamt : BitVec 5) (s : State) : Result :=
  .next (retireX 4 rd (sext32 (low32 (readX rs1 s) <<< shamt.toNat)) s)

/-- SRLIW (40_integer R224). -/
def execSrliw (rd rs1 : RegNum) (shamt : BitVec 5) (s : State) : Result :=
  .next (retireX 4 rd (sext32 (low32 (readX rs1 s) >>> shamt.toNat)) s)

/-- SRAIW (40_integer R225). -/
def execSraiw (rd rs1 : RegNum) (shamt : BitVec 5) (s : State) : Result :=
  .next (retireX 4 rd (sext32 ((low32 (readX rs1 s)).sshiftRight shamt.toNat)) s)

/-- ADDW (40_integer R226). -/
def execAddw (rd rs1 rs2 : RegNum) (s : State) : Result :=
  .next (retireX 4 rd (sext32 (low32 (readX rs1 s + readX rs2 s))) s)

/-- SUBW (40_integer R227). -/
def execSubw (rd rs1 rs2 : RegNum) (s : State) : Result :=
  .next (retireX 4 rd (sext32 (low32 (readX rs1 s - readX rs2 s))) s)

/-- SLLW (40_integer R228). -/
def execSllw (rd rs1 rs2 : RegNum) (s : State) : Result :=
  .next (retireX 4 rd (sext32 (low32 (readX rs1 s) <<< shift5 (readX rs2 s))) s)

/-- SRLW (40_integer R229). -/
def execSrlw (rd rs1 rs2 : RegNum) (s : State) : Result :=
  .next (retireX 4 rd (sext32 (low32 (readX rs1 s) >>> shift5 (readX rs2 s))) s)

/-- SRAW (40_integer R230). -/
def execSraw (rd rs1 rs2 : RegNum) (s : State) : Result :=
  .next (retireX 4 rd (sext32 ((low32 (readX rs1 s)).sshiftRight (shift5 (readX rs2 s)))) s)

end Sys2Proof.Machine
end

