-- ==== Sys2Proof/Machine/Control.lean ====
section
/-! DEFINITION. Control-transfer instructions (41_control R250 to R258). -/

namespace Sys2Proof.Machine

/-- Jump to `target` and link `x[rd] <- link` (41_control R250). -/
def jumpLink (rd : RegNum) (link target : Word) (s : State) : State :=
  retireTo target (writeX rd link s)

/-- Branch by `offset` when `taken`, else fall through (41_control R250). -/
def branch (len : Word) (taken : Bool) (offset : Word) (s : State) : State :=
  retireTo (s.hart.pc + if taken then offset else len) s

/-- JAL (41_control R251). -/
def execJal (rd : RegNum) (imm : BitVec 21) (s : State) : Result :=
  .next (jumpLink rd (s.hart.pc + 4) (s.hart.pc + sextWord imm) s)

/-- JALR (41_control R252). -/
def execJalr (rd rs1 : RegNum) (imm : BitVec 12) (s : State) : Result :=
  .next (jumpLink rd (s.hart.pc + 4) (clearBit0 (readX rs1 s + sextWord imm)) s)

/-- BEQ (41_control R253). -/
def execBeq (rs1 rs2 : RegNum) (imm : BitVec 13) (s : State) : Result :=
  .next (branch 4 (readX rs1 s == readX rs2 s) (sextWord imm) s)

/-- BNE (41_control R254). -/
def execBne (rs1 rs2 : RegNum) (imm : BitVec 13) (s : State) : Result :=
  .next (branch 4 (readX rs1 s != readX rs2 s) (sextWord imm) s)

/-- BLT (41_control R255). -/
def execBlt (rs1 rs2 : RegNum) (imm : BitVec 13) (s : State) : Result :=
  .next (branch 4 ((readX rs1 s).slt (readX rs2 s)) (sextWord imm) s)

/-- BGE (41_control R256). -/
def execBge (rs1 rs2 : RegNum) (imm : BitVec 13) (s : State) : Result :=
  .next (branch 4 (!(readX rs1 s).slt (readX rs2 s)) (sextWord imm) s)

/-- BLTU (41_control R257). -/
def execBltu (rs1 rs2 : RegNum) (imm : BitVec 13) (s : State) : Result :=
  .next (branch 4 ((readX rs1 s).ult (readX rs2 s)) (sextWord imm) s)

/-- BGEU (41_control R258). -/
def execBgeu (rs1 rs2 : RegNum) (imm : BitVec 13) (s : State) : Result :=
  .next (branch 4 (!(readX rs1 s).ult (readX rs2 s)) (sextWord imm) s)

end Sys2Proof.Machine
end

