-- ==== Sys2Proof/Machine/LoadStore.lean ====
section
/-! DEFINITION. Integer loads and stores (42_loadstore R270 to R281). -/

namespace Sys2Proof.Machine

/-- The address of a load or store: x[rs1] + sext_12(imm) (42_loadstore R270). -/
def effAddr (rs1 : RegNum) (imm : BitVec 12) (s : State) : Word := readX rs1 s + sextWord imm

/-- Load `n` bytes from `va` and write their extension to `x[rd]` (42_loadstore R270). -/
def loadX (len : Word) (rd : RegNum) (va : Word) (n : Nat) (ext : Word → Word) (s : State) : Result :=
  settle ((memRead va n s).bind fun v s1 => .ok () (retireX len rd (ext v) s1))

/-- Store the low `n` bytes of `v` at `va` (42_loadstore R270). -/
def storeValue (len : Word) (va : Word) (n : Nat) (v : Word) (s : State) : Result :=
  settle ((memWrite va n v s).bind fun _ s1 => .ok () (retire len s1))

/-- LB (42_loadstore R271). -/
def execLb (rd rs1 : RegNum) (imm : BitVec 12) (s : State) : Result :=
  loadX 4 rd (effAddr rs1 imm s) 1 (fun v => sextWord (field 0 8 v)) s

/-- LH (42_loadstore R272). -/
def execLh (rd rs1 : RegNum) (imm : BitVec 12) (s : State) : Result :=
  loadX 4 rd (effAddr rs1 imm s) 2 (fun v => sextWord (field 0 16 v)) s

/-- LW (42_loadstore R273). -/
def execLw (rd rs1 : RegNum) (imm : BitVec 12) (s : State) : Result :=
  loadX 4 rd (effAddr rs1 imm s) 4 (fun v => sextWord (field 0 32 v)) s

/-- LD (42_loadstore R274). -/
def execLd (rd rs1 : RegNum) (imm : BitVec 12) (s : State) : Result :=
  loadX 4 rd (effAddr rs1 imm s) 8 id s

/-- LBU (42_loadstore R275). -/
def execLbu (rd rs1 : RegNum) (imm : BitVec 12) (s : State) : Result :=
  loadX 4 rd (effAddr rs1 imm s) 1 (fun v => zextWord (field 0 8 v)) s

/-- LHU (42_loadstore R276). -/
def execLhu (rd rs1 : RegNum) (imm : BitVec 12) (s : State) : Result :=
  loadX 4 rd (effAddr rs1 imm s) 2 (fun v => zextWord (field 0 16 v)) s

/-- LWU (42_loadstore R277). -/
def execLwu (rd rs1 : RegNum) (imm : BitVec 12) (s : State) : Result :=
  loadX 4 rd (effAddr rs1 imm s) 4 (fun v => zextWord (field 0 32 v)) s

/-- SB (42_loadstore R278). -/
def execSb (rs1 rs2 : RegNum) (imm : BitVec 12) (s : State) : Result :=
  storeValue 4 (effAddr rs1 imm s) 1 (lowBytes 1 (readX rs2 s)) s

/-- SH (42_loadstore R279). -/
def execSh (rs1 rs2 : RegNum) (imm : BitVec 12) (s : State) : Result :=
  storeValue 4 (effAddr rs1 imm s) 2 (lowBytes 2 (readX rs2 s)) s

/-- SW (42_loadstore R280). -/
def execSw (rs1 rs2 : RegNum) (imm : BitVec 12) (s : State) : Result :=
  storeValue 4 (effAddr rs1 imm s) 4 (lowBytes 4 (readX rs2 s)) s

/-- SD (42_loadstore R281). -/
def execSd (rs1 rs2 : RegNum) (imm : BitVec 12) (s : State) : Result :=
  storeValue 4 (effAddr rs1 imm s) 8 (lowBytes 8 (readX rs2 s)) s

end Sys2Proof.Machine
end

