-- ==== Sys2Proof/Machine/MulDiv.lean ====
section
/-! DEFINITION. Multiply and divide (43_muldiv R290 to R303). -/

namespace Sys2Proof.Machine

/-- Bits 127:64 of an exact product (43_muldiv R292). -/
def highProduct (a b : Int) : Word := (BitVec.ofInt 128 (a * b)).extractLsb' 64 64

/-- The least signed value of a width. -/
def minSigned (n : Nat) : BitVec n := BitVec.ofNat n (2 ^ (n - 1))

/-- Signed division toward zero; by zero all ones, on overflow the least value (43_muldiv R290). -/
def divSigned {n : Nat} (a b : BitVec n) : BitVec n :=
  if b = 0 then BitVec.allOnes n
  else if a = minSigned n ∧ b = BitVec.allOnes n then minSigned n
  else BitVec.ofInt n (a.toInt.tdiv b.toInt)

/-- Signed remainder; by zero the dividend, on overflow 0 (43_muldiv R290). -/
def remSigned {n : Nat} (a b : BitVec n) : BitVec n :=
  if b = 0 then a
  else if a = minSigned n ∧ b = BitVec.allOnes n then 0
  else BitVec.ofInt n (a.toInt.tmod b.toInt)

/-- Unsigned division; by zero all ones (43_muldiv R290). -/
def divUnsigned {n : Nat} (a b : BitVec n) : BitVec n :=
  if b = 0 then BitVec.allOnes n else BitVec.ofNat n (a.toNat / b.toNat)

/-- Unsigned remainder; by zero the dividend (43_muldiv R290). -/
def remUnsigned {n : Nat} (a b : BitVec n) : BitVec n :=
  if b = 0 then a else BitVec.ofNat n (a.toNat % b.toNat)

/-- MUL (43_muldiv R291). -/
def execMul (rd rs1 rs2 : RegNum) (s : State) : Result :=
  .next (retireX 4 rd (readX rs1 s * readX rs2 s) s)

/-- MULH (43_muldiv R292). -/
def execMulh (rd rs1 rs2 : RegNum) (s : State) : Result :=
  .next (retireX 4 rd (highProduct (readX rs1 s).toInt (readX rs2 s).toInt) s)

/-- MULHSU (43_muldiv R293). -/
def execMulhsu (rd rs1 rs2 : RegNum) (s : State) : Result :=
  .next (retireX 4 rd (highProduct (readX rs1 s).toInt (readX rs2 s).toNat) s)

/-- MULHU (43_muldiv R294). -/
def execMulhu (rd rs1 rs2 : RegNum) (s : State) : Result :=
  .next (retireX 4 rd (highProduct (readX rs1 s).toNat (readX rs2 s).toNat) s)

/-- DIV (43_muldiv R295). -/
def execDiv (rd rs1 rs2 : RegNum) (s : State) : Result :=
  .next (retireX 4 rd (divSigned (readX rs1 s) (readX rs2 s)) s)

/-- DIVU (43_muldiv R296). -/
def execDivu (rd rs1 rs2 : RegNum) (s : State) : Result :=
  .next (retireX 4 rd (divUnsigned (readX rs1 s) (readX rs2 s)) s)

/-- REM (43_muldiv R297). -/
def execRem (rd rs1 rs2 : RegNum) (s : State) : Result :=
  .next (retireX 4 rd (remSigned (readX rs1 s) (readX rs2 s)) s)

/-- REMU (43_muldiv R298). -/
def execRemu (rd rs1 rs2 : RegNum) (s : State) : Result :=
  .next (retireX 4 rd (remUnsigned (readX rs1 s) (readX rs2 s)) s)

/-- MULW (43_muldiv R299). -/
def execMulw (rd rs1 rs2 : RegNum) (s : State) : Result :=
  .next (retireX 4 rd (sext32 (low32 (readX rs1 s) * low32 (readX rs2 s))) s)

/-- DIVW (43_muldiv R300). -/
def execDivw (rd rs1 rs2 : RegNum) (s : State) : Result :=
  .next (retireX 4 rd (sext32 (divSigned (low32 (readX rs1 s)) (low32 (readX rs2 s)))) s)

/-- DIVUW (43_muldiv R301). -/
def execDivuw (rd rs1 rs2 : RegNum) (s : State) : Result :=
  .next (retireX 4 rd (sext32 (divUnsigned (low32 (readX rs1 s)) (low32 (readX rs2 s)))) s)

/-- REMW (43_muldiv R302). -/
def execRemw (rd rs1 rs2 : RegNum) (s : State) : Result :=
  .next (retireX 4 rd (sext32 (remSigned (low32 (readX rs1 s)) (low32 (readX rs2 s)))) s)

/-- REMUW (43_muldiv R303). -/
def execRemuw (rd rs1 rs2 : RegNum) (s : State) : Result :=
  .next (retireX 4 rd (sext32 (remUnsigned (low32 (readX rs1 s)) (low32 (readX rs2 s)))) s)

end Sys2Proof.Machine
end

