-- ==== Sys2Proof/Machine/Atomics.lean ====
section
/-! DEFINITION. Atomic memory operations (44_atomics R310 to R334). The bits aq and rl have no effect
(R311). -/

namespace Sys2Proof.Machine

/-- LR: load and set the reservation (44_atomics R313, R324). -/
def loadReserved (rd : RegNum) (va : Word) (n : Nat) (ext : Word → Word) (s : State) : Result :=
  settle <|
    if aligned va n then
      (translate va .read s).bind fun pa s1 =>
        match physRead pa n s1 with
        | none => .raise (accessFault .read va) s1
        | some (v, s2) => .ok () (retireX 4 rd (ext v) (s2.setRes (some ⟨pa, n⟩)))
    else .raise ⟨.loadMisaligned, va⟩ s

/-- SC: store when the reservation matches the translated address and the width; every SC that does
not fault clears it (44_atomics R310, R314, R325). Log 28. -/
def storeConditional (rd : RegNum) (va : Word) (n : Nat) (v : Word) (s : State) : Result :=
  settle <|
    if aligned va n then
      (translate va .write s).bind fun pa s1 =>
        if s1.hart.res = some ⟨pa, n⟩ then
          match physWrite pa n v s1 with
          | none => .raise (accessFault .write va) s1
          | some s2 => .ok () (retireX 4 rd 0 (s2.setRes none))
        else .ok () (retireX 4 rd 1 (s1.setRes none))
    else .raise ⟨.storeMisaligned, va⟩ s

/-- The AMO law: read, operate and write in one step; `x[rd]` gets the extension of the old value
(44_atomics R312). -/
def amo (rd : RegNum) (va : Word) (n : Nat) (op ext : Word → Word) (s : State) : Result :=
  settle <|
    if aligned va n then
      (translate va .write s).bind fun pa s1 =>
        match physRead pa n s1 with
        | none => .raise (accessFault .write va) s1
        | some (old, s2) =>
          match physWrite pa n (op old) s2 with
          | none => .raise (accessFault .write va) s2
          | some s3 => .ok () (retireX 4 rd (ext old) s3)
    else .raise ⟨.storeMisaligned, va⟩ s

/-- A word AMO (44_atomics R312). -/
def amoW (rd : RegNum) (va b : Word) (op : BitVec 32 → BitVec 32 → BitVec 32) (s : State) : Result :=
  amo rd va 4 (fun old => zextWord (op (low32 old) (low32 b))) (fun old => sext32 (low32 old)) s

/-- A doubleword AMO (44_atomics R312). -/
def amoD (rd : RegNum) (va b : Word) (op : Word → Word → Word) (s : State) : Result :=
  amo rd va 8 (fun old => op old b) id s

/-- LR.W (44_atomics R313). -/
def execLrW (rd rs1 : RegNum) (_aq _rl : BitVec 1) (s : State) : Result :=
  loadReserved rd (readX rs1 s) 4 (fun v => sext32 (low32 v)) s

/-- SC.W (44_atomics R314). -/
def execScW (rd rs1 rs2 : RegNum) (_aq _rl : BitVec 1) (s : State) : Result :=
  storeConditional rd (readX rs1 s) 4 (readX rs2 s) s

/-- LR.D (44_atomics R324). -/
def execLrD (rd rs1 : RegNum) (_aq _rl : BitVec 1) (s : State) : Result :=
  loadReserved rd (readX rs1 s) 8 id s

/-- SC.D (44_atomics R325). -/
def execScD (rd rs1 rs2 : RegNum) (_aq _rl : BitVec 1) (s : State) : Result :=
  storeConditional rd (readX rs1 s) 8 (readX rs2 s) s

/-- AMOSWAP.W (44_atomics R315). -/
def execAmoswapW (rd rs1 rs2 : RegNum) (_aq _rl : BitVec 1) (s : State) : Result :=
  amoW rd (readX rs1 s) (readX rs2 s) (fun _ b => b) s

/-- AMOADD.W (44_atomics R316). -/
def execAmoaddW (rd rs1 rs2 : RegNum) (_aq _rl : BitVec 1) (s : State) : Result :=
  amoW rd (readX rs1 s) (readX rs2 s) (fun a b => a + b) s

/-- AMOXOR.W (44_atomics R317). -/
def execAmoxorW (rd rs1 rs2 : RegNum) (_aq _rl : BitVec 1) (s : State) : Result :=
  amoW rd (readX rs1 s) (readX rs2 s) (fun a b => a ^^^ b) s

/-- AMOAND.W (44_atomics R318). -/
def execAmoandW (rd rs1 rs2 : RegNum) (_aq _rl : BitVec 1) (s : State) : Result :=
  amoW rd (readX rs1 s) (readX rs2 s) (fun a b => a &&& b) s

/-- AMOOR.W (44_atomics R319). -/
def execAmoorW (rd rs1 rs2 : RegNum) (_aq _rl : BitVec 1) (s : State) : Result :=
  amoW rd (readX rs1 s) (readX rs2 s) (fun a b => a ||| b) s

/-- AMOMIN.W (44_atomics R320). -/
def execAmominW (rd rs1 rs2 : RegNum) (_aq _rl : BitVec 1) (s : State) : Result :=
  amoW rd (readX rs1 s) (readX rs2 s) (fun a b => if a.sle b then a else b) s

/-- AMOMAX.W (44_atomics R321). -/
def execAmomaxW (rd rs1 rs2 : RegNum) (_aq _rl : BitVec 1) (s : State) : Result :=
  amoW rd (readX rs1 s) (readX rs2 s) (fun a b => if b.sle a then a else b) s

/-- AMOMINU.W (44_atomics R322). -/
def execAmominuW (rd rs1 rs2 : RegNum) (_aq _rl : BitVec 1) (s : State) : Result :=
  amoW rd (readX rs1 s) (readX rs2 s) (fun a b => if a.ule b then a else b) s

/-- AMOMAXU.W (44_atomics R323). -/
def execAmomaxuW (rd rs1 rs2 : RegNum) (_aq _rl : BitVec 1) (s : State) : Result :=
  amoW rd (readX rs1 s) (readX rs2 s) (fun a b => if b.ule a then a else b) s

/-- AMOSWAP.D (44_atomics R326). -/
def execAmoswapD (rd rs1 rs2 : RegNum) (_aq _rl : BitVec 1) (s : State) : Result :=
  amoD rd (readX rs1 s) (readX rs2 s) (fun _ b => b) s

/-- AMOADD.D (44_atomics R327). -/
def execAmoaddD (rd rs1 rs2 : RegNum) (_aq _rl : BitVec 1) (s : State) : Result :=
  amoD rd (readX rs1 s) (readX rs2 s) (fun a b => a + b) s

/-- AMOXOR.D (44_atomics R328). -/
def execAmoxorD (rd rs1 rs2 : RegNum) (_aq _rl : BitVec 1) (s : State) : Result :=
  amoD rd (readX rs1 s) (readX rs2 s) (fun a b => a ^^^ b) s

/-- AMOAND.D (44_atomics R329). -/
def execAmoandD (rd rs1 rs2 : RegNum) (_aq _rl : BitVec 1) (s : State) : Result :=
  amoD rd (readX rs1 s) (readX rs2 s) (fun a b => a &&& b) s

/-- AMOOR.D (44_atomics R330). -/
def execAmoorD (rd rs1 rs2 : RegNum) (_aq _rl : BitVec 1) (s : State) : Result :=
  amoD rd (readX rs1 s) (readX rs2 s) (fun a b => a ||| b) s

/-- AMOMIN.D (44_atomics R331). -/
def execAmominD (rd rs1 rs2 : RegNum) (_aq _rl : BitVec 1) (s : State) : Result :=
  amoD rd (readX rs1 s) (readX rs2 s) (fun a b => if a.sle b then a else b) s

/-- AMOMAX.D (44_atomics R332). -/
def execAmomaxD (rd rs1 rs2 : RegNum) (_aq _rl : BitVec 1) (s : State) : Result :=
  amoD rd (readX rs1 s) (readX rs2 s) (fun a b => if b.sle a then a else b) s

/-- AMOMINU.D (44_atomics R333). -/
def execAmominuD (rd rs1 rs2 : RegNum) (_aq _rl : BitVec 1) (s : State) : Result :=
  amoD rd (readX rs1 s) (readX rs2 s) (fun a b => if a.ule b then a else b) s

/-- AMOMAXU.D (44_atomics R334). -/
def execAmomaxuD (rd rs1 rs2 : RegNum) (_aq _rl : BitVec 1) (s : State) : Result :=
  amoD rd (readX rs1 s) (readX rs2 s) (fun a b => if b.ule a then a else b) s

end Sys2Proof.Machine
end

