-- ==== Sys2Proof/Machine/System.lean ====
section
/-! DEFINITION. System instructions (45_system R340 to R359). -/

namespace Sys2Proof.Machine

/-- The cause of an environment call (45_system R349). `H` is never the privilege. -/
def ecallCause : Priv → Cause
  | .U => .ecallU
  | .S => .ecallS
  | .H => .ecallM
  | .M => .ecallM

/-- An instruction that needs a privilege: illegal where it is lacking (45_system R355). -/
def privileged (i : Instr) (allowed : Bool) (run : State → Attempt Unit) (s : State) : Attempt Unit :=
  if allowed then run s else .raise (illegalWord i) s

/-- The semihosting call: the host gives a new a0 and new memory (45_system R350). Log 9. -/
def semihostCall (s : State) : State :=
  let r := Config.semihost s.tick s.hart s.mem
  writeX 10 r.a0 (s.nextTick.setMem (Memory.normalise r.mem))

/-- EBREAK and C.EBREAK (45_system R352). -/
def breakpoint (len : Word) (s : State) : Attempt Unit :=
  if s.hart.semihost then .ok () (retire len (semihostCall s))
  else
    match drawBreakpoint s with
    | (true, s') => .ok () s'
    | (false, s') => .raise ⟨.breakpoint, s.hart.pc⟩ s'

/-- The interrupts that can be pending and taken: SSI, MSI, STI, MTI (60_exceptions R534). -/
def takenIrqMask : Word := 0xAA

/-- Whether the wake condition `mip & mie & 0xAA != 0` holds in a sample (60_exceptions R536). An
input is looked at only where it is enabled. -/
def wakeCondition (c : ClintSample) (s : State) : Bool :=
  let mie := getCsr .mie s
  (getCsr .mip s &&& mie &&& takenIrqMask) != 0 || (mie.getLsbD 3 && c.msip) ||
    (mie.getLsbD 7 && c.mtip)

/-- WFI: retire, and wait unless the wake condition holds now (45_system R358). Log 23. -/
def waitForInterrupt (s : State) : State :=
  let (c, s1) := sampleClint s
  retire 4 (if wakeCondition c s1 then s1 else s1.setWfi true)

/-- FENCE (45_system R340). -/
def execFence (_rd _rs1 : RegNum) (_fm _pred _succ : BitVec 4) (s : State) : Result :=
  .next (retire 4 s)

/-- FENCE.I (45_system R341). -/
def execFenceI (_rd _rs1 : RegNum) (_imm : BitVec 12) (s : State) : Result := .next (retire 4 s)

/-- CSRRW (45_system R343). -/
def execCsrrw (rd rs1 : RegNum) (csr : CsrAddr) (s : State) : Result :=
  settle (csrInstr rd csr (rd != 0) true (fun _ => readX rs1 s) s)

/-- CSRRS (45_system R344). -/
def execCsrrs (rd rs1 : RegNum) (csr : CsrAddr) (s : State) : Result :=
  settle (csrInstr rd csr true (rs1 != 0) (fun t => t ||| readX rs1 s) s)

/-- CSRRC (45_system R345). -/
def execCsrrc (rd rs1 : RegNum) (csr : CsrAddr) (s : State) : Result :=
  settle (csrInstr rd csr true (rs1 != 0) (fun t => t &&& ~~~(readX rs1 s)) s)

/-- CSRRWI (45_system R346). -/
def execCsrrwi (rd : RegNum) (uimm : BitVec 5) (csr : CsrAddr) (s : State) : Result :=
  settle (csrInstr rd csr (rd != 0) true (fun _ => zextWord uimm) s)

/-- CSRRSI (45_system R347). -/
def execCsrrsi (rd : RegNum) (uimm : BitVec 5) (csr : CsrAddr) (s : State) : Result :=
  settle (csrInstr rd csr true (uimm != 0) (fun t => t ||| zextWord uimm) s)

/-- CSRRCI (45_system R348). -/
def execCsrrci (rd : RegNum) (uimm : BitVec 5) (csr : CsrAddr) (s : State) : Result :=
  settle (csrInstr rd csr true (uimm != 0) (fun t => t &&& ~~~(zextWord uimm)) s)

/-- ECALL (45_system R349). -/
def execEcall (s : State) : Result := .next (takeException ⟨ecallCause s.hart.priv, 0⟩ s)

/-- EBREAK (45_system R352). -/
def execEbreak (s : State) : Result := settle (breakpoint 4 s)

/-- MRET (45_system R356). -/
def execMret (s : State) : Result :=
  settle (privileged .mret (s.hart.priv == .M) (fun s => .ok () (noteRetired (returnM s))) s)

/-- SRET (45_system R357). -/
def execSret (s : State) : Result :=
  settle (privileged .sret (s.hart.priv != .U) (fun s => .ok () (noteRetired (returnS s))) s)

/-- WFI (45_system R358). -/
def execWfi (s : State) : Result :=
  settle (privileged .wfi (s.hart.priv != .U) (fun s => .ok () (waitForInterrupt s)) s)

/-- SFENCE.VMA (45_system R359). -/
def execSfenceVma (rs1 rs2 : RegNum) (s : State) : Result :=
  settle (privileged (.sfenceVma rs1 rs2) (s.hart.priv != .U)
    (fun s => .ok () (retire 4 (tlbFlush s.hart.id (readX rs1 s) ((readX rs2 s).setWidth 16) s))) s)

end Sys2Proof.Machine
end

