-- ==== Sys2Proof/Machine/Float.lean ====
section
/-! DEFINITION. Floating point, F and D (46_float R380 to R446). -/

namespace Sys2Proof.Machine

/-- FP_ARITH: the open function, or its intended instantiation (46_float R381). Log 8. -/
def fpArith (fmt : FpFmt) (op : FpOp) (operands : List Word) (mode : Option RoundingMode) (s : State) :
    FpResult :=
  match s.plat.fpUnit with
  | .uninterpreted => Config.fpArith fmt op operands mode
  | .ieee754 => ieeeArith fmt op operands mode

/-- The FS gate: illegal while FS is Off (46_float R380). -/
def fpGate (i : Instr) (run : State → Attempt Unit) (s : State) : Attempt Unit :=
  if statusFS (getCsr .mstatus s) = 0 then .raise (illegalWord i) s else run s

/-- An operand as FP_ARITH takes it (46_float R380, R381). -/
def fpOperand (fmt : FpFmt) (r : RegNum) (s : State) : Word :=
  match fmt with
  | .S => zextWord (unboxSingle (readF r s))
  | .D => readF r s

/-- A result as the FPR holds it (46_float R380). -/
def fpBox (fmt : FpFmt) (v : Word) : Word :=
  match fmt with
  | .S => boxSingle (low32 v)
  | .D => v

/-- Write an FPR; FS becomes Dirty (46_float R380). -/
def writeFp (rd : RegNum) (v : Word) (s : State) : State := setDirtyFS (writeF rd v s)

/-- Accrue flags; FS becomes Dirty when any is raised (46_float R380, R383). -/
def accrue (fl : BitVec 5) (s : State) : State :=
  if fl = 0 then s else setDirtyFS (setCsr .fcsr (accrueFlags fl (getCsr .fcsr s)) s)

/-- A result for an FPR (46_float R391). -/
def resultF (fmt : FpFmt) (rd : RegNum) (r : FpResult) (s : State) : State :=
  accrue r.flags (writeFp rd (fpBox fmt r.value) s)

/-- A comparison's result, one bit (46_float R401). -/
def resultBit (rd : RegNum) (r : FpResult) (s : State) : State :=
  accrue r.flags (writeX rd (zextWord (field 0 1 r.value)) s)

/-- A 32-bit integer result, sign-extended (46_float R405, R407). -/
def resultWord (rd : RegNum) (r : FpResult) (s : State) : State :=
  accrue r.flags (writeX rd (sext32 (low32 r.value)) s)

/-- A 64-bit integer result (46_float R409). -/
def resultLong (rd : RegNum) (r : FpResult) (s : State) : State :=
  accrue r.flags (writeX rd r.value s)

/-- An operation with a rounding mode: the FS gate, the mode, then the result (46_float R380 to
R383). -/
def fpRounded (i : Instr) (rm : BitVec 3) (fmt : FpFmt) (op : FpOp) (operands : List Word)
    (finish : FpResult → State → State) (s : State) : Result :=
  settle <| fpGate i (s := s) fun s =>
    match resolveMode rm (fcsrFrm (getCsr .fcsr s)) with
    | none => .raise (illegalWord i) s
    | some mode => .ok () (retire 4 (finish (fpArith fmt op operands (some mode) s) s))

/-- An operation without a rounding mode (46_float R380, R399, R401). -/
def fpUnrounded (i : Instr) (fmt : FpFmt) (op : FpOp) (operands : List Word)
    (finish : FpResult → State → State) (s : State) : Result :=
  settle <| fpGate i (s := s) fun s => .ok () (retire 4 (finish (fpArith fmt op operands none s) s))

/-- An FP load (46_float R384, R385, R415). -/
def fpLoad (fmt : FpFmt) (len : Word) (rd : RegNum) (va : Word) (n : Nat) (s : State) : Attempt Unit :=
  (memRead va n s).bind fun v s1 => .ok () (retire len (writeFp rd (fpBox fmt v) s1))

/-- An FP store (46_float R384, R386, R416). -/
def fpStore (len : Word) (va : Word) (n : Nat) (v : Word) (s : State) : Attempt Unit :=
  (memWrite va n v s).bind fun _ s1 => .ok () (retire len s1)

/-- Sign injection on singles; the sign is a function of both operands (46_float R396). -/
def fpSignSingle (sign : BitVec 32 → BitVec 32 → Bool) (rd rs1 rs2 : RegNum) (s : State) :
    Attempt Unit :=
  let a := unboxSingle (readF rs1 s)
  let b := unboxSingle (readF rs2 s)
  .ok () (retire 4 (writeFp rd (boxSingle (bit1 (sign a b) ++ a.extractLsb' 0 31)) s))

/-- Sign injection on doubles (46_float R426). -/
def fpSignDouble (sign : Word → Word → Bool) (rd rs1 rs2 : RegNum) (s : State) : Attempt Unit :=
  let a := readF rs1 s
  let b := readF rs2 s
  .ok () (retire 4 (writeFp rd (bit1 (sign a b) ++ a.extractLsb' 0 63) s))

/-- The class mask of FCLASS (46_float R384). -/
def classMask (fmt : FpFmt) (v : Word) : Word :=
  match unpackFp fmt v with
  | .inf true => 0x1
  | .fin true m _ => if m < 2 ^ (fmtPrecision fmt - 1) then 0x4 else 0x2
  | .zero true => 0x8
  | .zero false => 0x10
  | .fin false m _ => if m < 2 ^ (fmtPrecision fmt - 1) then 0x20 else 0x40
  | .inf false => 0x80
  | .nan true => 0x100
  | .nan false => 0x200

/-- FLW (46_float R385). -/
def execFlw (rd rs1 : RegNum) (imm : BitVec 12) (s : State) : Result :=
  settle (fpGate (.flw rd rs1 imm) (fpLoad .S 4 rd (effAddr rs1 imm s) 4) s)

/-- FSW (46_float R386). -/
def execFsw (rs1 rs2 : RegNum) (imm : BitVec 12) (s : State) : Result :=
  settle (fpGate (.fsw rs1 rs2 imm) (fpStore 4 (effAddr rs1 imm s) 4 (lowBytes 4 (readF rs2 s))) s)

/-- FMADD.S (46_float R387). -/
def execFmaddS (rd rs1 rs2 rs3 : RegNum) (rm : BitVec 3) (s : State) : Result :=
  fpRounded (.fmaddS rd rs1 rs2 rs3 rm) rm .S .fmadd
    [fpOperand .S rs1 s, fpOperand .S rs2 s, fpOperand .S rs3 s] (resultF .S rd) s

/-- FMSUB.S (46_float R388). -/
def execFmsubS (rd rs1 rs2 rs3 : RegNum) (rm : BitVec 3) (s : State) : Result :=
  fpRounded (.fmsubS rd rs1 rs2 rs3 rm) rm .S .fmsub
    [fpOperand .S rs1 s, fpOperand .S rs2 s, fpOperand .S rs3 s] (resultF .S rd) s

/-- FNMSUB.S (46_float R389). -/
def execFnmsubS (rd rs1 rs2 rs3 : RegNum) (rm : BitVec 3) (s : State) : Result :=
  fpRounded (.fnmsubS rd rs1 rs2 rs3 rm) rm .S .fnmsub
    [fpOperand .S rs1 s, fpOperand .S rs2 s, fpOperand .S rs3 s] (resultF .S rd) s

/-- FNMADD.S (46_float R390). -/
def execFnmaddS (rd rs1 rs2 rs3 : RegNum) (rm : BitVec 3) (s : State) : Result :=
  fpRounded (.fnmaddS rd rs1 rs2 rs3 rm) rm .S .fnmadd
    [fpOperand .S rs1 s, fpOperand .S rs2 s, fpOperand .S rs3 s] (resultF .S rd) s

/-- FADD.S (46_float R391). -/
def execFaddS (rd rs1 rs2 : RegNum) (rm : BitVec 3) (s : State) : Result :=
  fpRounded (.faddS rd rs1 rs2 rm) rm .S .fadd [fpOperand .S rs1 s, fpOperand .S rs2 s] (resultF .S rd) s

/-- FSUB.S (46_float R392). -/
def execFsubS (rd rs1 rs2 : RegNum) (rm : BitVec 3) (s : State) : Result :=
  fpRounded (.fsubS rd rs1 rs2 rm) rm .S .fsub [fpOperand .S rs1 s, fpOperand .S rs2 s] (resultF .S rd) s

/-- FMUL.S (46_float R393). -/
def execFmulS (rd rs1 rs2 : RegNum) (rm : BitVec 3) (s : State) : Result :=
  fpRounded (.fmulS rd rs1 rs2 rm) rm .S .fmul [fpOperand .S rs1 s, fpOperand .S rs2 s] (resultF .S rd) s

/-- FDIV.S (46_float R394). -/
def execFdivS (rd rs1 rs2 : RegNum) (rm : BitVec 3) (s : State) : Result :=
  fpRounded (.fdivS rd rs1 rs2 rm) rm .S .fdiv [fpOperand .S rs1 s, fpOperand .S rs2 s] (resultF .S rd) s

/-- FSQRT.S (46_float R395). -/
def execFsqrtS (rd rs1 : RegNum) (rm : BitVec 3) (s : State) : Result :=
  fpRounded (.fsqrtS rd rs1 rm) rm .S .fsqrt [fpOperand .S rs1 s] (resultF .S rd) s

/-- FSGNJ.S (46_float R396). -/
def execFsgnjS (rd rs1 rs2 : RegNum) (s : State) : Result :=
  settle (fpGate (.fsgnjS rd rs1 rs2) (fpSignSingle (fun _ b => b.msb) rd rs1 rs2) s)

/-- FSGNJN.S (46_float R397). -/
def execFsgnjnS (rd rs1 rs2 : RegNum) (s : State) : Result :=
  settle (fpGate (.fsgnjnS rd rs1 rs2) (fpSignSingle (fun _ b => !b.msb) rd rs1 rs2) s)

/-- FSGNJX.S (46_float R398). -/
def execFsgnjxS (rd rs1 rs2 : RegNum) (s : State) : Result :=
  settle (fpGate (.fsgnjxS rd rs1 rs2) (fpSignSingle (fun a b => a.msb != b.msb) rd rs1 rs2) s)

/-- FMIN.S (46_float R399). -/
def execFminS (rd rs1 rs2 : RegNum) (s : State) : Result :=
  fpUnrounded (.fminS rd rs1 rs2) .S .fmin [fpOperand .S rs1 s, fpOperand .S rs2 s] (resultF .S rd) s

/-- FMAX.S (46_float R400). -/
def execFmaxS (rd rs1 rs2 : RegNum) (s : State) : Result :=
  fpUnrounded (.fmaxS rd rs1 rs2) .S .fmax [fpOperand .S rs1 s, fpOperand .S rs2 s] (resultF .S rd) s

/-- FLE.S (46_float R401). -/
def execFleS (rd rs1 rs2 : RegNum) (s : State) : Result :=
  fpUnrounded (.fleS rd rs1 rs2) .S .fle [fpOperand .S rs1 s, fpOperand .S rs2 s] (resultBit rd) s

/-- FLT.S (46_float R402). -/
def execFltS (rd rs1 rs2 : RegNum) (s : State) : Result :=
  fpUnrounded (.fltS rd rs1 rs2) .S .flt [fpOperand .S rs1 s, fpOperand .S rs2 s] (resultBit rd) s

/-- FEQ.S (46_float R403). -/
def execFeqS (rd rs1 rs2 : RegNum) (s : State) : Result :=
  fpUnrounded (.feqS rd rs1 rs2) .S .feq [fpOperand .S rs1 s, fpOperand .S rs2 s] (resultBit rd) s

/-- FCLASS.S (46_float R404). -/
def execFclassS (rd rs1 : RegNum) (s : State) : Result :=
  settle (fpGate (.fclassS rd rs1) (fun s => .ok () (retireX 4 rd (classMask .S (fpOperand .S rs1 s)) s)) s)

/-- FCVT.W.S (46_float R405). -/
def execFcvtWS (rd rs1 : RegNum) (rm : BitVec 3) (s : State) : Result :=
  fpRounded (.fcvtWS rd rs1 rm) rm .S .fcvtWF [fpOperand .S rs1 s] (resultWord rd) s

/-- FCVT.WU.S (46_float R407). -/
def execFcvtWuS (rd rs1 : RegNum) (rm : BitVec 3) (s : State) : Result :=
  fpRounded (.fcvtWuS rd rs1 rm) rm .S .fcvtWuF [fpOperand .S rs1 s] (resultWord rd) s

/-- FCVT.L.S (46_float R409). -/
def execFcvtLS (rd rs1 : RegNum) (rm : BitVec 3) (s : State) : Result :=
  fpRounded (.fcvtLS rd rs1 rm) rm .S .fcvtLF [fpOperand .S rs1 s] (resultLong rd) s

/-- FCVT.LU.S (46_float R411). -/
def execFcvtLuS (rd rs1 : RegNum) (rm : BitVec 3) (s : State) : Result :=
  fpRounded (.fcvtLuS rd rs1 rm) rm .S .fcvtLuF [fpOperand .S rs1 s] (resultLong rd) s

/-- FCVT.S.W (46_float R406). -/
def execFcvtSW (rd rs1 : RegNum) (rm : BitVec 3) (s : State) : Result :=
  fpRounded (.fcvtSW rd rs1 rm) rm .S .fcvtFW [sext32 (low32 (readX rs1 s))] (resultF .S rd) s

/-- FCVT.S.WU (46_float R408). -/
def execFcvtSWu (rd rs1 : RegNum) (rm : BitVec 3) (s : State) : Result :=
  fpRounded (.fcvtSWu rd rs1 rm) rm .S .fcvtFWu [zextWord (low32 (readX rs1 s))] (resultF .S rd) s

/-- FCVT.S.L (46_float R410). -/
def execFcvtSL (rd rs1 : RegNum) (rm : BitVec 3) (s : State) : Result :=
  fpRounded (.fcvtSL rd rs1 rm) rm .S .fcvtFL [readX rs1 s] (resultF .S rd) s

/-- FCVT.S.LU (46_float R412). -/
def execFcvtSLu (rd rs1 : RegNum) (rm : BitVec 3) (s : State) : Result :=
  fpRounded (.fcvtSLu rd rs1 rm) rm .S .fcvtFLu [readX rs1 s] (resultF .S rd) s

/-- FLD (46_float R415). -/
def execFld (rd rs1 : RegNum) (imm : BitVec 12) (s : State) : Result :=
  settle (fpGate (.fld rd rs1 imm) (fpLoad .D 4 rd (effAddr rs1 imm s) 8) s)

/-- FSD (46_float R416). -/
def execFsd (rs1 rs2 : RegNum) (imm : BitVec 12) (s : State) : Result :=
  settle (fpGate (.fsd rs1 rs2 imm) (fpStore 4 (effAddr rs1 imm s) 8 (lowBytes 8 (readF rs2 s))) s)

/-- FMADD.D (46_float R417). -/
def execFmaddD (rd rs1 rs2 rs3 : RegNum) (rm : BitVec 3) (s : State) : Result :=
  fpRounded (.fmaddD rd rs1 rs2 rs3 rm) rm .D .fmadd
    [fpOperand .D rs1 s, fpOperand .D rs2 s, fpOperand .D rs3 s] (resultF .D rd) s

/-- FMSUB.D (46_float R418). -/
def execFmsubD (rd rs1 rs2 rs3 : RegNum) (rm : BitVec 3) (s : State) : Result :=
  fpRounded (.fmsubD rd rs1 rs2 rs3 rm) rm .D .fmsub
    [fpOperand .D rs1 s, fpOperand .D rs2 s, fpOperand .D rs3 s] (resultF .D rd) s

/-- FNMSUB.D (46_float R419). -/
def execFnmsubD (rd rs1 rs2 rs3 : RegNum) (rm : BitVec 3) (s : State) : Result :=
  fpRounded (.fnmsubD rd rs1 rs2 rs3 rm) rm .D .fnmsub
    [fpOperand .D rs1 s, fpOperand .D rs2 s, fpOperand .D rs3 s] (resultF .D rd) s

/-- FNMADD.D (46_float R420). -/
def execFnmaddD (rd rs1 rs2 rs3 : RegNum) (rm : BitVec 3) (s : State) : Result :=
  fpRounded (.fnmaddD rd rs1 rs2 rs3 rm) rm .D .fnmadd
    [fpOperand .D rs1 s, fpOperand .D rs2 s, fpOperand .D rs3 s] (resultF .D rd) s

/-- FADD.D (46_float R421). -/
def execFaddD (rd rs1 rs2 : RegNum) (rm : BitVec 3) (s : State) : Result :=
  fpRounded (.faddD rd rs1 rs2 rm) rm .D .fadd [fpOperand .D rs1 s, fpOperand .D rs2 s] (resultF .D rd) s

/-- FSUB.D (46_float R422). -/
def execFsubD (rd rs1 rs2 : RegNum) (rm : BitVec 3) (s : State) : Result :=
  fpRounded (.fsubD rd rs1 rs2 rm) rm .D .fsub [fpOperand .D rs1 s, fpOperand .D rs2 s] (resultF .D rd) s

/-- FMUL.D (46_float R423). -/
def execFmulD (rd rs1 rs2 : RegNum) (rm : BitVec 3) (s : State) : Result :=
  fpRounded (.fmulD rd rs1 rs2 rm) rm .D .fmul [fpOperand .D rs1 s, fpOperand .D rs2 s] (resultF .D rd) s

/-- FDIV.D (46_float R424). -/
def execFdivD (rd rs1 rs2 : RegNum) (rm : BitVec 3) (s : State) : Result :=
  fpRounded (.fdivD rd rs1 rs2 rm) rm .D .fdiv [fpOperand .D rs1 s, fpOperand .D rs2 s] (resultF .D rd) s

/-- FSQRT.D (46_float R425). -/
def execFsqrtD (rd rs1 : RegNum) (rm : BitVec 3) (s : State) : Result :=
  fpRounded (.fsqrtD rd rs1 rm) rm .D .fsqrt [fpOperand .D rs1 s] (resultF .D rd) s

/-- FSGNJ.D (46_float R426). -/
def execFsgnjD (rd rs1 rs2 : RegNum) (s : State) : Result :=
  settle (fpGate (.fsgnjD rd rs1 rs2) (fpSignDouble (fun _ b => b.msb) rd rs1 rs2) s)

/-- FSGNJN.D (46_float R427). -/
def execFsgnjnD (rd rs1 rs2 : RegNum) (s : State) : Result :=
  settle (fpGate (.fsgnjnD rd rs1 rs2) (fpSignDouble (fun _ b => !b.msb) rd rs1 rs2) s)

/-- FSGNJX.D (46_float R428). -/
def execFsgnjxD (rd rs1 rs2 : RegNum) (s : State) : Result :=
  settle (fpGate (.fsgnjxD rd rs1 rs2) (fpSignDouble (fun a b => a.msb != b.msb) rd rs1 rs2) s)

/-- FMIN.D (46_float R429). -/
def execFminD (rd rs1 rs2 : RegNum) (s : State) : Result :=
  fpUnrounded (.fminD rd rs1 rs2) .D .fmin [fpOperand .D rs1 s, fpOperand .D rs2 s] (resultF .D rd) s

/-- FMAX.D (46_float R430). -/
def execFmaxD (rd rs1 rs2 : RegNum) (s : State) : Result :=
  fpUnrounded (.fmaxD rd rs1 rs2) .D .fmax [fpOperand .D rs1 s, fpOperand .D rs2 s] (resultF .D rd) s

/-- FLE.D (46_float R431). -/
def execFleD (rd rs1 rs2 : RegNum) (s : State) : Result :=
  fpUnrounded (.fleD rd rs1 rs2) .D .fle [fpOperand .D rs1 s, fpOperand .D rs2 s] (resultBit rd) s

/-- FLT.D (46_float R432). -/
def execFltD (rd rs1 rs2 : RegNum) (s : State) : Result :=
  fpUnrounded (.fltD rd rs1 rs2) .D .flt [fpOperand .D rs1 s, fpOperand .D rs2 s] (resultBit rd) s

/-- FEQ.D (46_float R433). -/
def execFeqD (rd rs1 rs2 : RegNum) (s : State) : Result :=
  fpUnrounded (.feqD rd rs1 rs2) .D .feq [fpOperand .D rs1 s, fpOperand .D rs2 s] (resultBit rd) s

/-- FCLASS.D (46_float R434). -/
def execFclassD (rd rs1 : RegNum) (s : State) : Result :=
  settle (fpGate (.fclassD rd rs1) (fun s => .ok () (retireX 4 rd (classMask .D (fpOperand .D rs1 s)) s)) s)

/-- FCVT.W.D (46_float R435). -/
def execFcvtWD (rd rs1 : RegNum) (rm : BitVec 3) (s : State) : Result :=
  fpRounded (.fcvtWD rd rs1 rm) rm .D .fcvtWF [fpOperand .D rs1 s] (resultWord rd) s

/-- FCVT.WU.D (46_float R437). -/
def execFcvtWuD (rd rs1 : RegNum) (rm : BitVec 3) (s : State) : Result :=
  fpRounded (.fcvtWuD rd rs1 rm) rm .D .fcvtWuF [fpOperand .D rs1 s] (resultWord rd) s

/-- FCVT.L.D (46_float R439). -/
def execFcvtLD (rd rs1 : RegNum) (rm : BitVec 3) (s : State) : Result :=
  fpRounded (.fcvtLD rd rs1 rm) rm .D .fcvtLF [fpOperand .D rs1 s] (resultLong rd) s

/-- FCVT.LU.D (46_float R441). -/
def execFcvtLuD (rd rs1 : RegNum) (rm : BitVec 3) (s : State) : Result :=
  fpRounded (.fcvtLuD rd rs1 rm) rm .D .fcvtLuF [fpOperand .D rs1 s] (resultLong rd) s

/-- FCVT.D.W (46_float R436). -/
def execFcvtDW (rd rs1 : RegNum) (rm : BitVec 3) (s : State) : Result :=
  fpRounded (.fcvtDW rd rs1 rm) rm .D .fcvtFW [sext32 (low32 (readX rs1 s))] (resultF .D rd) s

/-- FCVT.D.WU (46_float R438). -/
def execFcvtDWu (rd rs1 : RegNum) (rm : BitVec 3) (s : State) : Result :=
  fpRounded (.fcvtDWu rd rs1 rm) rm .D .fcvtFWu [zextWord (low32 (readX rs1 s))] (resultF .D rd) s

/-- FCVT.D.L (46_float R440). -/
def execFcvtDL (rd rs1 : RegNum) (rm : BitVec 3) (s : State) : Result :=
  fpRounded (.fcvtDL rd rs1 rm) rm .D .fcvtFL [readX rs1 s] (resultF .D rd) s

/-- FCVT.D.LU (46_float R442). -/
def execFcvtDLu (rd rs1 : RegNum) (rm : BitVec 3) (s : State) : Result :=
  fpRounded (.fcvtDLu rd rs1 rm) rm .D .fcvtFLu [readX rs1 s] (resultF .D rd) s

/-- FCVT.S.D (46_float R443). -/
def execFcvtSD (rd rs1 : RegNum) (rm : BitVec 3) (s : State) : Result :=
  fpRounded (.fcvtSD rd rs1 rm) rm .S .fcvtFF [fpOperand .D rs1 s] (resultF .S rd) s

/-- FCVT.D.S (46_float R444). -/
def execFcvtDS (rd rs1 : RegNum) (rm : BitVec 3) (s : State) : Result :=
  fpRounded (.fcvtDS rd rs1 rm) rm .D .fcvtFF [fpOperand .S rs1 s] (resultF .D rd) s

/-- FMV.X.W (46_float R413). -/
def execFmvXW (rd rs1 : RegNum) (s : State) : Result :=
  settle (fpGate (.fmvXW rd rs1) (fun s => .ok () (retireX 4 rd (sext32 (low32 (readF rs1 s))) s)) s)

/-- FMV.X.D (46_float R445). -/
def execFmvXD (rd rs1 : RegNum) (s : State) : Result :=
  settle (fpGate (.fmvXD rd rs1) (fun s => .ok () (retireX 4 rd (readF rs1 s) s)) s)

/-- FMV.W.X (46_float R414). -/
def execFmvWX (rd rs1 : RegNum) (s : State) : Result :=
  settle (fpGate (.fmvWX rd rs1)
    (fun s => .ok () (retire 4 (writeFp rd (boxSingle (low32 (readX rs1 s))) s))) s)

/-- FMV.D.X (46_float R446). -/
def execFmvDX (rd rs1 : RegNum) (s : State) : Result :=
  settle (fpGate (.fmvDX rd rs1) (fun s => .ok () (retire 4 (writeFp rd (readX rs1 s) s))) s)

end Sys2Proof.Machine
end

