-- ==== Sys2Proof/Machine/Compressed.lean ====
section
/-! DEFINITION. Compressed instructions (47_compressed R460 to R499): each as its base instruction with
length 2 (R460). -/

namespace Sys2Proof.Machine

/-- C.ADDI4SPN (47_compressed R462). -/
def execCAddi4spn (rd : CRegNum) (imm : BitVec 10) (s : State) : Result :=
  .next (retireX 2 (primeReg rd) (readX 2 s + zextWord imm) s)

/-- C.FLD (47_compressed R463). -/
def execCFld (rd rs1 : CRegNum) (imm : BitVec 8) (s : State) : Result :=
  settle (fpGate (.cFld rd rs1 imm) (fpLoad .D 2 (primeReg rd) (readX (primeReg rs1) s + zextWord imm) 8) s)

/-- C.LW (47_compressed R464). -/
def execCLw (rd rs1 : CRegNum) (imm : BitVec 7) (s : State) : Result :=
  loadX 2 (primeReg rd) (readX (primeReg rs1) s + zextWord imm) 4 (fun v => sext32 (low32 v)) s

/-- C.LD (47_compressed R465). -/
def execCLd (rd rs1 : CRegNum) (imm : BitVec 8) (s : State) : Result :=
  loadX 2 (primeReg rd) (readX (primeReg rs1) s + zextWord imm) 8 id s

/-- C.FSD (47_compressed R466). -/
def execCFsd (rs1 rs2 : CRegNum) (imm : BitVec 8) (s : State) : Result :=
  settle (fpGate (.cFsd rs1 rs2 imm) (fpStore 2 (readX (primeReg rs1) s + zextWord imm) 8 (readF (primeReg rs2) s)) s)

/-- C.SW (47_compressed R467). -/
def execCSw (rs1 rs2 : CRegNum) (imm : BitVec 7) (s : State) : Result :=
  storeValue 2 (readX (primeReg rs1) s + zextWord imm) 4 (lowBytes 4 (readX (primeReg rs2) s)) s

/-- C.SD (47_compressed R468). -/
def execCSd (rs1 rs2 : CRegNum) (imm : BitVec 8) (s : State) : Result :=
  storeValue 2 (readX (primeReg rs1) s + zextWord imm) 8 (readX (primeReg rs2) s) s

/-- C.NOP (47_compressed R469). -/
def execCNop (_imm : BitVec 6) (s : State) : Result := .next (retire 2 s)

/-- C.ADDI (47_compressed R470). -/
def execCAddi (rd : RegNum) (imm : BitVec 6) (s : State) : Result :=
  .next (retireX 2 rd (readX rd s + sextWord imm) s)

/-- C.ADDIW (47_compressed R471). -/
def execCAddiw (rd : RegNum) (imm : BitVec 6) (s : State) : Result :=
  .next (retireX 2 rd (sext32 (low32 (readX rd s + sextWord imm))) s)

/-- C.LI (47_compressed R472). -/
def execCLi (rd : RegNum) (imm : BitVec 6) (s : State) : Result :=
  .next (retireX 2 rd (sextWord imm) s)

/-- C.ADDI16SP (47_compressed R473). -/
def execCAddi16sp (imm : BitVec 10) (s : State) : Result :=
  .next (retireX 2 2 (readX 2 s + sextWord imm) s)

/-- C.LUI (47_compressed R474). -/
def execCLui (rd : RegNum) (imm : BitVec 18) (s : State) : Result :=
  .next (retireX 2 rd (sextWord imm) s)

/-- C.SRLI (47_compressed R475). -/
def execCSrli (rd : CRegNum) (shamt : BitVec 6) (s : State) : Result :=
  .next (retireX 2 (primeReg rd) (readX (primeReg rd) s >>> shamt.toNat) s)

/-- C.SRAI (47_compressed R476). -/
def execCSrai (rd : CRegNum) (shamt : BitVec 6) (s : State) : Result :=
  .next (retireX 2 (primeReg rd) ((readX (primeReg rd) s).sshiftRight shamt.toNat) s)

/-- C.ANDI (47_compressed R477). -/
def execCAndi (rd : CRegNum) (imm : BitVec 6) (s : State) : Result :=
  .next (retireX 2 (primeReg rd) (readX (primeReg rd) s &&& sextWord imm) s)

/-- C.SUB (47_compressed R478). -/
def execCSub (rd rs2 : CRegNum) (s : State) : Result :=
  .next (retireX 2 (primeReg rd) (readX (primeReg rd) s - readX (primeReg rs2) s) s)

/-- C.XOR (47_compressed R479). -/
def execCXor (rd rs2 : CRegNum) (s : State) : Result :=
  .next (retireX 2 (primeReg rd) (readX (primeReg rd) s ^^^ readX (primeReg rs2) s) s)

/-- C.OR (47_compressed R480). -/
def execCOr (rd rs2 : CRegNum) (s : State) : Result :=
  .next (retireX 2 (primeReg rd) (readX (primeReg rd) s ||| readX (primeReg rs2) s) s)

/-- C.AND (47_compressed R481). -/
def execCAnd (rd rs2 : CRegNum) (s : State) : Result :=
  .next (retireX 2 (primeReg rd) (readX (primeReg rd) s &&& readX (primeReg rs2) s) s)

/-- C.SUBW (47_compressed R482). -/
def execCSubw (rd rs2 : CRegNum) (s : State) : Result :=
  .next (retireX 2 (primeReg rd) (sext32 (low32 (readX (primeReg rd) s - readX (primeReg rs2) s))) s)

/-- C.ADDW (47_compressed R483). -/
def execCAddw (rd rs2 : CRegNum) (s : State) : Result :=
  .next (retireX 2 (primeReg rd) (sext32 (low32 (readX (primeReg rd) s + readX (primeReg rs2) s))) s)

/-- C.J (47_compressed R484). -/
def execCJ (imm : BitVec 12) (s : State) : Result := .next (retireTo (s.hart.pc + sextWord imm) s)

/-- C.BEQZ (47_compressed R485). -/
def execCBeqz (rs1 : CRegNum) (imm : BitVec 9) (s : State) : Result :=
  .next (branch 2 (readX (primeReg rs1) s == 0) (sextWord imm) s)

/-- C.BNEZ (47_compressed R486). -/
def execCBnez (rs1 : CRegNum) (imm : BitVec 9) (s : State) : Result :=
  .next (branch 2 (readX (primeReg rs1) s != 0) (sextWord imm) s)

/-- C.SLLI (47_compressed R487). -/
def execCSlli (rd : RegNum) (shamt : BitVec 6) (s : State) : Result :=
  .next (retireX 2 rd (readX rd s <<< shamt.toNat) s)

/-- C.FLDSP (47_compressed R488). -/
def execCFldsp (rd : RegNum) (imm : BitVec 9) (s : State) : Result :=
  settle (fpGate (.cFldsp rd imm) (fpLoad .D 2 rd (readX 2 s + zextWord imm) 8) s)

/-- C.LWSP (47_compressed R489). -/
def execCLwsp (rd : RegNum) (imm : BitVec 8) (s : State) : Result :=
  loadX 2 rd (readX 2 s + zextWord imm) 4 (fun v => sext32 (low32 v)) s

/-- C.LDSP (47_compressed R490). -/
def execCLdsp (rd : RegNum) (imm : BitVec 9) (s : State) : Result :=
  loadX 2 rd (readX 2 s + zextWord imm) 8 id s

/-- C.JR (47_compressed R491). -/
def execCJr (rs1 : RegNum) (s : State) : Result := .next (retireTo (clearBit0 (readX rs1 s)) s)

/-- C.MV (47_compressed R492). -/
def execCMv (rd rs2 : RegNum) (s : State) : Result := .next (retireX 2 rd (readX rs2 s) s)

/-- C.EBREAK (47_compressed R493). -/
def execCEbreak (s : State) : Result := settle (breakpoint 2 s)

/-- C.JALR (47_compressed R494). -/
def execCJalr (rs1 : RegNum) (s : State) : Result :=
  .next (jumpLink 1 (s.hart.pc + 2) (clearBit0 (readX rs1 s)) s)

/-- C.ADD (47_compressed R495). -/
def execCAdd (rd rs2 : RegNum) (s : State) : Result :=
  .next (retireX 2 rd (readX rd s + readX rs2 s) s)

/-- C.FSDSP (47_compressed R496). -/
def execCFsdsp (rs2 : RegNum) (imm : BitVec 9) (s : State) : Result :=
  settle (fpGate (.cFsdsp rs2 imm) (fpStore 2 (readX 2 s + zextWord imm) 8 (readF rs2 s)) s)

/-- C.SWSP (47_compressed R497). -/
def execCSwsp (rs2 : RegNum) (imm : BitVec 8) (s : State) : Result :=
  storeValue 2 (readX 2 s + zextWord imm) 4 (lowBytes 4 (readX rs2 s)) s

/-- C.SDSP (47_compressed R498). -/
def execCSdsp (rs2 : RegNum) (imm : BitVec 9) (s : State) : Result :=
  storeValue 2 (readX 2 s + zextWord imm) 8 (readX rs2 s) s

end Sys2Proof.Machine
end

