-- ==== Sys2Proof/Machine/Interrupts.lean ====
section
/-! DEFINITION. The choice of the hart that takes a step (20_memory R127), and the end of a step:
counters and the interrupt check (60_exceptions R520, R533 to R536). -/

namespace Sys2Proof.Machine

/-- Whether an interrupt is pending and enabled in mie, in a sample (60_exceptions R533, R534). An
input is looked at only where it is enabled. -/
def irqPending (c : ClintSample) (s : State) (i : Irq) : Bool :=
  (getCsr .mie s).getLsbD (irqCode i) &&
    match i with
    | .ssi => (getCsr .mip s).getLsbD 1
    | .msi => c.msip
    | .sti => (getCsr .mip s).getLsbD 5
    | .mti => c.mtip

/-- Whether an interrupt is delegated to S (60_exceptions R534). -/
def irqDelegated (s : State) (i : Irq) : Bool := (getCsr .mideleg s).getLsbD (irqCode i)

/-- Whether interrupts that target M are globally enabled (60_exceptions R534). -/
def enabledM (s : State) : Bool := s.hart.priv != .M || statusMIE (getCsr .mstatus s)

/-- Whether interrupts that target S are globally enabled (60_exceptions R534). -/
def enabledS (s : State) : Bool :=
  s.hart.priv == .U || (s.hart.priv == .S && statusSIE (getCsr .mstatus s))

/-- The interrupt the check takes: M-targeted ones first, in the order MSI, MTI, SSI, STI, then
S-targeted ones (60_exceptions R534, R535). -/
def pickIrq (c : ClintSample) (s : State) : Option Irq :=
  let forM := if enabledM s then
    [Irq.msi, .mti, .ssi, .sti].find? (fun i => irqPending c s i && !irqDelegated s i) else none
  let forS := if enabledS s then
    [Irq.ssi, .sti].find? (fun i => irqPending c s i && irqDelegated s i) else none
  forM.or forS

/-- The wake of a waiting hart: when the condition holds, or spuriously (60_exceptions R535, R536). -/
def wakeCheck (c : ClintSample) (s : State) : State :=
  if s.hart.wfi then
    if wakeCondition c s then s.setWfi false
    else
      let (w, s') := drawWake s
      if w then s'.setWfi false else s'
  else s

/-- InterruptCheck (60_exceptions R535). -/
def interruptCheck (s : State) : State :=
  let (c, s1) := sampleClint s
  let s2 := wakeCheck c s1
  match pickIrq c s2 with
  | some i => trapEntry true (irqCode i) 0 s2.hart.pc s2
  | none => s2

/-- The advance of mcycle and minstret (10_state R81, R82). Log 24. -/
def advanceCounters (s : State) : State :=
  let s1 :=
    if s.note.wroteMcycle then s
    else
      let (c, s') := drawCycle s
      setCsr .mcycle (getCsr .mcycle s' + c) s'
  if s1.note.retired && !s1.note.wroteMinstret then setCsr .minstret (getCsr .minstret s1 + 1) s1
  else s1

/-- Whether a hart may take a step (10_state R44). -/
def Hart.canStep (h : Hart) : Bool := h.halted.isNone

/-- The hart at index `k` of the others comes to stand in `hart`. -/
def swapHart (k : Nat) (s : State) : State :=
  match s.others[k]? with
  | some h => { s with hart := h, others := s.others.set k s.hart }
  | none => s

/-- The choice of the hart that takes the step, made when the step begins, so that it sees what the
host did before: any hart that is not halted (20_memory R127). Log 19. -/
def schedule (s : State) : State :=
  if s.others.isEmpty then s
  else
    let (k, s') := drawSchedule s
    if (s'.others[k]?).any Hart.canStep then swapHart k s'
    else if s'.hart.canStep then s'
    else swapHart (s'.others.findIdx Hart.canStep) s'

/-- The end of a step, after the instruction or the exception (60_exceptions R520). -/
def endStep (s : State) : State :=
  let s1 := advanceCounters s
  let s2 := if s1.note.trapped || s1.hart.halted.isSome then s1 else interruptCheck s1
  s2.setNote {}

end Sys2Proof.Machine
end

