-- ==== Sys2Proof/Machine/Fetch.lean ====
section
/-! DEFINITION. Fetching an instruction's parcels, running a fetched word, and placing a word where the
next step fetches it (30_encoding R155, R159, R160). -/

namespace Sys2Proof.Machine

/-- A fetched instruction word: its length in bits and the word. -/
abbrev Fetched := Nat × InstrWord

/-- Fetch, in parcels (30_encoding R160). -/
def fetch (s : State) : Attempt Fetched :=
  (readAt s.hart.pc 2 .fetch s).bind fun v0 s1 =>
    let p0 : BitVec 16 := v0.setWidth 16
    if parcelLength p0 = 16 then .ok (16, p0.setWidth 32) s1
    else
      (readAt (s1.hart.pc + 2) 2 .fetch s1).bind fun v1 s2 =>
        let p1 : BitVec 16 := v1.setWidth 16
        .ok (32, p1 ++ p0) s2

/-- The exception of a word that matches no row: tval is the word (30_encoding R155, R167). -/
def illegalFetched (w : InstrWord) : Trap := ⟨.illegalInstr, w.setWidth 64⟩

/-- Decode and execute a fetched word (30_encoding R154, R155). -/
def execWord (f : Fetched) (s : State) : Result :=
  match decodeWord s.plat.rvcDisabled f.1 f.2 with
  | .ok i => exec i s
  | .error .noMatch => .next (takeException (illegalFetched f.2) s)
  | .error .ambiguous => .refused .ambiguousDecode

/-- A result followed by the end of the step. -/
def thenEndStep (r : Result) : Result :=
  match r with
  | .next s => .next (endStep s)
  | .fault f => .fault f
  | .refused q => .refused q

/-- One step of a hart that is not halted (60_exceptions R520). -/
def runHart (s : State) : Result :=
  if s.hart.wfi then .next (endStep s)
  else if s.hart.pc.getLsbD 0 then .refused .oddPc
  else
    match fetch s with
    | .raise t s' => .next (endStep (takeException t s'))
    | .ok f s' => thenEndStep (execWord f s')

/-- A step of the hart in `hart`; a halted one cannot take it (10_state R44, 60_exceptions R531). -/
def stepHart (s : State) : Result := if s.hart.halted.isSome then .fault .hartHalted else runHart s

/-! ### Placing a word -/

/-- The schedule's next draw keeps the hart in `hart`: an index that names no other hart. -/
def keepHart (s : State) : State :=
  if s.others.isEmpty then s
  else { s with tape := { s.tape with schedule := s.others.length :: s.tape.schedule } }

/-- A state in which the next step fetches at `pc` of the hart in `hart`, untouched where it already
does. -/
def readyToFetch (s : State) : State :=
  keepHart (((s.setHalted none).setWfi false).setPc (clearBit0 s.hart.pc))

/-- Store `n` parcels of `w` where they are fetched from `va`, in RAM; nothing where a fetch would
fault or leave RAM. -/
def storeParcels (va : Word) : Nat → InstrWord → State → Option State
  | 0, _, s => some s
  | n + 1, w, s =>
    match translate va .fetch s with
    | .raise _ _ => none
    | .ok pa _ =>
      match findRegion s.plat.pmap pa.toNat 2 with
      | some ⟨_, _, .ram⟩ =>
        storeParcels (va + 2) n (w >>> 16)
          (s.setMem (Memory.writeLE s.mem pa.toNat 2 (w.setWidth 64)))
      | _ => none

/-- A state whose fetches are untranslated and lie in RAM: what `placeWord` falls back on. -/
def bareRam (s : State) : State :=
  let s1 := setCsr .satp 0 s
  let s2 := if s1.hart.pc.toNat + 4 ≤ 2 ^ 56 then s1 else s1.setPc Config.entryPc
  { s2 with plat := { s2.plat with pmap := ⟨s2.hart.pc.toNat, 4, .ram⟩ :: s2.plat.pmap } }

/-- The state in which the next step fetches `w` (four bytes) at its pc. -/
def placeWord (w : InstrWord) (s : State) : State :=
  let s1 := readyToFetch s
  match storeParcels s1.hart.pc 2 w s1 with
  | some s2 => s2
  | none =>
    let s3 := bareRam s1
    (storeParcels s3.hart.pc 2 w s3).getD s3

end Sys2Proof.Machine
end

