-- ==== Sys2Proof/Machine/Step.lean ====
section
/-! DEFINITION. The step (60_exceptions R520) and the placing of a word for it. -/

namespace Sys2Proof.Machine

/-- One step of the machine: the schedule chooses a hart, and it steps (20_memory R127, 60_exceptions
R520, R531). -/
def step (s : State) : Host.Outcome State Fault Refusal := stepHart (schedule s)

/-- The state in which `step` fetches and runs the word `w` of `nbits` bits. It stands for the host's
loading of a program (70_reset_and_hazards R581): log 5. -/
def State.withFetchWord (s : State) (nbits w : Nat) : State :=
  placeWord (BitVec.ofNat 32 (w % 2 ^ nbits)) s

end Sys2Proof.Machine
end

