-- ==== Sys2Proof/Machine/HostActions.lean ====
section
/-! DEFINITION. What the host does between steps (70_reset_and_hazards R580 to R584, 20_memory R125).
None of these is a step. Log 25. -/

namespace Sys2Proof.Machine

/-- Do something to the hart `id`, with it standing in `hart` meanwhile. Which hart takes
the next step is chosen when that step begins, among all that have not halted, the one acted on
included (20_memory R127). Log 19. -/
def onHart (id : Nat) (f : State → State) (s : State) : State :=
  if s.hart.id = id then f s
  else
    let k := s.others.findIdx (fun h => h.id == id)
    if k < s.others.length then swapHart k (f (swapHart k s)) else s

/-- `reset(entry_pc)` on hart `id`: its state and its part of the TLB; memory and the other harts keep
theirs (70_reset_and_hazards R580, R581, R583). An odd entry is refused (R584). -/
def hostReset (id : Nat) (entry : Word) (s : State) : Option State :=
  if entry.getLsbD 0 then none
  else
    some (onHart id (fun t => { t with
      hart := Hart.reset id entry, tlb := t.tlb.filter (fun e => e.hart != id) }) s)

/-- Bring up a machine: `harts` are the entry addresses by hart id, `cells` what the host loaded
before reset (70_reset_and_hazards R581, R582, 60_exceptions R550). Any of them may take the first
step: that hart 0 stands in `hart` decides nothing (20_memory R127). Log 19. -/
def powerOn (plat : Platform) (first : Word) (rest : List Word) (cells : List Host.Cell) : State :=
  { State.reset with
    hart := Hart.reset 0 first
    others := rest.mapIdx (fun k e => Hart.reset (k + 1) e)
    mem := Memory.normalise cells
    plat := plat }

/-- Load bytes into memory (70_reset_and_hazards R581). -/
def hostLoad (a : Nat) (bytes : List Byte) (s : State) : State :=
  s.setMem ((bytes.mapIdx (fun k b => (a + k, b))).foldl (fun m c => Memory.writeByte m c.1 c.2) s.mem)

/-- Write a general register; register 0 discards it (70_reset_and_hazards R584, 10_state R32). -/
def hostWriteX (id : Nat) (r : RegNum) (v : Word) (s : State) : State := onHart id (writeX r v) s

/-- Write a floating-point register (70_reset_and_hazards R584). -/
def hostWriteF (id : Nat) (r : RegNum) (v : Word) (s : State) : State := onHart id (writeF r v) s

/-- Write the pc; an odd one is refused (70_reset_and_hazards R584). -/
def hostWritePc (id : Nat) (v : Word) (s : State) : Option State :=
  if v.getLsbD 0 then none else some (onHart id (State.setPc v) s)

/-- Write a CSR by the write algorithm at privilege M; an access fault raises nothing
(70_reset_and_hazards R584). -/
def hostWriteCsr (id : Nat) (a : CsrAddr) (v : Word) (s : State) : State :=
  onHart id (fun t => match csrWrite a v .M t with
    | .ok t' => t'
    | .error _ => t) s

/-- `translate(vaddr, access, unsafe)` by the host, for the hart in `hart`: with `unsafe` a fault answers
the sentinel (20_memory R125). Whether A/D and TLB effects are kept is not said: `keep` is free.
DESIGN CHOICE: R125 names no privilege, and the translation is checked at the hart's effective
privilege for the access (R108), MPRV included. Log 34. -/
def hostTranslate (va : Word) (acc : Access) (unsafeFlag keep : Bool) (s : State) :
    Except Trap Word × State :=
  match translate va acc s with
  | .ok pa s' => (.ok pa, if keep then s' else s)
  | .raise t s' =>
    (if unsafeFlag then .ok Config.unsafeSentinel else .error t, if keep then s' else s)

end Sys2Proof.Machine
end

