-- ==== Sys2Proof/Safety.lean ====
section
/-! DEFINITION. What holds of every state between steps, what a safe step is, and the terms the
statements use: what an instruction changes, and when a plain memory access succeeds. -/

namespace Sys2Proof.Machine

/-! ### The invariant -/

/-- The stored CSRs hold only bits their masks and legalisations allow (10_state R57 to R82). -/
abbrev CsrFile.legal (c : CsrFile) : Prop :=
  c.fcsr &&& ~~~0xff#64 = 0 ∧ c.mstatus &&& ~~~mstatusWritable = 0 ∧ statusMPP c.mstatus ≠ 2 ∧
  c.medeleg &&& ~~~0xb3ff#64 = 0 ∧ c.mideleg &&& ~~~0x222#64 = 0 ∧ c.mie &&& ~~~0xaaa#64 = 0 ∧
  c.mip &&& ~~~0x222#64 = 0 ∧ c.mtvec &&& 2#64 = 0 ∧ c.stvec &&& 2#64 = 0 ∧
  c.mepc &&& 1#64 = 0 ∧ c.sepc &&& 1#64 = 0 ∧ c.mcounteren &&& ~~~7#64 = 0 ∧
  c.scounteren &&& ~~~7#64 = 0 ∧
  (satpMode c.satp = 0 ∨ satpMode c.satp = 8 ∨ satpMode c.satp = 9 ∨ satpMode c.satp = 10)

/-- A hart between steps: register 0 is 0, the pc is even, the privilege is not H, the CSRs are legal,
a reservation is of a word or a doubleword (10_state R32, R39, R41, 44_atomics R310). -/
abbrev Hart.legal (h : Hart) : Prop :=
  h.x[0] = 0 ∧ h.pc &&& 1#64 = 0 ∧ h.priv ≠ .H ∧ h.csr.legal ∧
  ∀ r, h.res = some r → r.width = 4 ∨ r.width = 8

/-- No two TLB entries have the same key (20_memory R120). -/
abbrev tlbKeysDistinct (l : List TlbEntry) : Prop := l.Pairwise fun d e => d.sameKey e = false

/-- The invariant of the machine between steps. -/
structure Inv (s : State) : Prop where
  memory : Memory.wf s.mem
  hart   : s.hart.legal
  others : ∀ h ∈ s.others, h.legal
  tlb    : tlbKeysDistinct s.tlb
  note   : s.note = {}

/-! ### Safe steps -/

/-- Executing the instruction answers a next state, and `post` holds of it. -/
def RunsTo (i : Instr) (s : State) (post : State → Prop) : Prop := ∃ t, exec i s = .next t ∧ post t

/-- Executing the instruction takes the exception: the next state is that of its trap entry from `u`,
the state with the effects that survive a trap. -/
def Traps (i : Instr) (s : State) (cause : Cause) (tval : Word) (u : State) : Prop :=
  exec i s = .next (takeException ⟨cause, tval⟩ u)

/-- A state reached by steps. -/
inductive Reaches : State → State → Prop
  | refl (s : State) : Reaches s s
  | tail {s t u : State} : Reaches s t → step t = .next u → Reaches s u

/-- A run that has not failed: no hart has halted (60_exceptions R531). -/
def NotFailed (s : State) : Prop := s.hart.halted = none ∧ ∀ h ∈ s.others, h.halted = none

/-! ### What an instruction changes -/

/-- The stepping hart's identity, privilege and flags are as before. -/
structure KeepsMode (s t : State) : Prop where
  id       : t.hart.id = s.hart.id
  priv     : t.hart.priv = s.hart.priv
  wfi      : t.hart.wfi = s.hart.wfi
  semihost : t.hart.semihost = s.hart.semihost
  halted   : t.hart.halted = s.hart.halted

/-- The other harts, every byte of memory and all else the harts share are as before. -/
structure KeepsShared (s t : State) : Prop where
  others   : t.others = s.others
  memory   : ∀ a, Memory.readByte t.mem a = Memory.readByte s.mem a
  tlb      : t.tlb = s.tlb
  mtime    : t.mtime = s.mtime
  plat     : t.plat = s.plat
  bus      : t.bus = s.bus

/-- In the stepping hart, its reservation apart, the instruction wrote `v` to `x[rd]` (nothing when rd
is 0), moved the pc to `target`, retired, and changed nothing else. -/
structure HartWroteX (rd : RegNum) (v target : Word) (s t : State) : Prop where
  result   : rd ≠ 0 → readX rd t = v
  frame    : ∀ r, r ≠ rd ∨ r = 0 → readX r t = readX r s
  fprs     : t.hart.f = s.hart.f
  csrs     : t.hart.csr = s.hart.csr
  pc       : t.hart.pc = target
  retired  : t.note = { s.note with retired := true }
  mode     : KeepsMode s t

/-- The instruction wrote `v` to `x[rd]` (nothing when rd is 0), moved the pc to `target`, retired, and
changed nothing else. -/
structure WroteX (rd : RegNum) (v target : Word) (s t : State) : Prop where
  hart   : HartWroteX rd v target s t
  res    : t.hart.res = s.hart.res
  shared : KeepsShared s t

/-- The instruction wrote no register, moved the pc to `target`, retired, and changed nothing else. -/
def OnlyMovedPc (target : Word) (s t : State) : Prop := WroteX 0 0 target s t

/-- The CSRs after an instruction accrued `flags` and, where `dirty`, set FS to Dirty: FS is bits 14:13
of mstatus, the flags are bits 4:0 of fcsr (46_float R380, R383). -/
def FpCsrs (flags : BitVec 5) (dirty : Bool) (c d : CsrFile) : Prop :=
  d = { c with
    fcsr := c.fcsr ||| flags.setWidth 64
    mstatus := if dirty then c.mstatus ||| 0x6000#64 else c.mstatus }

/-- The instruction wrote `v` to `f[rd]`, accrued `flags`, set FS to Dirty, advanced the pc by `len`,
retired, and changed nothing else (46_float R380, R383). -/
structure WroteF (rd : RegNum) (v : Word) (flags : BitVec 5) (len : Word) (s t : State) : Prop where
  result   : readF rd t = v
  frame    : ∀ r, r ≠ rd → readF r t = readF r s
  gprs     : t.hart.x = s.hart.x
  csrs     : FpCsrs flags true s.hart.csr t.hart.csr
  pc       : t.hart.pc = s.hart.pc + len
  retired  : t.note = { s.note with retired := true }
  mode     : KeepsMode s t
  res      : t.hart.res = s.hart.res
  shared   : KeepsShared s t

/-- The instruction wrote `v` to `x[rd]` and accrued `flags`; FS becomes Dirty only when a flag is
raised; nothing else has changed (46_float R380, R383). -/
structure WroteXFlags (rd : RegNum) (v : Word) (flags : BitVec 5) (s t : State) : Prop where
  result   : rd ≠ 0 → readX rd t = v
  frame    : ∀ r, r ≠ rd ∨ r = 0 → readX r t = readX r s
  fprs     : t.hart.f = s.hart.f
  csrs     : FpCsrs flags (flags != 0) s.hart.csr t.hart.csr
  pc       : t.hart.pc = s.hart.pc + 4
  retired  : t.note = { s.note with retired := true }
  mode     : KeepsMode s t
  res      : t.hart.res = s.hart.res
  shared   : KeepsShared s t

/-! ### Memory accesses -/

/-- One region of RAM holds all `n` bytes from `a` (20_memory R100). -/
def InRam (s : State) (a n : Nat) : Prop :=
  ∃ r, findRegion s.plat.pmap a n = some r ∧ r.kind = .ram

/-- No region holds all `n` bytes from `a` (20_memory R100). -/
def Unmapped (s : State) (a n : Nat) : Prop := findRegion s.plat.pmap a n = none

/-- The access is not translated: its effective privilege is M or satp.MODE is 0 (20_memory R108,
R109). -/
def Untranslated (acc : Access) (s : State) : Prop :=
  effectivePriv acc s = .M ∨ satpMode s.hart.csr.satp = 0

/-- An access of `n` bytes at `va` is untranslated and lies in RAM, and is aligned, or performed
bytewise (20_memory R100, R105, R109): by the rules it succeeds, at the physical address `va`. -/
structure PlainAccess (va : Word) (n : Nat) (acc : Access) (s : State) : Prop where
  identity : Untranslated acc s
  bytes    : (va.toNat % n = 0 ∧ InRam s va.toNat n) ∨
    (va.toNat % n ≠ 0 ∧ s.plat.misaligned = .bytewise ∧ ∀ k, k < n → InRam s (va.toNat + k) 1)

/-- An atomic access of `n` bytes at `va` is aligned, untranslated and inside RAM (20_memory R105). -/
structure PlainAtomic (va : Word) (n : Nat) (acc : Access) (s : State) : Prop where
  identity : Untranslated acc s
  aligned  : va.toNat % n = 0
  inRam    : InRam s va.toNat n

/-- The little-endian value of `n` bytes from `a` (20_memory R103). -/
def leNat (m : List Host.Cell) (a : Nat) : Nat → Nat
  | 0 => 0
  | n + 1 => (Memory.readByte m a).toNat + 256 * leNat m (a + 1) n

/-- What is left of a reservation after a write of `n` bytes from `a`: nothing where the two share a
byte (20_memory R132). -/
def survivingRes (a n : Nat) : Option Reservation → Option Reservation
  | none => none
  | some r =>
    if (List.range n).any (fun k => decide (r.paddr.toNat ≤ a + k) &&
        decide (a + k < r.paddr.toNat + r.width)) then none else some r

/-- The low `n` bytes of `v` are stored from `a`, little-endian, every other byte is as before, the
other harts have at most lost an overlapping reservation, and all else the harts share is as before
(20_memory R101, R103, R132). -/
structure StoredAt (a n : Nat) (v : Word) (s t : State) : Prop where
  stored : ∀ k, k < n → Memory.readByte t.mem (a + k) = v.extractLsb' (8 * k) 8
  frame  : ∀ b, b < a ∨ a + n ≤ b → Memory.readByte t.mem b = Memory.readByte s.mem b
  others : t.others = s.others.map fun h => { h with res := survivingRes a n h.res }
  tlb    : t.tlb = s.tlb
  mtime  : t.mtime = s.mtime
  plat   : t.plat = s.plat
  bus    : t.bus = s.bus

/-- A store of the low `n` bytes of `v` at `a` that retired and changed nothing else: no register, only
overlapping reservations (42_loadstore R270). -/
structure Stored (a n : Nat) (v len : Word) (s t : State) : Prop where
  hart   : HartWroteX 0 0 (s.hart.pc + len) s t
  memory : StoredAt a n v s t
  res    : t.hart.res = survivingRes a n s.hart.res

/-! ### Accesses as the rules describe them -/

/-- The page fault of an access type: cause 12, 13 or 15 (20_memory R122). -/
def pageCause : Access → Cause
  | .fetch => .instrPage
  | .read => .loadPage
  | .write => .storePage

/-- The access fault of an access type: cause 1, 5 or 7 (20_memory R122). -/
def accessCause : Access → Cause
  | .fetch => .instrAccess
  | .read => .loadAccess
  | .write => .storeAccess

/-- One region, of device `d`, holds all `n` bytes from `a` (20_memory R100). -/
def InDevice (s : State) (a n d : Nat) : Prop :=
  ∃ r, findRegion s.plat.pmap a n = some r ∧ r.kind = .device d

/-- PhysRead of `n` bytes at `pa` answers a value and leaves a state: of RAM the little-endian value
and no effect, of a device the low `n` bytes of a draw, the device having seen the read (20_memory R100
to R103). -/
inductive PhysReads (pa : Word) (n : Nat) (s : State) : Nat → State → Prop
  | ram (h : InRam s pa.toNat n) : PhysReads pa n s (leNat s.mem pa.toNat n) s
  | device (d : Nat) (h : InDevice s pa.toNat n d) (value : Nat)
      (low : value = (drawDeviceRead s).1.toNat % 256 ^ n) :
      PhysReads pa n s value
        { (drawDeviceRead s).2 with bus := s.bus ++ [.read d pa n (BitVec.ofNat 64 value)] }

/-- The state in which every hart has lost a reservation that shares a byte with `n` bytes from `a`
(20_memory R132). -/
def State.loseReservations (a n : Nat) (s : State) : State :=
  { s with
    hart := { s.hart with res := survivingRes a n s.hart.res }
    others := s.others.map fun h => { h with res := survivingRes a n h.res } }

/-- Memory `m` with the low `n` bytes of `v` from `a` is `m'`, in canonical form (20_memory R101,
R103). -/
structure BytesStored (a n : Nat) (v : Word) (m m' : List Host.Cell) : Prop where
  wf     : Memory.wf m'
  stored : ∀ k, k < n → Memory.readByte m' (a + k) = v.extractLsb' (8 * k) 8
  frame  : ∀ b, b < a ∨ a + n ≤ b → Memory.readByte m' b = Memory.readByte m b

/-- PhysWrite of the low `n` bytes of `v` at `pa` leaves a state: the bytes in RAM, or the write seen
by a device; overlapping reservations are lost, and nothing else changes (20_memory R100 to R103,
R132). -/
inductive PhysWrites (pa : Word) (n : Nat) (v : Word) (s : State) : State → Prop
  | ram (h : InRam s pa.toNat n) (m : List Host.Cell) (hm : BytesStored pa.toNat n v s.mem m) :
      PhysWrites pa n v s (({ s with mem := m } : State).loseReservations pa.toNat n)
  | device (d : Nat) (h : InDevice s pa.toNat n d) :
      PhysWrites pa n v s (({ s with
        bus := s.bus ++ [.write d pa n (BitVec.ofNat 64 (v.toNat % 256 ^ n))] } : State).loseReservations
          pa.toNat n)

/-- One access of `n` bytes that fails: its translation raises, or answers an address outside every
region, which raises the access fault (20_memory R100, R107). The state is what the translation left
(R121). -/
def AccessFails (acc : Access) (va : Word) (n : Nat) (s : State) (tr : Trap) (t : State) : Prop :=
  translate va acc s = .raise tr t ∨
  ∃ pa, translate va acc s = .ok pa t ∧ Unmapped t pa.toNat n ∧
    tr = ⟨accessCause acc, va⟩

/-- One read of `n` bytes at `va`, of data or of an instruction, that succeeds (20_memory R107, 30_encoding
R160). -/
def Reads (acc : Access) (va : Word) (n : Nat) (s : State) (value : Nat) (t : State) : Prop :=
  ∃ pa u, translate va acc s = .ok pa u ∧ PhysReads pa n u value t

/-- One write of the low `n` bytes of `v` at `va` that succeeds (20_memory R107). -/
def Writes (va : Word) (n : Nat) (v : Word) (s t : State) : Prop :=
  ∃ pa u, translate va .write s = .ok pa u ∧ PhysWrites pa n v u t

/-- `n` reads of a byte from `va` up, each translated on its own (20_memory R105). -/
def BytesRead (va : Word) : Nat → State → Nat → State → Prop
  | 0, s, value, t => value = 0 ∧ t = s
  | n + 1, s, value, t => ∃ b u rest, Reads .read va 1 s b u ∧ BytesRead (va + 1) n u rest t ∧
    value = b + 256 * rest

/-- `n` writes of a byte from `va` up, each translated on its own (20_memory R105). -/
def BytesWritten (va : Word) : Nat → Word → State → State → Prop
  | 0, _, s, t => t = s
  | n + 1, v, s, t => ∃ u, Writes va 1 v s u ∧ BytesWritten (va + 1) n (v >>> 8) u t

/-- What survives of RAM and the device events through a translation from `s` to `u`: `k'` is `k` with
the whole PTE written back, where that lies in RAM, and the events of the translation (20_memory R118,
R121). -/
structure Survives (back : Option Word) (s u : State) (k k' : Survivors) : Prop where
  wf     : Memory.wf k'.mem
  pte    : ∀ a, back = some a → InRam u a.toNat 8 →
    ∀ j, j < 8 → Memory.readByte k'.mem (a.toNat + j) = Memory.readByte u.mem (a.toNat + j)
  frame  : ∀ b, (∀ a, back = some a → InRam u a.toNat 8 → b < a.toNat ∨ a.toNat + 8 ≤ b) →
    Memory.readByte k'.mem b = Memory.readByte k.mem b
  events : k'.bus = k.bus ++ u.bus.drop s.bus.length

/-- A bytewise store that fails under `undone` (60_exceptions R520, R523, log 13). The bytes are
written, with every reservation as it was, up to the one that fails; then RAM and the device events
are those that survive, in `k` without the store's own bytes, and all else is as the failure left it. -/
def StoreUndone (va : Word) : Nat → Word → Survivors → State → Trap → State → Prop
  | 0, _, _, _, _, _ => False
  | n + 1, v, k, s, tr, t =>
    (∃ u, translation va .write s = .raise tr u ∧
      t = { u with mem := k.mem, bus := k.bus ++ u.bus.drop s.bus.length }) ∨
    ∃ r u k', translation va .write s = .ok r u ∧ Survives r.back s u k k' ∧
      ((Unmapped u r.pa.toNat 1 ∧ tr = ⟨.storeAccess, va⟩ ∧ t = { u with mem := k'.mem, bus := k'.bus }) ∨
        ∃ w, PhysWrites r.pa 1 v u w ∧
          StoreUndone (va + 1) n (v >>> 8) k' { w with hart := u.hart, others := u.others } tr t)

/-- MemRead of `n` bytes at `va` answers a value and leaves a state (20_memory R105, R107). -/
def LoadDone (va : Word) (n : Nat) (s : State) (value : Nat) (t : State) : Prop :=
  (va.toNat % n = 0 ∧ Reads .read va n s value t) ∨
  (va.toNat % n ≠ 0 ∧ s.plat.misaligned = .bytewise ∧ BytesRead va n s value t)

/-- MemRead of `n` bytes at `va` raises, with what survives (20_memory R105, R107, R121). -/
def LoadFails (va : Word) (n : Nat) (s : State) (tr : Trap) (t : State) : Prop :=
  (va.toNat % n = 0 ∧ AccessFails .read va n s tr t) ∨
  (va.toNat % n ≠ 0 ∧ s.plat.misaligned = .trap ∧ tr = ⟨.loadMisaligned, va⟩ ∧ t = s) ∨
  (va.toNat % n ≠ 0 ∧ s.plat.misaligned = .bytewise ∧ ∃ k value u, k < n ∧ BytesRead va k s value u ∧
    AccessFails .read (va + BitVec.ofNat 64 k) 1 u tr t)

/-- MemWrite of the low `n` bytes of `v` at `va` leaves a state (20_memory R105, R107). -/
def StoreDone (va : Word) (n : Nat) (v : Word) (s t : State) : Prop :=
  (va.toNat % n = 0 ∧ Writes va n v s t) ∨
  (va.toNat % n ≠ 0 ∧ s.plat.misaligned = .bytewise ∧ BytesWritten va n v s t)

/-- MemWrite of the low `n` bytes of `v` at `va` raises, with what survives: of a bytewise store the
bytes before the one that fails, under `kept`, or none, under `undone` (20_memory R105, R107, R121,
60_exceptions R523, log 13). -/
def StoreFails (va : Word) (n : Nat) (v : Word) (s : State) (tr : Trap) (t : State) : Prop :=
  (va.toNat % n = 0 ∧ AccessFails .write va n s tr t) ∨
  (va.toNat % n ≠ 0 ∧ s.plat.misaligned = .trap ∧ tr = ⟨.storeMisaligned, va⟩ ∧ t = s) ∨
  (va.toNat % n ≠ 0 ∧ s.plat.misaligned = .bytewise ∧ s.plat.partialStore = .kept ∧
    ∃ k u, k < n ∧ BytesWritten va k v s u ∧ AccessFails .write (va + BitVec.ofNat 64 k) 1 u tr t) ∨
  (va.toNat % n ≠ 0 ∧ s.plat.misaligned = .bytewise ∧ s.plat.partialStore = .undone ∧
    StoreUndone va n v ⟨s.mem, s.bus⟩ s tr t)

/-- Fetch answers a word of `len` bits: the parcel at the pc, and the one 2 further where the first ends
in binary 11, each translated on its own (30_encoding R159, R160). -/
def Fetches (s : State) (len : Nat) (w : InstrWord) (t : State) : Prop :=
  ∃ p0 u, Reads .fetch s.hart.pc 2 s p0 u ∧
    ((p0 % 4 ≠ 3 ∧ len = 16 ∧ w = BitVec.ofNat 32 p0 ∧ t = u) ∨
      (p0 % 4 = 3 ∧ len = 32 ∧ ∃ p1, Reads .fetch (s.hart.pc + 2) 2 u p1 t ∧
        w = BitVec.ofNat 32 (p0 + 2 ^ 16 * p1)))

/-- Fetch raises at the first parcel, or at the second, with what survives (30_encoding R160, 20_memory
R121). -/
def FetchFails (s : State) (tr : Trap) (t : State) : Prop :=
  AccessFails .fetch s.hart.pc 2 s tr t ∨
  ∃ p0 u, Reads .fetch s.hart.pc 2 s p0 u ∧ p0 % 4 = 3 ∧ AccessFails .fetch (s.hart.pc + 2) 2 u tr t

/-- A form of load: its address and width, the register it writes, the extension of the value read,
its length. -/
structure LoadForm where
  instr : Instr
  addr  : Word
  width : Nat
  rd    : RegNum
  ext   : Nat → Word
  len   : Word

/-- A form of store: its address and width, the value whose low bytes it stores, its length. -/
structure StoreForm where
  instr : Instr
  addr  : Word
  width : Nat
  value : Word
  len   : Word

/-! ### Samples -/

/-- A sample of the CLINT inputs: MTIME does not decrease, an answer given is taken, with the last
sample for MTIME where that is larger, and nothing else changes (60_exceptions R547, log 7). -/
structure Sampled (s : State) (c : ClintSample) (t : State) : Prop where
  mtime : s.mtime.toNat ≤ c.mtime.toNat
  given : ∀ d l, s.tape.clint = d :: l →
    c = { d with mtime := if s.mtime.toNat ≤ d.mtime.toNat then d.mtime else s.mtime } ∧
    t.tape = { s.tape with clint := l } ∧ t.tick = s.tick
  frame : t = { s with mtime := c.mtime, tape := t.tape, tick := t.tick }

/-! ### CSRs -/

/-- The storage behind a CSR address (10_state R56); none for a constant, an input or an absent one. -/
def csrHome (a : CsrAddr) : Option CsrReg :=
  match a.toNat with
  | 0x001 => some .fcsr
  | 0x002 => some .fcsr
  | 0x003 => some .fcsr
  | 0x100 => some .mstatus
  | 0x104 => some .mie
  | 0x105 => some .stvec
  | 0x106 => some .scounteren
  | 0x140 => some .sscratch
  | 0x141 => some .sepc
  | 0x142 => some .scause
  | 0x143 => some .stval
  | 0x144 => some .mip
  | 0x180 => some .satp
  | 0x300 => some .mstatus
  | 0x302 => some .medeleg
  | 0x303 => some .mideleg
  | 0x304 => some .mie
  | 0x305 => some .mtvec
  | 0x306 => some .mcounteren
  | 0x340 => some .mscratch
  | 0x341 => some .mepc
  | 0x342 => some .mcause
  | 0x343 => some .mtval
  | 0x344 => some .mip
  | 0xB00 => some .mcycle
  | 0xB02 => some .minstret
  | 0xC00 => some .mcycle
  | 0xC02 => some .minstret
  | _ => none

/-- The present CSR addresses (10_state R56). -/
def csrPresent (a : CsrAddr) : Bool :=
  (csrHome a).isSome || [0xC01, 0xF11, 0xF12, 0xF13, 0xF14, 0xF15, 0x301].contains a.toNat

/-- A CSR instruction may access the address: present, at or above its lowest privilege, not read-only
when written, and FS on for the floating-point CSRs (10_state R47, R49, R52, R59). -/
structure CsrAllowed (a : CsrAddr) (write : Bool) (s : State) : Prop where
  present : csrPresent a = true
  priv    : (a.toNat / 256) % 4 ≤ (privBits s.hart.priv).toNat
  rw      : write = true → a.toNat / 1024 ≠ 3
  fp      : 1 ≤ a.toNat → a.toNat ≤ 3 → statusFS s.hart.csr.mstatus ≠ 0

/-- What a CSR instruction that succeeds does: it reads by CsrRead when the form reads, then writes
`f` of the value read by CsrWrite when the form writes, then `x[rd]` gets the value read; a write to
fflags, frm or fcsr sets FS to Dirty, one to mcycle or minstret is noted, so that the step's advance of
that counter is not applied; nothing else changes (45_system R342, 10_state R59, R81, R82). -/
def CsrEffect (rd : RegNum) (a : CsrAddr) (reads writes : Bool) (f : Word → Word) (s t : State) :
    Prop :=
  ∃ v s1 s2,
    (if reads then csrRead a s.hart.priv s = .ok (v, s1) else s1 = s) ∧
    (if writes then csrWrite a (f v) s.hart.priv s1 = .ok s2 else s2 = s1) ∧
    (rd ≠ 0 → readX rd t = v) ∧ (∀ r, r ≠ rd ∨ r = 0 → readX r t = readX r s) ∧
    t.hart.f = s.hart.f ∧
    t.hart.csr = (if writes ∧ 1 ≤ a.toNat ∧ a.toNat ≤ 3 then
      { s2.hart.csr with mstatus := s2.hart.csr.mstatus ||| 0x6000#64 } else s2.hart.csr) ∧
    t.hart.pc = s.hart.pc + 4 ∧
    t.note = { s.note with
      retired := true
      wroteMcycle := s.note.wroteMcycle || (writes && a == 0xB00#12)
      wroteMinstret := s.note.wroteMinstret || (writes && a == 0xB02#12) } ∧
    KeepsMode s t ∧ t.hart.res = s.hart.res ∧ t.others = s.others ∧
    (∀ b, Memory.readByte t.mem b = Memory.readByte s.mem b) ∧ t.tlb = s.tlb ∧ t.plat = s.plat ∧
    t.bus = s.bus ∧ t.mtime = s1.mtime

/-! ### Atomics -/

/-- An AMO of `n` bytes at `va` that read `old`, stored `new`, wrote the extended old value `result`,
retired and changed nothing else (44_atomics R312). -/
structure Amo (rd : RegNum) (va : Word) (n : Nat) (result new : Word) (s t : State) : Prop where
  hart   : HartWroteX rd result (s.hart.pc + 4) s t
  memory : StoredAt va.toNat n new s t
  res    : t.hart.res = survivingRes va.toNat n s.hart.res

/-! ### Floating point -/

/-- The code of a rounding mode (46_float R382). -/
def roundingCode : RoundingMode → Nat
  | .rne => 0
  | .rtz => 1
  | .rdn => 2
  | .rup => 3
  | .rmm => 4

/-- The `rm` field, or frm (fcsr[7:5]) where it is 7, is the code of `mode` (46_float R382). -/
def RoundsBy (rm : BitVec 3) (mode : RoundingMode) (s : State) : Prop :=
  rm.toNat = roundingCode mode ∨
    (rm.toNat = 7 ∧ s.hart.csr.fcsr.toNat / 32 % 8 = roundingCode mode)

/-- The `rm` field is 5 or 6, or 7 while frm is 5, 6 or 7 (46_float R382). -/
def BadRounding (rm : BitVec 3) (s : State) : Prop :=
  rm.toNat = 5 ∨ rm.toNat = 6 ∨ (rm.toNat = 7 ∧ 5 ≤ s.hart.csr.fcsr.toNat / 32 % 8)

/-- mstatus.FS (bits 14:13) is not 0 (46_float R380). -/
def FpOn (s : State) : Prop := s.hart.csr.mstatus.toNat / 2 ^ 13 % 4 ≠ 0

/-- The single-precision value of an FPR, zero-extended: the low half where the high half is all ones,
else the canonical NaN (10_state R36). -/
def singleOf (v : Word) : Word :=
  if v.toNat / 2 ^ 32 = 2 ^ 32 - 1 then BitVec.ofNat 64 (v.toNat % 2 ^ 32) else 0x7FC00000#64

/-- The low 32 bits of a value, NaN-boxed (10_state R36). -/
def boxed (v : Word) : Word := BitVec.ofNat 64 (0xFFFFFFFF00000000 + v.toNat % 2 ^ 32)

/-- The class of a bit pattern with `e` exponent and `m` fraction bits, one bit: 0 negative infinity,
1 negative normal, 2 negative subnormal, 3 negative zero, 4 positive zero, 5 positive subnormal, 6
positive normal, 7 positive infinity, 8 signalling NaN, 9 quiet NaN (46_float R384). -/
def classOf (e m v : Nat) : Word :=
  let negative := v / 2 ^ (e + m) % 2 = 1
  let exponent := v / 2 ^ m % 2 ^ e
  let fraction := v % 2 ^ m
  if exponent = 2 ^ e - 1 then
    if fraction = 0 then (if negative then 0x001 else 0x080)
    else if fraction < 2 ^ (m - 1) then 0x100 else 0x200
  else if exponent = 0 then
    if fraction = 0 then (if negative then 0x008 else 0x010)
    else (if negative then 0x004 else 0x020)
  else (if negative then 0x002 else 0x040)

/-- The mnemonics of F and D and their compressed loads and stores. -/
def fpMnemonics : List Mnemonic :=
  (registryF ++ registryD).map (·.mnemonic) ++ [.C_FLD, .C_FSD, .C_FLDSP, .C_FSDSP]

/-- The mnemonics of the rows with a rounding-mode field. -/
def roundedMnemonics : List Mnemonic :=
  (registry.filter fun d => d.operands.any fun o => o.name == .rm).map (·.mnemonic)

/-! ### Traps -/

/-- mstatus after a trap into M from privilege `p`: MPIE (7) is the old MIE (3), MIE is 0, MPP (12:11)
is the code of `p`, every other bit is as before (60_exceptions R528). -/
def StatusTrappedM (p : Priv) (v w : Word) : Prop :=
  ∀ i, i < 64 → w.getLsbD i =
    if i = 3 then false else if i = 7 then v.getLsbD 3
    else if i = 11 then (privBits p).getLsbD 0 else if i = 12 then (privBits p).getLsbD 1
    else v.getLsbD i

/-- mstatus after a trap into S from privilege `p`: SPIE (5) is the old SIE (1), SIE is 0, SPP (8) is
the code of `p`, U or S, every other bit is as before (60_exceptions R528). -/
def StatusTrappedS (p : Priv) (v w : Word) : Prop :=
  ∀ i, i < 64 → w.getLsbD i =
    if i = 1 then false else if i = 5 then v.getLsbD 1
    else if i = 8 then (privBits p).getLsbD 0 else v.getLsbD i

/-- The cause register: the interrupt bit (63) and the code (10_state R76). -/
def causeValue (interrupt : Bool) (code : Nat) : Word :=
  BitVec.ofNat 64 ((if interrupt then 2 ^ 63 else 0) + code)

/-- A vector register's base: bits 63:2 (10_state R74). -/
def baseOf (tvec : Word) : Word := BitVec.ofNat 64 (tvec.toNat / 4 * 4)

/-- Where a trap goes: the base, or for an interrupt under vectored mode base + 4 * code
(60_exceptions R530). -/
def targetOf (tvec : Word) (interrupt : Bool) (code : Nat) : Word :=
  if interrupt ∧ tvec.getLsbD 0 = true then baseOf tvec + BitVec.ofNat 64 (4 * code) else baseOf tvec

/-- The trap of the given cause goes to S: the privilege is U or S and the delegation bit is set
(60_exceptions R527). -/
def DelegatedToS (interrupt : Bool) (code : Nat) (s : State) : Prop :=
  (s.hart.priv = .U ∨ s.hart.priv = .S) ∧
    (if interrupt then s.hart.csr.mideleg else s.hart.csr.medeleg).getLsbD code = true

/-- A trap into M that is resolved (60_exceptions R528, R530). -/
structure EnteredM (interrupt : Bool) (code : Nat) (tval epc : Word) (s t : State) : Prop where
  csrs   : ∃ w, StatusTrappedM s.hart.priv s.hart.csr.mstatus w ∧
    t.hart.csr = { s.hart.csr with
      mepc := BitVec.ofNat 64 (epc.toNat / 2 * 2), mcause := causeValue interrupt code, mtval := tval,
      mstatus := w }
  priv   : t.hart.priv = .M
  pc     : t.hart.pc = targetOf s.hart.csr.mtvec interrupt code
  wfi    : t.hart.wfi = false
  res    : t.hart.res = none
  keeps  : t.hart.id = s.hart.id ∧ t.hart.x = s.hart.x ∧ t.hart.f = s.hart.f ∧
    t.hart.semihost = s.hart.semihost ∧ t.hart.halted = s.hart.halted
  shared : KeepsShared s t

/-- A trap into S that is resolved (60_exceptions R528, R530). -/
structure EnteredS (interrupt : Bool) (code : Nat) (tval epc : Word) (s t : State) : Prop where
  csrs   : ∃ w, StatusTrappedS s.hart.priv s.hart.csr.mstatus w ∧
    t.hart.csr = { s.hart.csr with
      sepc := BitVec.ofNat 64 (epc.toNat / 2 * 2), scause := causeValue interrupt code, stval := tval,
      mstatus := w }
  priv   : t.hart.priv = .S
  pc     : t.hart.pc = targetOf s.hart.csr.stvec interrupt code
  wfi    : t.hart.wfi = false
  res    : t.hart.res = none
  keeps  : t.hart.id = s.hart.id ∧ t.hart.x = s.hart.x ∧ t.hart.f = s.hart.f ∧
    t.hart.semihost = s.hart.semihost ∧ t.hart.halted = s.hart.halted
  shared : KeepsShared s t

/-- A trap return that retired: the new privilege, status and pc, no reservation, nothing else changed
(45_system R353). -/
structure Returned (p : Priv) (status : Word → Word → Prop) (target : Word) (s t : State) : Prop where
  csrs   : ∃ w, status s.hart.csr.mstatus w ∧ t.hart.csr = { s.hart.csr with mstatus := w }
  priv   : t.hart.priv = p
  pc     : t.hart.pc = target
  res    : t.hart.res = none
  keeps  : t.hart.id = s.hart.id ∧ t.hart.x = s.hart.x ∧ t.hart.f = s.hart.f ∧
    t.hart.wfi = s.hart.wfi ∧ t.hart.semihost = s.hart.semihost ∧ t.hart.halted = s.hart.halted
  retired : t.note = { s.note with retired := true }
  shared : KeepsShared s t

/-! ### Translation -/

/-- The bits of a PTE (20_memory R116). -/
def pteBit (pte : Word) (i : Nat) : Bool := pte.getLsbD i

/-- An access the permission check refuses (20_memory R117). -/
def Denied (pte : Word) (acc : Access) (p : Priv) (status : Word) : Prop :=
  (p = .U ∧ pteBit pte 4 = false) ∨
  (p = .S ∧ pteBit pte 4 = true ∧ (acc = .fetch ∨ status.getLsbD 18 = false)) ∨
  (acc = .fetch ∧ pteBit pte 3 = false) ∨
  (acc = .read ∧ pteBit pte 1 = false ∧ ¬(status.getLsbD 19 = true ∧ pteBit pte 3 = true)) ∨
  (acc = .write ∧ pteBit pte 2 = false)

/-- The page number of a PTE, bits 53:10 (20_memory R116). -/
def ptePage (pte : Word) : Nat := pte.toNat / 2 ^ 10 % 2 ^ 44

end Sys2Proof.Machine
end

