-- ==== Sys2Proof/Certificates/Slice0/Obligations.lean ====
section
/-! DEFINITION. The statements for the provers. Each docstring says what the statement claims and, in
OBLIGATIONS.json, which rules of spec/ it formalises. -/

open Sys2Proof Sys2Proof.Machine

/-- LUI, AUIPC, ADDI, SLTI, SLTIU, XORI, ORI and ANDI answer a next state in which x[rd] holds the value
the rule gives, with the immediate sign-extended (x0 keeps reading 0), the pc is 4 further, and no
other register, CSR, flag, byte of memory or other state has changed. -/
def Obligations.IntegerImmediateResults : Prop :=
  ∀ (rd rs1 : RegNum) (imm : BitVec 12) (upper : BitVec 32) (s : State),
    RunsTo (.lui rd upper) s (WroteX rd (BitVec.ofInt 64 upper.toInt) (s.hart.pc + 4) s) ∧
    RunsTo (.auipc rd upper) s (WroteX rd (BitVec.ofInt 64 (s.hart.pc.toInt + upper.toInt)) (s.hart.pc + 4) s) ∧
    RunsTo (.addi rd rs1 imm) s (WroteX rd (BitVec.ofInt 64 ((readX rs1 s).toInt + imm.toInt)) (s.hart.pc + 4) s) ∧
    RunsTo (.slti rd rs1 imm) s (WroteX rd (if (readX rs1 s).toInt < imm.toInt then 1 else 0) (s.hart.pc + 4) s) ∧
    RunsTo (.sltiu rd rs1 imm) s (WroteX rd (if (readX rs1 s).toNat < (imm.signExtend 64).toNat then 1 else 0) (s.hart.pc + 4) s) ∧
    RunsTo (.xori rd rs1 imm) s (WroteX rd (readX rs1 s ^^^ imm.signExtend 64) (s.hart.pc + 4) s) ∧
    RunsTo (.ori rd rs1 imm) s (WroteX rd (readX rs1 s ||| imm.signExtend 64) (s.hart.pc + 4) s) ∧
    RunsTo (.andi rd rs1 imm) s (WroteX rd (readX rs1 s &&& imm.signExtend 64) (s.hart.pc + 4) s)

/-- SLLI, SRLI, SRAI, SLLIW, SRLIW and SRAIW answer a next state in which x[rd] holds the shifted value,
the pc is 4 further and nothing else has changed; slli x0, x0, 31 sets the semihosting flag and srai
x0, x0, 7 clears it, and change nothing else but the pc. -/
def Obligations.ShiftImmediateResults : Prop :=
  ∀ (rd rs1 : RegNum) (sh : BitVec 6) (shw : BitVec 5) (s : State),
    let low : BitVec 32 := (readX rs1 s).setWidth 32
    (¬(rd = 0 ∧ rs1 = 0 ∧ sh = 31) →
      RunsTo (.slli rd rs1 sh) s (WroteX rd (BitVec.ofNat 64 ((readX rs1 s).toNat * 2 ^ sh.toNat)) (s.hart.pc + 4) s)) ∧
    RunsTo (.srli rd rs1 sh) s (WroteX rd (BitVec.ofNat 64 ((readX rs1 s).toNat / 2 ^ sh.toNat)) (s.hart.pc + 4) s) ∧
    (¬(rd = 0 ∧ rs1 = 0 ∧ sh = 7) →
      RunsTo (.srai rd rs1 sh) s (WroteX rd (BitVec.ofInt 64 ((readX rs1 s).toInt / 2 ^ sh.toNat)) (s.hart.pc + 4) s)) ∧
    RunsTo (.slliw rd rs1 shw) s (WroteX rd (BitVec.ofInt 64 (BitVec.ofNat 32 (low.toNat * 2 ^ shw.toNat)).toInt) (s.hart.pc + 4) s) ∧
    RunsTo (.srliw rd rs1 shw) s (WroteX rd (BitVec.ofInt 64 (BitVec.ofNat 32 (low.toNat / 2 ^ shw.toNat)).toInt) (s.hart.pc + 4) s) ∧
    RunsTo (.sraiw rd rs1 shw) s (WroteX rd (BitVec.ofInt 64 (low.toInt / 2 ^ shw.toNat)) (s.hart.pc + 4) s) ∧
    RunsTo (.slli 0 0 31) s
      (OnlyMovedPc (s.hart.pc + 4) { s with hart := { s.hart with semihost := true } }) ∧
    RunsTo (.srai 0 0 7) s
      (OnlyMovedPc (s.hart.pc + 4) { s with hart := { s.hart with semihost := false } })

/-- ADD, SUB, SLL, SLT, SLTU, XOR, SRL, SRA, OR and AND answer a next state in which x[rd] holds the
value the rule gives of the two sources read before it, shift amounts modulo 64, the pc is 4 further
and nothing else has changed. -/
def Obligations.RegisterResults : Prop :=
  ∀ (rd rs1 rs2 : RegNum) (s : State),
    let a := readX rs1 s
    let b := readX rs2 s
    RunsTo (.add rd rs1 rs2) s (WroteX rd (BitVec.ofInt 64 (a.toInt + b.toInt)) (s.hart.pc + 4) s) ∧
    RunsTo (.sub rd rs1 rs2) s (WroteX rd (BitVec.ofInt 64 (a.toInt - b.toInt)) (s.hart.pc + 4) s) ∧
    RunsTo (.sll rd rs1 rs2) s (WroteX rd (BitVec.ofNat 64 (a.toNat * 2 ^ (b.toNat % 64))) (s.hart.pc + 4) s) ∧
    RunsTo (.slt rd rs1 rs2) s (WroteX rd (if a.toInt < b.toInt then 1 else 0) (s.hart.pc + 4) s) ∧
    RunsTo (.sltu rd rs1 rs2) s (WroteX rd (if a.toNat < b.toNat then 1 else 0) (s.hart.pc + 4) s) ∧
    RunsTo (.xor rd rs1 rs2) s (WroteX rd (a ^^^ b) (s.hart.pc + 4) s) ∧
    RunsTo (.srl rd rs1 rs2) s (WroteX rd (BitVec.ofNat 64 (a.toNat / 2 ^ (b.toNat % 64))) (s.hart.pc + 4) s) ∧
    RunsTo (.sra rd rs1 rs2) s (WroteX rd (BitVec.ofInt 64 (a.toInt / 2 ^ (b.toNat % 64))) (s.hart.pc + 4) s) ∧
    RunsTo (.or rd rs1 rs2) s (WroteX rd (a ||| b) (s.hart.pc + 4) s) ∧
    RunsTo (.and rd rs1 rs2) s (WroteX rd (a &&& b) (s.hart.pc + 4) s)

/-- ADDIW, ADDW, SUBW, SLLW, SRLW and SRAW compute on the low 32 bits and sign-extend the 32-bit result
to x[rd]; the pc is 4 further and nothing else has changed. -/
def Obligations.WordResults : Prop :=
  ∀ (rd rs1 rs2 : RegNum) (imm : BitVec 12) (s : State),
    let a : BitVec 32 := (readX rs1 s).setWidth 32
    let b : BitVec 32 := (readX rs2 s).setWidth 32
    RunsTo (.addiw rd rs1 imm) s (WroteX rd (BitVec.ofInt 64 (BitVec.ofInt 32 (a.toInt + imm.toInt)).toInt) (s.hart.pc + 4) s) ∧
    RunsTo (.addw rd rs1 rs2) s (WroteX rd (BitVec.ofInt 64 (BitVec.ofInt 32 (a.toInt + b.toInt)).toInt) (s.hart.pc + 4) s) ∧
    RunsTo (.subw rd rs1 rs2) s (WroteX rd (BitVec.ofInt 64 (BitVec.ofInt 32 (a.toInt - b.toInt)).toInt) (s.hart.pc + 4) s) ∧
    RunsTo (.sllw rd rs1 rs2) s (WroteX rd (BitVec.ofInt 64 (BitVec.ofNat 32 (a.toNat * 2 ^ (b.toNat % 32))).toInt) (s.hart.pc + 4) s) ∧
    RunsTo (.srlw rd rs1 rs2) s (WroteX rd (BitVec.ofInt 64 (BitVec.ofNat 32 (a.toNat / 2 ^ (b.toNat % 32))).toInt) (s.hart.pc + 4) s) ∧
    RunsTo (.sraw rd rs1 rs2) s (WroteX rd (BitVec.ofInt 64 (a.toInt / 2 ^ (b.toNat % 32))) (s.hart.pc + 4) s)

/-- MUL gives the low 64 bits of the product, MULH, MULHSU and MULHU the high 64 bits of the exact
signed, mixed and unsigned product, MULW the sign-extended low 32 bits of the product of the low
words; nothing else changes but the pc, by 4. -/
def Obligations.MultiplyResults : Prop :=
  ∀ (rd rs1 rs2 : RegNum) (s : State),
    let a := readX rs1 s
    let b := readX rs2 s
    RunsTo (.mul rd rs1 rs2) s (WroteX rd (BitVec.ofInt 64 (a.toInt * b.toInt)) (s.hart.pc + 4) s) ∧
    RunsTo (.mulh rd rs1 rs2) s (WroteX rd (BitVec.ofInt 64 (a.toInt * b.toInt / 2 ^ 64)) (s.hart.pc + 4) s) ∧
    RunsTo (.mulhsu rd rs1 rs2) s (WroteX rd (BitVec.ofInt 64 (a.toInt * b.toNat / 2 ^ 64)) (s.hart.pc + 4) s) ∧
    RunsTo (.mulhu rd rs1 rs2) s (WroteX rd (BitVec.ofNat 64 (a.toNat * b.toNat / 2 ^ 64)) (s.hart.pc + 4) s) ∧
    RunsTo (.mulw rd rs1 rs2) s (WroteX rd (BitVec.ofInt 64 (BitVec.ofNat 32 (a.toNat % 2 ^ 32 * (b.toNat % 2 ^ 32))).toInt) (s.hart.pc + 4) s)

/-- DIV, DIVU, REM, REMU and their word forms give the quotient toward zero or its remainder; a zero
divisor gives all ones or the dividend, the overflow of the least value by -1 gives the least value
or 0, and none of them traps; nothing else changes but the pc, by 4. -/
def Obligations.DivideResults : Prop :=
  ∀ (rd rs1 rs2 : RegNum) (s : State),
    let a := readX rs1 s
    let b := readX rs2 s
    let aw : BitVec 32 := a.setWidth 32
    let bw : BitVec 32 := b.setWidth 32
    RunsTo (.div rd rs1 rs2) s (WroteX rd (if b.toInt = 0 then -1 else BitVec.ofInt 64 (a.toInt.tdiv b.toInt)) (s.hart.pc + 4) s) ∧
    RunsTo (.divu rd rs1 rs2) s (WroteX rd (if b.toNat = 0 then BitVec.ofNat 64 (2 ^ 64 - 1) else BitVec.ofNat 64 (a.toNat / b.toNat)) (s.hart.pc + 4) s) ∧
    RunsTo (.rem rd rs1 rs2) s (WroteX rd (BitVec.ofInt 64 (a.toInt.tmod b.toInt)) (s.hart.pc + 4) s) ∧
    RunsTo (.remu rd rs1 rs2) s (WroteX rd (BitVec.ofNat 64 (a.toNat % b.toNat)) (s.hart.pc + 4) s) ∧
    RunsTo (.divw rd rs1 rs2) s (WroteX rd (if bw.toInt = 0 then -1 else BitVec.ofInt 64 (BitVec.ofInt 32 (aw.toInt.tdiv bw.toInt)).toInt) (s.hart.pc + 4) s) ∧
    RunsTo (.divuw rd rs1 rs2) s (WroteX rd (if bw.toNat = 0 then -1 else BitVec.ofInt 64 (BitVec.ofNat 32 (aw.toNat / bw.toNat)).toInt) (s.hart.pc + 4) s) ∧
    RunsTo (.remw rd rs1 rs2) s (WroteX rd (BitVec.ofInt 64 (aw.toInt.tmod bw.toInt)) (s.hart.pc + 4) s) ∧
    RunsTo (.remuw rd rs1 rs2) s (WroteX rd (BitVec.ofInt 64 (BitVec.ofNat 32 (aw.toNat % bw.toNat)).toInt) (s.hart.pc + 4) s)

/-- JAL jumps to pc plus the sign-extended offset and JALR to x[rs1], read before the link is written,
plus the sign-extended immediate with bit 0 cleared; both write pc + 4 to x[rd] and change nothing
else. -/
def Obligations.JumpResults : Prop :=
  ∀ (rd rs1 : RegNum) (off : BitVec 21) (imm : BitVec 12) (s : State),
    RunsTo (.jal rd off) s
      (WroteX rd (s.hart.pc + 4) (BitVec.ofInt 64 (s.hart.pc.toInt + off.toInt)) s) ∧
    RunsTo (.jalr rd rs1 imm) s
      (WroteX rd (s.hart.pc + 4)
        (BitVec.ofNat 64 ((BitVec.ofInt 64 ((readX rs1 s).toInt + imm.toInt)).toNat / 2 * 2)) s)

/-- BEQ, BNE, BLT, BGE, BLTU and BGEU move the pc by the sign-extended offset when their condition holds
and by 4 when it does not, and change nothing else. -/
def Obligations.BranchResults : Prop :=
  ∀ (rs1 rs2 : RegNum) (off : BitVec 13) (s : State),
    let a := readX rs1 s
    let b := readX rs2 s
    let taken := BitVec.ofInt 64 (s.hart.pc.toInt + off.toInt)
    RunsTo (.beq rs1 rs2 off) s (OnlyMovedPc (if a = b then taken else s.hart.pc + 4) s) ∧
    RunsTo (.bne rs1 rs2 off) s (OnlyMovedPc (if a ≠ b then taken else s.hart.pc + 4) s) ∧
    RunsTo (.blt rs1 rs2 off) s (OnlyMovedPc (if a.toInt < b.toInt then taken else s.hart.pc + 4) s) ∧
    RunsTo (.bge rs1 rs2 off) s (OnlyMovedPc (if a.toInt ≥ b.toInt then taken else s.hart.pc + 4) s) ∧
    RunsTo (.bltu rs1 rs2 off) s (OnlyMovedPc (if a.toNat < b.toNat then taken else s.hart.pc + 4) s) ∧
    RunsTo (.bgeu rs1 rs2 off) s (OnlyMovedPc (if a.toNat ≥ b.toNat then taken else s.hart.pc + 4) s)

/-- An untranslated load from RAM, aligned or performed bytewise, gives x[rd] the little-endian value of
its bytes, sign- or zero-extended as the opcode says; the pc is 4 further and nothing else has
changed. -/
def Obligations.LoadResults : Prop :=
  ∀ (rd rs1 : RegNum) (imm : BitVec 12) (s : State),
    let va := readX rs1 s + imm.signExtend 64
    (PlainAccess va 1 .read s → RunsTo (.lb rd rs1 imm) s
      (WroteX rd (BitVec.ofInt 64 (BitVec.ofNat 8 (leNat s.mem va.toNat 1)).toInt) (s.hart.pc + 4) s)) ∧
    (PlainAccess va 2 .read s → RunsTo (.lh rd rs1 imm) s
      (WroteX rd (BitVec.ofInt 64 (BitVec.ofNat 16 (leNat s.mem va.toNat 2)).toInt) (s.hart.pc + 4) s)) ∧
    (PlainAccess va 4 .read s → RunsTo (.lw rd rs1 imm) s
      (WroteX rd (BitVec.ofInt 64 (BitVec.ofNat 32 (leNat s.mem va.toNat 4)).toInt) (s.hart.pc + 4) s)) ∧
    (PlainAccess va 8 .read s → RunsTo (.ld rd rs1 imm) s
      (WroteX rd (BitVec.ofNat 64 (leNat s.mem va.toNat 8)) (s.hart.pc + 4) s)) ∧
    (PlainAccess va 1 .read s → RunsTo (.lbu rd rs1 imm) s
      (WroteX rd (BitVec.ofNat 64 (leNat s.mem va.toNat 1)) (s.hart.pc + 4) s)) ∧
    (PlainAccess va 2 .read s → RunsTo (.lhu rd rs1 imm) s
      (WroteX rd (BitVec.ofNat 64 (leNat s.mem va.toNat 2)) (s.hart.pc + 4) s)) ∧
    (PlainAccess va 4 .read s → RunsTo (.lwu rd rs1 imm) s
      (WroteX rd (BitVec.ofNat 64 (leNat s.mem va.toNat 4)) (s.hart.pc + 4) s))

/-- An untranslated store to RAM, aligned or performed bytewise, stores the low bytes of x[rs2] little-
endian at x[rs1] plus the sign-extended immediate and leaves every other byte alone; of every hart
it clears a reservation that shares a byte with them; the pc is 4 further and nothing else has
changed. The memory is taken in canonical form (the invariant). -/
def Obligations.StoreResults : Prop :=
  ∀ (rs1 rs2 : RegNum) (imm : BitVec 12) (s : State), Memory.wf s.mem →
    let va := readX rs1 s + imm.signExtend 64
    (PlainAccess va 1 .write s → RunsTo (.sb rs1 rs2 imm) s (Stored va.toNat 1 (readX rs2 s) 4 s)) ∧
    (PlainAccess va 2 .write s → RunsTo (.sh rs1 rs2 imm) s (Stored va.toNat 2 (readX rs2 s) 4 s)) ∧
    (PlainAccess va 4 .write s → RunsTo (.sw rs1 rs2 imm) s (Stored va.toNat 4 (readX rs2 s) 4 s)) ∧
    (PlainAccess va 8 .write s → RunsTo (.sd rs1 rs2 imm) s (Stored va.toNat 8 (readX rs2 s) 4 s))

/-- Each load and store, integer, floating-point (with FS on) or compressed, whose bytes can all be
accessed does what its accesses do and no more: each is translated and, in the state its translation
left, reads the little-endian value of RAM or the low bytes of a draw of a device, which sees the
read, or writes the bytes in RAM, or the event a device sees, and clears every overlapping
reservation; an aligned access is one of its whole width, a misaligned one under MISALIGNED_DATA =
bytewise is one of each byte in ascending order, each translated in turn; the register written and
the frame are those of the untranslated form. Every other one fails: one whose translation raises,
at any byte, or answers an address outside every region takes that exception with that byte's
address, keeping the A/D write-backs and TLB entries of the translations made; a store then keeps
the bytes before it (kept: R105, R107) or commits none of them, what survives in RAM and of the
device events being the whole PTEs its translations wrote back and the events of these (undone: R18,
R523, and State.reset's value): the choice, and that the later bytes' translations see the earlier
bytes, are the model's (log 13). A load that fails keeps the reads devices have seen (the model's
choice: log 35). An aligned LR sets the reservation to the physical address; an aligned SC is tested
against it after its translation (log 28), and without it writes 1 and stores nothing; an aligned
AMO reads and writes at the one physical address of a write translation. A device's value is the
head of DEVICE_READ where one is given; its event carries the low bytes (log 15). The memory is
taken in canonical form. -/
def Obligations.TranslatedAccesses : Prop :=
  ∀ (r q rd : RegNum) (cr cq : CRegNum) (imm : BitVec 12) (u7 : BitVec 7) (u8 : BitVec 8) (u9 : BitVec 9)
    (aq rl : BitVec 1) (s : State), Memory.wf s.mem →
    let va := readX r s + imm.signExtend 64
    let c7 := readX (BitVec.ofNat 5 (8 + cr.toNat)) s + u7.setWidth 64
    let c8 := readX (BitVec.ofNat 5 (8 + cr.toNat)) s + u8.setWidth 64
    let p8 := readX 2 s + u8.setWidth 64
    let p9 := readX 2 s + u9.setWidth 64
    let ra := readX r s
    let xq := BitVec.ofNat 5 (8 + cq.toNat)
    let sext8 := fun (v : Nat) => (BitVec.ofInt 64 (BitVec.ofNat 8 v).toInt : Word)
    let sext16 := fun (v : Nat) => (BitVec.ofInt 64 (BitVec.ofNat 16 v).toInt : Word)
    let sext32 := fun (v : Nat) => (BitVec.ofInt 64 (BitVec.ofNat 32 v).toInt : Word)
    let zext := fun (v : Nat) => (BitVec.ofNat 64 v : Word)
    let loads : List LoadForm := [⟨.lb q r imm, va, 1, q, sext8, 4⟩, ⟨.lh q r imm, va, 2, q, sext16, 4⟩,
      ⟨.lw q r imm, va, 4, q, sext32, 4⟩, ⟨.ld q r imm, va, 8, q, zext, 4⟩,
      ⟨.lbu q r imm, va, 1, q, zext, 4⟩, ⟨.lhu q r imm, va, 2, q, zext, 4⟩,
      ⟨.lwu q r imm, va, 4, q, zext, 4⟩, ⟨.cLw cq cr u7, c7, 4, xq, sext32, 2⟩,
      ⟨.cLd cq cr u8, c8, 8, xq, zext, 2⟩, ⟨.cLwsp q u8, p8, 4, q, sext32, 2⟩,
      ⟨.cLdsp q u9, p9, 8, q, zext, 2⟩]
    let fpLoads : List LoadForm := [⟨.flw q r imm, va, 4, q, fun v => boxed (BitVec.ofNat 64 v), 4⟩,
      ⟨.fld q r imm, va, 8, q, zext, 4⟩, ⟨.cFld cq cr u8, c8, 8, xq, zext, 2⟩,
      ⟨.cFldsp q u9, p9, 8, q, zext, 2⟩]
    let stores : List StoreForm := [⟨.sb r q imm, va, 1, readX q s, 4⟩, ⟨.sh r q imm, va, 2, readX q s, 4⟩,
      ⟨.sw r q imm, va, 4, readX q s, 4⟩, ⟨.sd r q imm, va, 8, readX q s, 4⟩,
      ⟨.cSw cr cq u7, c7, 4, readX xq s, 2⟩, ⟨.cSd cr cq u8, c8, 8, readX xq s, 2⟩,
      ⟨.cSwsp q u8, p8, 4, readX q s, 2⟩, ⟨.cSdsp q u9, p9, 8, readX q s, 2⟩]
    let fpStores : List StoreForm := [⟨.fsw r q imm, va, 4, readF q s, 4⟩, ⟨.fsd r q imm, va, 8, readF q s, 4⟩,
      ⟨.cFsd cr cq u8, c8, 8, readF xq s, 2⟩, ⟨.cFsdsp q u9, p9, 8, readF q s, 2⟩]
    let loadFails := fun (p : LoadForm) => ∀ tr w, LoadFails p.addr p.width s tr w →
      exec p.instr s = .next (takeException tr w)
    let storeFails := fun (p : StoreForm) => ∀ tr w, StoreFails p.addr p.width p.value s tr w →
      exec p.instr s = .next (takeException tr w)
    let stored := fun (p : StoreForm) => ∀ t, StoreDone p.addr p.width p.value s t →
      RunsTo p.instr s (OnlyMovedPc (s.hart.pc + p.len) t)
    (∀ p ∈ loads ++ fpLoads, (∃ v w, LoadDone p.addr p.width s v w) ∨
      ∃ tr w, LoadFails p.addr p.width s tr w) ∧
    (∀ p ∈ stores ++ fpStores, (∃ w, StoreDone p.addr p.width p.value s w) ∨
      ∃ tr w, StoreFails p.addr p.width p.value s tr w) ∧
    (∀ p ∈ loads, loadFails p ∧ ∀ v w, LoadDone p.addr p.width s v w →
      RunsTo p.instr s (WroteX p.rd (p.ext v) (s.hart.pc + p.len) w)) ∧
    (FpOn s → ∀ p ∈ fpLoads, loadFails p ∧ ∀ v w, LoadDone p.addr p.width s v w →
      RunsTo p.instr s (WroteF p.rd (p.ext v) 0 p.len w)) ∧
    (∀ p ∈ stores, storeFails p ∧ stored p) ∧
    (FpOn s → ∀ p ∈ fpStores, storeFails p ∧ stored p) ∧
    (∀ p ∈ ([⟨.lrW rd r aq rl, ra, 4, rd, sext32, 4⟩, ⟨.lrD rd r aq rl, ra, 8, rd, zext, 4⟩] : List LoadForm),
      p.addr.toNat % p.width = 0 →
      (∀ pa u v w, Sys2Proof.Machine.translate p.addr .read s = .ok pa u → PhysReads pa p.width u v w →
        RunsTo p.instr s fun t => HartWroteX rd (p.ext v) (s.hart.pc + 4) w t ∧
          t.hart.res = some ⟨pa, p.width⟩ ∧ KeepsShared w t) ∧
      ∀ tr w, AccessFails .read p.addr p.width s tr w → exec p.instr s = .next (takeException tr w)) ∧
    (∀ p ∈ ([⟨.scW rd r q aq rl, ra, 4, readX q s, 4⟩, ⟨.scD rd r q aq rl, ra, 8, readX q s, 4⟩] :
        List StoreForm), p.addr.toNat % p.width = 0 →
      let ends := fun (result : Word) (w : State) => RunsTo p.instr s fun t =>
        HartWroteX rd result (s.hart.pc + 4) w t ∧ t.hart.res = none ∧ KeepsShared w t
      (∀ pa u, Sys2Proof.Machine.translate p.addr .write s = .ok pa u →
        (u.hart.res = some ⟨pa, p.width⟩ → ∀ w, PhysWrites pa p.width p.value u w → ends 0 w) ∧
        (u.hart.res = some ⟨pa, p.width⟩ → Unmapped u pa.toNat p.width →
          exec p.instr s = .next (takeException ⟨.storeAccess, p.addr⟩ u)) ∧
        (u.hart.res ≠ some ⟨pa, p.width⟩ → ends 1 u)) ∧
      ∀ tr w, Sys2Proof.Machine.translate p.addr .write s = .raise tr w →
        exec p.instr s = .next (takeException tr w)) ∧
    (∀ p ∈ [(Instr.amoswapW rd r q aq rl, fun (_ b : BitVec 32) => b),
        (.amoaddW rd r q aq rl, fun old b => old + b),
        (.amoxorW rd r q aq rl, fun old b => old ^^^ b),
        (.amoandW rd r q aq rl, fun old b => old &&& b),
        (.amoorW rd r q aq rl, fun old b => old ||| b),
        (.amominW rd r q aq rl, fun old b => if old.toInt ≤ b.toInt then old else b),
        (.amomaxW rd r q aq rl, fun old b => if old.toInt ≥ b.toInt then old else b),
        (.amominuW rd r q aq rl, fun old b => if old.toNat ≤ b.toNat then old else b),
        (.amomaxuW rd r q aq rl, fun old b => if old.toNat ≥ b.toNat then old else b)],
      ra.toNat % 4 = 0 →
      (∀ pa u v w t, Sys2Proof.Machine.translate ra .write s = .ok pa u → PhysReads pa 4 u v w →
        PhysWrites pa 4 ((p.2 (BitVec.ofNat 32 v) ((readX q s).setWidth 32)).setWidth 64) w t →
        RunsTo p.1 s (WroteX rd (sext32 v) (s.hart.pc + 4) t)) ∧
      ∀ tr w, AccessFails .write ra 4 s tr w → exec p.1 s = .next (takeException tr w)) ∧
    (∀ p ∈ [(Instr.amoswapD rd r q aq rl, fun (_ b : Word) => b),
        (.amoaddD rd r q aq rl, fun old b => old + b),
        (.amoxorD rd r q aq rl, fun old b => old ^^^ b),
        (.amoandD rd r q aq rl, fun old b => old &&& b),
        (.amoorD rd r q aq rl, fun old b => old ||| b),
        (.amominD rd r q aq rl, fun old b => if old.toInt ≤ b.toInt then old else b),
        (.amomaxD rd r q aq rl, fun old b => if old.toInt ≥ b.toInt then old else b),
        (.amominuD rd r q aq rl, fun old b => if old.toNat ≤ b.toNat then old else b),
        (.amomaxuD rd r q aq rl, fun old b => if old.toNat ≥ b.toNat then old else b)],
      ra.toNat % 8 = 0 →
      (∀ pa u v w t, Sys2Proof.Machine.translate ra .write s = .ok pa u → PhysReads pa 8 u v w →
        PhysWrites pa 8 (p.2 (BitVec.ofNat 64 v) (readX q s)) w t →
        RunsTo p.1 s (WroteX rd (BitVec.ofNat 64 v) (s.hart.pc + 4) t)) ∧
      ∀ tr w, AccessFails .write ra 8 s tr w → exec p.1 s = .next (takeException tr w)) ∧
    ∀ k l, s.tape.deviceRead = k :: l →
      drawDeviceRead s = (k, { s with tape := { s.tape with deviceRead := l } })

/-- An untranslated aligned LR from RAM loads the value and sets the reservation to the address and
width; an SC whose reservation is exactly that address and width stores, writes 0 and clears it; any
other untranslated aligned SC writes 1, stores nothing and clears the reservation; nothing else
changes. The memory is taken in canonical form. -/
def Obligations.ReservedResults : Prop :=
  ∀ (rd rs1 rs2 : RegNum) (aq rl : BitVec 1) (s : State), Memory.wf s.mem →
    let va := readX rs1 s
    let v := readX rs2 s
    (PlainAtomic va 4 .read s → RunsTo (.lrW rd rs1 aq rl) s fun t =>
      HartWroteX rd (BitVec.ofInt 64 (BitVec.ofNat 32 (leNat s.mem va.toNat 4)).toInt) (s.hart.pc + 4)
        s t ∧ t.hart.res = some ⟨va, 4⟩ ∧ KeepsShared s t) ∧
    (PlainAtomic va 8 .read s → RunsTo (.lrD rd rs1 aq rl) s fun t =>
      HartWroteX rd (BitVec.ofNat 64 (leNat s.mem va.toNat 8)) (s.hart.pc + 4) s t ∧
        t.hart.res = some ⟨va, 8⟩ ∧ KeepsShared s t) ∧
    (PlainAtomic va 4 .write s → s.hart.res = some ⟨va, 4⟩ → RunsTo (.scW rd rs1 rs2 aq rl) s fun t =>
      HartWroteX rd 0 (s.hart.pc + 4) s t ∧ t.hart.res = none ∧ StoredAt va.toNat 4 v s t) ∧
    (PlainAtomic va 8 .write s → s.hart.res = some ⟨va, 8⟩ → RunsTo (.scD rd rs1 rs2 aq rl) s fun t =>
      HartWroteX rd 0 (s.hart.pc + 4) s t ∧ t.hart.res = none ∧ StoredAt va.toNat 8 v s t) ∧
    (Untranslated .write s → va.toNat % 4 = 0 → s.hart.res ≠ some ⟨va, 4⟩ →
      RunsTo (.scW rd rs1 rs2 aq rl) s fun t =>
        HartWroteX rd 1 (s.hart.pc + 4) s t ∧ t.hart.res = none ∧ KeepsShared s t) ∧
    (Untranslated .write s → va.toNat % 8 = 0 → s.hart.res ≠ some ⟨va, 8⟩ →
      RunsTo (.scD rd rs1 rs2 aq rl) s fun t =>
        HartWroteX rd 1 (s.hart.pc + 4) s t ∧ t.hart.res = none ∧ KeepsShared s t)

/-- An untranslated aligned word AMO on RAM gives x[rd] the sign-extended old word and stores the
operation of the old word and the low word of x[rs2], read before rd is written, in one step; of
every hart it clears a reservation that shares a byte; nothing else changes but the pc, by 4. The
memory is taken in canonical form. -/
def Obligations.AmoWordResults : Prop :=
  ∀ (rd rs1 rs2 : RegNum) (aq rl : BitVec 1) (s : State), Memory.wf s.mem →
    PlainAtomic (readX rs1 s) 4 .write s →
    let va := readX rs1 s
    let old : BitVec 32 := BitVec.ofNat 32 (leNat s.mem va.toNat 4)
    let b : BitVec 32 := (readX rs2 s).setWidth 32
    let result := BitVec.ofInt 64 old.toInt
    RunsTo (.amoswapW rd rs1 rs2 aq rl) s (Amo rd va 4 result ((b : BitVec 32).setWidth 64) s) ∧
    RunsTo (.amoaddW rd rs1 rs2 aq rl) s (Amo rd va 4 result ((old + b : BitVec 32).setWidth 64) s) ∧
    RunsTo (.amoxorW rd rs1 rs2 aq rl) s (Amo rd va 4 result ((old ^^^ b : BitVec 32).setWidth 64) s) ∧
    RunsTo (.amoandW rd rs1 rs2 aq rl) s (Amo rd va 4 result ((old &&& b : BitVec 32).setWidth 64) s) ∧
    RunsTo (.amoorW rd rs1 rs2 aq rl) s (Amo rd va 4 result ((old ||| b : BitVec 32).setWidth 64) s) ∧
    RunsTo (.amominW rd rs1 rs2 aq rl) s (Amo rd va 4 result ((if old.toInt ≤ b.toInt then old else b : BitVec 32).setWidth 64) s) ∧
    RunsTo (.amomaxW rd rs1 rs2 aq rl) s (Amo rd va 4 result ((if old.toInt ≥ b.toInt then old else b : BitVec 32).setWidth 64) s) ∧
    RunsTo (.amominuW rd rs1 rs2 aq rl) s (Amo rd va 4 result ((if old.toNat ≤ b.toNat then old else b : BitVec 32).setWidth 64) s) ∧
    RunsTo (.amomaxuW rd rs1 rs2 aq rl) s (Amo rd va 4 result ((if old.toNat ≥ b.toNat then old else b : BitVec 32).setWidth 64) s)

/-- An untranslated aligned doubleword AMO on RAM gives x[rd] the old doubleword and stores the
operation of it and x[rs2], read before rd is written, in one step; of every hart it clears a
reservation that shares a byte; nothing else changes but the pc, by 4. The memory is taken in
canonical form. -/
def Obligations.AmoDoubleResults : Prop :=
  ∀ (rd rs1 rs2 : RegNum) (aq rl : BitVec 1) (s : State), Memory.wf s.mem →
    PlainAtomic (readX rs1 s) 8 .write s →
    let va := readX rs1 s
    let old : Word := BitVec.ofNat 64 (leNat s.mem va.toNat 8)
    let b := readX rs2 s
    RunsTo (.amoswapD rd rs1 rs2 aq rl) s (Amo rd va 8 old (b) s) ∧
    RunsTo (.amoaddD rd rs1 rs2 aq rl) s (Amo rd va 8 old (old + b) s) ∧
    RunsTo (.amoxorD rd rs1 rs2 aq rl) s (Amo rd va 8 old (old ^^^ b) s) ∧
    RunsTo (.amoandD rd rs1 rs2 aq rl) s (Amo rd va 8 old (old &&& b) s) ∧
    RunsTo (.amoorD rd rs1 rs2 aq rl) s (Amo rd va 8 old (old ||| b) s) ∧
    RunsTo (.amominD rd rs1 rs2 aq rl) s (Amo rd va 8 old (if old.toInt ≤ b.toInt then old else b) s) ∧
    RunsTo (.amomaxD rd rs1 rs2 aq rl) s (Amo rd va 8 old (if old.toInt ≥ b.toInt then old else b) s) ∧
    RunsTo (.amominuD rd rs1 rs2 aq rl) s (Amo rd va 8 old (if old.toNat ≤ b.toNat then old else b) s) ∧
    RunsTo (.amomaxuD rd rs1 rs2 aq rl) s (Amo rd va 8 old (if old.toNat ≥ b.toNat then old else b) s)

/-- Under MISALIGNED_DATA = trap every misaligned load, integer, floating-point or compressed, takes
load address misaligned and every such store takes store/AMO address misaligned, with the address as
tval; a misaligned LR, SC or AMO traps so whatever MISALIGNED_DATA is. Under bytewise an
untranslated misaligned access whose bytes are in RAM up to one that no region holds takes the load
or store/AMO access fault with that byte's address as tval; a store then leaves the bytes before it
written, as R105 says, or nothing written, as R523 says, by the platform's choice between the two
rules, which disagree (the model's choice: log 13). (That a bytewise access whose bytes are all in
RAM succeeds is in LoadResults, StoreResults and their compressed and floating-point fellows.) The
memory is taken in canonical form. -/
def Obligations.MisalignedDataTraps : Prop :=
  ∀ (r q : RegNum) (cr cq : CRegNum) (imm : BitVec 12) (u7 : BitVec 7) (u8 : BitVec 8) (u9 : BitVec 9)
    (aq rl : BitVec 1) (s : State), Memory.wf s.mem →
    let va := readX r s + imm.signExtend 64
    let c7 := readX (BitVec.ofNat 5 (8 + cr.toNat)) s + u7.setWidth 64
    let c8 := readX (BitVec.ofNat 5 (8 + cr.toNat)) s + u8.setWidth 64
    let p8 := readX 2 s + u8.setWidth 64
    let p9 := readX 2 s + u9.setWidth 64
    (s.plat.misaligned = .trap →
      (∀ p ∈ [(Instr.lh q r imm, 2), (.lhu q r imm, 2), (.lw q r imm, 4), (.lwu q r imm, 4), (.ld q r imm, 8)],
        va.toNat % p.2 ≠ 0 → Traps p.1 s .loadMisaligned va s) ∧
      (∀ p ∈ [(Instr.sh r q imm, 2), (.sw r q imm, 4), (.sd r q imm, 8)],
        va.toNat % p.2 ≠ 0 → Traps p.1 s .storeMisaligned va s) ∧
      (c7.toNat % 4 ≠ 0 → Traps (.cLw cq cr u7) s .loadMisaligned c7 s ∧
        Traps (.cSw cr cq u7) s .storeMisaligned c7 s) ∧
      (c8.toNat % 8 ≠ 0 → Traps (.cLd cq cr u8) s .loadMisaligned c8 s ∧
        Traps (.cSd cr cq u8) s .storeMisaligned c8 s) ∧
      (p8.toNat % 4 ≠ 0 → Traps (.cLwsp q u8) s .loadMisaligned p8 s ∧
        Traps (.cSwsp q u8) s .storeMisaligned p8 s) ∧
      (p9.toNat % 8 ≠ 0 → Traps (.cLdsp q u9) s .loadMisaligned p9 s ∧
        Traps (.cSdsp q u9) s .storeMisaligned p9 s) ∧
      (FpOn s →
        (va.toNat % 4 ≠ 0 → Traps (.flw q r imm) s .loadMisaligned va s ∧
          Traps (.fsw r q imm) s .storeMisaligned va s) ∧
        (va.toNat % 8 ≠ 0 → Traps (.fld q r imm) s .loadMisaligned va s ∧
          Traps (.fsd r q imm) s .storeMisaligned va s) ∧
        (c8.toNat % 8 ≠ 0 → Traps (.cFld cq cr u8) s .loadMisaligned c8 s ∧
          Traps (.cFsd cr cq u8) s .storeMisaligned c8 s) ∧
        (p9.toNat % 8 ≠ 0 → Traps (.cFldsp q u9) s .loadMisaligned p9 s ∧
          Traps (.cFsdsp q u9) s .storeMisaligned p9 s))) ∧
    ((readX r s).toNat % 4 ≠ 0 → Traps (.lrW q r aq rl) s .loadMisaligned (readX r s) s ∧
      ∀ rd, ∀ i ∈ [Instr.scW rd r q aq rl, .amoswapW rd r q aq rl, .amoaddW rd r q aq rl, .amoxorW rd r q aq rl, .amoandW rd r q aq rl, .amoorW rd r q aq rl, .amominW rd r q aq rl, .amomaxW rd r q aq rl, .amominuW rd r q aq rl, .amomaxuW rd r q aq rl],
        Traps i s .storeMisaligned (readX r s) s) ∧
    ((readX r s).toNat % 8 ≠ 0 → Traps (.lrD q r aq rl) s .loadMisaligned (readX r s) s ∧
      ∀ rd, ∀ i ∈ [Instr.scD rd r q aq rl, .amoswapD rd r q aq rl, .amoaddD rd r q aq rl, .amoxorD rd r q aq rl, .amoandD rd r q aq rl, .amoorD rd r q aq rl, .amominD rd r q aq rl, .amomaxD rd r q aq rl, .amominuD rd r q aq rl, .amomaxuD rd r q aq rl],
        Traps i s .storeMisaligned (readX r s) s) ∧
    (s.plat.misaligned = .bytewise → Untranslated .read s →
      let fails := fun (p : Instr × Word × Nat) => p.2.1.toNat % p.2.2 ≠ 0 → ∀ k, k < p.2.2 →
        (∀ j, j < k → InRam s (p.2.1.toNat + j) 1) →
        Unmapped s (p.2.1 + BitVec.ofNat 64 k).toNat 1 →
        Traps p.1 s .loadAccess (p.2.1 + BitVec.ofNat 64 k) s
      (∀ p ∈ [(Instr.lh q r imm, va, 2), (.lw q r imm, va, 4), (.ld q r imm, va, 8),
        (.lhu q r imm, va, 2), (.lwu q r imm, va, 4), (.cLw cq cr u7, c7, 4),
        (.cLd cq cr u8, c8, 8), (.cLwsp q u8, p8, 4), (.cLdsp q u9, p9, 8)], fails p) ∧
      (FpOn s → ∀ p ∈ [(Instr.flw q r imm, va, 4), (.fld q r imm, va, 8), (.cFld cq cr u8, c8, 8),
        (.cFldsp q u9, p9, 8)], fails p)) ∧
    (s.plat.misaligned = .bytewise → Untranslated .write s →
      let fails := fun (p : Instr × Word × Nat × Word) => p.2.1.toNat % p.2.2.1 ≠ 0 → ∀ k, k < p.2.2.1 →
        (∀ j, j < k → InRam s (p.2.1.toNat + j) 1) →
        Unmapped s (p.2.1 + BitVec.ofNat 64 k).toNat 1 →
        ∃ u, Traps p.1 s .storeAccess (p.2.1 + BitVec.ofNat 64 k) u ∧
          (s.plat.partialStore = .undone → u = s) ∧
          (s.plat.partialStore = .kept → StoredAt p.2.1.toNat k p.2.2.2 s u ∧ u.note = s.note ∧
            u.hart = { s.hart with res := survivingRes p.2.1.toNat k s.hart.res })
      (∀ p ∈ [(Instr.sh r q imm, va, 2, readX q s), (.sw r q imm, va, 4, readX q s),
        (.sd r q imm, va, 8, readX q s),
        (.cSw cr cq u7, c7, 4, readX (BitVec.ofNat 5 (8 + cq.toNat)) s),
        (.cSd cr cq u8, c8, 8, readX (BitVec.ofNat 5 (8 + cq.toNat)) s),
        (.cSwsp q u8, p8, 4, readX q s), (.cSdsp q u9, p9, 8, readX q s)], fails p) ∧
      (FpOn s → ∀ p ∈ [(Instr.fsw r q imm, va, 4, readF q s), (.fsd r q imm, va, 8, readF q s),
        (.cFsd cr cq u8, c8, 8, readF (BitVec.ofNat 5 (8 + cq.toNat)) s),
        (.cFsdsp q u9, p9, 8, readF q s)], fails p))

/-- An untranslated aligned access, integer, floating-point (with FS on) or compressed, whose bytes no
one region holds takes load access fault (5) for loads and LR, and store/AMO access fault (7) for
stores, AMOs and an SC whose reservation matches, with the address as tval; an untranslated fetch by
the hart that takes the step whose first parcel no region holds, or whose first parcel in RAM is
that of a 32-bit instruction and whose second no region holds, takes instruction access fault (1) in
its step, with that parcel's address as tval. -/
def Obligations.UnmappedAccessTraps : Prop :=
  ∀ (r q rd : RegNum) (cr cq : CRegNum) (imm : BitVec 12) (u7 : BitVec 7) (u8 : BitVec 8) (u9 : BitVec 9)
    (aq rl : BitVec 1) (s : State),
    let va := readX r s + imm.signExtend 64
    let c7 := readX (BitVec.ofNat 5 (8 + cr.toNat)) s + u7.setWidth 64
    let c8 := readX (BitVec.ofNat 5 (8 + cr.toNat)) s + u8.setWidth 64
    let p8 := readX 2 s + u8.setWidth 64
    let p9 := readX 2 s + u9.setWidth 64
    let ra := readX r s
    let u := schedule s
    (Untranslated .read s → ∀ p ∈ [(Instr.lb q r imm, va, 1), (.lh q r imm, va, 2), (.lw q r imm, va, 4),
      (.ld q r imm, va, 8), (.lbu q r imm, va, 1), (.lhu q r imm, va, 2), (.lwu q r imm, va, 4),
      (.cLw cq cr u7, c7, 4), (.cLd cq cr u8, c8, 8), (.cLwsp q u8, p8, 4),
      (.cLdsp q u9, p9, 8), (.lrW rd r aq rl, ra, 4), (.lrD rd r aq rl, ra, 8)],
      p.2.1.toNat % p.2.2 = 0 → Unmapped s p.2.1.toNat p.2.2 → Traps p.1 s .loadAccess p.2.1 s) ∧
    (Untranslated .write s → ∀ p ∈ [(Instr.sb r q imm, va, 1), (.sh r q imm, va, 2), (.sw r q imm, va, 4),
      (.sd r q imm, va, 8), (.cSw cr cq u7, c7, 4), (.cSd cr cq u8, c8, 8),
      (.cSwsp q u8, p8, 4), (.cSdsp q u9, p9, 8), (.amoswapW rd r q aq rl, ra, 4),
      (.amoaddW rd r q aq rl, ra, 4), (.amoxorW rd r q aq rl, ra, 4),
      (.amoandW rd r q aq rl, ra, 4), (.amoorW rd r q aq rl, ra, 4),
      (.amominW rd r q aq rl, ra, 4), (.amomaxW rd r q aq rl, ra, 4),
      (.amominuW rd r q aq rl, ra, 4), (.amomaxuW rd r q aq rl, ra, 4),
      (.amoswapD rd r q aq rl, ra, 8), (.amoaddD rd r q aq rl, ra, 8),
      (.amoxorD rd r q aq rl, ra, 8), (.amoandD rd r q aq rl, ra, 8),
      (.amoorD rd r q aq rl, ra, 8), (.amominD rd r q aq rl, ra, 8),
      (.amomaxD rd r q aq rl, ra, 8), (.amominuD rd r q aq rl, ra, 8),
      (.amomaxuD rd r q aq rl, ra, 8)],
      p.2.1.toNat % p.2.2 = 0 → Unmapped s p.2.1.toNat p.2.2 → Traps p.1 s .storeAccess p.2.1 s) ∧
    (Untranslated .write s → ∀ p ∈ [(Instr.scW rd r q aq rl, ra, 4), (.scD rd r q aq rl, ra, 8)],
      p.2.1.toNat % p.2.2 = 0 → Unmapped s p.2.1.toNat p.2.2 →
      s.hart.res = some ⟨p.2.1, p.2.2⟩ → Traps p.1 s .storeAccess p.2.1 s) ∧
    (FpOn s → Untranslated .read s → ∀ p ∈ [(Instr.flw q r imm, va, 4), (.fld q r imm, va, 8), (.cFld cq cr u8, c8, 8),
      (.cFldsp q u9, p9, 8)],
      p.2.1.toNat % p.2.2 = 0 → Unmapped s p.2.1.toNat p.2.2 → Traps p.1 s .loadAccess p.2.1 s) ∧
    (FpOn s → Untranslated .write s → ∀ p ∈ [(Instr.fsw r q imm, va, 4), (.fsd r q imm, va, 8), (.cFsd cr cq u8, c8, 8),
      (.cFsdsp q u9, p9, 8)],
      p.2.1.toNat % p.2.2 = 0 → Unmapped s p.2.1.toNat p.2.2 → Traps p.1 s .storeAccess p.2.1 s) ∧
    (u.hart.halted = none → u.hart.wfi = false → u.hart.pc.toNat % 2 = 0 → Untranslated .fetch u →
      (Unmapped u u.hart.pc.toNat 2 →
        step s = .next (endStep (takeException ⟨.instrAccess, u.hart.pc⟩ u))) ∧
      (InRam u u.hart.pc.toNat 2 → (Memory.readByte u.mem u.hart.pc.toNat).toNat % 4 = 3 →
        Unmapped u (u.hart.pc + 2).toNat 2 →
        step s = .next (endStep (takeException ⟨.instrAccess, u.hart.pc + 2⟩ u))))

/-- FENCE with every value of its fields and FENCE.I answer a next state in which the pc is 4 further
and nothing else has changed. -/
def Obligations.FencesOnlyAdvance : Prop :=
  ∀ (rd rs1 : RegNum) (fm pred succ : BitVec 4) (imm : BitVec 12) (s : State),
    RunsTo (.fence rd rs1 fm pred succ) s (OnlyMovedPc (s.hart.pc + 4) s) ∧
    RunsTo (.fenceI rd rs1 imm) s (OnlyMovedPc (s.hart.pc + 4) s)

/-- Where the CSR may be accessed, each of the six CSR instructions reads it by CsrRead (CSRRW and
CSRRWI only when rd is not x0), writes it by CsrWrite (the set and clear forms only when rs1 is not
x0 or uimm not 0), gives x[rd] the value read before, sets FS to Dirty when it wrote fflags, frm or
fcsr, notes a write of mcycle or minstret for the end of the step (the note is the model's own
field, log 14; CountersAdvance says that the written value then stands), advances the pc by 4 and
changes nothing else. That all 35 rows of R56's table may be accessed, where the text around it
counts 33, is the model's choice (log 33). -/
def Obligations.CsrInstructionResults : Prop :=
  ∀ (rd rs1 : RegNum) (uimm : BitVec 5) (a : CsrAddr) (s : State),
    (CsrAllowed a true s →
      RunsTo (.csrrw rd rs1 a) s (CsrEffect rd a (rd != 0) true (fun _ => readX rs1 s) s) ∧
      RunsTo (.csrrwi rd uimm a) s (CsrEffect rd a (rd != 0) true (fun _ => uimm.setWidth 64) s)) ∧
    (CsrAllowed a (rs1 != 0) s →
      RunsTo (.csrrs rd rs1 a) s (CsrEffect rd a true (rs1 != 0) (fun v => v ||| readX rs1 s) s) ∧
      RunsTo (.csrrc rd rs1 a) s (CsrEffect rd a true (rs1 != 0) (fun v => v &&& ~~~readX rs1 s) s)) ∧
    (CsrAllowed a (uimm != 0) s →
      RunsTo (.csrrsi rd uimm a) s
        (CsrEffect rd a true (uimm != 0) (fun v => v ||| uimm.setWidth 64) s) ∧
      RunsTo (.csrrci rd uimm a) s
        (CsrEffect rd a true (uimm != 0) (fun v => v &&& ~~~(uimm.setWidth 64 : Word)) s))

/-- A CSR instruction on an absent CSR, below its lowest privilege, writing a read-only one, or on
fflags, frm or fcsr while FS is Off takes illegal instruction with tval the CSR address, from a
state that differs from the one before at most in the sampled platform inputs. -/
def Obligations.CsrAccessFaults : Prop :=
  ∀ (rd rs1 : RegNum) (uimm : BitVec 5) (a : CsrAddr) (s : State),
    let faults := fun (i : Instr) => ∃ u, Traps i s .illegalInstr (a.setWidth 64) u ∧
      u.hart = s.hart ∧ u.others = s.others ∧ u.mem = s.mem ∧ u.tlb = s.tlb ∧ u.plat = s.plat ∧
      u.bus = s.bus ∧ u.note = s.note
    (¬CsrAllowed a true s → faults (.csrrw rd rs1 a) ∧ faults (.csrrwi rd uimm a)) ∧
    (¬CsrAllowed a (rs1 != 0) s → faults (.csrrs rd rs1 a) ∧ faults (.csrrc rd rs1 a)) ∧
    (¬CsrAllowed a (uimm != 0) s → faults (.csrrsi rd uimm a) ∧ faults (.csrrci rd uimm a))

/-- A write of mstatus changes only the bits of mask 0xE79AA, and MPP keeps its old value when the
written one is 2; a write of sstatus changes only SIE, SPIE, SPP, FS, SUM and MXR; nothing but
mstatus changes. A read of mstatus shows UXL = SXL = 2 and SD = (FS = 3), and a read of sstatus is
that value under mask 0x80000003000DE762. -/
def Obligations.StatusWrites : Prop :=
  ∀ (v : Word) (p : Priv) (s : State),
    let old := s.hart.csr.mstatus
    let fs3 := old.getLsbD 13 && old.getLsbD 14
    let view := (old &&& 0xE79AA#64) + 0xA00000000#64 + (if fs3 then 0x8000000000000000#64 else 0)
    (p = .M → ∃ w, csrWrite 0x300 v p s = .ok { s with hart := { s.hart with csr := { s.hart.csr with mstatus := w } } } ∧
      ∀ i, i < 64 → w.getLsbD i =
        if i = 11 ∨ i = 12 then
          (if v.getLsbD 11 = false ∧ v.getLsbD 12 = true then old.getLsbD i else v.getLsbD i)
        else if i ∈ [1, 3, 5, 7, 8, 13, 14, 17, 18, 19] then v.getLsbD i else old.getLsbD i) ∧
    (p = .M ∨ p = .S → ∃ w, csrWrite 0x100 v p s = .ok { s with hart := { s.hart with csr := { s.hart.csr with mstatus := w } } } ∧
      ∀ i, i < 64 → w.getLsbD i =
        if i ∈ [1, 5, 8, 13, 14, 18, 19] then v.getLsbD i else old.getLsbD i) ∧
    (p = .M → csrRead 0x300 p s = .ok (view, s)) ∧
    (p = .M ∨ p = .S → csrRead 0x100 p s = .ok (view &&& 0x80000003000DE762#64, s))

/-- CsrWrite of each writable CSR but mstatus and sstatus, at every privilege that may access it,
replaces exactly the bits of its mask in its storage: the delegation, enable, vector, epc, cause,
tval, scratch, counter and floating-point CSRs, sie and fflags as views, frm as fcsr[7:5], mip's
SSIP, STIP and SEIP, sip's SSIP alone, satp only with MODE 0, 8, 9 or 10, misa not at all; no other
state changes. That each of them is present, so that its write succeeds, is the model's choice where
R56's table and the count around it differ (log 33). The clause on mip takes its stored bits inside
their mask (the invariant). -/
def Obligations.CsrMaskedWrites : Prop :=
  ∀ (v : Word) (p : Priv) (s : State),
    let may := fun (a : CsrAddr) => a.toNat / 256 % 4 ≤ (privBits p).toNat
    (may 0x302 → csrWrite 0x302 v p s = .ok { s with hart := { s.hart with csr := { s.hart.csr with medeleg := (s.hart.csr.medeleg &&& ~~~0xB3FF#64) ||| (v &&& 0xB3FF#64) } } }) ∧
    (may 0x303 → csrWrite 0x303 v p s = .ok { s with hart := { s.hart with csr := { s.hart.csr with mideleg := (s.hart.csr.mideleg &&& ~~~0x222#64) ||| (v &&& 0x222#64) } } }) ∧
    (may 0x304 → csrWrite 0x304 v p s = .ok { s with hart := { s.hart with csr := { s.hart.csr with mie := (s.hart.csr.mie &&& ~~~0xAAA#64) ||| (v &&& 0xAAA#64) } } }) ∧
    (may 0x104 → csrWrite 0x104 v p s = .ok { s with hart := { s.hart with csr := { s.hart.csr with mie := (s.hart.csr.mie &&& ~~~0x222#64) ||| (v &&& 0x222#64) } } }) ∧
    (may 0x305 → csrWrite 0x305 v p s = .ok { s with hart := { s.hart with csr := { s.hart.csr with mtvec := (s.hart.csr.mtvec &&& ~~~0xFFFFFFFFFFFFFFFD#64) ||| (v &&& 0xFFFFFFFFFFFFFFFD#64) } } }) ∧
    (may 0x105 → csrWrite 0x105 v p s = .ok { s with hart := { s.hart with csr := { s.hart.csr with stvec := (s.hart.csr.stvec &&& ~~~0xFFFFFFFFFFFFFFFD#64) ||| (v &&& 0xFFFFFFFFFFFFFFFD#64) } } }) ∧
    (may 0x306 → csrWrite 0x306 v p s = .ok { s with hart := { s.hart with csr := { s.hart.csr with mcounteren := (s.hart.csr.mcounteren &&& ~~~0x7#64) ||| (v &&& 0x7#64) } } }) ∧
    (may 0x106 → csrWrite 0x106 v p s = .ok { s with hart := { s.hart with csr := { s.hart.csr with scounteren := (s.hart.csr.scounteren &&& ~~~0x7#64) ||| (v &&& 0x7#64) } } }) ∧
    (may 0x341 → csrWrite 0x341 v p s = .ok { s with hart := { s.hart with csr := { s.hart.csr with mepc := (s.hart.csr.mepc &&& ~~~0xFFFFFFFFFFFFFFFE#64) ||| (v &&& 0xFFFFFFFFFFFFFFFE#64) } } }) ∧
    (may 0x141 → csrWrite 0x141 v p s = .ok { s with hart := { s.hart with csr := { s.hart.csr with sepc := (s.hart.csr.sepc &&& ~~~0xFFFFFFFFFFFFFFFE#64) ||| (v &&& 0xFFFFFFFFFFFFFFFE#64) } } }) ∧
    (may 0x003 → csrWrite 0x003 v p s = .ok { s with hart := { s.hart with csr := { s.hart.csr with fcsr := (s.hart.csr.fcsr &&& ~~~0xFF#64) ||| (v &&& 0xFF#64) } } }) ∧
    (may 0x001 → csrWrite 0x001 v p s = .ok { s with hart := { s.hart with csr := { s.hart.csr with fcsr := (s.hart.csr.fcsr &&& ~~~0x1F#64) ||| (v &&& 0x1F#64) } } }) ∧
    (may 0x340 → csrWrite 0x340 v p s = .ok { s with hart := { s.hart with csr := { s.hart.csr with mscratch := v } } }) ∧
    (may 0x140 → csrWrite 0x140 v p s = .ok { s with hart := { s.hart with csr := { s.hart.csr with sscratch := v } } }) ∧
    (may 0x342 → csrWrite 0x342 v p s = .ok { s with hart := { s.hart with csr := { s.hart.csr with mcause := v } } }) ∧
    (may 0x142 → csrWrite 0x142 v p s = .ok { s with hart := { s.hart with csr := { s.hart.csr with scause := v } } }) ∧
    (may 0x343 → csrWrite 0x343 v p s = .ok { s with hart := { s.hart with csr := { s.hart.csr with mtval := v } } }) ∧
    (may 0x143 → csrWrite 0x143 v p s = .ok { s with hart := { s.hart with csr := { s.hart.csr with stval := v } } }) ∧
    (may 0xB00 → csrWrite 0xB00 v p s = .ok { s with hart := { s.hart with csr := { s.hart.csr with mcycle := v } } }) ∧
    (may 0xB02 → csrWrite 0xB02 v p s = .ok { s with hart := { s.hart with csr := { s.hart.csr with minstret := v } } }) ∧
    csrWrite 0x002 v p s = .ok { s with hart := { s.hart with csr := { s.hart.csr with fcsr := (s.hart.csr.fcsr &&& ~~~0xE0#64) ||| ((v &&& 7#64) <<< 5) } } } ∧
    (s.hart.csr.mip &&& ~~~0x222#64 = 0 → (may 0x344 → csrWrite 0x344 v p s = .ok { s with hart := { s.hart with csr := { s.hart.csr with mip := v &&& 0x222#64 } } }) ∧
      (may 0x144 → csrWrite 0x144 v p s = .ok { s with hart := { s.hart with csr := { s.hart.csr with mip := (s.hart.csr.mip &&& ~~~2#64) ||| (v &&& 2#64) } } })) ∧
    (may 0x180 → csrWrite 0x180 v p s = .ok { s with hart := { s.hart with csr := { s.hart.csr with satp := if v.toNat / 2 ^ 60 ∈ [0, 8, 9, 10] then v else s.hart.csr.satp } } }) ∧
    (may 0x301 → csrWrite 0x301 v p s = .ok s)

/-- In a state whose stored CSRs are legal (the invariant), CsrRead at every privilege that may access
it gives each plain CSR its stored value, cycle and instret those of mcycle and minstret, sie and
fflags their masked views, frm fcsr[7:5], misa its constant, mhartid the hart id, the id registers
0, time the sampled MTIME, mip the stored bits with the sampled MSIP and MTIP, sip the stored bits;
only time, mip and sip sample the platform, and no read has another effect. A sample takes the head
of CLINT inputs where one is given, MTIME being no less than at the last sample (log 7), and changes
MTIME's last sample and the inputs left, nothing else. That the sampling is a draw at the read, and
that a read of sip samples too, is the model's reading of R50, R57 and R547 (log 23); that each of
the 35 rows of R56's table is present, so that its read succeeds, is the model's choice (log 33). -/
def Obligations.CsrReadValues : Prop :=
  ∀ (p : Priv) (s : State), s.hart.csr.legal →
    let may := fun (a : CsrAddr) => a.toNat / 256 % 4 ≤ (privBits p).toNat
    Sampled s (sampleClint s).1 (sampleClint s).2 ∧
    (may 0x302 → csrRead 0x302 p s = .ok (s.hart.csr.medeleg, s)) ∧
    (may 0x303 → csrRead 0x303 p s = .ok (s.hart.csr.mideleg, s)) ∧
    (may 0x304 → csrRead 0x304 p s = .ok (s.hart.csr.mie, s)) ∧
    (may 0x305 → csrRead 0x305 p s = .ok (s.hart.csr.mtvec, s)) ∧
    (may 0x105 → csrRead 0x105 p s = .ok (s.hart.csr.stvec, s)) ∧
    (may 0x306 → csrRead 0x306 p s = .ok (s.hart.csr.mcounteren, s)) ∧
    (may 0x106 → csrRead 0x106 p s = .ok (s.hart.csr.scounteren, s)) ∧
    (may 0x341 → csrRead 0x341 p s = .ok (s.hart.csr.mepc, s)) ∧
    (may 0x141 → csrRead 0x141 p s = .ok (s.hart.csr.sepc, s)) ∧
    (may 0x340 → csrRead 0x340 p s = .ok (s.hart.csr.mscratch, s)) ∧
    (may 0x140 → csrRead 0x140 p s = .ok (s.hart.csr.sscratch, s)) ∧
    (may 0x342 → csrRead 0x342 p s = .ok (s.hart.csr.mcause, s)) ∧
    (may 0x142 → csrRead 0x142 p s = .ok (s.hart.csr.scause, s)) ∧
    (may 0x343 → csrRead 0x343 p s = .ok (s.hart.csr.mtval, s)) ∧
    (may 0x143 → csrRead 0x143 p s = .ok (s.hart.csr.stval, s)) ∧
    (may 0x180 → csrRead 0x180 p s = .ok (s.hart.csr.satp, s)) ∧
    (may 0xB00 → csrRead 0xB00 p s = .ok (s.hart.csr.mcycle, s)) ∧
    (may 0xB02 → csrRead 0xB02 p s = .ok (s.hart.csr.minstret, s)) ∧
    (may 0xC00 → csrRead 0xC00 p s = .ok (s.hart.csr.mcycle, s)) ∧
    (may 0xC02 → csrRead 0xC02 p s = .ok (s.hart.csr.minstret, s)) ∧
    (may 0x003 → csrRead 0x003 p s = .ok (s.hart.csr.fcsr, s)) ∧
    (may 0x104 → csrRead 0x104 p s = .ok (s.hart.csr.mie &&& 0x222#64, s)) ∧
    (may 0x001 → csrRead 0x001 p s = .ok (s.hart.csr.fcsr &&& 0x1F#64, s)) ∧
    (may 0x002 → csrRead 0x002 p s = .ok (BitVec.ofNat 64 (s.hart.csr.fcsr.toNat / 32 % 8), s)) ∧
    (may 0x301 → csrRead 0x301 p s = .ok (0x800000000014112D#64, s)) ∧
    (may 0xF14 → csrRead 0xF14 p s = .ok (BitVec.ofNat 64 s.hart.id, s)) ∧
    (∀ a ∈ [0xF11#12, 0xF12#12, 0xF13#12, 0xF15#12], may a → csrRead a p s = .ok (0, s)) ∧
    (may 0xC01 → csrRead 0xC01 p s = .ok ((sampleClint s).1.mtime, (sampleClint s).2)) ∧
    (may 0x344 → csrRead 0x344 p s = .ok (s.hart.csr.mip + (if (sampleClint s).1.msip then 8 else 0) +
      (if (sampleClint s).1.mtip then 0x80 else 0), (sampleClint s).2)) ∧
    (may 0x144 → csrRead 0x144 p s = .ok (s.hart.csr.mip, (sampleClint s).2))

/-- ECALL in U, S or M takes exception 8, 9 or 11 with tval 0 and epc its own address: a next state in
which, where the vector base of the target is not 0, the saved registers, status, privilege and pc
are those of trap entry and nothing else has changed; where it is 0, the exception is taken too, and
is the unresolved one of UnresolvedTrapHalts. -/
def Obligations.EcallTakesException : Prop :=
  ∀ (s : State),
    let code := if s.hart.priv = .U then 8 else if s.hart.priv = .S then 9 else 11
    let cause : Cause := if s.hart.priv = .U then .ecallU else if s.hart.priv = .S then .ecallS else .ecallM
    let saved := fun (t : State) => { t with note := s.note }
    (s.hart.priv ≠ .H → causeCode cause = code ∧ exec .ecall s = .next (takeException ⟨cause, 0⟩ s)) ∧
    (s.hart.priv ≠ .H → DelegatedToS false code s → baseOf s.hart.csr.stvec ≠ 0 →
      RunsTo .ecall s fun t => EnteredS false code 0 s.hart.pc s (saved t) ∧ t.note.trapped = true) ∧
    (s.hart.priv ≠ .H → ¬DelegatedToS false code s → baseOf s.hart.csr.mtvec ≠ 0 →
      RunsTo .ecall s fun t => EnteredM false code 0 s.hart.pc s (saved t) ∧ t.note.trapped = true)

/-- With the semihosting flag set EBREAK and C.EBREAK give x10 and memory what the host answers, advance
the pc by 4 or 2 and change nothing else; else, where BREAKPOINT answers true nothing changes but
the draw, and where it answers false they take breakpoint with tval the pc; with no debugger
attached it answers false. That a call is also given a counter and leaves every reservation alone,
the other harts' too, is the model's choice (log 9), and so is that BREAKPOINT is one draw a time
and false without a debugger by a flag of the platform (log 10). -/
def Obligations.EbreakOutcomes : Prop :=
  ∀ (s : State), ∀ p ∈ [(Instr.ebreak, (4 : Word)), (Instr.cEbreak, 2)],
    let answer := Config.semihost s.tick s.hart s.mem
    let drawn := drawBreakpoint s
    (s.hart.semihost = true → RunsTo p.1 s fun t =>
      HartWroteX 10 answer.a0 (s.hart.pc + p.2) s t ∧ t.hart.res = s.hart.res ∧
        KeepsShared { s with mem := Memory.normalise answer.mem } t) ∧
    (s.hart.semihost = false → drawn.1 = true → exec p.1 s = .next drawn.2 ∧
      drawn.2.hart = s.hart ∧ KeepsShared s drawn.2 ∧ drawn.2.note = s.note) ∧
    (s.hart.semihost = false → drawn.1 = false → Traps p.1 s .breakpoint s.hart.pc drawn.2 ∧
      drawn.2.hart = s.hart ∧ KeepsShared s drawn.2) ∧
    (s.plat.debugger = false → drawn = (false, s))

/-- MRET in M restores the privilege from MPP, MIE from MPIE, sets MPIE, clears MPP, clears MPRV when
the new privilege is not M, clears the reservation and goes to mepc; SRET in S or M does so with
SPP, SIE, SPIE and sepc and always clears MPRV; nothing else changes. States with MPP = 2, which the
invariant excludes, are left out. -/
def Obligations.TrapReturns : Prop :=
  ∀ (s : State),
    let st := s.hart.csr.mstatus
    (∀ p, s.hart.priv = .M → privBits p = st.extractLsb' 11 2 → p ≠ .H →
      RunsTo .mret s (Returned p (fun v w => ∀ i, i < 64 → w.getLsbD i =
        if i = 3 then v.getLsbD 7 else if i = 7 then true else if i = 11 ∨ i = 12 then false
        else if i = 17 then (v.getLsbD 17 && decide (p = .M)) else v.getLsbD i) s.hart.csr.mepc s)) ∧
    (s.hart.priv = .S ∨ s.hart.priv = .M →
      RunsTo .sret s (Returned (if st.getLsbD 8 then .S else .U) (fun v w => ∀ i, i < 64 → w.getLsbD i =
        if i = 1 then v.getLsbD 5 else if i = 5 then true else if i = 8 ∨ i = 17 then false
        else v.getLsbD i) s.hart.csr.sepc s))

/-- WFI in S or M advances the pc by 4 and retires; it sets the wait flag unless mip & mie & 0xAA is not
0 with the inputs sampled then; only the sample and the flag change beside the pc. A sample takes
the inputs given, MTIME being no less than at the last one (log 7). That the test of WFI is a sample
of its own is the model's reading (log 23). -/
def Obligations.WfiResults : Prop :=
  ∀ (s : State), s.hart.priv = .S ∨ s.hart.priv = .M →
    let c := (sampleClint s).1
    let mip := s.hart.csr.mip ||| (if c.msip then 8 else 0) ||| (if c.mtip then 0x80 else 0)
    let waits := decide (mip &&& s.hart.csr.mie &&& 0xAA#64 = 0)
    Sampled s c (sampleClint s).2 ∧
    RunsTo .wfi s fun t => t.tape = (sampleClint s).2.tape ∧ t.tick = (sampleClint s).2.tick ∧
      OnlyMovedPc (s.hart.pc + 4)
        { s with hart := { s.hart with wfi := s.hart.wfi || waits }, mtime := c.mtime } t

/-- SFENCE.VMA in S or M removes an entry exactly when it is the issuing hart's, x[rs1] is 0 or lies in
its page, and the low 16 bits of x[rs2] are 0 or its address space or it is global; it advances the
pc by 4 and changes nothing else. -/
def Obligations.SfenceFlushes : Prop :=
  ∀ (rs1 rs2 : RegNum) (s : State), s.hart.priv = .S ∨ s.hart.priv = .M →
    let va := readX rs1 s
    let asid : BitVec 16 := (readX rs2 s).setWidth 16
    RunsTo (.sfenceVma rs1 rs2) s fun t =>
      OnlyMovedPc (s.hart.pc + 4) { s with tlb := t.tlb } t ∧
      t.tlb.Sublist s.tlb ∧
      ∀ e, e ∈ t.tlb ↔ e ∈ s.tlb ∧
        ¬(e.hart = s.hart.id ∧ (va = 0 ∨ e.covers (va >>> 12) = true) ∧
          (asid = 0 ∨ e.asid = asid ∨ e.raw.getLsbD 5 = true))

/-- MRET in U or S, and SRET, WFI and SFENCE.VMA in U, take illegal instruction with tval the
instruction word. -/
def Obligations.PrivilegedInstructionsTrap : Prop :=
  ∀ (rs1 rs2 : RegNum) (s : State),
    (s.hart.priv = .U ∨ s.hart.priv = .S → Traps .mret s .illegalInstr 0x30200073 s) ∧
    (s.hart.priv = .U → Traps .sret s .illegalInstr 0x10200073 s ∧
      Traps .wfi s .illegalInstr 0x10500073 s ∧
      Traps (.sfenceVma rs1 rs2) s .illegalInstr
        (BitVec.ofNat 64 (0x12000073 + rs1.toNat * 2 ^ 15 + rs2.toNat * 2 ^ 20)) s)

/-- While mstatus.FS is 0 every instruction of F and D, and every compressed floating-point load and
store, takes illegal instruction with tval its word, before anything else. -/
def Obligations.FpOffTraps : Prop :=
  ∀ (i : Instr) (s : State), i.mnemonic ∈ fpMnemonics → ¬FpOn s →
    Traps i s .illegalInstr ((encode i).setWidth 64) s

/-- With FS on, every instruction with a rounding-mode field takes illegal instruction with tval its
word when the field is 5 or 6, or 7 while frm is 5, 6 or 7. -/
def Obligations.BadRoundingTraps : Prop :=
  ∀ (i : Instr) (s : State), i.mnemonic ∈ roundedMnemonics → FpOn s →
    BadRounding ((i.operand .rm).setWidth 3) s →
    Traps i s .illegalInstr ((encode i).setWidth 64) s

/-- With FS on, an untranslated FLW, FLD, C.FLD or C.FLDSP from RAM gives f[rd] the little-endian value
(FLW NaN-boxed), sets FS to Dirty, advances the pc by its length and changes nothing else; FSW, FSD,
C.FSD and C.FSDSP store the low bytes of f[rs2] whatever the register holds and leave FS alone. The
memory is taken in canonical form. -/
def Obligations.FpLoadStoreResults : Prop :=
  ∀ (r q : RegNum) (cr cq : CRegNum) (imm : BitVec 12) (u8 : BitVec 8) (u9 : BitVec 9) (s : State),
    Memory.wf s.mem → FpOn s →
    let va := readX r s + imm.signExtend 64
    let c8 := readX (BitVec.ofNat 5 (8 + cr.toNat)) s + u8.setWidth 64
    let p9 := readX 2 s + u9.setWidth 64
    let cf := BitVec.ofNat 5 (8 + cq.toNat)
    (PlainAccess va 4 .read s → RunsTo (.flw q r imm) s
      (WroteF q (boxed (BitVec.ofNat 64 (leNat s.mem va.toNat 4))) 0 4 s)) ∧
    (PlainAccess va 8 .read s → RunsTo (.fld q r imm) s
      (WroteF q (BitVec.ofNat 64 (leNat s.mem va.toNat 8)) 0 4 s)) ∧
    (PlainAccess c8 8 .read s → RunsTo (.cFld cq cr u8) s
      (WroteF cf (BitVec.ofNat 64 (leNat s.mem c8.toNat 8)) 0 2 s)) ∧
    (PlainAccess p9 8 .read s → RunsTo (.cFldsp q u9) s
      (WroteF q (BitVec.ofNat 64 (leNat s.mem p9.toNat 8)) 0 2 s)) ∧
    (PlainAccess va 4 .write s → RunsTo (.fsw r q imm) s (Stored va.toNat 4 (readF q s) 4 s)) ∧
    (PlainAccess va 8 .write s → RunsTo (.fsd r q imm) s (Stored va.toNat 8 (readF q s) 4 s)) ∧
    (PlainAccess c8 8 .write s → RunsTo (.cFsd cr cq u8) s (Stored c8.toNat 8 (readF cf s) 2 s)) ∧
    (PlainAccess p9 8 .write s → RunsTo (.cFsdsp q u9) s (Stored p9.toNat 8 (readF q s) 2 s))

/-- With FS on, FSGNJ, FSGNJN and FSGNJX of both formats give f[rd] the magnitude of the first operand
with the sign of the second, its negation, or the exclusive or of both (singles unboxed before and
boxed after), raise no flag, set FS to Dirty, advance the pc by 4 and change nothing else. -/
def Obligations.FpSignInjectionResults : Prop :=
  ∀ (rd rs1 rs2 : RegNum) (s : State), FpOn s →
    let a := singleOf (readF rs1 s)
    let b := singleOf (readF rs2 s)
    let x := readF rs1 s
    let y := readF rs2 s
    RunsTo (.fsgnjS rd rs1 rs2) s
      (WroteF rd (boxed (BitVec.ofNat 64 (a.toNat % 2 ^ 31 + (if b.getLsbD 31 = true then 2 ^ 31 else 0)))) 0 4 s) ∧
    RunsTo (.fsgnjnS rd rs1 rs2) s
      (WroteF rd (boxed (BitVec.ofNat 64 (a.toNat % 2 ^ 31 + (if b.getLsbD 31 = false then 2 ^ 31 else 0)))) 0 4 s) ∧
    RunsTo (.fsgnjxS rd rs1 rs2) s
      (WroteF rd (boxed (BitVec.ofNat 64 (a.toNat % 2 ^ 31 + (if a.getLsbD 31 ≠ b.getLsbD 31 then 2 ^ 31 else 0)))) 0 4 s) ∧
    RunsTo (.fsgnjD rd rs1 rs2) s
      (WroteF rd (BitVec.ofNat 64 (x.toNat % 2 ^ 63 + (if y.getLsbD 63 = true then 2 ^ 63 else 0))) 0 4 s) ∧
    RunsTo (.fsgnjnD rd rs1 rs2) s
      (WroteF rd (BitVec.ofNat 64 (x.toNat % 2 ^ 63 + (if y.getLsbD 63 = false then 2 ^ 63 else 0))) 0 4 s) ∧
    RunsTo (.fsgnjxD rd rs1 rs2) s
      (WroteF rd (BitVec.ofNat 64 (x.toNat % 2 ^ 63 + (if x.getLsbD 63 ≠ y.getLsbD 63 then 2 ^ 63 else 0))) 0 4 s)

/-- With FS on, FMV.X.W gives x[rd] the sign-extended low word whatever the high word holds, FMV.X.D the
whole register, FMV.W.X and FMV.D.X give f[rd] the boxed low word and the whole of x[rs1] and set FS
to Dirty, FCLASS gives x[rd] the one-bit class of its operand; no flag is raised and nothing else
changes but the pc, by 4. -/
def Obligations.FpMoveClassResults : Prop :=
  ∀ (rd rs1 : RegNum) (s : State), FpOn s →
    RunsTo (.fmvXW rd rs1) s
      (WroteX rd (BitVec.ofInt 64 ((readF rs1 s).setWidth 32 : BitVec 32).toInt) (s.hart.pc + 4) s) ∧
    RunsTo (.fmvXD rd rs1) s (WroteX rd (readF rs1 s) (s.hart.pc + 4) s) ∧
    RunsTo (.fmvWX rd rs1) s (WroteF rd (boxed (readX rs1 s)) 0 4 s) ∧
    RunsTo (.fmvDX rd rs1) s (WroteF rd (readX rs1 s) 0 4 s) ∧
    RunsTo (.fclassS rd rs1) s
      (WroteX rd (classOf 8 23 (singleOf (readF rs1 s)).toNat) (s.hart.pc + 4) s) ∧
    RunsTo (.fclassD rd rs1) s (WroteX rd (classOf 11 52 (readF rs1 s).toNat) (s.hart.pc + 4) s)

/-- With FS on and a rounding mode, FMADD, FMSUB, FNMSUB and FNMADD of both formats give f[rd] the
result of FP_ARITH, whichever function that is, of the three operands (singles unboxed before and
boxed after), OR its flags into fflags, set FS to Dirty, advance the pc by 4 and change nothing
else. -/
def Obligations.FpFusedResults : Prop :=
  ∀ (rd rs1 rs2 rs3 : RegNum) (rm : BitVec 3) (mode : RoundingMode) (s : State), FpOn s →
    RoundsBy rm mode s →
    (let r := fpArith .S .fmadd [singleOf (readF rs1 s), singleOf (readF rs2 s), singleOf (readF rs3 s)] (some mode) s;
      RunsTo (.fmaddS rd rs1 rs2 rs3 rm) s (WroteF rd (boxed r.value) r.flags 4 s)) ∧
    (let r := fpArith .S .fmsub [singleOf (readF rs1 s), singleOf (readF rs2 s), singleOf (readF rs3 s)] (some mode) s;
      RunsTo (.fmsubS rd rs1 rs2 rs3 rm) s (WroteF rd (boxed r.value) r.flags 4 s)) ∧
    (let r := fpArith .S .fnmsub [singleOf (readF rs1 s), singleOf (readF rs2 s), singleOf (readF rs3 s)] (some mode) s;
      RunsTo (.fnmsubS rd rs1 rs2 rs3 rm) s (WroteF rd (boxed r.value) r.flags 4 s)) ∧
    (let r := fpArith .S .fnmadd [singleOf (readF rs1 s), singleOf (readF rs2 s), singleOf (readF rs3 s)] (some mode) s;
      RunsTo (.fnmaddS rd rs1 rs2 rs3 rm) s (WroteF rd (boxed r.value) r.flags 4 s)) ∧
    (let r := fpArith .D .fmadd [readF rs1 s, readF rs2 s, readF rs3 s] (some mode) s;
      RunsTo (.fmaddD rd rs1 rs2 rs3 rm) s (WroteF rd (r.value) r.flags 4 s)) ∧
    (let r := fpArith .D .fmsub [readF rs1 s, readF rs2 s, readF rs3 s] (some mode) s;
      RunsTo (.fmsubD rd rs1 rs2 rs3 rm) s (WroteF rd (r.value) r.flags 4 s)) ∧
    (let r := fpArith .D .fnmsub [readF rs1 s, readF rs2 s, readF rs3 s] (some mode) s;
      RunsTo (.fnmsubD rd rs1 rs2 rs3 rm) s (WroteF rd (r.value) r.flags 4 s)) ∧
    (let r := fpArith .D .fnmadd [readF rs1 s, readF rs2 s, readF rs3 s] (some mode) s;
      RunsTo (.fnmaddD rd rs1 rs2 rs3 rm) s (WroteF rd (r.value) r.flags 4 s))

/-- With FS on and a rounding mode, FADD, FSUB, FMUL, FDIV and FSQRT of both formats give f[rd] the
result of FP_ARITH, whichever function that is (singles unboxed before and boxed after), OR its
flags into fflags, set FS to Dirty, advance the pc by 4 and change nothing else. -/
def Obligations.FpArithmeticResults : Prop :=
  ∀ (rd rs1 rs2 : RegNum) (rm : BitVec 3) (mode : RoundingMode) (s : State), FpOn s →
    RoundsBy rm mode s →
    (let r := fpArith .S .fadd [singleOf (readF rs1 s), singleOf (readF rs2 s)] (some mode) s;
      RunsTo (.faddS rd rs1 rs2 rm) s (WroteF rd (boxed r.value) r.flags 4 s)) ∧
    (let r := fpArith .S .fsub [singleOf (readF rs1 s), singleOf (readF rs2 s)] (some mode) s;
      RunsTo (.fsubS rd rs1 rs2 rm) s (WroteF rd (boxed r.value) r.flags 4 s)) ∧
    (let r := fpArith .S .fmul [singleOf (readF rs1 s), singleOf (readF rs2 s)] (some mode) s;
      RunsTo (.fmulS rd rs1 rs2 rm) s (WroteF rd (boxed r.value) r.flags 4 s)) ∧
    (let r := fpArith .S .fdiv [singleOf (readF rs1 s), singleOf (readF rs2 s)] (some mode) s;
      RunsTo (.fdivS rd rs1 rs2 rm) s (WroteF rd (boxed r.value) r.flags 4 s)) ∧
    (let r := fpArith .D .fadd [readF rs1 s, readF rs2 s] (some mode) s;
      RunsTo (.faddD rd rs1 rs2 rm) s (WroteF rd (r.value) r.flags 4 s)) ∧
    (let r := fpArith .D .fsub [readF rs1 s, readF rs2 s] (some mode) s;
      RunsTo (.fsubD rd rs1 rs2 rm) s (WroteF rd (r.value) r.flags 4 s)) ∧
    (let r := fpArith .D .fmul [readF rs1 s, readF rs2 s] (some mode) s;
      RunsTo (.fmulD rd rs1 rs2 rm) s (WroteF rd (r.value) r.flags 4 s)) ∧
    (let r := fpArith .D .fdiv [readF rs1 s, readF rs2 s] (some mode) s;
      RunsTo (.fdivD rd rs1 rs2 rm) s (WroteF rd (r.value) r.flags 4 s)) ∧
    (let r := fpArith .S .fsqrt [singleOf (readF rs1 s)] (some mode) s;
      RunsTo (.fsqrtS rd rs1 rm) s (WroteF rd (boxed r.value) r.flags 4 s)) ∧
    (let r := fpArith .D .fsqrt [readF rs1 s] (some mode) s;
      RunsTo (.fsqrtD rd rs1 rm) s (WroteF rd (r.value) r.flags 4 s))

/-- With FS on and a rounding mode, the conversions from 32- and 64-bit signed and unsigned integers and
between the formats give f[rd] the result of FP_ARITH, whichever function that is (singles unboxed
before and boxed after), OR its flags into fflags, set FS to Dirty, advance the pc by 4 and change
nothing else. A 32-bit integer is handed over extended to 64 bits (log 18). -/
def Obligations.FpConversionResults : Prop :=
  ∀ (rd rs1 : RegNum) (rm : BitVec 3) (mode : RoundingMode) (s : State), FpOn s →
    RoundsBy rm mode s →
    (let r := fpArith .S .fcvtFW [BitVec.ofInt 64 ((readX rs1 s).setWidth 32 : BitVec 32).toInt] (some mode) s;
      RunsTo (.fcvtSW rd rs1 rm) s (WroteF rd (boxed r.value) r.flags 4 s)) ∧
    (let r := fpArith .S .fcvtFWu [BitVec.ofNat 64 ((readX rs1 s).toNat % 2 ^ 32)] (some mode) s;
      RunsTo (.fcvtSWu rd rs1 rm) s (WroteF rd (boxed r.value) r.flags 4 s)) ∧
    (let r := fpArith .S .fcvtFL [readX rs1 s] (some mode) s;
      RunsTo (.fcvtSL rd rs1 rm) s (WroteF rd (boxed r.value) r.flags 4 s)) ∧
    (let r := fpArith .S .fcvtFLu [readX rs1 s] (some mode) s;
      RunsTo (.fcvtSLu rd rs1 rm) s (WroteF rd (boxed r.value) r.flags 4 s)) ∧
    (let r := fpArith .D .fcvtFW [BitVec.ofInt 64 ((readX rs1 s).setWidth 32 : BitVec 32).toInt] (some mode) s;
      RunsTo (.fcvtDW rd rs1 rm) s (WroteF rd (r.value) r.flags 4 s)) ∧
    (let r := fpArith .D .fcvtFWu [BitVec.ofNat 64 ((readX rs1 s).toNat % 2 ^ 32)] (some mode) s;
      RunsTo (.fcvtDWu rd rs1 rm) s (WroteF rd (r.value) r.flags 4 s)) ∧
    (let r := fpArith .D .fcvtFL [readX rs1 s] (some mode) s;
      RunsTo (.fcvtDL rd rs1 rm) s (WroteF rd (r.value) r.flags 4 s)) ∧
    (let r := fpArith .D .fcvtFLu [readX rs1 s] (some mode) s;
      RunsTo (.fcvtDLu rd rs1 rm) s (WroteF rd (r.value) r.flags 4 s)) ∧
    (let r := fpArith .S .fcvtFF [readF rs1 s] (some mode) s;
      RunsTo (.fcvtSD rd rs1 rm) s (WroteF rd (boxed r.value) r.flags 4 s)) ∧
    (let r := fpArith .D .fcvtFF [singleOf (readF rs1 s)] (some mode) s;
      RunsTo (.fcvtDS rd rs1 rm) s (WroteF rd (r.value) r.flags 4 s))

/-- With FS on and a rounding mode, the conversions to 32-bit integers give x[rd] the sign-extended
32-bit result of FP_ARITH and those to 64-bit integers the whole result, OR its flags into fflags,
set FS to Dirty only when a flag is raised, advance the pc by 4 and change nothing else. -/
def Obligations.FpToIntegerResults : Prop :=
  ∀ (rd rs1 : RegNum) (rm : BitVec 3) (mode : RoundingMode) (s : State), FpOn s →
    RoundsBy rm mode s →
    (let r := fpArith .S .fcvtWF [singleOf (readF rs1 s)] (some mode) s;
      RunsTo (.fcvtWS rd rs1 rm) s (WroteXFlags rd (BitVec.ofInt 64 (r.value.setWidth 32 : BitVec 32).toInt) r.flags s)) ∧
    (let r := fpArith .S .fcvtWuF [singleOf (readF rs1 s)] (some mode) s;
      RunsTo (.fcvtWuS rd rs1 rm) s (WroteXFlags rd (BitVec.ofInt 64 (r.value.setWidth 32 : BitVec 32).toInt) r.flags s)) ∧
    (let r := fpArith .S .fcvtLF [singleOf (readF rs1 s)] (some mode) s;
      RunsTo (.fcvtLS rd rs1 rm) s (WroteXFlags rd (r.value) r.flags s)) ∧
    (let r := fpArith .S .fcvtLuF [singleOf (readF rs1 s)] (some mode) s;
      RunsTo (.fcvtLuS rd rs1 rm) s (WroteXFlags rd (r.value) r.flags s)) ∧
    (let r := fpArith .D .fcvtWF [readF rs1 s] (some mode) s;
      RunsTo (.fcvtWD rd rs1 rm) s (WroteXFlags rd (BitVec.ofInt 64 (r.value.setWidth 32 : BitVec 32).toInt) r.flags s)) ∧
    (let r := fpArith .D .fcvtWuF [readF rs1 s] (some mode) s;
      RunsTo (.fcvtWuD rd rs1 rm) s (WroteXFlags rd (BitVec.ofInt 64 (r.value.setWidth 32 : BitVec 32).toInt) r.flags s)) ∧
    (let r := fpArith .D .fcvtLF [readF rs1 s] (some mode) s;
      RunsTo (.fcvtLD rd rs1 rm) s (WroteXFlags rd (r.value) r.flags s)) ∧
    (let r := fpArith .D .fcvtLuF [readF rs1 s] (some mode) s;
      RunsTo (.fcvtLuD rd rs1 rm) s (WroteXFlags rd (r.value) r.flags s))

/-- With FS on, FMIN and FMAX give f[rd] the result of FP_ARITH and set FS to Dirty, FEQ, FLT and FLE
give x[rd] its one-bit result and set FS to Dirty only when a flag is raised; all OR its flags into
fflags, advance the pc by 4 and change nothing else. That the one-bit result is bit 0 of what
FP_ARITH answers is the model's reading of R381 (log 18). -/
def Obligations.FpCompareMinMaxResults : Prop :=
  ∀ (rd rs1 rs2 : RegNum) (s : State), FpOn s →
    (let r := fpArith .S .fmin [singleOf (readF rs1 s), singleOf (readF rs2 s)] none s;
      RunsTo (.fminS rd rs1 rs2) s (WroteF rd (boxed r.value) r.flags 4 s)) ∧
    (let r := fpArith .S .fmax [singleOf (readF rs1 s), singleOf (readF rs2 s)] none s;
      RunsTo (.fmaxS rd rs1 rs2) s (WroteF rd (boxed r.value) r.flags 4 s)) ∧
    (let r := fpArith .D .fmin [readF rs1 s, readF rs2 s] none s;
      RunsTo (.fminD rd rs1 rs2) s (WroteF rd (r.value) r.flags 4 s)) ∧
    (let r := fpArith .D .fmax [readF rs1 s, readF rs2 s] none s;
      RunsTo (.fmaxD rd rs1 rs2) s (WroteF rd (r.value) r.flags 4 s)) ∧
    (let r := fpArith .S .feq [singleOf (readF rs1 s), singleOf (readF rs2 s)] none s;
      RunsTo (.feqS rd rs1 rs2) s (WroteXFlags rd (BitVec.ofNat 64 (r.value.toNat % 2)) r.flags s)) ∧
    (let r := fpArith .S .flt [singleOf (readF rs1 s), singleOf (readF rs2 s)] none s;
      RunsTo (.fltS rd rs1 rs2) s (WroteXFlags rd (BitVec.ofNat 64 (r.value.toNat % 2)) r.flags s)) ∧
    (let r := fpArith .S .fle [singleOf (readF rs1 s), singleOf (readF rs2 s)] none s;
      RunsTo (.fleS rd rs1 rs2) s (WroteXFlags rd (BitVec.ofNat 64 (r.value.toNat % 2)) r.flags s)) ∧
    (let r := fpArith .D .feq [readF rs1 s, readF rs2 s] none s;
      RunsTo (.feqD rd rs1 rs2) s (WroteXFlags rd (BitVec.ofNat 64 (r.value.toNat % 2)) r.flags s)) ∧
    (let r := fpArith .D .flt [readF rs1 s, readF rs2 s] none s;
      RunsTo (.fltD rd rs1 rs2) s (WroteXFlags rd (BitVec.ofNat 64 (r.value.toNat % 2)) r.flags s)) ∧
    (let r := fpArith .D .fle [readF rs1 s, readF rs2 s] none s;
      RunsTo (.fleD rd rs1 rs2) s (WroteXFlags rd (BitVec.ofNat 64 (r.value.toNat % 2)) r.flags s))

/-- C.ADDI4SPN, C.NOP, C.ADDI, C.ADDIW, C.LI, C.ADDI16SP, C.LUI, C.SRLI, C.SRAI, C.ANDI and C.SLLI give
their destination, x(8 + rd') for a three-bit field, the value of the base instruction, advance the
pc by 2 and change nothing else. -/
def Obligations.CompressedImmediateResults : Prop :=
  ∀ (rd : RegNum) (rc : CRegNum) (i6 sh : BitVec 6) (u10 s10 : BitVec 10) (i18 : BitVec 18) (s : State),
    let q := BitVec.ofNat 5 (8 + rc.toNat)
    RunsTo (.cAddi4spn rc u10) s (WroteX q (BitVec.ofNat 64 ((readX 2 s).toNat + u10.toNat)) (s.hart.pc + 2) s) ∧
    RunsTo (.cNop i6) s (OnlyMovedPc (s.hart.pc + 2) s) ∧
    RunsTo (.cAddi rd i6) s (WroteX rd (BitVec.ofInt 64 ((readX rd s).toInt + i6.toInt)) (s.hart.pc + 2) s) ∧
    RunsTo (.cAddiw rd i6) s (WroteX rd (BitVec.ofInt 64 (BitVec.ofInt 32 ((readX rd s).toInt + i6.toInt)).toInt) (s.hart.pc + 2) s) ∧
    RunsTo (.cLi rd i6) s (WroteX rd (BitVec.ofInt 64 i6.toInt) (s.hart.pc + 2) s) ∧
    RunsTo (.cAddi16sp s10) s (WroteX 2 (BitVec.ofInt 64 ((readX 2 s).toInt + s10.toInt)) (s.hart.pc + 2) s) ∧
    RunsTo (.cLui rd i18) s (WroteX rd (BitVec.ofInt 64 i18.toInt) (s.hart.pc + 2) s) ∧
    RunsTo (.cSrli rc sh) s (WroteX q (BitVec.ofNat 64 ((readX q s).toNat / 2 ^ sh.toNat)) (s.hart.pc + 2) s) ∧
    RunsTo (.cSrai rc sh) s (WroteX q (BitVec.ofInt 64 ((readX q s).toInt / 2 ^ sh.toNat)) (s.hart.pc + 2) s) ∧
    RunsTo (.cAndi rc i6) s (WroteX q (readX q s &&& BitVec.ofInt 64 i6.toInt) (s.hart.pc + 2) s) ∧
    RunsTo (.cSlli rd sh) s (WroteX rd (BitVec.ofNat 64 ((readX rd s).toNat * 2 ^ sh.toNat)) (s.hart.pc + 2) s)

/-- C.SUB, C.XOR, C.OR, C.AND, C.SUBW, C.ADDW, C.MV and C.ADD give their destination the value of the
base instruction, advance the pc by 2 and change nothing else. -/
def Obligations.CompressedRegisterResults : Prop :=
  ∀ (rd rs2 : RegNum) (rc r2 : CRegNum) (s : State),
    let q := BitVec.ofNat 5 (8 + rc.toNat)
    let a := readX q s
    let b := readX (BitVec.ofNat 5 (8 + r2.toNat)) s
    RunsTo (.cSub rc r2) s (WroteX q (BitVec.ofInt 64 (a.toInt - b.toInt)) (s.hart.pc + 2) s) ∧
    RunsTo (.cXor rc r2) s (WroteX q (a ^^^ b) (s.hart.pc + 2) s) ∧
    RunsTo (.cOr rc r2) s (WroteX q (a ||| b) (s.hart.pc + 2) s) ∧
    RunsTo (.cAnd rc r2) s (WroteX q (a &&& b) (s.hart.pc + 2) s) ∧
    RunsTo (.cSubw rc r2) s (WroteX q (BitVec.ofInt 64 (BitVec.ofInt 32 (a.toInt - b.toInt)).toInt) (s.hart.pc + 2) s) ∧
    RunsTo (.cAddw rc r2) s (WroteX q (BitVec.ofInt 64 (BitVec.ofInt 32 (a.toInt + b.toInt)).toInt) (s.hart.pc + 2) s) ∧
    RunsTo (.cMv rd rs2) s (WroteX rd (readX rs2 s) (s.hart.pc + 2) s) ∧
    RunsTo (.cAdd rd rs2) s (WroteX rd (BitVec.ofInt 64 ((readX rd s).toInt + (readX rs2 s).toInt)) (s.hart.pc + 2) s)

/-- C.J, C.BEQZ and C.BNEZ move the pc by the sign-extended offset, the branches only when x(8 + rs1')
is zero or not zero and else by 2; C.JR and C.JALR go to x[rs1] with bit 0 cleared, read before the
link, and C.JALR writes pc + 2 to x1; nothing else changes. -/
def Obligations.CompressedJumpResults : Prop :=
  ∀ (r : RegNum) (rc : CRegNum) (o12 : BitVec 12) (o9 : BitVec 9) (s : State),
    let v := readX (BitVec.ofNat 5 (8 + rc.toNat)) s
    let even := BitVec.ofNat 64 ((readX r s).toNat / 2 * 2)
    let near := BitVec.ofInt 64 (s.hart.pc.toInt + o9.toInt)
    RunsTo (.cJ o12) s (OnlyMovedPc (BitVec.ofInt 64 (s.hart.pc.toInt + o12.toInt)) s) ∧
    RunsTo (.cBeqz rc o9) s (OnlyMovedPc (if v.toNat = 0 then near else s.hart.pc + 2) s) ∧
    RunsTo (.cBnez rc o9) s (OnlyMovedPc (if v.toNat = 0 then s.hart.pc + 2 else near) s) ∧
    RunsTo (.cJr r) s (OnlyMovedPc even s) ∧
    RunsTo (.cJalr r) s (WroteX 1 (s.hart.pc + 2) even s)

/-- An untranslated C.LW, C.LD, C.LWSP or C.LDSP from RAM gives its destination the little-endian value,
words sign-extended, and C.SW, C.SD, C.SWSP and C.SDSP store the low bytes of their source, at x(8 +
rs1') or x2 plus the scaled unsigned offset; the pc is 2 further and nothing else changes but
reservations a store overlaps. The memory is taken in canonical form. -/
def Obligations.CompressedLoadStoreResults : Prop :=
  ∀ (r : RegNum) (cr cq : CRegNum) (u7 : BitVec 7) (u8 : BitVec 8) (u9 : BitVec 9) (s : State),
    Memory.wf s.mem →
    let c7 := readX (BitVec.ofNat 5 (8 + cr.toNat)) s + u7.setWidth 64
    let c8 := readX (BitVec.ofNat 5 (8 + cr.toNat)) s + u8.setWidth 64
    let p8 := readX 2 s + u8.setWidth 64
    let p9 := readX 2 s + u9.setWidth 64
    let q := BitVec.ofNat 5 (8 + cq.toNat)
    let word := fun (a : Word) => BitVec.ofInt 64 (BitVec.ofNat 32 (leNat s.mem a.toNat 4)).toInt
    let double := fun (a : Word) => BitVec.ofNat 64 (leNat s.mem a.toNat 8)
    (PlainAccess c7 4 .read s → RunsTo (.cLw cq cr u7) s (WroteX q (word c7) (s.hart.pc + 2) s)) ∧
    (PlainAccess c8 8 .read s → RunsTo (.cLd cq cr u8) s (WroteX q (double c8) (s.hart.pc + 2) s)) ∧
    (PlainAccess p8 4 .read s → RunsTo (.cLwsp r u8) s (WroteX r (word p8) (s.hart.pc + 2) s)) ∧
    (PlainAccess p9 8 .read s → RunsTo (.cLdsp r u9) s (WroteX r (double p9) (s.hart.pc + 2) s)) ∧
    (PlainAccess c7 4 .write s → RunsTo (.cSw cr cq u7) s (Stored c7.toNat 4 (readX q s) 2 s)) ∧
    (PlainAccess c8 8 .write s → RunsTo (.cSd cr cq u8) s (Stored c8.toNat 8 (readX q s) 2 s)) ∧
    (PlainAccess p8 4 .write s → RunsTo (.cSwsp r u8) s (Stored p8.toNat 4 (readX r s) 2 s)) ∧
    (PlainAccess p9 8 .write s → RunsTo (.cSdsp r u9) s (Stored p9.toNat 8 (readX r s) 2 s))

/-- A step begins by choosing the hart that takes it (the state schedule s, which is s itself on a
machine of one hart). Where that hart is running, its pc is even and its fetch, the parcel at the pc
and, where that ends in binary 11, the one 2 further, each translated on its own and read from RAM
or from a device (log 29), gives a word that decodes to i, step executes i in the state the fetch
left and, where that answers a next state, runs the end of the step from there (counters, interrupt
check). Where the fetch is untranslated and the parcels lie in RAM, it has no effect and its word is
the bytes at the pc. -/
def Obligations.StepRunsDecodedInstruction : Prop :=
  ∀ (s : State) (i : Instr),
    let u := schedule s
    (s.others = [] → u = s) ∧ (∀ t, thenEndStep (.next t) = .next (endStep t)) ∧
    (∀ f, thenEndStep (.fault f) = .fault f) ∧ (∀ q, thenEndStep (.refused q) = .refused q) ∧
    (u.hart.halted = none → u.hart.wfi = false → u.hart.pc.toNat % 2 = 0 →
      (∀ len w v, Fetches u len w v → fetch u = .ok (len, w) v ∧
        (decodeWord u.plat.rvcDisabled len w = .ok i → step s = thenEndStep (exec i v))) ∧
      (Untranslated .fetch u → InRam u u.hart.pc.toNat 2 →
        (i.length = 32 → InRam u (u.hart.pc.toNat + 2) 2) →
        ∀ rest, decodeBytes u.plat.rvcDisabled
          ((List.range 4).map fun k => Memory.readByte u.mem (u.hart.pc.toNat + k)) = .ok (i, rest) →
        rest.length = 4 - i.length / 8 → step s = thenEndStep (exec i u)))

/-- For the hart that takes the step (the state schedule s): a word that matches no row takes illegal
instruction with tval the word; a fetch of which either parcel raises in translation (instruction
page fault, or access fault of the walk) or lies outside every region (instruction access fault)
takes that exception, with the parcel's address as tval and what its translations did kept, and a
fetch does the one or the other; a waiting hart does only the end of the step; a halted hart, which
the choice gives only where every hart has halted, gives the fault hartHalted; an odd pc is refused.
The fault and the refusal are the model's stops (logs 11 and 20). That a parcel of a device region
is fetched by a device read is the model's reading (log 29), and that at a raise the device reads of
the first parcel and of the walks stay, with their bus events and draws, is the model's choice (log
35). -/
def Obligations.StepWithoutInstruction : Prop :=
  ∀ (s : State),
    let u := schedule s
    (u.hart.halted = none → u.hart.wfi = false → u.hart.pc.toNat % 2 = 0 →
      (∀ len w v, Fetches u len w v → decodeWord u.plat.rvcDisabled len w = .error .noMatch →
        step s = .next (endStep (takeException ⟨.illegalInstr, BitVec.ofNat 64 w.toNat⟩ v))) ∧
      (∀ tr v, FetchFails u tr v → step s = .next (endStep (takeException tr v)))) ∧
    ((∃ len w v, Fetches u len w v) ∨ ∃ tr v, FetchFails u tr v) ∧
    (u.hart.halted = none → u.hart.wfi = true → step s = .next (endStep u)) ∧
    (u.hart.halted ≠ none → step s = .fault .hartHalted) ∧
    (u.hart.halted = none → u.hart.wfi = false → u.hart.pc.toNat % 2 = 1 → step s = .refused .oddPc)

/-- The words of worked examples of every format decode to their instructions with the operands the
examples give, and 0x0000, 0x6101, 0x8002 and 0xFFFFFFFF to none. -/
def Obligations.KnownWordsDecode : Prop :=
  decodeWord [] 32 0x123452B7 = .ok (.lui 5 0x12345000) ∧
  decodeWord [] 32 0xFFF08113 = .ok (.addi 2 1 (-1)) ∧
  decodeWord [] 32 0x402081B3 = .ok (.sub 3 1 2) ∧
  decodeWord [] 32 0x010000EF = .ok (.jal 1 16) ∧
  decodeWord [] 32 0xFE20BC23 = .ok (.sd 1 2 (-8)) ∧
  decodeWord [] 32 0x1820A1AF = .ok (.scW 3 1 2 0 0) ∧
  decodeWord [] 32 0x340312F3 = .ok (.csrrw 5 6 0x340) ∧
  decodeWord [] 32 0x2020F1C3 = .ok (.fmaddS 3 1 2 4 7) ∧
  decodeWord [] 32 0x30200073 = .ok .mret ∧
  decodeWord [] 16 0x7139 = .ok (.cAddi16sp (-64)) ∧
  decodeWord [] 16 0x2404 = .ok (.cFld 1 0 8) ∧
  decodeWord [] 16 0x829A = .ok (.cMv 5 6) ∧
  decodeWord [] 16 0x0000 = .error .noMatch ∧
  decodeWord [] 16 0x6101 = .error .noMatch ∧
  decodeWord [] 16 0x8002 = .error .noMatch ∧
  decodeWord [] 32 0xFFFFFFFF = .error .noMatch

/-- For every well-formed instruction whose row RVC_DISABLED does not hold, decoding its word at its
length answers the instruction, with every operand; its bytes followed by any others decode to it
and leave the others. Where RVC_DISABLED holds its row, its word matches no row. Its length is what
its first parcel says. -/
def Obligations.DecodeOfEncode : Prop :=
  ∀ (disabled : List Mnemonic) (i : Instr), WellFormed i →
    parcelLength ((encode i).setWidth 16) = i.length ∧
    (i.mnemonic ∉ disabled → decodeWord disabled i.length (encode i) = .ok i ∧
      ∀ rest, decodeBytes disabled (encodeBytes i ++ rest) = .ok (i, rest)) ∧
    (i.mnemonic ∈ disabled → decodeWord disabled i.length (encode i) = .error .noMatch ∧
      ∀ rest, decodeBytes disabled (encodeBytes i ++ rest) = .error (.word .noMatch))

/-- Whatever rows RVC_DISABLED switches off, a word of 32 bits, or of 16, that decodes gives a well-
formed instruction of that length whose word is that word, so no bit of a word is dropped and no two
words mean one instruction; and no word is ambiguous. -/
def Obligations.EncodeOfDecode : Prop :=
  ∀ (disabled : List Mnemonic) (len : Nat) (w : InstrWord), len = 32 ∨ (len = 16 ∧ w.toNat < 2 ^ 16) →
    decodeWord disabled len w ≠ .error .ambiguous ∧
    ∀ i, decodeWord disabled len w = .ok i → WellFormed i ∧ i.length = len ∧ encode i = w

/-- From every state in which memory is canonical, every hart has x0 = 0, an even pc, a privilege other
than H and legal CSRs, reservations are of words or doublewords, TLB keys are distinct and the step
note is clear, a step that answers a next state gives such a state. That the pc, the privilege,
mstatus and the target's epc are so after an unresolved trap, which R531 leaves unspecified, is the
model's choice (log 11), and that the note, its own field, is clear between steps (log 14). -/
def Obligations.StepKeepsInvariant : Prop :=
  ∀ (s t : State), Inv s → step s = .next t → Inv t

/-- State.reset meets the invariant, and so does the machine brought up with any platform, even entry
addresses and loaded bytes. -/
def Obligations.InvariantAtReset : Prop :=
  Inv State.reset ∧
  ∀ (plat : Platform) (first : Word) (rest : List Word) (cells : List Host.Cell),
    first.toNat % 2 = 0 → (∀ e ∈ rest, e.toNat % 2 = 0) → Inv (powerOn plat first rest cells)

/-- A hart right after reset(entry) has pc = entry, privilege M, every general and floating-point
register 0, no wait, semihosting or halted flag, no reservation and every stored CSR 0; mstatus
reads 0xA00000000, sstatus 0x200000000, misa its constant, mhartid the id. Resetting a hart, whether
it stepped last or stands among the others, puts that hart in its reset state, empties its TLB
partition and changes nothing else: not memory, the other harts or their TLB entries; an odd entry
address is refused. State.reset's entry address, platform and number of harts are the model's
choices (logs 1 to 5). -/
def Obligations.ResetState : Prop :=
  (∀ (id : Nat) (entry : Word) (s : State), let h := Hart.reset id entry
    h.pc = entry ∧ h.priv = .M ∧ (∀ r : Fin 32, h.x[r] = 0 ∧ h.f[r] = 0) ∧ h.wfi = false ∧
    h.semihost = false ∧ h.halted = none ∧ h.res = none ∧ h.id = id ∧ (∀ c, h.csr.get c = 0) ∧
    (s.hart = h → csrRead 0x300 .M s = .ok (0xA00000000#64, s) ∧
      csrRead 0x100 .M s = .ok (0x200000000#64, s) ∧ csrRead 0x301 .M s = .ok (0x800000000014112D#64, s) ∧
      csrRead 0xF14 .M s = .ok (BitVec.ofNat 64 id, s)) ∧
    let kept := s.tlb.filter fun e => e.hart != id
    (entry.toNat % 2 = 0 → s.hart.id = id →
      hostReset id entry s = some { s with hart := h, tlb := kept }) ∧
    (entry.toNat % 2 = 0 → s.hart.id ≠ id → ∀ k g, s.others[k]? = some g → g.id = id →
      (∀ j g', j < k → s.others[j]? = some g' → g'.id ≠ id) →
      hostReset id entry s = some { s with others := s.others.set k h, tlb := kept }) ∧
    (entry.toNat % 2 = 1 → hostReset id entry s = none)) ∧
  State.reset.hart = Hart.reset 0 Config.entryPc ∧ State.reset.mem = [] ∧ State.reset.tlb = []

/-- Where the target's vector base is not 0, a trap with its delegation bit set and the privilege at or
below S enters S and any other enters M: epc, cause and tval are saved, xIE moves to xPIE and is
cleared, xPP holds the privilege, the pc is the base or, for an interrupt in vectored mode, base + 4
* code, wfi and the reservation are cleared, and nothing else changes. An exception's epc is the
address of the instruction. -/
def Obligations.TrapEntryState : Prop :=
  ∀ (interrupt : Bool) (code : Nat) (tval epc : Word) (s : State), code < 64 →
    (DelegatedToS interrupt code s → baseOf s.hart.csr.stvec ≠ 0 →
      EnteredS interrupt code tval epc s (trapEntry interrupt code tval epc s)) ∧
    (¬DelegatedToS interrupt code s → baseOf s.hart.csr.mtvec ≠ 0 →
      EnteredM interrupt code tval epc s (trapEntry interrupt code tval epc s)) ∧
    ∀ cause, takeException ⟨cause, tval⟩ s =
      { trapEntry false (causeCode cause) tval s.hart.pc s with
        note := { s.note with trapped := true } }

/-- Where the base of the target's vector register is 0, whatever its mode bit, the hart halts and
reports interrupt, code, tval and epc; the registers, the wait flag, the reservation, memory, all
the harts share and every CSR but mstatus and the target's epc, cause and tval, which the rule
leaves unspecified with the pc and the privilege, are as before; and where every other hart has
halted too a step is a fault. That the fault stops the run is the model's reading (log 11). -/
def Obligations.UnresolvedTrapHalts : Prop :=
  ∀ (interrupt : Bool) (code : Nat) (tval epc : Word) (s : State),
    (DelegatedToS interrupt code s ∧ baseOf s.hart.csr.stvec = 0) ∨
      (¬DelegatedToS interrupt code s ∧ baseOf s.hart.csr.mtvec = 0) →
    let t := trapEntry interrupt code tval epc s
    t.hart.halted = some ⟨interrupt, BitVec.ofNat 64 code, tval, epc⟩ ∧
    t.hart.x = s.hart.x ∧ t.hart.f = s.hart.f ∧ t.hart.id = s.hart.id ∧
    t.hart.semihost = s.hart.semihost ∧ t.hart.wfi = s.hart.wfi ∧ t.hart.res = s.hart.res ∧
    KeepsShared s t ∧ t.note = s.note ∧
    (DelegatedToS interrupt code s → ∀ r, r ∉ [CsrReg.mstatus, .sepc, .scause, .stval] →
      t.hart.csr.get r = s.hart.csr.get r) ∧
    (¬DelegatedToS interrupt code s → ∀ r, r ∉ [CsrReg.mstatus, .mepc, .mcause, .mtval] →
      t.hart.csr.get r = s.hart.csr.get r) ∧
    ((∀ h ∈ s.others, h.halted ≠ none) → step t = .fault .hartHalted)

/-- With the inputs sampled at the check, an interrupt pending and enabled in mie and not delegated is
taken when the privilege is below M or MIE is set, the first of MSI, MTI, SSI, STI; else a delegated
one when the privilege is U, or S with SIE set, the first of SSI, STI; with epc the pc and tval 0;
else none is. Before that a waiting hart wakes when any is pending and enabled in mie, and else as
the draw SPURIOUS_WAKE says. A sample takes the inputs given, MTIME being no less than at the last
one (log 7). Beside the trap only the sample, the draw and the wait flag change. The stored bits of
mip are taken inside their mask, SSIP, STIP and SEIP. -/
def Obligations.InterruptPriority : Prop :=
  ∀ (s : State), s.hart.priv ≠ .H → s.hart.csr.mip &&& ~~~0x222#64 = 0 →
    let c := (sampleClint s).1
    let csr := s.hart.csr
    let pend := fun (k : Nat) => csr.mie.getLsbD k &&
      (if k = 3 then c.msip else if k = 7 then c.mtip else csr.mip.getLsbD k)
    let deleg := fun (k : Nat) => csr.mideleg.getLsbD k
    let enM := s.hart.priv ≠ .M ∨ csr.mstatus.getLsbD 3 = true
    let enS := s.hart.priv = .U ∨ (s.hart.priv = .S ∧ csr.mstatus.getLsbD 1 = true)
    let forM := [3, 7, 1, 5].filter fun k => pend k && !deleg k
    let forS := [1, 5].filter fun k => pend k && deleg k
    Sampled s c (sampleClint s).2 ∧
    ∃ u b, u = { s with hart := { s.hart with wfi := b }, mtime := u.mtime, tape := u.tape, tick := u.tick } ∧
      u.mtime = c.mtime ∧ (b = true → s.hart.wfi = true) ∧ (([3, 7, 1, 5].any pend) = true → b = false) ∧
      (∀ w l, s.tape.wake = w :: l → s.hart.wfi = true → ([3, 7, 1, 5].any pend) = false → b = !w) ∧
      (∀ k l, forM = k :: l → enM → interruptCheck s = trapEntry true k 0 s.hart.pc u) ∧
      (∀ k l, forS = k :: l → enS → (forM = [] ∨ ¬enM) →
        interruptCheck s = trapEntry true k 0 s.hart.pc u) ∧
      ((forM = [] ∨ ¬enM) → (forS = [] ∨ ¬enS) → interruptCheck s = u)

/-- The end of a step adds the draw CYCLE to the stepping hart's mcycle unless the step's instruction
wrote mcycle, and 1 to its minstret exactly when the instruction retired and did not write minstret,
and changes nothing else beside the draw; then, unless the step trapped or the hart has halted, it
does the interrupt check in that state; and the note of the step, the model's own field (log 14), is
cleared. Neither the interrupt check nor a trap it takes changes them, and the other harts are as
they were. That this holds of the step in which the hart halts too is the model's reading of R520
beside R81 (log 24). -/
def Obligations.CountersAdvance : Prop :=
  ∀ (s : State),
    let t := endStep s
    let mcycle := if s.note.wroteMcycle then s.hart.csr.mcycle else s.hart.csr.mcycle + (drawCycle s).1
    let minstret := if s.note.retired = true ∧ s.note.wroteMinstret = false then s.hart.csr.minstret + 1
      else s.hart.csr.minstret
    (∃ u, u = { s with
        hart := { s.hart with csr := { s.hart.csr with mcycle := mcycle, minstret := minstret } }
        tape := u.tape
        tick := u.tick } ∧
      (s.note.wroteMcycle = true → u.tape = s.tape ∧ u.tick = s.tick) ∧
      (s.note.wroteMcycle = false → ∀ v l, s.tape.cycle = v :: l →
        u.tape = { s.tape with cycle := l } ∧ u.tick = s.tick) ∧
      t = { (if s.note.trapped = true ∨ s.hart.halted ≠ none then u else interruptCheck u) with
        note := {} }) ∧
    t.hart.csr.mcycle = mcycle ∧ t.hart.csr.minstret = minstret ∧
    t.others = s.others ∧ t.note = {} ∧
    (∀ v l, s.tape.cycle = v :: l → (drawCycle s).1 = v)

/-- An instruction that changes the privilege is MRET, SRET or one that took an exception; one that
changes the wait flag is WFI or one that took an exception; one that changes the semihosting flag is
one of the two backdoor words; one that changes the halted flag took an exception. -/
def Obligations.ModeChangesOnlyByTheirInstructions : Prop :=
  ∀ (i : Instr) (s t : State), exec i s = .next t →
    let trapped := ∃ tr u, t = takeException tr u ∧ u.hart.priv = s.hart.priv ∧ u.hart.wfi = s.hart.wfi ∧
      u.hart.halted = s.hart.halted ∧ u.hart.semihost = s.hart.semihost
    (t.hart.priv ≠ s.hart.priv → i = .mret ∨ i = .sret ∨ trapped) ∧
    (t.hart.wfi ≠ s.hart.wfi → i = .wfi ∨ trapped) ∧
    (t.hart.halted ≠ s.hart.halted → trapped) ∧
    (t.hart.semihost ≠ s.hart.semihost → i = .slli 0 0 31 ∨ i = .srai 0 0 7)

/-- A step is taken by one hart (that of the state schedule s, whose harts are those of s in another
order at most): every other hart keeps its place and all its state, at most without its reservation;
the TLB entries of other harts are the same and in the same order; the platform parameters are the
same. -/
def Obligations.OtherHartsIsolated : Prop :=
  ∀ (s t : State), step s = .next t →
    let u := schedule s
    (u.hart :: u.others).Perm (s.hart :: s.others) ∧ t.hart.id = u.hart.id ∧ t.plat = s.plat ∧
    List.Forall₂ (fun h k => k = { h with res := k.res } ∧ (k.res = h.res ∨ k.res = none))
      u.others t.others ∧
    t.tlb.filter (fun e => e.hart != u.hart.id) = s.tlb.filter (fun e => e.hart != u.hart.id)

/-- A walk reads the PTE from RAM, or from a device as a draw the device sees (log 29); it raises the
page fault on an invalid or reserved PTE, on a leaf whose permissions deny the access and on a
misaligned superpage, descends through a pointer, and at a permitted leaf answers the physical
address, sets A, and D for a write, in the PTE, in RAM or by a write the device sees, only where
needed, says whether it wrote the PTE back, and installs an entry for the page, replacing one of the
same key; with the PTE outside every region it raises the access fault, and with no level left the
page fault. A walk that raises on the PTE it read answers the state after that read, so a device's
read event and draw stay: that is the model's choice (log 35). -/
def Obligations.WalkLevel : Prop :=
  ∀ (va : Word) (acc : Access) (p : Priv) (level : Nat) (table : Word) (s : State), level ≤ 4 →
    Memory.wf s.mem →
    let addr := table + BitVec.ofNat 64 (va.toNat / 2 ^ (12 + 9 * level) % 512 * 8)
    let walked := walk va acc p (level + 1) table s
    let size := 4096 * 2 ^ (9 * level)
    walk va acc p 0 table s = .raise ⟨pageCause acc, va⟩ s ∧
    (Unmapped s addr.toNat 8 → walked = .raise ⟨accessCause acc, va⟩ s) ∧
    ∀ v s1, PhysReads addr 8 s v s1 →
      let pte : Word := BitVec.ofNat 64 v
      let valid := pteBit pte 0 = true ∧ ¬(pteBit pte 2 = true ∧ pteBit pte 1 = false)
      let leaf := pteBit pte 1 = true ∨ pteBit pte 3 = true
      let fault : Attempt Translated := .raise ⟨pageCause acc, va⟩ s1
      let touched := pte ||| 0x40#64 ||| (if acc = .write then 0x80#64 else 0)
      (¬valid → walked = fault) ∧
      (valid → ¬leaf → walked = walk va acc p level (BitVec.ofNat 64 (ptePage pte * 4096)) s1) ∧
      (valid → leaf → Denied pte acc p s.hart.csr.mstatus → walked = fault) ∧
      (valid → leaf → ptePage pte % 2 ^ (9 * level) ≠ 0 → walked = fault) ∧
      (valid → leaf → ¬Denied pte acc p s.hart.csr.mstatus → ptePage pte % 2 ^ (9 * level) = 0 →
        let e : TlbEntry :=
          { pteAddr := addr, vpn := va >>> 12, asid := s.hart.csr.satp.extractLsb' 44 16,
            hart := s.hart.id, base := BitVec.ofNat 64 (ptePage pte * 4096),
            size := BitVec.ofNat 64 size, raw := touched }
        ∃ w, ((touched = pte ∧ w = s1) ∨ (touched ≠ pte ∧ PhysWrites addr 8 touched s1 w)) ∧
          walked = .ok ⟨BitVec.ofNat 64 (ptePage pte * 4096 + va.toNat % size),
              if touched = pte then none else some addr⟩ { w with
            tlb := e :: s.tlb.filter fun d => !(d.vpn == e.vpn && d.asid == e.asid && d.hart == e.hart) })

/-- At effective privilege M, or with satp.MODE 0, an address translates to itself with no effect,
nothing written back; under Sv39, Sv48 and Sv57 an address outside the signed 39-, 48- or 57-bit
range raises the page fault of its access type, and a canonical one with no usable TLB entry is
walked through 3, 4 or 5 levels from the root of satp. An entry for a page covers exactly the pages
of that page. -/
def Obligations.TranslationModes : Prop :=
  ∀ (va : Word) (acc : Access) (s : State),
    let p := effectivePriv acc s
    (Sys2Proof.Machine.translate va acc s = match translation va acc s with
      | .ok r t => .ok r.pa t
      | .raise tr t => .raise tr t) ∧
    (Untranslated acc s → translation va acc s = .ok ⟨va, none⟩ s) ∧
    (∀ m ∈ [(8, 3, 39), (9, 4, 48), (10, 5, 57)], (p = .S ∨ p = .U) → s.hart.csr.satp.toNat / 2 ^ 60 = m.1 →
      (¬(-2 ^ (m.2.2 - 1) ≤ va.toInt ∧ va.toInt < 2 ^ (m.2.2 - 1)) →
        translation va acc s = .raise ⟨pageCause acc, va⟩ s) ∧
      (-2 ^ (m.2.2 - 1) ≤ va.toInt → va.toInt < 2 ^ (m.2.2 - 1) →
        (∀ e ∈ s.tlb, ¬(e.hart = s.hart.id ∧ e.covers (va >>> 12) = true ∧
          (e.asid = s.hart.csr.satp.extractLsb' 44 16 ∨ e.raw.getLsbD 5 = true))) →
        translation va acc s =
          walk va acc p m.2.1 (BitVec.ofNat 64 (s.hart.csr.satp.toNat % 2 ^ 44 * 4096)) s)) ∧
    (∀ (e : TlbEntry) (v : Word) (k : Nat), k ≤ 4 → e.size = BitVec.ofNat 64 (4096 * 2 ^ (9 * k)) →
      (e.covers v = true ↔ v.toNat / 2 ^ (9 * k) = e.vpn.toNat / 2 ^ (9 * k)))

/-- Where translation is active and the address canonical, and the stepping hart has entries that cover
the page and are of its address space or global, the draw TLB_USE picks one of them or, naming none,
has the access walk. On a hit an access that the entry's stored PTE denies raises the page fault and
changes nothing; a permitted one answers base + (va and (size - 1)), setting A, and D for a write,
in the PTE at the entry's address, in RAM or by a write a device sees (log 29), and in the entry
where it is not set already, as what it answers says, and raising the access fault, with the entry
as it was, where that address is outside every region. That the draw is made once, and only where a
usable entry exists, is the model's reading (log 22). The memory is taken in canonical form. -/
def Obligations.TlbHit : Prop :=
  ∀ (va : Word) (acc : Access) (s : State), Memory.wf s.mem →
    let p := effectivePriv acc s
    let asid := s.hart.csr.satp.extractLsb' 44 16
    let usable := s.tlb.filter fun e =>
      e.hart == s.hart.id && e.covers (va >>> 12) && (e.asid == asid || e.raw.getLsbD 5)
    let d := drawTlbUse s
    let result := translation va acc s
    (∀ k l, s.tape.tlbUse = k :: l → d = (k, { s with tape := { s.tape with tlbUse := l } })) ∧
    ∀ m ∈ [(8, 3, 39), (9, 4, 48), (10, 5, 57)], (p = .S ∨ p = .U) → s.hart.csr.satp.toNat / 2 ^ 60 = m.1 →
      -2 ^ (m.2.2 - 1) ≤ va.toInt → va.toInt < 2 ^ (m.2.2 - 1) → usable ≠ [] →
      (usable[d.1]? = none →
        result = walk va acc p m.2.1 (BitVec.ofNat 64 (s.hart.csr.satp.toNat % 2 ^ 44 * 4096)) d.2) ∧
      ∀ e, usable[d.1]? = some e →
        let touched := e.raw ||| 0x40#64 ||| (if acc = .write then 0x80#64 else 0)
        let pa := e.base + (va &&& (e.size - 1))
        (Denied e.raw acc p s.hart.csr.mstatus → result = .raise ⟨pageCause acc, va⟩ d.2) ∧
        (¬Denied e.raw acc p s.hart.csr.mstatus →
          (touched = e.raw → result = .ok ⟨pa, none⟩ d.2) ∧
          (touched ≠ e.raw → Unmapped s e.pteAddr.toNat 8 →
            result = .raise ⟨accessCause acc, va⟩ d.2) ∧
          (touched ≠ e.raw → ¬Unmapped s e.pteAddr.toNat 8 →
            ∃ w, PhysWrites e.pteAddr 8 touched d.2 w ∧ result = .ok ⟨pa, some e.pteAddr⟩ { w with
              tlb := s.tlb.map fun x => if x = e then { x with raw := touched } else x }))

/-- A step is one of the hart of schedule s, in which the harts of s stand in another order at most and
all they share is as before: a hart that has not halted wherever there is one, even if it was reset
after every hart had halted; each that has not halted is chosen by some draw; and on a machine of
one hart it is s. Only where every hart has halted is the step a fault, which is the model's reading
(log 11). That the choice is a draw at the beginning of the step is the model's choice (log 19). -/
def Obligations.ScheduleIsFree : Prop :=
  ∀ (s : State),
    let u := schedule s
    (s.others = [] → u = s) ∧ (u.hart :: u.others).Perm (s.hart :: s.others) ∧
    u.mem = s.mem ∧ u.tlb = s.tlb ∧ u.mtime = s.mtime ∧ u.plat = s.plat ∧ u.bus = s.bus ∧ u.note = s.note ∧
    ((∃ h ∈ s.hart :: s.others, h.halted = none) → u.hart.halted = none ∧ step s = runHart u) ∧
    ((∀ h ∈ s.hart :: s.others, h.halted ≠ none) → step s = .fault .hartHalted) ∧
    (∀ k l, s.tape.schedule = k :: l →
      (∀ h, s.others[k]? = some h → h.halted = none → u.hart = h) ∧
      (s.others.length ≤ k → s.hart.halted = none → u.hart = s.hart))
end

