-- ==== Sys2Proof/Laws/Memory.lean ====
section
/-! SUPPORT. Memory as a list of cells: read after write, the bytes a write leaves alone, and that every
write keeps the canonical form. -/

namespace Sys2Proof.Machine

theorem Memory.wf_nil : Memory.wf [] := by simp [Memory.wf]

theorem Memory.wf_tail {c : Host.Cell} {m : List Host.Cell} (h : Memory.wf (c :: m)) : Memory.wf m :=
  ⟨(List.pairwise_cons.1 h.1).2, fun d hd => h.2 d (List.mem_cons_of_mem _ hd)⟩

/-- An address below every listed one reads 0. -/
theorem Memory.readByte_of_lt (m : List Host.Cell) (a : Nat) (h : ∀ c ∈ m, a < c.1) :
    Memory.readByte m a = 0 := by
  induction m with
  | nil => rfl
  | cons c m ih =>
    have hc := h c (by simp)
    simp only [Memory.readByte]
    rw [if_neg (by omega)]
    exact ih fun d hd => h d (by simp [hd])

/-- A write puts no address in the list but its own. -/
theorem Memory.mem_writeByte {m : List Host.Cell} {a : Nat} {b : Byte} {c : Host.Cell}
    (h : c ∈ Memory.writeByte m a b) : c ∈ m ∨ (c.1 = a ∧ c.2 = b ∧ b ≠ 0) := by
  induction m with
  | nil =>
    simp only [Memory.writeByte] at h
    split at h <;> simp_all
  | cons d m ih =>
    obtain ⟨k, x⟩ := d
    simp only [Memory.writeByte] at h
    split at h
    · split at h
      · exact .inl h
      · rcases List.mem_cons.1 h with rfl | h
        · exact .inr ⟨rfl, rfl, by assumption⟩
        · exact .inl h
    · split at h
      · split at h
        · exact .inl (List.mem_cons_of_mem _ h)
        · rcases List.mem_cons.1 h with rfl | h
          · exact .inr ⟨rfl, rfl, by assumption⟩
          · exact .inl (List.mem_cons_of_mem _ h)
      · rcases List.mem_cons.1 h with h | h
        · simp [h]
        · rcases ih h with h | h
          · simp [h]
          · exact .inr h

/-- A write keeps the canonical form. -/
theorem Memory.writeByte_wf {m : List Host.Cell} (h : Memory.wf m) (a : Nat) (b : Byte) :
    Memory.wf (Memory.writeByte m a b) := by
  induction m with
  | nil =>
    simp only [Memory.writeByte]
    split <;> simp_all [Memory.wf]
  | cons d m ih =>
    obtain ⟨k, x⟩ := d
    have hm := Memory.wf_tail h
    have hlt : ∀ c ∈ m, k < c.1 := (List.pairwise_cons.1 h.1).1
    have hx : x ≠ 0 := h.2 (k, x) (by simp)
    simp only [Memory.writeByte]
    split
    · split
      · exact h
      · refine ⟨List.pairwise_cons.2 ⟨fun c hc => ?_, h.1⟩, fun c hc => ?_⟩
        · rcases List.mem_cons.1 hc with rfl | hc
          · assumption
          · have := hlt c hc; dsimp only; omega
        · rcases List.mem_cons.1 hc with rfl | hc
          · assumption
          · exact h.2 c hc
    · split
      · subst a
        split
        · exact hm
        · exact ⟨List.pairwise_cons.2 ⟨hlt, hm.1⟩, fun c hc => by
            rcases List.mem_cons.1 hc with rfl | hc
            · assumption
            · exact hm.2 c hc⟩
      · refine ⟨List.pairwise_cons.2 ⟨fun c hc => ?_, (ih hm).1⟩, fun c hc => ?_⟩
        · rcases Memory.mem_writeByte hc with hc | ⟨hc, -, -⟩
          · exact hlt c hc
          · dsimp only; omega
        · rcases List.mem_cons.1 hc with rfl | hc
          · exact hx
          · exact (ih hm).2 c hc

/-- A byte reads as last written. -/
theorem Memory.readByte_writeByte_self {m : List Host.Cell} (h : Memory.wf m) (a : Nat) (b : Byte) :
    Memory.readByte (Memory.writeByte m a b) a = b := by
  induction m with
  | nil =>
    simp only [Memory.writeByte]
    split <;> simp_all [Memory.readByte]
  | cons d m ih =>
    obtain ⟨k, x⟩ := d
    have hlt : ∀ c ∈ m, k < c.1 := (List.pairwise_cons.1 h.1).1
    simp only [Memory.writeByte]
    split
    · split
      · subst b
        exact Memory.readByte_of_lt _ _ fun c hc => by
          rcases List.mem_cons.1 hc with rfl | hc
          · assumption
          · have := hlt c hc; omega
      · simp [Memory.readByte]
    · split
      · subst a
        split
        · subst b
          exact Memory.readByte_of_lt _ _ hlt
        · simp [Memory.readByte]
      · simp only [Memory.readByte]
        rw [if_neg (by omega)]
        exact ih (Memory.wf_tail h)

/-- Every other byte reads as before. -/
theorem Memory.readByte_writeByte_of_ne (m : List Host.Cell) {a c : Nat} (b : Byte) (h : c ≠ a) :
    Memory.readByte (Memory.writeByte m a b) c = Memory.readByte m c := by
  induction m with
  | nil =>
    simp only [Memory.writeByte]
    split <;> simp [Memory.readByte]
    intro h'; exact absurd h'.symm h
  | cons d m ih =>
    obtain ⟨k, x⟩ := d
    simp only [Memory.writeByte]
    split
    · split
      · rfl
      · simp only [Memory.readByte]
        rw [if_neg (fun h' => h h'.symm)]
    · split
      · subst a
        split
        · simp only [Memory.readByte]
          rw [if_neg (fun h' => h h'.symm)]
        · simp only [Memory.readByte, if_neg (fun h' => h (Eq.symm h'))]
      · simp only [Memory.readByte, ih]

/-- A little-endian write keeps the canonical form. -/
theorem Memory.writeLE_wf {m : List Host.Cell} (h : Memory.wf m) (a n : Nat) (v : Word) :
    Memory.wf (Memory.writeLE m a n v) := by
  induction n generalizing m a v with
  | zero => exact h
  | succ n ih => exact ih (Memory.writeByte_wf h _ _) _ _

/-- A little-endian write leaves every byte outside its range alone. -/
theorem Memory.readByte_writeLE_of_outside (m : List Host.Cell) (a n : Nat) (v : Word) {c : Nat}
    (h : c < a ∨ a + n ≤ c) :
    Memory.readByte (Memory.writeLE m a n v) c = Memory.readByte m c := by
  induction n generalizing m a v with
  | zero => rfl
  | succ n ih =>
    simp only [Memory.writeLE]
    rw [ih _ _ _ (by omega), Memory.readByte_writeByte_of_ne _ _ (by omega)]

/-- Byte `k` of a little-endian write is bits 8k+7 to 8k of the value. -/
theorem Memory.readByte_writeLE {m : List Host.Cell} (h : Memory.wf m) (a n : Nat) (v : Word) {k : Nat}
    (hk : k < n) :
    Memory.readByte (Memory.writeLE m a n v) (a + k) = v.extractLsb' (8 * k) 8 := by
  induction n generalizing m a v k with
  | zero => omega
  | succ n ih =>
    simp only [Memory.writeLE]
    cases k with
    | zero =>
      rw [Memory.readByte_writeLE_of_outside _ _ _ _ (by omega)]
      simp only [Nat.add_zero]
      rw [Memory.readByte_writeByte_self h]
      ext i hi
      simp
    | succ k =>
      have := ih (Memory.writeByte_wf h a (v.setWidth 8)) (a + 1) (v >>> 8) (k := k) (by omega)
      rw [show a + (k + 1) = a + 1 + k by omega, this]
      ext i hi
      simp only [BitVec.getElem_extractLsb', BitVec.getLsbD_ushiftRight]
      congr 1
      omega

/-- A list of cells in canonical form. -/
theorem Memory.normalise_wf (m : List Host.Cell) : Memory.wf (Memory.normalise m) := by
  unfold Memory.normalise
  have : ∀ acc, Memory.wf acc →
      Memory.wf (m.foldl (fun acc c => Memory.writeByte acc c.1 c.2) acc) := by
    induction m with
    | nil => exact fun _ h => h
    | cons c m ih => exact fun acc h => ih _ (Memory.writeByte_wf h _ _)
  exact this [] Memory.wf_nil

/-- Two memories in canonical form that read alike are the same list. -/
theorem Memory.eq_of_readByte_eq {m n : List Host.Cell} (hm : Memory.wf m) (hn : Memory.wf n)
    (h : ∀ a, Memory.readByte m a = Memory.readByte n a) : m = n := by
  induction m generalizing n with
  | nil =>
    cases n with
    | nil => rfl
    | cons d n =>
      obtain ⟨k, x⟩ := d
      have := h k
      simp only [Memory.readByte, if_true] at this
      exact absurd this.symm (hn.2 (k, x) (by simp))
  | cons c m ih =>
    obtain ⟨k, x⟩ := c
    cases n with
    | nil =>
      have := h k
      simp only [Memory.readByte, if_true] at this
      exact absurd this (hm.2 (k, x) (by simp))
    | cons d n =>
      obtain ⟨j, y⟩ := d
      have hmlt : ∀ c ∈ m, k < c.1 := (List.pairwise_cons.1 hm.1).1
      have hnlt : ∀ c ∈ n, j < c.1 := (List.pairwise_cons.1 hn.1).1
      have hx : x ≠ 0 := hm.2 (k, x) (by simp)
      have hy : y ≠ 0 := hn.2 (j, y) (by simp)
      have hkj : k = j := by
        rcases Nat.lt_trichotomy k j with hlt | heq | hgt
        · have := h k
          rw [Memory.readByte_of_lt ((j, y) :: n) k (by
            intro c hc
            rcases List.mem_cons.1 hc with rfl | hc
            · exact hlt
            · have := hnlt c hc; omega)] at this
          simp [Memory.readByte] at this
          exact absurd this hx
        · exact heq
        · have := h j
          rw [Memory.readByte_of_lt ((k, x) :: m) j (by
            intro c hc
            rcases List.mem_cons.1 hc with rfl | hc
            · exact hgt
            · have := hmlt c hc; omega)] at this
          simp [Memory.readByte] at this
          exact absurd this.symm hy
      subst j
      have hxy : x = y := by simpa [Memory.readByte] using h k
      subst y
      congr 1
      refine ih (Memory.wf_tail hm) (Memory.wf_tail hn) fun a => ?_
      by_cases ha : k = a
      · subst a
        rw [Memory.readByte_of_lt _ _ hmlt, Memory.readByte_of_lt _ _ hnlt]
      · simpa [Memory.readByte, ha] using h a

/-! ### Little-endian reads -/

theorem leNat_lt (m : List Host.Cell) (a n : Nat) : leNat m a n < 256 ^ n := by
  induction n generalizing a with
  | zero => simp [leNat]
  | succ n ih =>
    have h1 := ih (a + 1)
    have h2 := (Memory.readByte m a).isLt
    simp only [leNat, pow_succ]
    omega

/-- A little-endian read of at most eight bytes is their value. -/
theorem Memory.toNat_readLE (m : List Host.Cell) (a : Nat) {n : Nat} (hn : n ≤ 8) :
    (Memory.readLE m a n).toNat = leNat m a n := by
  induction n generalizing a with
  | zero => rfl
  | succ n ih =>
    have h := ih (a + 1) (by omega)
    have hlt := leNat_lt m (a + 1) n
    have hb := (Memory.readByte m a).isLt
    have hp : (256 : Nat) ^ n ≤ 256 ^ 7 := Nat.pow_le_pow_right (by omega) (by omega)
    simp only [Memory.readLE, leNat]
    have e : (Memory.readLE m (a + 1) n <<< 8 ||| (Memory.readByte m a).setWidth 64).toNat =
        (leNat m (a + 1) n) <<< 8 ||| (Memory.readByte m a).toNat := by
      rw [BitVec.toNat_or, BitVec.toNat_shiftLeft, BitVec.toNat_setWidth, h]
      rw [Nat.mod_eq_of_lt (a := (Memory.readByte m a).toNat) (by omega)]
      rw [Nat.mod_eq_of_lt]
      rw [Nat.shiftLeft_eq]
      omega
    rw [e, ← Nat.shiftLeft_add_eq_or_of_lt (b := (Memory.readByte m a).toNat) (by omega),
      Nat.shiftLeft_eq]
    omega

theorem Memory.readLE_eq_ofNat (m : List Host.Cell) (a : Nat) {n : Nat} (hn : n ≤ 8) :
    Memory.readLE m a n = BitVec.ofNat 64 (leNat m a n) := by
  apply BitVec.eq_of_toNat_eq
  rw [Memory.toNat_readLE m a hn, BitVec.toNat_ofNat, Nat.mod_eq_of_lt]
  have h1 := leNat_lt m a n
  have hp : (256 : Nat) ^ n ≤ 256 ^ 8 := Nat.pow_le_pow_right (by omega) hn
  omega

/-- A byte of a little-endian read. -/
theorem Memory.extractLsb'_readLE (m : List Host.Cell) (a : Nat) {n k : Nat} (hn : n ≤ 8) (hk : k < n) :
    (Memory.readLE m a n).extractLsb' (8 * k) 8 = Memory.readByte m (a + k) := by
  induction n generalizing a k with
  | zero => omega
  | succ n ih =>
    apply BitVec.eq_of_getLsbD_eq
    intro i hi
    cases k with
    | zero => simp [Memory.readLE, hi, show i < 64 by omega]
    | succ k =>
      have e := congrArg (·.getLsbD i) (ih (a + 1) (k := k) (by omega) (by omega))
      simp only [BitVec.getLsbD_extractLsb', hi, decide_true, Bool.true_and] at e
      rw [show a + (k + 1) = a + 1 + k by omega, ← e]
      simp [Memory.readLE, hi, show 8 * (k + 1) + i < 64 by omega,
        show ¬8 * (k + 1) + i < 8 by omega, show 8 * (k + 1) + i - 8 = 8 * k + i by omega,
        BitVec.getLsbD_of_ge (Memory.readByte m a) (8 * (k + 1) + i) (by omega),
        -BitVec.getLsbD_eq_getElem]

end Sys2Proof.Machine
end

