-- ==== Sys2Proof/Laws/State.lean ====
section
/-! SUPPORT. One lemma per field per update of State: reading a field after an update. -/

namespace Sys2Proof.Machine

variable (s : State)

section
variable (h : Hart)

@[simp] theorem State.setHart_hart : (s.setHart h).hart = h := rfl
@[simp] theorem State.setHart_others : (s.setHart h).others = s.others := rfl
@[simp] theorem State.setHart_mem : (s.setHart h).mem = s.mem := rfl
@[simp] theorem State.setHart_tlb : (s.setHart h).tlb = s.tlb := rfl
@[simp] theorem State.setHart_mtime : (s.setHart h).mtime = s.mtime := rfl
@[simp] theorem State.setHart_plat : (s.setHart h).plat = s.plat := rfl
@[simp] theorem State.setHart_tape : (s.setHart h).tape = s.tape := rfl
@[simp] theorem State.setHart_tick : (s.setHart h).tick = s.tick := rfl
@[simp] theorem State.setHart_bus : (s.setHart h).bus = s.bus := rfl
@[simp] theorem State.setHart_note : (s.setHart h).note = s.note := rfl

end

section
variable (v : Word)

@[simp] theorem State.setPc_id : (s.setPc v).hart.id = s.hart.id := rfl
@[simp] theorem State.setPc_x : (s.setPc v).hart.x = s.hart.x := rfl
@[simp] theorem State.setPc_f : (s.setPc v).hart.f = s.hart.f := rfl
@[simp] theorem State.setPc_pc : (s.setPc v).hart.pc = v := rfl
@[simp] theorem State.setPc_priv : (s.setPc v).hart.priv = s.hart.priv := rfl
@[simp] theorem State.setPc_csr : (s.setPc v).hart.csr = s.hart.csr := rfl
@[simp] theorem State.setPc_wfi : (s.setPc v).hart.wfi = s.hart.wfi := rfl
@[simp] theorem State.setPc_semihost : (s.setPc v).hart.semihost = s.hart.semihost := rfl
@[simp] theorem State.setPc_halted : (s.setPc v).hart.halted = s.hart.halted := rfl
@[simp] theorem State.setPc_res : (s.setPc v).hart.res = s.hart.res := rfl
@[simp] theorem State.setPc_others : (s.setPc v).others = s.others := rfl
@[simp] theorem State.setPc_mem : (s.setPc v).mem = s.mem := rfl
@[simp] theorem State.setPc_tlb : (s.setPc v).tlb = s.tlb := rfl
@[simp] theorem State.setPc_mtime : (s.setPc v).mtime = s.mtime := rfl
@[simp] theorem State.setPc_plat : (s.setPc v).plat = s.plat := rfl
@[simp] theorem State.setPc_tape : (s.setPc v).tape = s.tape := rfl
@[simp] theorem State.setPc_tick : (s.setPc v).tick = s.tick := rfl
@[simp] theorem State.setPc_bus : (s.setPc v).bus = s.bus := rfl
@[simp] theorem State.setPc_note : (s.setPc v).note = s.note := rfl

end

section
variable (p : Priv)

@[simp] theorem State.setPriv_id : (s.setPriv p).hart.id = s.hart.id := rfl
@[simp] theorem State.setPriv_x : (s.setPriv p).hart.x = s.hart.x := rfl
@[simp] theorem State.setPriv_f : (s.setPriv p).hart.f = s.hart.f := rfl
@[simp] theorem State.setPriv_pc : (s.setPriv p).hart.pc = s.hart.pc := rfl
@[simp] theorem State.setPriv_priv : (s.setPriv p).hart.priv = p := rfl
@[simp] theorem State.setPriv_csr : (s.setPriv p).hart.csr = s.hart.csr := rfl
@[simp] theorem State.setPriv_wfi : (s.setPriv p).hart.wfi = s.hart.wfi := rfl
@[simp] theorem State.setPriv_semihost : (s.setPriv p).hart.semihost = s.hart.semihost := rfl
@[simp] theorem State.setPriv_halted : (s.setPriv p).hart.halted = s.hart.halted := rfl
@[simp] theorem State.setPriv_res : (s.setPriv p).hart.res = s.hart.res := rfl
@[simp] theorem State.setPriv_others : (s.setPriv p).others = s.others := rfl
@[simp] theorem State.setPriv_mem : (s.setPriv p).mem = s.mem := rfl
@[simp] theorem State.setPriv_tlb : (s.setPriv p).tlb = s.tlb := rfl
@[simp] theorem State.setPriv_mtime : (s.setPriv p).mtime = s.mtime := rfl
@[simp] theorem State.setPriv_plat : (s.setPriv p).plat = s.plat := rfl
@[simp] theorem State.setPriv_tape : (s.setPriv p).tape = s.tape := rfl
@[simp] theorem State.setPriv_tick : (s.setPriv p).tick = s.tick := rfl
@[simp] theorem State.setPriv_bus : (s.setPriv p).bus = s.bus := rfl
@[simp] theorem State.setPriv_note : (s.setPriv p).note = s.note := rfl

end

section
variable (c : CsrFile)

@[simp] theorem State.setCsrFile_id : (s.setCsrFile c).hart.id = s.hart.id := rfl
@[simp] theorem State.setCsrFile_x : (s.setCsrFile c).hart.x = s.hart.x := rfl
@[simp] theorem State.setCsrFile_f : (s.setCsrFile c).hart.f = s.hart.f := rfl
@[simp] theorem State.setCsrFile_pc : (s.setCsrFile c).hart.pc = s.hart.pc := rfl
@[simp] theorem State.setCsrFile_priv : (s.setCsrFile c).hart.priv = s.hart.priv := rfl
@[simp] theorem State.setCsrFile_csr : (s.setCsrFile c).hart.csr = c := rfl
@[simp] theorem State.setCsrFile_wfi : (s.setCsrFile c).hart.wfi = s.hart.wfi := rfl
@[simp] theorem State.setCsrFile_semihost : (s.setCsrFile c).hart.semihost = s.hart.semihost := rfl
@[simp] theorem State.setCsrFile_halted : (s.setCsrFile c).hart.halted = s.hart.halted := rfl
@[simp] theorem State.setCsrFile_res : (s.setCsrFile c).hart.res = s.hart.res := rfl
@[simp] theorem State.setCsrFile_others : (s.setCsrFile c).others = s.others := rfl
@[simp] theorem State.setCsrFile_mem : (s.setCsrFile c).mem = s.mem := rfl
@[simp] theorem State.setCsrFile_tlb : (s.setCsrFile c).tlb = s.tlb := rfl
@[simp] theorem State.setCsrFile_mtime : (s.setCsrFile c).mtime = s.mtime := rfl
@[simp] theorem State.setCsrFile_plat : (s.setCsrFile c).plat = s.plat := rfl
@[simp] theorem State.setCsrFile_tape : (s.setCsrFile c).tape = s.tape := rfl
@[simp] theorem State.setCsrFile_tick : (s.setCsrFile c).tick = s.tick := rfl
@[simp] theorem State.setCsrFile_bus : (s.setCsrFile c).bus = s.bus := rfl
@[simp] theorem State.setCsrFile_note : (s.setCsrFile c).note = s.note := rfl

end

section
variable (b : Bool)

@[simp] theorem State.setWfi_id : (s.setWfi b).hart.id = s.hart.id := rfl
@[simp] theorem State.setWfi_x : (s.setWfi b).hart.x = s.hart.x := rfl
@[simp] theorem State.setWfi_f : (s.setWfi b).hart.f = s.hart.f := rfl
@[simp] theorem State.setWfi_pc : (s.setWfi b).hart.pc = s.hart.pc := rfl
@[simp] theorem State.setWfi_priv : (s.setWfi b).hart.priv = s.hart.priv := rfl
@[simp] theorem State.setWfi_csr : (s.setWfi b).hart.csr = s.hart.csr := rfl
@[simp] theorem State.setWfi_wfi : (s.setWfi b).hart.wfi = b := rfl
@[simp] theorem State.setWfi_semihost : (s.setWfi b).hart.semihost = s.hart.semihost := rfl
@[simp] theorem State.setWfi_halted : (s.setWfi b).hart.halted = s.hart.halted := rfl
@[simp] theorem State.setWfi_res : (s.setWfi b).hart.res = s.hart.res := rfl
@[simp] theorem State.setWfi_others : (s.setWfi b).others = s.others := rfl
@[simp] theorem State.setWfi_mem : (s.setWfi b).mem = s.mem := rfl
@[simp] theorem State.setWfi_tlb : (s.setWfi b).tlb = s.tlb := rfl
@[simp] theorem State.setWfi_mtime : (s.setWfi b).mtime = s.mtime := rfl
@[simp] theorem State.setWfi_plat : (s.setWfi b).plat = s.plat := rfl
@[simp] theorem State.setWfi_tape : (s.setWfi b).tape = s.tape := rfl
@[simp] theorem State.setWfi_tick : (s.setWfi b).tick = s.tick := rfl
@[simp] theorem State.setWfi_bus : (s.setWfi b).bus = s.bus := rfl
@[simp] theorem State.setWfi_note : (s.setWfi b).note = s.note := rfl

end

section
variable (b : Bool)

@[simp] theorem State.setSemihost_id : (s.setSemihost b).hart.id = s.hart.id := rfl
@[simp] theorem State.setSemihost_x : (s.setSemihost b).hart.x = s.hart.x := rfl
@[simp] theorem State.setSemihost_f : (s.setSemihost b).hart.f = s.hart.f := rfl
@[simp] theorem State.setSemihost_pc : (s.setSemihost b).hart.pc = s.hart.pc := rfl
@[simp] theorem State.setSemihost_priv : (s.setSemihost b).hart.priv = s.hart.priv := rfl
@[simp] theorem State.setSemihost_csr : (s.setSemihost b).hart.csr = s.hart.csr := rfl
@[simp] theorem State.setSemihost_wfi : (s.setSemihost b).hart.wfi = s.hart.wfi := rfl
@[simp] theorem State.setSemihost_semihost : (s.setSemihost b).hart.semihost = b := rfl
@[simp] theorem State.setSemihost_halted : (s.setSemihost b).hart.halted = s.hart.halted := rfl
@[simp] theorem State.setSemihost_res : (s.setSemihost b).hart.res = s.hart.res := rfl
@[simp] theorem State.setSemihost_others : (s.setSemihost b).others = s.others := rfl
@[simp] theorem State.setSemihost_mem : (s.setSemihost b).mem = s.mem := rfl
@[simp] theorem State.setSemihost_tlb : (s.setSemihost b).tlb = s.tlb := rfl
@[simp] theorem State.setSemihost_mtime : (s.setSemihost b).mtime = s.mtime := rfl
@[simp] theorem State.setSemihost_plat : (s.setSemihost b).plat = s.plat := rfl
@[simp] theorem State.setSemihost_tape : (s.setSemihost b).tape = s.tape := rfl
@[simp] theorem State.setSemihost_tick : (s.setSemihost b).tick = s.tick := rfl
@[simp] theorem State.setSemihost_bus : (s.setSemihost b).bus = s.bus := rfl
@[simp] theorem State.setSemihost_note : (s.setSemihost b).note = s.note := rfl

end

section
variable (r : Option HaltReport)

@[simp] theorem State.setHalted_id : (s.setHalted r).hart.id = s.hart.id := rfl
@[simp] theorem State.setHalted_x : (s.setHalted r).hart.x = s.hart.x := rfl
@[simp] theorem State.setHalted_f : (s.setHalted r).hart.f = s.hart.f := rfl
@[simp] theorem State.setHalted_pc : (s.setHalted r).hart.pc = s.hart.pc := rfl
@[simp] theorem State.setHalted_priv : (s.setHalted r).hart.priv = s.hart.priv := rfl
@[simp] theorem State.setHalted_csr : (s.setHalted r).hart.csr = s.hart.csr := rfl
@[simp] theorem State.setHalted_wfi : (s.setHalted r).hart.wfi = s.hart.wfi := rfl
@[simp] theorem State.setHalted_semihost : (s.setHalted r).hart.semihost = s.hart.semihost := rfl
@[simp] theorem State.setHalted_halted : (s.setHalted r).hart.halted = r := rfl
@[simp] theorem State.setHalted_res : (s.setHalted r).hart.res = s.hart.res := rfl
@[simp] theorem State.setHalted_others : (s.setHalted r).others = s.others := rfl
@[simp] theorem State.setHalted_mem : (s.setHalted r).mem = s.mem := rfl
@[simp] theorem State.setHalted_tlb : (s.setHalted r).tlb = s.tlb := rfl
@[simp] theorem State.setHalted_mtime : (s.setHalted r).mtime = s.mtime := rfl
@[simp] theorem State.setHalted_plat : (s.setHalted r).plat = s.plat := rfl
@[simp] theorem State.setHalted_tape : (s.setHalted r).tape = s.tape := rfl
@[simp] theorem State.setHalted_tick : (s.setHalted r).tick = s.tick := rfl
@[simp] theorem State.setHalted_bus : (s.setHalted r).bus = s.bus := rfl
@[simp] theorem State.setHalted_note : (s.setHalted r).note = s.note := rfl

end

section
variable (r : Option Reservation)

@[simp] theorem State.setRes_id : (s.setRes r).hart.id = s.hart.id := rfl
@[simp] theorem State.setRes_x : (s.setRes r).hart.x = s.hart.x := rfl
@[simp] theorem State.setRes_f : (s.setRes r).hart.f = s.hart.f := rfl
@[simp] theorem State.setRes_pc : (s.setRes r).hart.pc = s.hart.pc := rfl
@[simp] theorem State.setRes_priv : (s.setRes r).hart.priv = s.hart.priv := rfl
@[simp] theorem State.setRes_csr : (s.setRes r).hart.csr = s.hart.csr := rfl
@[simp] theorem State.setRes_wfi : (s.setRes r).hart.wfi = s.hart.wfi := rfl
@[simp] theorem State.setRes_semihost : (s.setRes r).hart.semihost = s.hart.semihost := rfl
@[simp] theorem State.setRes_halted : (s.setRes r).hart.halted = s.hart.halted := rfl
@[simp] theorem State.setRes_res : (s.setRes r).hart.res = r := rfl
@[simp] theorem State.setRes_others : (s.setRes r).others = s.others := rfl
@[simp] theorem State.setRes_mem : (s.setRes r).mem = s.mem := rfl
@[simp] theorem State.setRes_tlb : (s.setRes r).tlb = s.tlb := rfl
@[simp] theorem State.setRes_mtime : (s.setRes r).mtime = s.mtime := rfl
@[simp] theorem State.setRes_plat : (s.setRes r).plat = s.plat := rfl
@[simp] theorem State.setRes_tape : (s.setRes r).tape = s.tape := rfl
@[simp] theorem State.setRes_tick : (s.setRes r).tick = s.tick := rfl
@[simp] theorem State.setRes_bus : (s.setRes r).bus = s.bus := rfl
@[simp] theorem State.setRes_note : (s.setRes r).note = s.note := rfl

end

section
variable (x : Vector Word 32)

@[simp] theorem State.setGprs_id : (s.setGprs x).hart.id = s.hart.id := rfl
@[simp] theorem State.setGprs_x : (s.setGprs x).hart.x = x := rfl
@[simp] theorem State.setGprs_f : (s.setGprs x).hart.f = s.hart.f := rfl
@[simp] theorem State.setGprs_pc : (s.setGprs x).hart.pc = s.hart.pc := rfl
@[simp] theorem State.setGprs_priv : (s.setGprs x).hart.priv = s.hart.priv := rfl
@[simp] theorem State.setGprs_csr : (s.setGprs x).hart.csr = s.hart.csr := rfl
@[simp] theorem State.setGprs_wfi : (s.setGprs x).hart.wfi = s.hart.wfi := rfl
@[simp] theorem State.setGprs_semihost : (s.setGprs x).hart.semihost = s.hart.semihost := rfl
@[simp] theorem State.setGprs_halted : (s.setGprs x).hart.halted = s.hart.halted := rfl
@[simp] theorem State.setGprs_res : (s.setGprs x).hart.res = s.hart.res := rfl
@[simp] theorem State.setGprs_others : (s.setGprs x).others = s.others := rfl
@[simp] theorem State.setGprs_mem : (s.setGprs x).mem = s.mem := rfl
@[simp] theorem State.setGprs_tlb : (s.setGprs x).tlb = s.tlb := rfl
@[simp] theorem State.setGprs_mtime : (s.setGprs x).mtime = s.mtime := rfl
@[simp] theorem State.setGprs_plat : (s.setGprs x).plat = s.plat := rfl
@[simp] theorem State.setGprs_tape : (s.setGprs x).tape = s.tape := rfl
@[simp] theorem State.setGprs_tick : (s.setGprs x).tick = s.tick := rfl
@[simp] theorem State.setGprs_bus : (s.setGprs x).bus = s.bus := rfl
@[simp] theorem State.setGprs_note : (s.setGprs x).note = s.note := rfl

end

section
variable (f : Vector Word 32)

@[simp] theorem State.setFprs_id : (s.setFprs f).hart.id = s.hart.id := rfl
@[simp] theorem State.setFprs_x : (s.setFprs f).hart.x = s.hart.x := rfl
@[simp] theorem State.setFprs_f : (s.setFprs f).hart.f = f := rfl
@[simp] theorem State.setFprs_pc : (s.setFprs f).hart.pc = s.hart.pc := rfl
@[simp] theorem State.setFprs_priv : (s.setFprs f).hart.priv = s.hart.priv := rfl
@[simp] theorem State.setFprs_csr : (s.setFprs f).hart.csr = s.hart.csr := rfl
@[simp] theorem State.setFprs_wfi : (s.setFprs f).hart.wfi = s.hart.wfi := rfl
@[simp] theorem State.setFprs_semihost : (s.setFprs f).hart.semihost = s.hart.semihost := rfl
@[simp] theorem State.setFprs_halted : (s.setFprs f).hart.halted = s.hart.halted := rfl
@[simp] theorem State.setFprs_res : (s.setFprs f).hart.res = s.hart.res := rfl
@[simp] theorem State.setFprs_others : (s.setFprs f).others = s.others := rfl
@[simp] theorem State.setFprs_mem : (s.setFprs f).mem = s.mem := rfl
@[simp] theorem State.setFprs_tlb : (s.setFprs f).tlb = s.tlb := rfl
@[simp] theorem State.setFprs_mtime : (s.setFprs f).mtime = s.mtime := rfl
@[simp] theorem State.setFprs_plat : (s.setFprs f).plat = s.plat := rfl
@[simp] theorem State.setFprs_tape : (s.setFprs f).tape = s.tape := rfl
@[simp] theorem State.setFprs_tick : (s.setFprs f).tick = s.tick := rfl
@[simp] theorem State.setFprs_bus : (s.setFprs f).bus = s.bus := rfl
@[simp] theorem State.setFprs_note : (s.setFprs f).note = s.note := rfl

end

section
variable (m : List Host.Cell)

@[simp] theorem State.setMem_id : (s.setMem m).hart.id = s.hart.id := rfl
@[simp] theorem State.setMem_x : (s.setMem m).hart.x = s.hart.x := rfl
@[simp] theorem State.setMem_f : (s.setMem m).hart.f = s.hart.f := rfl
@[simp] theorem State.setMem_pc : (s.setMem m).hart.pc = s.hart.pc := rfl
@[simp] theorem State.setMem_priv : (s.setMem m).hart.priv = s.hart.priv := rfl
@[simp] theorem State.setMem_csr : (s.setMem m).hart.csr = s.hart.csr := rfl
@[simp] theorem State.setMem_wfi : (s.setMem m).hart.wfi = s.hart.wfi := rfl
@[simp] theorem State.setMem_semihost : (s.setMem m).hart.semihost = s.hart.semihost := rfl
@[simp] theorem State.setMem_halted : (s.setMem m).hart.halted = s.hart.halted := rfl
@[simp] theorem State.setMem_res : (s.setMem m).hart.res = s.hart.res := rfl
@[simp] theorem State.setMem_hart : (s.setMem m).hart = s.hart := rfl
@[simp] theorem State.setMem_others : (s.setMem m).others = s.others := rfl
@[simp] theorem State.setMem_mem : (s.setMem m).mem = m := rfl
@[simp] theorem State.setMem_tlb : (s.setMem m).tlb = s.tlb := rfl
@[simp] theorem State.setMem_mtime : (s.setMem m).mtime = s.mtime := rfl
@[simp] theorem State.setMem_plat : (s.setMem m).plat = s.plat := rfl
@[simp] theorem State.setMem_tape : (s.setMem m).tape = s.tape := rfl
@[simp] theorem State.setMem_tick : (s.setMem m).tick = s.tick := rfl
@[simp] theorem State.setMem_bus : (s.setMem m).bus = s.bus := rfl
@[simp] theorem State.setMem_note : (s.setMem m).note = s.note := rfl

end

section
variable (t : List TlbEntry)

@[simp] theorem State.setTlb_id : (s.setTlb t).hart.id = s.hart.id := rfl
@[simp] theorem State.setTlb_x : (s.setTlb t).hart.x = s.hart.x := rfl
@[simp] theorem State.setTlb_f : (s.setTlb t).hart.f = s.hart.f := rfl
@[simp] theorem State.setTlb_pc : (s.setTlb t).hart.pc = s.hart.pc := rfl
@[simp] theorem State.setTlb_priv : (s.setTlb t).hart.priv = s.hart.priv := rfl
@[simp] theorem State.setTlb_csr : (s.setTlb t).hart.csr = s.hart.csr := rfl
@[simp] theorem State.setTlb_wfi : (s.setTlb t).hart.wfi = s.hart.wfi := rfl
@[simp] theorem State.setTlb_semihost : (s.setTlb t).hart.semihost = s.hart.semihost := rfl
@[simp] theorem State.setTlb_halted : (s.setTlb t).hart.halted = s.hart.halted := rfl
@[simp] theorem State.setTlb_res : (s.setTlb t).hart.res = s.hart.res := rfl
@[simp] theorem State.setTlb_hart : (s.setTlb t).hart = s.hart := rfl
@[simp] theorem State.setTlb_others : (s.setTlb t).others = s.others := rfl
@[simp] theorem State.setTlb_mem : (s.setTlb t).mem = s.mem := rfl
@[simp] theorem State.setTlb_tlb : (s.setTlb t).tlb = t := rfl
@[simp] theorem State.setTlb_mtime : (s.setTlb t).mtime = s.mtime := rfl
@[simp] theorem State.setTlb_plat : (s.setTlb t).plat = s.plat := rfl
@[simp] theorem State.setTlb_tape : (s.setTlb t).tape = s.tape := rfl
@[simp] theorem State.setTlb_tick : (s.setTlb t).tick = s.tick := rfl
@[simp] theorem State.setTlb_bus : (s.setTlb t).bus = s.bus := rfl
@[simp] theorem State.setTlb_note : (s.setTlb t).note = s.note := rfl

end

section
variable (n : StepNote)

@[simp] theorem State.setNote_id : (s.setNote n).hart.id = s.hart.id := rfl
@[simp] theorem State.setNote_x : (s.setNote n).hart.x = s.hart.x := rfl
@[simp] theorem State.setNote_f : (s.setNote n).hart.f = s.hart.f := rfl
@[simp] theorem State.setNote_pc : (s.setNote n).hart.pc = s.hart.pc := rfl
@[simp] theorem State.setNote_priv : (s.setNote n).hart.priv = s.hart.priv := rfl
@[simp] theorem State.setNote_csr : (s.setNote n).hart.csr = s.hart.csr := rfl
@[simp] theorem State.setNote_wfi : (s.setNote n).hart.wfi = s.hart.wfi := rfl
@[simp] theorem State.setNote_semihost : (s.setNote n).hart.semihost = s.hart.semihost := rfl
@[simp] theorem State.setNote_halted : (s.setNote n).hart.halted = s.hart.halted := rfl
@[simp] theorem State.setNote_res : (s.setNote n).hart.res = s.hart.res := rfl
@[simp] theorem State.setNote_hart : (s.setNote n).hart = s.hart := rfl
@[simp] theorem State.setNote_others : (s.setNote n).others = s.others := rfl
@[simp] theorem State.setNote_mem : (s.setNote n).mem = s.mem := rfl
@[simp] theorem State.setNote_tlb : (s.setNote n).tlb = s.tlb := rfl
@[simp] theorem State.setNote_mtime : (s.setNote n).mtime = s.mtime := rfl
@[simp] theorem State.setNote_plat : (s.setNote n).plat = s.plat := rfl
@[simp] theorem State.setNote_tape : (s.setNote n).tape = s.tape := rfl
@[simp] theorem State.setNote_tick : (s.setNote n).tick = s.tick := rfl
@[simp] theorem State.setNote_bus : (s.setNote n).bus = s.bus := rfl
@[simp] theorem State.setNote_note : (s.setNote n).note = n := rfl

end

@[simp] theorem State.nextTick_id : s.nextTick.hart.id = s.hart.id := rfl
@[simp] theorem State.nextTick_x : s.nextTick.hart.x = s.hart.x := rfl
@[simp] theorem State.nextTick_f : s.nextTick.hart.f = s.hart.f := rfl
@[simp] theorem State.nextTick_pc : s.nextTick.hart.pc = s.hart.pc := rfl
@[simp] theorem State.nextTick_priv : s.nextTick.hart.priv = s.hart.priv := rfl
@[simp] theorem State.nextTick_csr : s.nextTick.hart.csr = s.hart.csr := rfl
@[simp] theorem State.nextTick_wfi : s.nextTick.hart.wfi = s.hart.wfi := rfl
@[simp] theorem State.nextTick_semihost : s.nextTick.hart.semihost = s.hart.semihost := rfl
@[simp] theorem State.nextTick_halted : s.nextTick.hart.halted = s.hart.halted := rfl
@[simp] theorem State.nextTick_res : s.nextTick.hart.res = s.hart.res := rfl
@[simp] theorem State.nextTick_hart : s.nextTick.hart = s.hart := rfl
@[simp] theorem State.nextTick_others : s.nextTick.others = s.others := rfl
@[simp] theorem State.nextTick_mem : s.nextTick.mem = s.mem := rfl
@[simp] theorem State.nextTick_tlb : s.nextTick.tlb = s.tlb := rfl
@[simp] theorem State.nextTick_mtime : s.nextTick.mtime = s.mtime := rfl
@[simp] theorem State.nextTick_plat : s.nextTick.plat = s.plat := rfl
@[simp] theorem State.nextTick_tape : s.nextTick.tape = s.tape := rfl
@[simp] theorem State.nextTick_tick : s.nextTick.tick = s.tick + 1 := rfl
@[simp] theorem State.nextTick_bus : s.nextTick.bus = s.bus := rfl
@[simp] theorem State.nextTick_note : s.nextTick.note = s.note := rfl

end Sys2Proof.Machine
end

