-- ==== Sys2Proof/Laws/Registers.lean ====
section
/-! SUPPORT. Registers and stored CSRs: read after write, and what a write leaves alone. -/

namespace Sys2Proof.Machine

theorem regIndex_inj {r q : RegNum} : regIndex r = regIndex q ↔ r = q := by
  constructor
  · intro h
    exact BitVec.eq_of_toNat_eq (congrArg Fin.val h)
  · rintro rfl; rfl

@[simp] theorem readX_zero (s : State) : readX 0 s = 0 := rfl

/-- A register reads as last written; x0 reads 0. -/
theorem readX_writeX (r q : RegNum) (v : Word) (s : State) :
    readX r (writeX q v s) = if r = q ∧ r ≠ 0 then v else readX r s := by
  unfold readX writeX
  by_cases hr : r = 0
  · simp [hr]
  · by_cases hq : q = 0
    · simp only [hq, if_true]
      exact (if_neg fun h => h.2 h.1).symm
    · simp only [hr, hq, if_false, State.setGprs_x, ne_eq, not_false_eq_true, and_true]
      by_cases h : r = q
      · subst h; simp
      · rw [if_neg h]
        simp only [Fin.getElem_fin]
        rw [Vector.getElem_set_ne]
        intro h'
        exact h (regIndex_inj.1 (Fin.ext h'.symm))

theorem readF_writeF (r q : RegNum) (v : Word) (s : State) :
    readF r (writeF q v s) = if r = q then v else readF r s := by
  unfold readF writeF
  by_cases h : r = q
  · subst h; simp
  · simp only [h, if_false, State.setFprs_f, Fin.getElem_fin]
    rw [Vector.getElem_set_ne]
    intro h'
    exact h (regIndex_inj.1 (Fin.ext h'.symm))

section
variable (r : RegNum) (v : Word) (s : State)

@[simp] theorem writeX_id : (writeX r v s).hart.id = s.hart.id := by unfold writeX; split <;> rfl
@[simp] theorem writeX_f : (writeX r v s).hart.f = s.hart.f := by unfold writeX; split <;> rfl
@[simp] theorem writeX_pc : (writeX r v s).hart.pc = s.hart.pc := by unfold writeX; split <;> rfl
@[simp] theorem writeX_priv : (writeX r v s).hart.priv = s.hart.priv := by unfold writeX; split <;> rfl
@[simp] theorem writeX_csr : (writeX r v s).hart.csr = s.hart.csr := by unfold writeX; split <;> rfl
@[simp] theorem writeX_wfi : (writeX r v s).hart.wfi = s.hart.wfi := by unfold writeX; split <;> rfl
@[simp] theorem writeX_semihost : (writeX r v s).hart.semihost = s.hart.semihost := by
  unfold writeX; split <;> rfl
@[simp] theorem writeX_halted : (writeX r v s).hart.halted = s.hart.halted := by
  unfold writeX; split <;> rfl
@[simp] theorem writeX_res : (writeX r v s).hart.res = s.hart.res := by unfold writeX; split <;> rfl
@[simp] theorem writeX_others : (writeX r v s).others = s.others := by unfold writeX; split <;> rfl
@[simp] theorem writeX_mem : (writeX r v s).mem = s.mem := by unfold writeX; split <;> rfl
@[simp] theorem writeX_tlb : (writeX r v s).tlb = s.tlb := by unfold writeX; split <;> rfl
@[simp] theorem writeX_mtime : (writeX r v s).mtime = s.mtime := by unfold writeX; split <;> rfl
@[simp] theorem writeX_plat : (writeX r v s).plat = s.plat := by unfold writeX; split <;> rfl
@[simp] theorem writeX_tape : (writeX r v s).tape = s.tape := by unfold writeX; split <;> rfl
@[simp] theorem writeX_tick : (writeX r v s).tick = s.tick := by unfold writeX; split <;> rfl
@[simp] theorem writeX_bus : (writeX r v s).bus = s.bus := by unfold writeX; split <;> rfl
@[simp] theorem writeX_note : (writeX r v s).note = s.note := by unfold writeX; split <;> rfl

/-- x0 stays as it is. -/
@[simp] theorem writeX_x0 : (writeX r v s).hart.x[0] = s.hart.x[0] := by
  unfold writeX
  split
  · rfl
  · rename_i h
    simp only [State.setGprs_x]
    rw [Vector.getElem_set_ne]
    intro h'
    apply h
    apply BitVec.eq_of_toNat_eq
    simpa [regIndex] using h'

@[simp] theorem writeF_id : (writeF r v s).hart.id = s.hart.id := rfl
@[simp] theorem writeF_x : (writeF r v s).hart.x = s.hart.x := rfl
@[simp] theorem writeF_pc : (writeF r v s).hart.pc = s.hart.pc := rfl
@[simp] theorem writeF_priv : (writeF r v s).hart.priv = s.hart.priv := rfl
@[simp] theorem writeF_csr : (writeF r v s).hart.csr = s.hart.csr := rfl
@[simp] theorem writeF_wfi : (writeF r v s).hart.wfi = s.hart.wfi := rfl
@[simp] theorem writeF_semihost : (writeF r v s).hart.semihost = s.hart.semihost := rfl
@[simp] theorem writeF_halted : (writeF r v s).hart.halted = s.hart.halted := rfl
@[simp] theorem writeF_res : (writeF r v s).hart.res = s.hart.res := rfl
@[simp] theorem writeF_others : (writeF r v s).others = s.others := rfl
@[simp] theorem writeF_mem : (writeF r v s).mem = s.mem := rfl
@[simp] theorem writeF_tlb : (writeF r v s).tlb = s.tlb := rfl
@[simp] theorem writeF_mtime : (writeF r v s).mtime = s.mtime := rfl
@[simp] theorem writeF_plat : (writeF r v s).plat = s.plat := rfl
@[simp] theorem writeF_tape : (writeF r v s).tape = s.tape := rfl
@[simp] theorem writeF_tick : (writeF r v s).tick = s.tick := rfl
@[simp] theorem writeF_bus : (writeF r v s).bus = s.bus := rfl
@[simp] theorem writeF_note : (writeF r v s).note = s.note := rfl

end

/-! ### Stored CSRs -/

theorem CsrFile.get_put (c : CsrFile) (v : Word) (r q : CsrReg) :
    (c.put v q).get r = if r = q then v else c.get r := by
  cases r <;> cases q <;> rfl

section
variable (q : CsrReg) (v : Word) (s : State)

theorem getCsr_setCsr (r : CsrReg) :
    getCsr r (setCsr q v s) = if r = q then v else getCsr r s := CsrFile.get_put _ _ _ _

@[simp] theorem setCsr_id : (setCsr q v s).hart.id = s.hart.id := rfl
@[simp] theorem setCsr_x : (setCsr q v s).hart.x = s.hart.x := rfl
@[simp] theorem setCsr_f : (setCsr q v s).hart.f = s.hart.f := rfl
@[simp] theorem setCsr_pc : (setCsr q v s).hart.pc = s.hart.pc := rfl
@[simp] theorem setCsr_priv : (setCsr q v s).hart.priv = s.hart.priv := rfl
@[simp] theorem setCsr_csr : (setCsr q v s).hart.csr = s.hart.csr.put v q := rfl
@[simp] theorem setCsr_wfi : (setCsr q v s).hart.wfi = s.hart.wfi := rfl
@[simp] theorem setCsr_semihost : (setCsr q v s).hart.semihost = s.hart.semihost := rfl
@[simp] theorem setCsr_halted : (setCsr q v s).hart.halted = s.hart.halted := rfl
@[simp] theorem setCsr_res : (setCsr q v s).hart.res = s.hart.res := rfl
@[simp] theorem setCsr_others : (setCsr q v s).others = s.others := rfl
@[simp] theorem setCsr_mem : (setCsr q v s).mem = s.mem := rfl
@[simp] theorem setCsr_tlb : (setCsr q v s).tlb = s.tlb := rfl
@[simp] theorem setCsr_mtime : (setCsr q v s).mtime = s.mtime := rfl
@[simp] theorem setCsr_plat : (setCsr q v s).plat = s.plat := rfl
@[simp] theorem setCsr_tape : (setCsr q v s).tape = s.tape := rfl
@[simp] theorem setCsr_tick : (setCsr q v s).tick = s.tick := rfl
@[simp] theorem setCsr_bus : (setCsr q v s).bus = s.bus := rfl
@[simp] theorem setCsr_note : (setCsr q v s).note = s.note := rfl

end

end Sys2Proof.Machine
end

