-- ==== Sys2Proof/Laws/Ops.lean ====
section
/-! SUPPORT. What each shared operation on registers does, in the terms of Safety.lean: ending an
instruction, jumping, floating-point results, taking and returning from an exception. -/

namespace Sys2Proof.Machine

section
variable (s : State)

theorem KeepsMode.refl : KeepsMode s s := ⟨rfl, rfl, rfl, rfl, rfl⟩
theorem KeepsShared.refl : KeepsShared s s := ⟨rfl, fun _ => rfl, rfl, rfl, rfl, rfl⟩

@[simp] theorem retireTo_id (p : Word) : (retireTo p s).hart.id = s.hart.id := rfl
@[simp] theorem retireTo_x (p : Word) : (retireTo p s).hart.x = s.hart.x := rfl
@[simp] theorem retireTo_f (p : Word) : (retireTo p s).hart.f = s.hart.f := rfl
@[simp] theorem retireTo_pc (p : Word) : (retireTo p s).hart.pc = p := rfl
@[simp] theorem retireTo_priv (p : Word) : (retireTo p s).hart.priv = s.hart.priv := rfl
@[simp] theorem retireTo_csr (p : Word) : (retireTo p s).hart.csr = s.hart.csr := rfl
@[simp] theorem retireTo_wfi (p : Word) : (retireTo p s).hart.wfi = s.hart.wfi := rfl
@[simp] theorem retireTo_semihost (p : Word) : (retireTo p s).hart.semihost = s.hart.semihost := rfl
@[simp] theorem retireTo_halted (p : Word) : (retireTo p s).hart.halted = s.hart.halted := rfl
@[simp] theorem retireTo_res (p : Word) : (retireTo p s).hart.res = s.hart.res := rfl
@[simp] theorem retireTo_others (p : Word) : (retireTo p s).others = s.others := rfl
@[simp] theorem retireTo_mem (p : Word) : (retireTo p s).mem = s.mem := rfl
@[simp] theorem retireTo_tlb (p : Word) : (retireTo p s).tlb = s.tlb := rfl
@[simp] theorem retireTo_mtime (p : Word) : (retireTo p s).mtime = s.mtime := rfl
@[simp] theorem retireTo_plat (p : Word) : (retireTo p s).plat = s.plat := rfl
@[simp] theorem retireTo_tape (p : Word) : (retireTo p s).tape = s.tape := rfl
@[simp] theorem retireTo_tick (p : Word) : (retireTo p s).tick = s.tick := rfl
@[simp] theorem retireTo_bus (p : Word) : (retireTo p s).bus = s.bus := rfl
@[simp] theorem retireTo_note (p : Word) :
    (retireTo p s).note = { s.note with retired := true } := rfl

@[simp] theorem readX_retireTo (r : RegNum) (p : Word) : readX r (retireTo p s) = readX r s := rfl
@[simp] theorem readF_retireTo (r : RegNum) (p : Word) : readF r (retireTo p s) = readF r s := rfl

/-- Writing `x[rd]` and retiring to `p` changes nothing else of the hart. -/
theorem hartWroteX_retireTo (rd : RegNum) (v p : Word) :
    HartWroteX rd v p s (retireTo p (writeX rd v s)) where
  result h := (readX_writeX rd rd v s).trans (if_pos ⟨rfl, h⟩)
  frame r h := by
    rw [readX_retireTo, readX_writeX, if_neg]
    rintro ⟨rfl, h'⟩
    simp_all
  fprs := by simp
  csrs := by simp
  pc := by simp
  retired := by simp
  mode := by constructor <;> simp

theorem wroteX_retireTo (rd : RegNum) (v p : Word) : WroteX rd v p s (retireTo p (writeX rd v s)) where
  hart := hartWroteX_retireTo s rd v p
  res := by simp
  shared := by constructor <;> simp

/-- `retireX` writes `x[rd]`, advances the pc and changes nothing else. -/
theorem wroteX_retireX (len : Word) (rd : RegNum) (v : Word) :
    WroteX rd v (s.hart.pc + len) s (retireX len rd v s) := by
  have h := wroteX_retireTo s rd v (s.hart.pc + len)
  simpa [retireX, retire] using h

/-- `jumpLink` links, jumps and changes nothing else. -/
theorem wroteX_jumpLink (rd : RegNum) (link target : Word) :
    WroteX rd link target s (jumpLink rd link target s) := wroteX_retireTo s rd link target

/-- Moving the pc and retiring changes nothing else. -/
theorem onlyMovedPc_retireTo (p : Word) : OnlyMovedPc p s (retireTo p s) := wroteX_retireTo s 0 0 p

theorem onlyMovedPc_retire (len : Word) : OnlyMovedPc (s.hart.pc + len) s (retire len s) :=
  wroteX_retireTo s 0 0 _

theorem onlyMovedPc_branch (len offset : Word) (taken : Bool) :
    OnlyMovedPc (s.hart.pc + if taken then offset else len) s (branch len taken offset s) :=
  onlyMovedPc_retireTo s _

end

/-- A value equal to the one written may stand in its place. -/
theorem WroteX.of_eq {rd : RegNum} {v w p : Word} {s t : State} (h : WroteX rd v p s t) (e : v = w) :
    WroteX rd w p s t := e ▸ h

/-! ### Floating-point results -/

/-- Writing FS = 3 sets bits 14:13. -/
theorem statusDirtyFS_eq (v : Word) : statusDirtyFS v = v ||| 0x6000#64 := by
  unfold statusDirtyFS putField
  ext i hi
  simp only [BitVec.getElem_or, BitVec.getElem_and, BitVec.getElem_not]
  have e1 : (3#2).setWidth 64 <<< 13 = 0x6000#64 := by decide
  have e2 : BitVec.ofNat 64 (2 ^ 2 - 1) <<< 13 = 0x6000#64 := by decide
  rw [e1, e2]
  cases v[i] <;> cases (0x6000#64)[i] <;> rfl

section
variable (s : State)

theorem setDirtyFS_csr : (setDirtyFS s).hart.csr =
    { s.hart.csr with mstatus := s.hart.csr.mstatus ||| 0x6000#64 } := by
  simp only [setDirtyFS, statusDirtyFS_eq]
  rfl

@[simp] theorem setDirtyFS_id : (setDirtyFS s).hart.id = s.hart.id := rfl
@[simp] theorem setDirtyFS_x : (setDirtyFS s).hart.x = s.hart.x := rfl
@[simp] theorem setDirtyFS_f : (setDirtyFS s).hart.f = s.hart.f := rfl
@[simp] theorem setDirtyFS_pc : (setDirtyFS s).hart.pc = s.hart.pc := rfl
@[simp] theorem setDirtyFS_priv : (setDirtyFS s).hart.priv = s.hart.priv := rfl
@[simp] theorem setDirtyFS_wfi : (setDirtyFS s).hart.wfi = s.hart.wfi := rfl
@[simp] theorem setDirtyFS_semihost : (setDirtyFS s).hart.semihost = s.hart.semihost := rfl
@[simp] theorem setDirtyFS_halted : (setDirtyFS s).hart.halted = s.hart.halted := rfl
@[simp] theorem setDirtyFS_res : (setDirtyFS s).hart.res = s.hart.res := rfl
@[simp] theorem setDirtyFS_others : (setDirtyFS s).others = s.others := rfl
@[simp] theorem setDirtyFS_mem : (setDirtyFS s).mem = s.mem := rfl
@[simp] theorem setDirtyFS_tlb : (setDirtyFS s).tlb = s.tlb := rfl
@[simp] theorem setDirtyFS_mtime : (setDirtyFS s).mtime = s.mtime := rfl
@[simp] theorem setDirtyFS_plat : (setDirtyFS s).plat = s.plat := rfl
@[simp] theorem setDirtyFS_bus : (setDirtyFS s).bus = s.bus := rfl
@[simp] theorem setDirtyFS_note : (setDirtyFS s).note = s.note := rfl
@[simp] theorem setDirtyFS_tape : (setDirtyFS s).tape = s.tape := rfl
@[simp] theorem setDirtyFS_tick : (setDirtyFS s).tick = s.tick := rfl

/-- `accrue` ORs the flags into fcsr and dirties FS when there is one; it changes nothing else. -/
theorem accrue_eq (fl : BitVec 5) : accrue fl s = s.setCsrFile { s.hart.csr with
    fcsr := s.hart.csr.fcsr ||| fl.setWidth 64
    mstatus := if fl != 0 then s.hart.csr.mstatus ||| 0x6000#64 else s.hart.csr.mstatus } := by
  unfold accrue
  by_cases h : fl = 0
  · subst h
    simp [State.setCsrFile]
  · rw [if_neg h]
    simp only [setDirtyFS, statusDirtyFS_eq, bne_iff_ne, ne_eq, h, not_false_eq_true, if_true]
    rfl

/-- `resultF` in the terms of `WroteF`. -/
theorem wroteF_retire_resultF (fmt : FpFmt) (rd : RegNum) (r : FpResult) (len : Word) :
    WroteF rd (fpBox fmt r.value) r.flags len s (retire len (resultF fmt rd r s)) where
  result := by
    simp only [resultF, accrue_eq, retire, readF_retireTo]
    exact (readF_writeF rd rd _ s).trans (if_pos rfl)
  frame q h := by
    simp only [resultF, accrue_eq, retire, readF_retireTo]
    exact (readF_writeF q rd _ s).trans (if_neg h)
  gprs := by simp [resultF, accrue_eq, retire, writeFp]
  csrs := by
    simp only [resultF, accrue_eq, retire, writeFp, retireTo_csr, State.setCsrFile_csr,
      setDirtyFS_csr, writeF_csr, FpCsrs]
    congr 1
    split
    · rw [BitVec.or_assoc, BitVec.or_self]; rfl
    · rfl
  pc := by simp [resultF, accrue_eq, retire, writeFp]
  retired := by simp [resultF, accrue_eq, retire, writeFp]
  mode := by constructor <;> simp [resultF, accrue_eq, retire, writeFp]
  res := by simp [resultF, accrue_eq, retire, writeFp]
  shared := by constructor <;> simp [resultF, accrue_eq, retire, writeFp]

/-- `writeFp` alone accrues no flag. -/
theorem wroteF_retire_writeFp (rd : RegNum) (v len : Word) :
    WroteF rd v 0 len s (retire len (writeFp rd v s)) := by
  have h := wroteF_retire_resultF s .D rd ⟨v, 0⟩ len
  simpa [resultF, accrue, fpBox] using h

theorem wroteXFlags_retire_accrue (rd : RegNum) (v : Word) (fl : BitVec 5) :
    WroteXFlags rd v fl s (retire 4 (accrue fl (writeX rd v s))) where
  result h := by
    simp only [accrue_eq, retire, readX_retireTo]
    exact (readX_writeX rd rd v s).trans (if_pos ⟨rfl, h⟩)
  frame q h := by
    simp only [accrue_eq, retire, readX_retireTo]
    refine (readX_writeX q rd v s).trans (if_neg ?_)
    rintro ⟨rfl, h'⟩
    simp_all
  fprs := by simp [accrue_eq, retire]
  csrs := by simp [accrue_eq, retire, FpCsrs]
  pc := by simp [accrue_eq, retire]
  retired := by simp [accrue_eq, retire]
  mode := by constructor <;> simp [accrue_eq, retire]
  res := by simp [accrue_eq, retire]
  shared := by constructor <;> simp [accrue_eq, retire]

end

/-! ### Gates -/

theorem fpGate_on {i : Instr} {run : State → Attempt Unit} {s : State}
    (h : statusFS s.hart.csr.mstatus ≠ 0) : fpGate i run s = run s := if_neg h

theorem fpGate_off {i : Instr} {run : State → Attempt Unit} {s : State}
    (h : statusFS s.hart.csr.mstatus = 0) : fpGate i run s = .raise (illegalWord i) s := if_pos h

/-- A rounded operation with FS on and a legal rounding mode. -/
theorem fpRounded_ok {i : Instr} {rm : BitVec 3} {fmt : FpFmt} {op : FpOp} {ops : List Word}
    {finish : FpResult → State → State} {s : State} {mode : RoundingMode}
    (hfs : statusFS s.hart.csr.mstatus ≠ 0)
    (hm : resolveMode rm (fcsrFrm s.hart.csr.fcsr) = some mode) :
    fpRounded i rm fmt op ops finish s =
      .next (retire 4 (finish (fpArith fmt op ops (some mode) s) s)) := by
  unfold fpRounded
  rw [fpGate_on hfs]
  have : getCsr .fcsr s = s.hart.csr.fcsr := rfl
  simp only [this, hm, settle]

theorem fpRounded_badMode {i : Instr} {rm : BitVec 3} {fmt : FpFmt} {op : FpOp} {ops : List Word}
    {finish : FpResult → State → State} {s : State}
    (hm : resolveMode rm (fcsrFrm s.hart.csr.fcsr) = none) :
    fpRounded i rm fmt op ops finish s = .next (takeException (illegalWord i) s) := by
  unfold fpRounded fpGate
  have : getCsr .fcsr s = s.hart.csr.fcsr := rfl
  split
  · rfl
  · simp only [this, hm, settle]

theorem fpUnrounded_ok {i : Instr} {fmt : FpFmt} {op : FpOp} {ops : List Word}
    {finish : FpResult → State → State} {s : State} (hfs : statusFS s.hart.csr.mstatus ≠ 0) :
    fpUnrounded i fmt op ops finish s = .next (retire 4 (finish (fpArith fmt op ops none s) s)) := by
  unfold fpUnrounded
  rw [fpGate_on hfs]
  rfl

/-! ### Taking an exception -/

/-- What trap entry does: an unresolved trap, or saved registers, privilege, pc, wfi and reservation. -/
theorem trapEntry_cases (interrupt : Bool) (code : Nat) (tval epc : Word) (s : State) :
    (vectorBase (trapVector (trapTarget interrupt code s) s) = 0 ∧
      trapEntry interrupt code tval epc s =
        unresolvedTrap (trapTarget interrupt code s) interrupt code tval epc s) ∨
    (vectorBase (trapVector (trapTarget interrupt code s) s) ≠ 0 ∧
      trapEntry interrupt code tval epc s =
        ((((saveTrap (trapTarget interrupt code s) interrupt code tval epc s).setPriv
          (trapTarget interrupt code s)).setPc
          (vectorTarget (trapVector (trapTarget interrupt code s) s) interrupt code)).setWfi
          false).setRes none) := by
  unfold trapEntry
  by_cases h : vectorBase (trapVector (trapTarget interrupt code s) s) = 0
  · exact .inl ⟨h, if_pos h⟩
  · exact .inr ⟨h, if_neg h⟩

/-- The target of a trap is S or M. -/
theorem trapTarget_cases (interrupt : Bool) (code : Nat) (s : State) :
    trapTarget interrupt code s = .S ∨ trapTarget interrupt code s = .M := by
  simp only [trapTarget]
  split <;> simp

section
variable (x : Priv) (interrupt : Bool) (code : Nat) (tval epc : Word) (s : State)

@[simp] theorem saveTrap_id : (saveTrap x interrupt code tval epc s).hart.id = s.hart.id := by
  unfold saveTrap; split <;> rfl
@[simp] theorem saveTrap_x : (saveTrap x interrupt code tval epc s).hart.x = s.hart.x := by
  unfold saveTrap; split <;> rfl
@[simp] theorem saveTrap_f : (saveTrap x interrupt code tval epc s).hart.f = s.hart.f := by
  unfold saveTrap; split <;> rfl
@[simp] theorem saveTrap_semihost :
    (saveTrap x interrupt code tval epc s).hart.semihost = s.hart.semihost := by
  unfold saveTrap; split <;> rfl
@[simp] theorem saveTrap_halted :
    (saveTrap x interrupt code tval epc s).hart.halted = s.hart.halted := by
  unfold saveTrap; split <;> rfl
@[simp] theorem saveTrap_others : (saveTrap x interrupt code tval epc s).others = s.others := by
  unfold saveTrap; split <;> rfl
@[simp] theorem saveTrap_mem : (saveTrap x interrupt code tval epc s).mem = s.mem := by
  unfold saveTrap; split <;> rfl
@[simp] theorem saveTrap_tlb : (saveTrap x interrupt code tval epc s).tlb = s.tlb := by
  unfold saveTrap; split <;> rfl
@[simp] theorem saveTrap_mtime : (saveTrap x interrupt code tval epc s).mtime = s.mtime := by
  unfold saveTrap; split <;> rfl
@[simp] theorem saveTrap_plat : (saveTrap x interrupt code tval epc s).plat = s.plat := by
  unfold saveTrap; split <;> rfl
@[simp] theorem saveTrap_bus : (saveTrap x interrupt code tval epc s).bus = s.bus := by
  unfold saveTrap; split <;> rfl
@[simp] theorem saveTrap_note : (saveTrap x interrupt code tval epc s).note = s.note := by
  unfold saveTrap; split <;> rfl
@[simp] theorem saveTrap_tick : (saveTrap x interrupt code tval epc s).tick = s.tick := by
  unfold saveTrap; split <;> rfl

@[simp] theorem saveTrap_pc : (saveTrap x interrupt code tval epc s).hart.pc = s.hart.pc := by
  unfold saveTrap; split <;> rfl
@[simp] theorem saveTrap_priv : (saveTrap x interrupt code tval epc s).hart.priv = s.hart.priv := by
  unfold saveTrap; split <;> rfl
@[simp] theorem saveTrap_res : (saveTrap x interrupt code tval epc s).hart.res = s.hart.res := by
  unfold saveTrap; split <;> rfl

/-- The CSRs a trap saves into. -/
theorem saveTrap_csr : (saveTrap x interrupt code tval epc s).hart.csr =
    if x = .S then { s.hart.csr with
      sepc := clearBit0 epc, scause := causeWord interrupt code, stval := tval
      mstatus := statusTrapS s.hart.priv s.hart.csr.mstatus }
    else { s.hart.csr with
      mepc := clearBit0 epc, mcause := causeWord interrupt code, mtval := tval
      mstatus := statusTrapM s.hart.priv s.hart.csr.mstatus } := by
  unfold saveTrap
  split <;> rfl

/-- An unresolved trap halts the hart with its report. -/
theorem unresolvedTrap_halted : (unresolvedTrap x interrupt code tval epc s).hart.halted =
    some ⟨interrupt, BitVec.ofNat 64 code, tval, epc⟩ := rfl

/-- The CSRs an unresolved trap leaves alone. -/
theorem unresolvedTrap_get (r : CsrReg)
    (hr : r ∉ [CsrReg.mstatus, .mepc, .mcause, .mtval, .sepc, .scause, .stval]) :
    (unresolvedTrap x interrupt code tval epc s).hart.csr.get r = s.hart.csr.get r := by
  simp only [List.mem_cons, List.not_mem_nil, or_false, not_or] at hr
  obtain ⟨h1, h2, h3, h4, h5, h6, h7⟩ := hr
  unfold unresolvedTrap
  by_cases hx : x = .S
  · simp only [if_pos hx, State.setHalted_csr, setCsr_csr, CsrFile.get_put, State.setPriv_csr,
      State.setPc_csr, if_neg h1, if_neg h5, if_neg h6, if_neg h7]
  · simp only [if_neg hx, State.setHalted_csr, setCsr_csr, CsrFile.get_put, State.setPriv_csr,
      State.setPc_csr, if_neg h1, if_neg h2, if_neg h3, if_neg h4]

/-- Trap entry leaves the registers, memory and all the harts share alone. -/
theorem trapEntry_frame : let t := trapEntry interrupt code tval epc s
    t.hart.id = s.hart.id ∧ t.hart.x = s.hart.x ∧ t.hart.f = s.hart.f ∧
    t.hart.semihost = s.hart.semihost ∧ t.others = s.others ∧ t.mem = s.mem ∧ t.tlb = s.tlb ∧
    t.mtime = s.mtime ∧ t.plat = s.plat ∧ t.bus = s.bus ∧ t.note = s.note := by
  intro t
  rcases trapEntry_cases interrupt code tval epc s with ⟨-, h⟩ | ⟨-, h⟩
  · simp only [t, h, unresolvedTrap]
    split <;> simp
  · simp [t, h]

end

end Sys2Proof.Machine
end

