-- ==== Sys2Proof/Laws/Access.lean ====
section
/-! SUPPORT. What draws, physical accesses, translation and virtual accesses can do: one frame that each
of them keeps, and that a plain access succeeds. -/

namespace Sys2Proof.Machine

/-- What an access may change: reservations may be lost, memory, the TLB partition of the stepping
hart, the tape, the tick and the bus may change; memory stays canonical and the TLB's keys distinct. -/
structure AccessFrame (s t : State) : Prop where
  hart    : t.hart = { s.hart with res := t.hart.res }
  res     : t.hart.res = s.hart.res ∨ t.hart.res = none
  others  : List.Forall₂ (fun h h' : Hart => h' = { h with res := h'.res } ∧
    (h'.res = h.res ∨ h'.res = none)) s.others t.others
  plat    : t.plat = s.plat
  mtime   : t.mtime = s.mtime
  note    : t.note = s.note
  memory  : Memory.wf s.mem → Memory.wf t.mem
  tlb     : tlbKeysDistinct s.tlb → tlbKeysDistinct t.tlb
  foreign : t.tlb.filter (fun e => e.hart != s.hart.id) = s.tlb.filter (fun e => e.hart != s.hart.id)

namespace AccessFrame

theorem forall₂_refl (l : List Hart) : List.Forall₂ (fun h h' : Hart =>
    h' = { h with res := h'.res } ∧ (h'.res = h.res ∨ h'.res = none)) l l := by
  induction l with
  | nil => exact .nil
  | cons h l ih => exact .cons ⟨rfl, .inl rfl⟩ ih

theorem forall₂_trans {l m n : List Hart}
    (h : List.Forall₂ (fun h h' : Hart =>
      h' = { h with res := h'.res } ∧ (h'.res = h.res ∨ h'.res = none)) l m)
    (k : List.Forall₂ (fun h h' : Hart =>
      h' = { h with res := h'.res } ∧ (h'.res = h.res ∨ h'.res = none)) m n) :
    List.Forall₂ (fun h h' : Hart =>
      h' = { h with res := h'.res } ∧ (h'.res = h.res ∨ h'.res = none)) l n := by
  induction h generalizing n with
  | nil => cases k; exact .nil
  | cons a _ ih =>
    cases k with
    | cons b k =>
      refine .cons ⟨?_, ?_⟩ (ih k)
      · rw [b.1, a.1]
      · rcases b.2 with e | e
        · rcases a.2 with e' | e'
          · exact .inl (e.trans e')
          · exact .inr (e.trans e')
        · exact .inr e

theorem refl (s : State) : AccessFrame s s :=
  ⟨rfl, .inl rfl, forall₂_refl _, rfl, rfl, rfl, id, id, rfl⟩

theorem id_eq {s t : State} (h : AccessFrame s t) : t.hart.id = s.hart.id := by rw [h.hart]
theorem pc_eq {s t : State} (h : AccessFrame s t) : t.hart.pc = s.hart.pc := by rw [h.hart]
theorem x_eq {s t : State} (h : AccessFrame s t) : t.hart.x = s.hart.x := by rw [h.hart]
theorem f_eq {s t : State} (h : AccessFrame s t) : t.hart.f = s.hart.f := by rw [h.hart]
theorem csr_eq {s t : State} (h : AccessFrame s t) : t.hart.csr = s.hart.csr := by rw [h.hart]
theorem priv_eq {s t : State} (h : AccessFrame s t) : t.hart.priv = s.hart.priv := by rw [h.hart]
theorem wfi_eq {s t : State} (h : AccessFrame s t) : t.hart.wfi = s.hart.wfi := by rw [h.hart]
theorem semihost_eq {s t : State} (h : AccessFrame s t) : t.hart.semihost = s.hart.semihost := by
  rw [h.hart]
theorem halted_eq {s t : State} (h : AccessFrame s t) : t.hart.halted = s.hart.halted := by
  rw [h.hart]

theorem trans {s t u : State} (h : AccessFrame s t) (k : AccessFrame t u) : AccessFrame s u where
  hart := by rw [k.hart, h.hart]
  res := by
    rcases k.res with e | e
    · rcases h.res with e' | e'
      · exact .inl (e.trans e')
      · exact .inr (e.trans e')
    · exact .inr e
  others := forall₂_trans h.others k.others
  plat := k.plat.trans h.plat
  mtime := k.mtime.trans h.mtime
  note := k.note.trans h.note
  memory := k.memory ∘ h.memory
  tlb := k.tlb ∘ h.tlb
  foreign := by
    have e := k.foreign
    rw [h.id_eq] at e
    exact e.trans h.foreign

end AccessFrame

/-! ### Draws -/

theorem drawDeviceRead_frame (s : State) : AccessFrame s (drawDeviceRead s).2 := by
  unfold drawDeviceRead
  split <;> exact ⟨rfl, .inl rfl, AccessFrame.forall₂_refl _, rfl, rfl, rfl, id, id, rfl⟩

theorem drawTlbUse_frame (s : State) : AccessFrame s (drawTlbUse s).2 := by
  unfold drawTlbUse
  split <;> exact ⟨rfl, .inl rfl, AccessFrame.forall₂_refl _, rfl, rfl, rfl, id, id, rfl⟩

/-! ### Physical accesses -/

theorem physRead_frame {pa : Word} {n : Nat} {s t : State} {v : Word}
    (h : physRead pa n s = some (v, t)) : AccessFrame s t := by
  unfold physRead at h
  split at h
  · cases h
  · split at h
    · cases h; exact .refl s
    · have e := drawDeviceRead_frame s
      simp only [Option.some.injEq, Prod.mk.injEq] at h
      obtain ⟨-, rfl⟩ := h
      exact e.trans ⟨rfl, .inl rfl, AccessFrame.forall₂_refl _, rfl, rfl, rfl, id, id, rfl⟩

/-- In RAM a read is of memory as it stands, with no effect. -/
theorem physRead_ram {pa : Word} {n : Nat} {s : State} (h : InRam s pa.toNat n) :
    physRead pa n s = some (Memory.readLE s.mem pa.toNat n, s) := by
  obtain ⟨r, hr, hk⟩ := h
  simp only [physRead, hr, hk]

theorem physRead_unmapped {pa : Word} {n : Nat} {s : State} (h : Unmapped s pa.toNat n) :
    physRead pa n s = none := by
  simp only [physRead, show findRegion s.plat.pmap pa.toNat n = none from h]

theorem physWrite_unmapped {pa : Word} {n : Nat} {v : Word} {s : State}
    (h : Unmapped s pa.toNat n) : physWrite pa n v s = none := by
  simp only [physWrite, show findRegion s.plat.pmap pa.toNat n = none from h]

theorem Hart.breakReservation_cases (a n : Nat) (h : Hart) :
    h.breakReservation a n = { h with res := (h.breakReservation a n).res } ∧
    ((h.breakReservation a n).res = h.res ∨ (h.breakReservation a n).res = none) := by
  refine ⟨rfl, ?_⟩
  simp only [Hart.breakReservation]
  cases h.res with
  | none => exact .inl rfl
  | some r =>
    simp only [Option.filter]
    split <;> simp

theorem clearReservations_frame (a n : Nat) (s : State) :
    AccessFrame s (clearReservations a n s) where
  hart := (Hart.breakReservation_cases a n s.hart).1
  res := (Hart.breakReservation_cases a n s.hart).2
  others := by
    show List.Forall₂ _ s.others (s.others.map _)
    rw [List.forall₂_map_right_iff]
    exact List.forall₂_same.2 fun h _ => Hart.breakReservation_cases a n h
  plat := rfl
  mtime := rfl
  note := rfl
  memory := id
  tlb := id
  foreign := rfl

theorem physWrite_frame {pa : Word} {n : Nat} {v : Word} {s t : State}
    (h : physWrite pa n v s = some t) : AccessFrame s t := by
  unfold physWrite at h
  split at h
  · cases h
  · split at h
    · cases h
      refine .trans ?_ (clearReservations_frame _ _ _)
      exact ⟨rfl, .inl rfl, AccessFrame.forall₂_refl _, rfl, rfl, rfl,
        fun h => Memory.writeLE_wf h _ _ _, id, rfl⟩
    · cases h
      refine .trans ?_ (clearReservations_frame _ _ _)
      exact ⟨rfl, .inl rfl, AccessFrame.forall₂_refl _, rfl, rfl, rfl, id, id, rfl⟩

/-- The spec's reading of an overlap: the two ranges share a byte. -/
theorem rangesOverlap_iff (a n b k : Nat) :
    rangesOverlap b k a n = true ↔
      ∃ j, j < n ∧ b ≤ a + j ∧ a + j < b + k := by
  simp only [rangesOverlap, decide_eq_true_eq]
  constructor
  · intro h
    refine ⟨max b a - a, ?_, ?_, ?_⟩ <;> omega
  · rintro ⟨j, h1, h2, h3⟩
    omega

theorem survivingRes_eq (a n : Nat) (r : Option Reservation) :
    r.filter (fun r => !rangesOverlap r.paddr.toNat r.width a n) = survivingRes a n r := by
  cases r with
  | none => rfl
  | some r =>
    simp only [survivingRes, Option.filter]
    have e : (List.range n).any (fun k => decide (r.paddr.toNat ≤ a + k) &&
        decide (a + k < r.paddr.toNat + r.width)) = rangesOverlap r.paddr.toNat r.width a n := by
      rw [Bool.eq_iff_iff, rangesOverlap_iff]
      simp [List.any_eq_true]
    rw [e]
    by_cases h : rangesOverlap r.paddr.toNat r.width a n = true <;> simp [h]

/-- The state after a write to RAM. -/
def ramWritten (a n : Nat) (v : Word) (s : State) : State :=
  clearReservations a n (s.setMem (Memory.writeLE s.mem a n v))

theorem physWrite_ram {pa : Word} {n : Nat} {v : Word} {s : State} (h : InRam s pa.toNat n) :
    physWrite pa n v s = some (ramWritten pa.toNat n v s) := by
  obtain ⟨r, hr, hk⟩ := h
  simp only [physWrite, hr, hk, ramWritten]

theorem ramWritten_hart (a n : Nat) (v : Word) (s : State) :
    (ramWritten a n v s).hart = { s.hart with res := survivingRes a n s.hart.res } := by
  rw [← survivingRes_eq]; rfl

theorem ramWritten_others (a n : Nat) (v : Word) (s : State) :
    (ramWritten a n v s).others = s.others.map fun h => { h with res := survivingRes a n h.res } := by
  show s.others.map _ = _
  congr 1
  funext h
  rw [← survivingRes_eq]; rfl

/-- The state after a write to RAM, field by field. -/
theorem ramWritten_eq (a n : Nat) (v : Word) (s : State) : ramWritten a n v s =
    { s with
      hart := { s.hart with res := survivingRes a n s.hart.res }
      others := s.others.map fun h => { h with res := survivingRes a n h.res }
      mem := Memory.writeLE s.mem a n v } := by
  rw [← ramWritten_hart a n v s, ← ramWritten_others a n v s]
  rfl

/-- A write to RAM in the terms of `StoredAt`. -/
theorem ramWritten_storedAt (a : Nat) {n : Nat} (v : Word) {s : State} (h : Memory.wf s.mem) :
    StoredAt a n v s (ramWritten a n v s) where
  stored _ hk := Memory.readByte_writeLE h a n v hk
  frame _ hb := Memory.readByte_writeLE_of_outside s.mem a n v hb
  others := ramWritten_others a n v s
  tlb := rfl
  mtime := rfl
  plat := rfl
  bus := rfl

/-! ### Translation -/

theorem tlbSetRaw_frame {e : TlbEntry} (raw : Word) {s : State} (he : e.hart = s.hart.id) :
    AccessFrame s (tlbSetRaw e raw s) where
  hart := rfl
  res := .inl rfl
  others := AccessFrame.forall₂_refl _
  plat := rfl
  mtime := rfl
  note := rfl
  memory := id
  tlb h := by
    show List.Pairwise _ (s.tlb.map _)
    rw [List.pairwise_map]
    refine h.imp fun {d f} hd => ?_
    simp only [TlbEntry.sameKey] at hd ⊢
    split <;> split <;> exact hd
  foreign := by
    show (s.tlb.map _).filter _ = _
    rw [List.filter_map]
    have e1 : ((fun d : TlbEntry => d.hart != s.hart.id) ∘
        fun d => if d = e then { d with raw := raw } else d) = fun d => d.hart != s.hart.id := by
      funext d
      simp only [Function.comp]
      split <;> rfl
    rw [e1]
    conv_rhs => rw [← List.map_id (s.tlb.filter _)]
    refine List.map_congr_left fun d hd => ?_
    rw [if_neg]
    · rfl
    · rintro rfl
      simp [he] at hd

theorem tlbInstall_frame {e : TlbEntry} {s : State} (he : e.hart = s.hart.id) :
    AccessFrame s (tlbInstall e s) where
  hart := rfl
  res := .inl rfl
  others := AccessFrame.forall₂_refl _
  plat := rfl
  mtime := rfl
  note := rfl
  memory := id
  tlb h := by
    refine List.pairwise_cons.2 ⟨fun d hd => ?_, h.filter _⟩
    have := (List.mem_filter.1 hd).2
    simp only [TlbEntry.sameKey, Bool.not_eq_true'] at this ⊢
    rw [← this]
    congr 1
    · congr 1
      · exact Bool.beq_comm ..
      · exact Bool.beq_comm ..
    · exact Bool.beq_comm ..
  foreign := by
    show List.filter _ (e :: s.tlb.filter _) = _
    rw [List.filter_cons_of_neg (by simp [he]), List.filter_filter]
    refine List.filter_congr fun d _ => ?_
    by_cases hd : d.hart = s.hart.id
    · simp [hd]
    · have : d.sameKey e = false := by
        simp only [TlbEntry.sameKey, he, Bool.and_eq_false_iff]
        exact .inr (by simpa using hd)
      simp [this]

/-- A usable entry is the stepping hart's own. -/
theorem tlbChoose_frame (va : Word) (s : State) : AccessFrame s (tlbChoose va s).2 ∧
    ∀ e, (tlbChoose va s).1 = some e → e.hart = s.hart.id := by
  unfold tlbChoose
  split
  · exact ⟨.refl s, by simp⟩
  · rename_i e es heq
    refine ⟨drawTlbUse_frame s, fun d hd => ?_⟩
    have hm : d ∈ e :: es := List.mem_of_getElem? hd
    rw [← heq] at hm
    have := (List.mem_filter.1 hm).2
    simp only [TlbEntry.usable, Bool.and_eq_true, beq_iff_eq] at this
    exact this.1.1

/-- Where the computation stops, with or without an exception, the frame holds. -/
def Attempt.Framed {α : Type} (s : State) : Attempt α → Prop
  | .ok _ t => AccessFrame s t
  | .raise _ t => AccessFrame s t

theorem Attempt.Framed.bind {α β : Type} {s : State} {c : Attempt α} {f : α → State → Attempt β}
    (hc : c.Framed s) (hf : ∀ a t, c = .ok a t → (f a t).Framed t) : (c.bind f).Framed s := by
  cases c with
  | raise t u => exact hc
  | ok a t =>
    have h := hf a t rfl
    simp only [Attempt.bind]
    cases hfa : f a t with
    | ok b u => rw [hfa] at h; exact hc.trans h
    | raise b u => rw [hfa] at h; exact hc.trans h

theorem Attempt.Framed.after {α : Type} {s t : State} {c : Attempt α} (h : AccessFrame s t)
    (hc : c.Framed t) : c.Framed s := by
  cases c with
  | ok a u => exact h.trans hc
  | raise a u => exact h.trans hc

theorem updateAD_framed (pte pteAddr : Word) (acc : Access) (va : Word) (s : State) :
    (updateAD pte pteAddr acc va s).Framed s := by
  unfold updateAD
  split
  · split
    · rename_i h; exact physWrite_frame h
    · exact .refl s
  · exact .refl s

theorem tlbHit_framed {e : TlbEntry} (va : Word) (acc : Access) (p : Priv) {s : State}
    (he : e.hart = s.hart.id) : (tlbHit e va acc p s).Framed s := by
  unfold tlbHit
  split
  · refine .bind (updateAD_framed ..) fun a t ht => ?_
    have h := updateAD_framed e.raw e.pteAddr acc va s
    rw [ht] at h
    exact tlbSetRaw_frame a (he.trans h.id_eq.symm)
  · exact .refl s

theorem walk_framed (va : Word) (acc : Access) (p : Priv) (n : Nat) (table : Word) (s : State) :
    (walk va acc p n table s).Framed s := by
  induction n generalizing table s with
  | zero => exact .refl s
  | succ level ih =>
    simp only [walk]
    split
    · exact .refl s
    · rename_i pte s1 h
      have h1 := physRead_frame h
      split
      · exact h1
      · split
        · split
          · exact h1
          · split
            · exact h1
            · refine .after h1 (.bind (updateAD_framed ..) fun a t ht => ?_)
              exact tlbInstall_frame rfl
        · exact .after h1 (ih _ _)

theorem translation_framed (va : Word) (acc : Access) (s : State) : (translation va acc s).Framed s := by
  unfold translation
  split
  · exact .refl s
  · split
    · exact .refl s
    · obtain ⟨h1, h2⟩ := tlbChoose_frame va s
      split
      · rename_i e t heq
        rw [heq] at h1 h2
        exact .after h1 (tlbHit_framed va acc _ ((h2 e rfl).trans h1.id_eq.symm))
      · rename_i t heq
        rw [heq] at h1
        exact .after h1 (walk_framed ..)

theorem translate_framed (va : Word) (acc : Access) (s : State) : (translate va acc s).Framed s :=
  .bind (translation_framed ..) fun _ t _ => .refl t

/-- An untranslated access has its virtual address as physical address, with no effect. -/
theorem translation_untranslated {va : Word} {acc : Access} {s : State} (h : Untranslated acc s) :
    translation va acc s = .ok ⟨va, none⟩ s := by
  have e : activeLevels acc s = none := by
    unfold activeLevels
    rcases h with h | h
    · rw [h]
    · have e2 : modeLevels (satpMode (getCsr .satp s)) = none := by
        have : satpMode (getCsr .satp s) = 0 := h
        rw [this]; rfl
      cases effectivePriv acc s <;> simp [e2]
  unfold translation
  rw [e]

theorem translate_untranslated {va : Word} {acc : Access} {s : State} (h : Untranslated acc s) :
    translate va acc s = .ok va s := by
  simp only [translate, translation_untranslated h, Attempt.bind]

/-! ### Virtual accesses -/

theorem readAt_framed (va : Word) (n : Nat) (acc : Access) (s : State) :
    (readAt va n acc s).Framed s := by
  refine .bind (translate_framed ..) fun pa t _ => ?_
  split
  · rename_i h; exact physRead_frame h
  · exact .refl t

theorem writeAt_framed (va : Word) (n : Nat) (v : Word) (s : State) :
    (writeAt va n v s).Framed s := by
  refine .bind (translate_framed ..) fun pa t _ => ?_
  split
  · rename_i h; exact physWrite_frame h
  · exact .refl t

theorem readBytewise_framed (va : Word) (n : Nat) (s : State) : (readBytewise va n s).Framed s := by
  induction n generalizing va s with
  | zero => exact .refl s
  | succ n ih =>
    refine .bind (readAt_framed ..) fun b t _ => .bind (ih _ _) fun v u _ => .refl u

theorem writeBytewise_framed (va : Word) (n : Nat) (v : Word) (s : State) :
    (writeBytewise va n v s).Framed s := by
  induction n generalizing va v s with
  | zero => exact .refl s
  | succ n ih => exact .bind (writeAt_framed ..) fun _ t _ => ih _ _ _

/-- A state with the RAM and the device events that survive, since `r`. -/
theorem Survivors.putIn_frame {k : Survivors} {r s : State} (f : AccessFrame r s)
    (h : Memory.wf r.mem → Memory.wf k.mem) : AccessFrame r (k.putIn s) :=
  ⟨f.hart, f.res, f.others, f.plat, f.mtime, f.note, h, f.tlb, f.foreign⟩

theorem Survivors.keep_wf {k : Survivors} (h : Memory.wf k.mem) (back : Option Word) (s t : State) :
    Memory.wf (k.keep back s t).mem := by
  unfold Survivors.keep
  cases back with
  | none => exact h
  | some a =>
    simp only
    split
    · exact Memory.writeLE_wf h ..
    · exact h

/-- A physical write with the reservations left as they were. -/
theorem physWrite_keepRes_frame {pa : Word} {n : Nat} {v : Word} {s t : State}
    (h : physWrite pa n v s = some t) : AccessFrame s { t with hart := s.hart, others := s.others } := by
  have f := physWrite_frame h
  exact ⟨rfl, .inl rfl, AccessFrame.forall₂_refl _, f.plat, f.mtime, f.note, f.memory, f.tlb, f.foreign⟩

theorem writePrecise_framed (va : Word) (n : Nat) (v : Word) {k : Survivors} {r s : State}
    (f : AccessFrame r s) (hk : Memory.wf r.mem → Memory.wf k.mem) :
    (writePrecise va n v k s).Framed r := by
  induction n generalizing va v k s with
  | zero => exact f
  | succ n ih =>
    have g := (translation_framed va .write s).after f
    simp only [writePrecise]
    split
    · rename_i e; rw [e] at g
      exact Survivors.putIn_frame g fun h => Survivors.keep_wf (hk h) ..
    · rename_i a t e; rw [e] at g
      have hk' : Memory.wf r.mem → Memory.wf (k.keep a.back s t).mem := fun h =>
        Survivors.keep_wf (hk h) ..
      split
      · exact Survivors.putIn_frame g hk'
      · rename_i u hu
        have h := ih (va + 1) (v >>> 8) (g.trans (physWrite_keepRes_frame hu)) hk'
        split
        · rename_i e; rw [e] at h
          exact h.trans (clearReservations_frame ..)
        · rename_i e; rw [e] at h
          exact h

theorem storeBytewise_framed (va : Word) (n : Nat) (v : Word) (s : State) :
    (storeBytewise va n v s).Framed s := by
  unfold storeBytewise
  split
  · exact writeBytewise_framed ..
  · exact writePrecise_framed _ _ _ (.refl s) id

theorem memRead_framed (va : Word) (n : Nat) (s : State) : (memRead va n s).Framed s := by
  unfold memRead
  split
  · exact readAt_framed ..
  · split
    · exact .refl s
    · exact readBytewise_framed ..

theorem memWrite_framed (va : Word) (n : Nat) (v : Word) (s : State) : (memWrite va n v s).Framed s := by
  unfold memWrite
  split
  · exact writeAt_framed ..
  · split
    · exact .refl s
    · exact storeBytewise_framed ..

theorem fetch_framed (s : State) : (fetch s).Framed s := by
  refine .bind (readAt_framed ..) fun v t _ => ?_
  simp only
  split
  · exact .refl t
  · exact .bind (readAt_framed ..) fun _ u _ => .refl u

/-! ### Plain accesses -/

theorem InRam.lt {s : State} {a n : Nat} (h : InRam s a n) : a + n ≤ 2 ^ 56 := by
  obtain ⟨r, hr, -⟩ := h
  have := List.find?_some hr
  simp only [Region.holds, Bool.and_eq_true, decide_eq_true_eq] at this
  exact this.2

theorem aligned_iff {va : Word} {n : Nat} : aligned va n = true ↔ va.toNat % n = 0 := by
  simp [aligned]

theorem readAt_plain {va : Word} {n : Nat} {acc : Access} {s : State} (hu : Untranslated acc s)
    (hr : InRam s va.toNat n) :
    readAt va n acc s = .ok (Memory.readLE s.mem va.toNat n) s := by
  unfold readAt
  rw [translate_untranslated hu]
  simp only [Attempt.bind, physRead_ram hr]

theorem writeAt_plain {va : Word} {n : Nat} {v : Word} {s : State} (hu : Untranslated .write s)
    (hr : InRam s va.toNat n) :
    writeAt va n v s = .ok () (ramWritten va.toNat n v s) := by
  unfold writeAt
  rw [translate_untranslated hu]
  simp only [Attempt.bind, physWrite_ram hr]

theorem toNat_add_one {va : Word} (h : va.toNat + 1 ≤ 2 ^ 56) : (va + 1).toNat = va.toNat + 1 := by
  rw [BitVec.toNat_add]
  change (va.toNat + 1) % 2 ^ 64 = _
  omega

theorem readBytewise_plain {va : Word} {n : Nat} {s : State} (hu : Untranslated .read s)
    (hr : ∀ k, k < n → InRam s (va.toNat + k) 1) :
    readBytewise va n s = .ok (Memory.readLE s.mem va.toNat n) s := by
  induction n generalizing va with
  | zero => rfl
  | succ n ih =>
    have h0 : InRam s va.toNat 1 := hr 0 (by omega)
    have e := toNat_add_one h0.lt
    have hr' : ∀ k, k < n → InRam s ((va + 1).toNat + k) 1 := fun k hk => by
      rw [e, show va.toNat + 1 + k = va.toNat + (k + 1) by omega]
      exact hr (k + 1) (by omega)
    simp only [readBytewise, readAt_plain hu h0, Attempt.bind, ih hr', e, Memory.readLE]
    congr 2
    simp

/-- A plain access reads the little-endian value from memory, with no effect. -/
theorem memRead_plain {va : Word} {n : Nat} {s : State} (h : PlainAccess va n .read s) :
    memRead va n s = .ok (Memory.readLE s.mem va.toNat n) s := by
  unfold memRead
  rcases h.bytes with ⟨ha, hr⟩ | ⟨ha, hm, hr⟩
  · rw [if_pos (aligned_iff.2 ha)]
    exact readAt_plain h.identity hr
  · rw [if_neg (fun h => ha (aligned_iff.1 h)), if_neg (by simp [hm])]
    exact readBytewise_plain h.identity hr

theorem Untranslated.of_eq {acc : Access} {s t : State} (h : Untranslated acc s)
    (hp : t.hart.priv = s.hart.priv) (hc : t.hart.csr = s.hart.csr) : Untranslated acc t := by
  unfold Untranslated effectivePriv getCsr at *
  rw [hp, hc]
  exact h

theorem survivingRes_add (a n : Nat) (r : Option Reservation) :
    survivingRes (a + 1) n (survivingRes a 1 r) = survivingRes a (n + 1) r := by
  simp only [← survivingRes_eq, Option.filter_filter]
  congr 1
  funext r
  have e : rangesOverlap r.paddr.toNat r.width a (n + 1) =
      (rangesOverlap r.paddr.toNat r.width a 1 || rangesOverlap r.paddr.toNat r.width (a + 1) n) := by
    rw [Bool.eq_iff_iff]
    simp only [Bool.or_eq_true, rangesOverlap, decide_eq_true_eq]
    omega
  rw [e]
  simp

theorem lowBytes_one (v : Word) : (lowBytes 1 v).setWidth 8 = v.setWidth 8 := by
  ext i hi
  have : (BitVec.ofNat 64 (2 ^ (8 * 1) - 1)).getLsbD i = true := by
    interval_cases i <;> rfl
  simp only [lowBytes, BitVec.getElem_setWidth, BitVec.getLsbD_and, this, Bool.and_true]

/-- The memory, reservations and other harts after `n` one-byte writes are those of one write. -/
theorem writeBytewise_plain {va : Word} {n : Nat} {v : Word} {s : State} (hu : Untranslated .write s)
    (hr : ∀ k, k < n → InRam s (va.toNat + k) 1) :
    writeBytewise va n v s = .ok () (ramWritten va.toNat n v s) := by
  induction n generalizing va v s with
  | zero =>
    simp only [writeBytewise]
    congr 1
    have e : ∀ r, survivingRes va.toNat 0 r = r := fun r => by cases r <;> simp [survivingRes]
    rw [ramWritten_eq]
    simp only [e, List.map_id', Memory.writeLE]
  | succ n ih =>
    have h0 : InRam s va.toNat 1 := hr 0 (by omega)
    have e := toNat_add_one h0.lt
    simp only [writeBytewise, writeAt_plain hu h0, Attempt.bind]
    rw [ih (hu.of_eq (by rw [ramWritten_hart]) (by rw [ramWritten_hart])) (fun k hk => by
      rw [e, show va.toNat + 1 + k = va.toNat + (k + 1) by omega]
      exact hr (k + 1) (by omega)), e]
    congr 1
    have eb := lowBytes_one v
    simp only [ramWritten_eq, survivingRes_add, List.map_map, Function.comp_def, Memory.writeLE, eb]

theorem survivingRes_comm (a n b k : Nat) (r : Option Reservation) :
    survivingRes a n (survivingRes b k r) = survivingRes b k (survivingRes a n r) := by
  simp only [← survivingRes_eq, Option.filter_filter]
  congr 1
  funext r
  exact Bool.and_comm ..

/-- A one-byte write to RAM with the reservations left as they were. -/
theorem ramWritten_keepRes (a n : Nat) (v : Word) (s : State) :
    { ramWritten a n v s with hart := s.hart, others := s.others } =
      s.setMem (Memory.writeLE s.mem a n v) := by
  rw [ramWritten_eq]; rfl

/-- The bytes written one by one and the reservations cleared after them are one write. -/
theorem clearReservations_ramWritten (a n : Nat) (v : Word) (s : State) :
    clearReservations a 1 (ramWritten (a + 1) n (v >>> 8)
      (s.setMem (Memory.writeLE s.mem a 1 (lowBytes 1 v)))) = ramWritten a (n + 1) v s := by
  have eb : (lowBytes 1 v).setWidth 8 = v.setWidth 8 := lowBytes_one v
  have e : ∀ t : State, clearReservations a 1 t = { t with
      hart := { t.hart with res := survivingRes a 1 t.hart.res }
      others := t.others.map fun h => { h with res := survivingRes a 1 h.res } } := fun t => by
    simp only [clearReservations, Hart.breakReservation, survivingRes_eq]
  rw [e, ramWritten_eq, ramWritten_eq]
  simp only [State.setMem, List.map_map, Function.comp_def, survivingRes_comm a 1, survivingRes_add,
    Memory.writeLE, eb]

/-- A precise bytewise store whose bytes are all in RAM is one write. -/
theorem writePrecise_plain {va : Word} {n : Nat} {v : Word} {k : Survivors} {s : State} (hu : Untranslated .write s)
    (hr : ∀ k, k < n → InRam s (va.toNat + k) 1) :
    writePrecise va n v k s = .ok () (ramWritten va.toNat n v s) := by
  induction n generalizing va v k s with
  | zero => exact writeBytewise_plain (n := 0) hu hr
  | succ n ih =>
    have h0 : InRam s va.toNat 1 := hr 0 (by omega)
    have e := toNat_add_one h0.lt
    simp only [writePrecise, translation_untranslated hu, physWrite_ram h0,
      ramWritten_keepRes]
    rw [ih (s := s.setMem (Memory.writeLE s.mem va.toNat 1 (lowBytes 1 v))) (hu.of_eq rfl rfl) (fun k hk => by
      rw [e, show va.toNat + 1 + k = va.toNat + (k + 1) by omega]
      exact hr (k + 1) (by omega)), e]
    simp only [clearReservations_ramWritten]

/-- A bytewise store whose bytes are all in RAM is one write, whichever rule a failing one follows. -/
theorem storeBytewise_plain {va : Word} {n : Nat} {v : Word} {s : State} (hu : Untranslated .write s)
    (hr : ∀ k, k < n → InRam s (va.toNat + k) 1) :
    storeBytewise va n v s = .ok () (ramWritten va.toNat n v s) := by
  unfold storeBytewise
  split
  · exact writeBytewise_plain hu hr
  · exact writePrecise_plain hu hr

/-- A plain store is one write to RAM. -/
theorem memWrite_plain {va : Word} {n : Nat} {v : Word} {s : State} (h : PlainAccess va n .write s) :
    memWrite va n v s = .ok () (ramWritten va.toNat n v s) := by
  unfold memWrite
  rcases h.bytes with ⟨ha, hr⟩ | ⟨ha, hm, hr⟩
  · rw [if_pos (aligned_iff.2 ha)]
    exact writeAt_plain h.identity hr
  · rw [if_neg (fun h => ha (aligned_iff.1 h)), if_neg (by simp [hm])]
    exact storeBytewise_plain h.identity hr

/-- A misaligned load under `trap` raises before it translates (20_memory R105). -/
theorem memRead_misaligned {va : Word} {n : Nat} {s : State} (ha : va.toNat % n ≠ 0)
    (hm : s.plat.misaligned = .trap) : memRead va n s = .raise ⟨.loadMisaligned, va⟩ s := by
  unfold memRead
  rw [if_neg (fun h => ha (aligned_iff.1 h)), if_pos hm]

theorem memWrite_misaligned {va : Word} {n : Nat} {v : Word} {s : State} (ha : va.toNat % n ≠ 0)
    (hm : s.plat.misaligned = .trap) : memWrite va n v s = .raise ⟨.storeMisaligned, va⟩ s := by
  unfold memWrite
  rw [if_neg (fun h => ha (aligned_iff.1 h)), if_pos hm]

/-! ### Bytewise accesses that fail -/

theorem readAt_unmapped {va : Word} {n : Nat} {acc : Access} {s : State} (hu : Untranslated acc s)
    (hr : Unmapped s va.toNat n) : readAt va n acc s = .raise (accessFault acc va) s := by
  unfold readAt
  rw [translate_untranslated hu]
  simp only [Attempt.bind, physRead_unmapped hr]

theorem writeAt_unmapped {va : Word} {n : Nat} {v : Word} {s : State} (hu : Untranslated .write s)
    (hr : Unmapped s va.toNat n) : writeAt va n v s = .raise (accessFault .write va) s := by
  unfold writeAt
  rw [translate_untranslated hu]
  simp only [Attempt.bind, physWrite_unmapped hr]

theorem ofNat_succ (va : Word) (k : Nat) : va + BitVec.ofNat 64 (k + 1) = va + 1 + BitVec.ofNat 64 k := by
  rw [BitVec.add_assoc]
  congr 1
  apply BitVec.eq_of_toNat_eq
  simp only [BitVec.toNat_add, BitVec.toNat_ofNat]
  change _ = (1 + _) % _
  omega

/-- The bytes after the first one, in RAM up to the one that is nowhere. -/
theorem inRam_tail {va : Word} {k : Nat} {s : State} (hr : ∀ j, j < k + 1 → InRam s (va.toNat + j) 1) :
    ∀ j, j < k → InRam s ((va + 1).toNat + j) 1 := fun j hj => by
  have h0 : InRam s (va.toNat + 0) 1 := hr 0 (by omega)
  rw [toNat_add_one h0.lt, show va.toNat + 1 + j = va.toNat + (j + 1) by omega]
  exact hr (j + 1) (by omega)

/-- A bytewise read faults at the first byte that no region holds, and has no effect. -/
theorem readBytewise_unmapped {va : Word} {n k : Nat} {s : State} (hu : Untranslated .read s)
    (hk : k < n) (hr : ∀ j, j < k → InRam s (va.toNat + j) 1)
    (hm : Unmapped s (va + BitVec.ofNat 64 k).toNat 1) :
    readBytewise va n s = .raise ⟨.loadAccess, va + BitVec.ofNat 64 k⟩ s := by
  induction n generalizing va k with
  | zero => omega
  | succ n ih =>
    cases k with
    | zero =>
      simp only [BitVec.add_zero] at hm ⊢
      simp only [readBytewise, readAt_unmapped hu hm, Attempt.bind, accessFault]
    | succ k =>
      rw [ofNat_succ] at hm ⊢
      have h0 : InRam s va.toNat 1 := hr 0 (by omega)
      simp only [readBytewise, readAt_plain hu h0, Attempt.bind,
        ih (by omega) (inRam_tail hr) hm]

/-- A bytewise write faults at the first byte that no region holds, the bytes before it written. -/
theorem writeBytewise_unmapped {va : Word} {n k : Nat} {v : Word} {s : State}
    (hu : Untranslated .write s) (hk : k < n) (hr : ∀ j, j < k → InRam s (va.toNat + j) 1)
    (hm : Unmapped s (va + BitVec.ofNat 64 k).toNat 1) : ∃ t,
    writeBytewise va n v s = .raise ⟨.storeAccess, va + BitVec.ofNat 64 k⟩ t ∧
      writeBytewise va k v s = .ok () t := by
  induction n generalizing va k v s with
  | zero => omega
  | succ n ih =>
    cases k with
    | zero =>
      simp only [BitVec.add_zero] at hm ⊢
      exact ⟨s, by simp only [writeBytewise, writeAt_unmapped hu hm, Attempt.bind, accessFault], rfl⟩
    | succ k =>
      rw [ofNat_succ] at hm ⊢
      have h0 : InRam s va.toNat 1 := hr 0 (by omega)
      simp only [writeBytewise, writeAt_plain hu h0, Attempt.bind]
      exact ih (hu.of_eq (by rw [ramWritten_hart]) (by rw [ramWritten_hart])) (by omega)
        (inRam_tail hr) hm

/-- A translation that wrote nothing back and was seen by no device. -/
theorem Survivors.keep_none (k : Survivors) (s : State) : k.keep none s s = k := by
  simp [Survivors.keep]

/-- A precise bytewise store that faults at the first byte that no region holds leaves what survives. -/
theorem writePrecise_unmapped {va : Word} {n j : Nat} {v : Word} {k : Survivors} {s : State}
    (hu : Untranslated .write s) (hj : j < n) (hr : ∀ i, i < j → InRam s (va.toNat + i) 1)
    (hm : Unmapped s (va + BitVec.ofNat 64 j).toNat 1) :
    writePrecise va n v k s = .raise ⟨.storeAccess, va + BitVec.ofNat 64 j⟩ (k.putIn s) := by
  induction n generalizing va j v s with
  | zero => omega
  | succ n ih =>
    cases j with
    | zero =>
      simp only [BitVec.add_zero] at hm ⊢
      simp only [writePrecise, translation_untranslated hu, Survivors.keep_none, physWrite_unmapped hm,
        accessFault]
    | succ j =>
      rw [ofNat_succ] at hm ⊢
      have h0 : InRam s va.toNat 1 := hr 0 (by omega)
      simp only [writePrecise, translation_untranslated hu, Survivors.keep_none, physWrite_ram h0,
        ramWritten_keepRes]
      rw [ih (s := s.setMem (Memory.writeLE s.mem va.toNat 1 (lowBytes 1 v))) (hu.of_eq rfl rfl)
        (by omega) (inRam_tail hr) hm]
      rfl

/-- A bytewise store that faults at the first byte that no region holds leaves the bytes before it
written, or nothing. -/
theorem storeBytewise_unmapped {va : Word} {n k : Nat} {v : Word} {s : State}
    (hu : Untranslated .write s) (hk : k < n) (hr : ∀ j, j < k → InRam s (va.toNat + j) 1)
    (hm : Unmapped s (va + BitVec.ofNat 64 k).toNat 1) :
    storeBytewise va n v s = .raise ⟨.storeAccess, va + BitVec.ofNat 64 k⟩
      (match s.plat.partialStore with
        | .kept => ramWritten va.toNat k v s
        | .undone => s) := by
  cases e : s.plat.partialStore with
  | kept =>
    obtain ⟨t, e1, e2⟩ := writeBytewise_unmapped (v := v) hu hk hr hm
    rw [writeBytewise_plain hu hr] at e2
    cases e2
    simpa only [storeBytewise, e] using e1
  | undone =>
    simp only [storeBytewise, e]
    exact writePrecise_unmapped hu hk hr hm

end Sys2Proof.Machine
end

