-- ==== Sys2Proof/Laws/Accesses.lean ====
section
/-! SUPPORT. The accesses of the machine against the relations of Safety.lean that describe them: an
access those relations say succeeds or raises does so, in the state they give. -/

namespace Sys2Proof.Machine

/-! ### Single accesses -/

/-- The low `n` bytes of two words are the same. -/
def SameBytes (n : Nat) (v w : Word) : Prop := ∀ k, k < n → v.extractLsb' (8 * k) 8 = w.extractLsb' (8 * k) 8

theorem getLsbD_lowBytes (n : Nat) (v : Word) (i : Nat) :
    (lowBytes n v).getLsbD i = (v.getLsbD i && decide (i < 8 * n)) := by
  simp only [lowBytes, BitVec.getLsbD_and, BitVec.getLsbD_ofNat, Nat.testBit_two_pow_sub_one]
  by_cases h : i < 64
  · simp [h]
  · simp [BitVec.getLsbD_of_ge v i (by omega)]

theorem SameBytes.lowBytes_eq {n : Nat} {v w : Word} (h : SameBytes n v w) : lowBytes n v = lowBytes n w := by
  apply BitVec.eq_of_getLsbD_eq
  intro i _
  rw [getLsbD_lowBytes, getLsbD_lowBytes]
  by_cases hi : i < 8 * n
  · have e := congrArg (·.getLsbD (i % 8)) (h (i / 8) (by omega))
    simp only [BitVec.getLsbD_extractLsb', show i % 8 < 8 by omega, decide_true, Bool.true_and,
      show 8 * (i / 8) + i % 8 = i by omega] at e
    rw [e]
  · simp [hi]

theorem sameBytes_lowBytes (n : Nat) (v : Word) : SameBytes n v (lowBytes n v) := by
  intro k hk
  apply BitVec.eq_of_getLsbD_eq
  intro i hi
  simp only [BitVec.getLsbD_extractLsb', getLsbD_lowBytes]
  simp [hi, show 8 * k + i < 8 * n by omega]

theorem SameBytes.shift {n : Nat} {v w : Word} (h : SameBytes (n + 1) v w) :
    SameBytes n (v >>> 8) (w >>> 8) := fun k hk => by
  have e := h (k + 1) (by omega)
  apply BitVec.eq_of_getLsbD_eq
  intro i hi
  have e := congrArg (·.getLsbD i) e
  simpa [BitVec.getLsbD_extractLsb', hi, Nat.mul_add, Nat.add_comm, Nat.add_left_comm] using e

theorem SameBytes.mono {n m : Nat} {v w : Word} (h : SameBytes n v w) (hm : m ≤ n) : SameBytes m v w :=
  fun k hk => h k (by omega)

theorem lowBytes_eq_ofNat (n : Nat) (v : Word) : lowBytes n v = BitVec.ofNat 64 (v.toNat % 256 ^ n) := by
  apply BitVec.eq_of_getLsbD_eq
  intro i hi
  rw [getLsbD_lowBytes, BitVec.getLsbD_ofNat, show (256 : Nat) ^ n = 2 ^ (8 * n) by rw [Nat.pow_mul],
    Nat.testBit_mod_two_pow]
  simp [hi, BitVec.getLsbD, Bool.and_comm]

theorem clearReservations_eq (a n : Nat) (s : State) : clearReservations a n s = s.loseReservations a n := by
  simp only [clearReservations, Hart.breakReservation, survivingRes_eq, State.loseReservations]

theorem writeLE_of_bytesStored {a n : Nat} {v w : Word} {m m' : List Host.Cell} (hw : Memory.wf m)
    (h : BytesStored a n v m m') (hv : SameBytes n v w) : Memory.writeLE m a n w = m' := by
  refine Memory.eq_of_readByte_eq (Memory.writeLE_wf hw ..) h.wf fun b => ?_
  by_cases hb : b < a ∨ a + n ≤ b
  · rw [Memory.readByte_writeLE_of_outside _ _ _ _ hb, h.frame b hb]
  · obtain ⟨k, rfl⟩ : ∃ k, b = a + k := ⟨b - a, by omega⟩
    rw [Memory.readByte_writeLE hw _ _ _ (by omega), h.stored k (by omega), hv k (by omega)]

theorem physRead_of_reads {pa : Word} {n : Nat} {s t : State} {value : Nat} (hn : n ≤ 8)
    (h : PhysReads pa n s value t) : physRead pa n s = some (BitVec.ofNat 64 value, t) := by
  cases h with
  | ram h => rw [physRead_ram h, Memory.readLE_eq_ofNat _ _ hn]
  | device d h _ low =>
    subst low
    obtain ⟨r, hr, hk⟩ := h
    have e : (drawDeviceRead s).2.bus = s.bus := by
      unfold drawDeviceRead; split <;> rfl
    simp only [physRead, hr, hk, lowBytes_eq_ofNat, e]

theorem physWrite_of_writes {pa : Word} {n : Nat} {v w : Word} {s t : State} (hw : Memory.wf s.mem)
    (hv : SameBytes n v w) (h : PhysWrites pa n v s t) : physWrite pa n w s = some t := by
  cases h with
  | ram h m hm =>
    rw [physWrite_ram h, ramWritten, writeLE_of_bytesStored hw hm hv, clearReservations_eq]; rfl
  | device d h =>
    obtain ⟨r, hr, hk⟩ := h
    simp only [physWrite, hr, hk, clearReservations_eq, ← hv.lowBytes_eq, lowBytes_eq_ofNat]

theorem accessFault_eq (acc : Access) (va : Word) : accessFault acc va = ⟨accessCause acc, va⟩ := by
  cases acc <;> rfl

theorem Attempt.Framed.ok {α : Type} {s t : State} {c : Attempt α} {a : α} (h : c.Framed s)
    (e : c = .ok a t) : AccessFrame s t := by rw [e] at h; exact h

theorem readAt_of_reads {va : Word} {n : Nat} {s t : State} {value : Nat} (hn : n ≤ 8)
    {acc : Access}
    (h : Reads acc va n s value t) : readAt va n acc s = .ok (BitVec.ofNat 64 value) t := by
  obtain ⟨pa, u, e, h⟩ := h
  simp only [readAt, e, Attempt.bind, physRead_of_reads hn h]

theorem readAt_fails {va : Word} {n : Nat} {acc : Access} {s t : State} {tr : Trap}
    (h : AccessFails acc va n s tr t) : readAt va n acc s = .raise tr t := by
  rcases h with e | ⟨pa, e, hm, rfl⟩
  · simp only [readAt, e, Attempt.bind]
  · simp only [readAt, e, Attempt.bind, physRead_unmapped hm, accessFault_eq]

theorem writeAt_of_writes {va : Word} {n : Nat} {v w : Word} {s t : State} (hw : Memory.wf s.mem)
    (hv : SameBytes n v w) (h : Writes va n v s t) : writeAt va n w s = .ok () t := by
  obtain ⟨pa, u, e, h⟩ := h
  have f := (translate_framed va .write s).ok e
  simp only [writeAt, e, Attempt.bind, physWrite_of_writes (f.memory hw) hv h]

theorem writeAt_fails {va : Word} {n : Nat} {v : Word} {s t : State} {tr : Trap}
    (h : AccessFails .write va n s tr t) : writeAt va n v s = .raise tr t := by
  rcases h with e | ⟨pa, e, hm, rfl⟩
  · simp only [writeAt, e, Attempt.bind]
  · simp only [writeAt, e, Attempt.bind, physWrite_unmapped hm, accessFault_eq]

theorem or_shift_eq_ofNat {b rest : Nat} (hb : b < 256 ^ 1) :
    (BitVec.ofNat 64 rest <<< 8) ||| BitVec.ofNat 64 b = BitVec.ofNat 64 (b + 256 * rest) := by
  apply BitVec.eq_of_toNat_eq
  have hb' : b < 2 ^ 8 := hb
  rw [BitVec.toNat_or, BitVec.toNat_shiftLeft, BitVec.toNat_ofNat, BitVec.toNat_ofNat, BitVec.toNat_ofNat,
    Nat.mod_eq_of_lt (show b < 2 ^ 64 by omega), Nat.shiftLeft_eq]
  have : rest % 2 ^ 64 * 2 ^ 8 % 2 ^ 64 = (rest % 2 ^ 56) <<< 8 := by rw [Nat.shiftLeft_eq]; omega
  rw [this, ← Nat.shiftLeft_add_eq_or_of_lt hb', Nat.shiftLeft_eq]
  omega

theorem PhysReads.lt {pa : Word} {n : Nat} {s t : State} {value : Nat} (h : PhysReads pa n s value t) :
    value < 256 ^ n := by
  cases h with
  | ram => exact leNat_lt _ _ n
  | device d _ _ low => rw [low]; exact Nat.mod_lt _ (Nat.pow_pos (by decide))

theorem Reads.lt {acc : Access} {va : Word} {n : Nat} {s t : State} {value : Nat}
    (h : Reads acc va n s value t) :
    value < 256 ^ n := by
  obtain ⟨_, _, _, h⟩ := h
  exact h.lt

theorem BytesRead.lt {va : Word} {n : Nat} {s t : State} {value : Nat} (h : BytesRead va n s value t) :
    value < 256 ^ n := by
  induction n generalizing va s value with
  | zero => rw [h.1]; decide
  | succ n ih =>
    obtain ⟨b, u, rest, hb, hr, rfl⟩ := h
    have := hb.lt
    have := ih hr
    rw [Nat.pow_succ]
    omega

theorem LoadDone.lt {va : Word} {n : Nat} {s t : State} {value : Nat} (h : LoadDone va n s value t) :
    value < 256 ^ n := by
  rcases h with ⟨-, h⟩ | ⟨-, -, h⟩ <;> exact h.lt

theorem readBytewise_of_bytesRead {va : Word} {n : Nat} {s t : State} {value : Nat}
    (h : BytesRead va n s value t) : readBytewise va n s = .ok (BitVec.ofNat 64 value) t := by
  induction n generalizing va s value with
  | zero => obtain ⟨rfl, rfl⟩ := h; rfl
  | succ n ih =>
    obtain ⟨b, u, rest, hb, hr, rfl⟩ := h
    simp only [readBytewise, readAt_of_reads (by decide) hb, Attempt.bind, ih hr,
      or_shift_eq_ofNat hb.lt]

theorem readBytewise_fails {va : Word} {n k : Nat} {s u t : State} {value : Nat} {tr : Trap}
    (hk : k < n) (h : BytesRead va k s value u)
    (hf : AccessFails .read (va + BitVec.ofNat 64 k) 1 u tr t) : readBytewise va n s = .raise tr t := by
  induction n generalizing va k s value with
  | zero => omega
  | succ n ih =>
    cases k with
    | zero =>
      obtain ⟨-, rfl⟩ := h
      rw [BitVec.add_zero] at hf
      simp only [readBytewise, readAt_fails hf, Attempt.bind]
    | succ k =>
      obtain ⟨b, u, rest, hb, hr, rfl⟩ := h
      rw [ofNat_succ] at hf
      simp only [readBytewise, readAt_of_reads (by decide) hb, Attempt.bind, ih (by omega) hr hf]

/-- MemRead, as the rules describe one that succeeds. -/
theorem memRead_of_loadDone {va : Word} {n : Nat} {s t : State} {value : Nat} (hn : n ≤ 8)
    (h : LoadDone va n s value t) : memRead va n s = .ok (BitVec.ofNat 64 value) t := by
  unfold memRead
  rcases h with ⟨ha, h⟩ | ⟨ha, hm, h⟩
  · rw [if_pos (aligned_iff.2 ha), readAt_of_reads hn h]
  · rw [if_neg (fun h => ha (aligned_iff.1 h)), if_neg (by simp [hm]), readBytewise_of_bytesRead h]

/-- MemRead, as the rules describe one that raises. -/
theorem memRead_of_loadFails {va : Word} {n : Nat} {s t : State} {tr : Trap}
    (h : LoadFails va n s tr t) : memRead va n s = .raise tr t := by
  rcases h with ⟨ha, h⟩ | ⟨ha, hm, rfl, rfl⟩ | ⟨ha, hm, k, value, u, hk, h, hf⟩
  · unfold memRead; rw [if_pos (aligned_iff.2 ha), readAt_fails h]
  · exact memRead_misaligned ha hm
  · unfold memRead
    rw [if_neg (fun h => ha (aligned_iff.1 h)), if_neg (by simp [hm]), readBytewise_fails hk h hf]

theorem PhysWrites.wf {pa : Word} {n : Nat} {v : Word} {s t : State} (hw : Memory.wf s.mem)
    (h : PhysWrites pa n v s t) : Memory.wf t.mem := by
  cases h with
  | ram _ m hm => exact hm.wf
  | device => exact hw

theorem Writes.wf {va : Word} {n : Nat} {v : Word} {s t : State} (hw : Memory.wf s.mem)
    (h : Writes va n v s t) : Memory.wf t.mem := by
  obtain ⟨pa, u, e, h⟩ := h
  exact h.wf (((translate_framed va .write s).ok e).memory hw)

theorem writeBytewise_of_bytesWritten {va : Word} {n : Nat} {v w : Word} {s t : State}
    (hw : Memory.wf s.mem) (hv : SameBytes n v w) (h : BytesWritten va n v s t) :
    writeBytewise va n w s = .ok () t := by
  induction n generalizing va v w s with
  | zero => cases h; rfl
  | succ n ih =>
    obtain ⟨u, hu, h⟩ := h
    have h1 : SameBytes 1 v (lowBytes 1 w) := fun k hk =>
      (hv k (by omega)).trans (sameBytes_lowBytes 1 w k hk)
    simp only [writeBytewise, writeAt_of_writes hw h1 hu, Attempt.bind,
      ih (hu.wf hw) hv.shift h]

theorem writeBytewise_fails {va : Word} {n k : Nat} {v w : Word} {s u t : State} {tr : Trap}
    (hw : Memory.wf s.mem) (hk : k < n) (hv : SameBytes k v w) (h : BytesWritten va k v s u)
    (hf : AccessFails .write (va + BitVec.ofNat 64 k) 1 u tr t) :
    writeBytewise va n w s = .raise tr t := by
  induction n generalizing va k v w s with
  | zero => omega
  | succ n ih =>
    cases k with
    | zero =>
      cases h
      rw [BitVec.add_zero] at hf
      simp only [writeBytewise, writeAt_fails hf, Attempt.bind]
    | succ k =>
      obtain ⟨u, hu, h⟩ := h
      rw [ofNat_succ] at hf
      have h1 : SameBytes 1 v (lowBytes 1 w) := fun k hk =>
        (hv k (by omega)).trans (sameBytes_lowBytes 1 w k hk)
      simp only [writeBytewise, writeAt_of_writes hw h1 hu, Attempt.bind,
        ih (hu.wf hw) (by omega) hv.shift h hf]

/-! ### Losing reservations commutes with an access -/

/-- The state of an attempt, changed. -/
def Attempt.mapState {α : Type} (f : State → State) : Attempt α → Attempt α
  | .ok a s => .ok a (f s)
  | .raise t s => .raise t (f s)

theorem Attempt.bind_mapState {α β : Type} {g : State → State} {c : Attempt α}
    {f : α → State → Attempt β} (hf : ∀ a s, f a (g s) = (f a s).mapState g) :
    (c.mapState g).bind f = (c.bind f).mapState g := by
  cases c with
  | ok a s => exact hf a s
  | raise t s => rfl

theorem loseReservations_comm (a n b k : Nat) (s : State) :
    (s.loseReservations a n).loseReservations b k = (s.loseReservations b k).loseReservations a n := by
  simp only [State.loseReservations, List.map_map, Function.comp_def, survivingRes_comm a n]

theorem drawTlbUse_lose (a n : Nat) (s : State) :
    drawTlbUse (s.loseReservations a n) = ((drawTlbUse s).1, (drawTlbUse s).2.loseReservations a n) := by
  simp only [drawTlbUse, State.loseReservations]
  split <;> rfl

theorem drawDeviceRead_lose (a n : Nat) (s : State) : drawDeviceRead (s.loseReservations a n) =
    ((drawDeviceRead s).1, (drawDeviceRead s).2.loseReservations a n) := by
  simp only [drawDeviceRead, State.loseReservations]
  split <;> rfl

theorem physRead_lose (a n : Nat) (pa : Word) (k : Nat) (s : State) : physRead pa k (s.loseReservations a n) =
    (physRead pa k s).map fun p => (p.1, p.2.loseReservations a n) := by
  simp only [physRead, drawDeviceRead_lose, show (s.loseReservations a n).plat = s.plat from rfl]
  split
  · rfl
  · split <;> rfl

theorem physWrite_lose (a n : Nat) (pa : Word) (k : Nat) (v : Word) (s : State) :
    physWrite pa k v (s.loseReservations a n) =
      (physWrite pa k v s).map (State.loseReservations a n) := by
  simp only [physWrite, show (s.loseReservations a n).plat = s.plat from rfl, clearReservations_eq]
  split
  · rfl
  · split
    · exact congrArg some (loseReservations_comm a n pa.toNat k (s.setMem (Memory.writeLE s.mem pa.toNat k v)))
    · exact congrArg some (loseReservations_comm a n pa.toNat k { s with bus := s.bus ++ [_] })

theorem updateAD_lose (a n : Nat) (pte pteAddr : Word) (acc : Access) (va : Word) (s : State) :
    updateAD pte pteAddr acc va (s.loseReservations a n) =
      (updateAD pte pteAddr acc va s).mapState (State.loseReservations a n) := by
  simp only [updateAD, physWrite_lose]
  split
  · cases physWrite pteAddr 8 (touchPte pte acc) s <;> rfl
  · rfl

theorem tlbHit_lose (a n : Nat) (e : TlbEntry) (va : Word) (acc : Access) (p : Priv) (s : State) :
    tlbHit e va acc p (s.loseReservations a n) =
      (tlbHit e va acc p s).mapState (State.loseReservations a n) := by
  simp only [tlbHit, updateAD_lose, show getCsr .mstatus (s.loseReservations a n) = getCsr .mstatus s from rfl]
  split
  · exact Attempt.bind_mapState fun _ _ => rfl
  · rfl

theorem walk_lose (a n : Nat) (va : Word) (acc : Access) (p : Priv) (levels : Nat) (table : Word)
    (s : State) : walk va acc p levels table (s.loseReservations a n) =
      (walk va acc p levels table s).mapState (State.loseReservations a n) := by
  induction levels generalizing table s with
  | zero => rfl
  | succ level ih =>
    simp only [walk, physRead_lose]
    cases physRead (table + vpnIndex level va * 8#64) 8 s with
    | none => rfl
    | some q =>
      simp only [Option.map, updateAD_lose, ih,
        show getCsr .mstatus (q.2.loseReservations a n) = getCsr .mstatus q.2 from rfl]
      split
      · rfl
      · split
        · split
          · rfl
          · split
            · rfl
            · exact Attempt.bind_mapState fun _ _ => rfl
        · rfl

theorem translation_lose (a n : Nat) (va : Word) (acc : Access) (s : State) :
    translation va acc (s.loseReservations a n) =
      (translation va acc s).mapState (State.loseReservations a n) := by
  have c : tlbChoose va (s.loseReservations a n) =
      ((tlbChoose va s).1, (tlbChoose va s).2.loseReservations a n) := by
    simp only [tlbChoose, drawTlbUse_lose, show (s.loseReservations a n).tlb = s.tlb from rfl,
      show (s.loseReservations a n).hart.id = s.hart.id from rfl,
      show getCsr .satp (s.loseReservations a n) = getCsr .satp s from rfl]
    split <;> rfl
  simp only [translation, c, show activeLevels acc (s.loseReservations a n) = activeLevels acc s from rfl,
    show effectivePriv acc (s.loseReservations a n) = effectivePriv acc s from rfl,
    show getCsr .satp (s.loseReservations a n) = getCsr .satp s from rfl]
  split
  · rfl
  · split
    · rfl
    · rcases tlbChoose va s with ⟨_ | e, t⟩
      · exact walk_lose ..
      · exact tlbHit_lose ..

theorem translate_lose (a n : Nat) (va : Word) (acc : Access) (s : State) :
    translate va acc (s.loseReservations a n) =
      (translate va acc s).mapState (State.loseReservations a n) := by
  simp only [translate, translation_lose]
  exact Attempt.bind_mapState fun _ _ => rfl

/-- Writing a byte with the reservations left as they were, and losing some that were there. -/
theorem physWrite_keepRes_lose (a n : Nat) (s u : State) :
    ({ u.loseReservations a n with
        hart := (s.loseReservations a n).hart, others := (s.loseReservations a n).others } : State) =
      ({ u with hart := s.hart, others := s.others } : State).loseReservations a n := rfl

theorem writePrecise_lose (a n : Nat) (va : Word) (k : Nat) (v : Word) (kept : Survivors) (s : State) :
    writePrecise va k v kept (s.loseReservations a n) =
      (writePrecise va k v kept s).mapState (State.loseReservations a n) := by
  induction k generalizing va v kept s with
  | zero => rfl
  | succ k ih =>
    have keep : ∀ back u, kept.keep back (s.loseReservations a n) (u.loseReservations a n) =
        kept.keep back s u := fun _ _ => rfl
    simp only [writePrecise, translation_lose]
    cases translation va .write s with
    | raise tr u => rfl
    | ok r u =>
      simp only [Attempt.mapState, physWrite_lose, keep]
      cases physWrite r.pa 1 (lowBytes 1 v) u with
      | none => rfl
      | some w =>
        simp only [Option.map, physWrite_keepRes_lose, ih]
        cases writePrecise (va + 1) k (v >>> 8) (kept.keep r.back s u)
            { w with hart := u.hart, others := u.others } with
        | ok _ t => simp only [Attempt.mapState, clearReservations_eq, loseReservations_comm a n]
        | raise tr t => rfl

/-! ### Precise bytewise stores -/

/-- The reservations a write leaves are those before it, less the overlapping ones. -/
theorem physWrite_lose_keepRes {pa : Word} {n : Nat} {v : Word} {s t : State}
    (h : physWrite pa n v s = some t) :
    ({ t with hart := s.hart, others := s.others } : State).loseReservations pa.toNat n = t := by
  unfold physWrite at h
  split at h
  · cases h
  · split at h <;> (rw [clearReservations_eq] at h; cases h; rfl)

theorem translate_ok {va pa : Word} {acc : Access} {s t : State} (h : translate va acc s = .ok pa t) :
    ∃ r, translation va acc s = .ok r t ∧ r.pa = pa := by
  unfold translate at h
  cases e : translation va acc s with
  | raise tr u => rw [e] at h; cases h
  | ok r u => rw [e] at h; cases h; exact ⟨r, rfl, rfl⟩

theorem translate_of_ok {va : Word} {acc : Access} {s t : State} {r : Translated}
    (h : translation va acc s = .ok r t) : translate va acc s = .ok r.pa t := by
  simp only [translate, h, Attempt.bind]

/-- A precise bytewise store that no byte stops ends as one that clears reservations byte by byte. -/
theorem writePrecise_of_bytesWritten {va : Word} {n : Nat} {v w : Word} {k : Survivors} {s t : State}
    (hw : Memory.wf s.mem) (hv : SameBytes n v w) (h : BytesWritten va n v s t) :
    writePrecise va n w k s = .ok () t := by
  induction n generalizing va v w k s with
  | zero => cases h; rfl
  | succ n ih =>
    obtain ⟨u, hu, h⟩ := h
    have wf := hu.wf hw
    obtain ⟨pa, s1, e, hp⟩ := hu
    have hp := physWrite_of_writes (((translate_framed va .write s).ok e).memory hw)
      (fun k hk => (hv k (by omega)).trans (sameBytes_lowBytes 1 w k hk)) hp
    obtain ⟨r, er, rfl⟩ := translate_ok e
    have step := ih (k := k.keep r.back s s1) wf hv.shift h
    rw [← physWrite_lose_keepRes hp, writePrecise_lose] at step
    simp only [writePrecise, er, hp]
    cases j : writePrecise (va + 1) n (w >>> 8) (k.keep r.back s s1)
        { u with hart := s1.hart, others := s1.others } with
    | ok _ t' =>
      rw [j] at step
      simp only [Attempt.mapState, Attempt.ok.injEq, true_and] at step
      simp only [clearReservations_eq, step]
    | raise tr t' => rw [j] at step; cases step

/-- What the model keeps through a translation is what survives, and nothing else is. -/
theorem Survivors.survives_keep {k : Survivors} (hk : Memory.wf k.mem) (back : Option Word) (s u : State) :
    Survives back s u k (k.keep back s u) where
  wf := Survivors.keep_wf hk ..
  pte a e h j hj := by
    obtain ⟨r, hr, hk'⟩ := h
    have hr' : findRegion u.plat.pmap a.toNat 8 = some ⟨r.base, r.size, .ram⟩ := by rw [hr, ← hk']
    subst e
    simp only [Survivors.keep, hr']
    rw [Memory.readByte_writeLE hk _ _ _ hj, Memory.extractLsb'_readLE _ _ (by decide) hj]
  frame b h := by
    unfold Survivors.keep
    cases back with
    | none => rfl
    | some a =>
      simp only
      split
      · next r size hr =>
        exact Memory.readByte_writeLE_of_outside _ _ _ _ (h a rfl ⟨_, hr, rfl⟩)
      · rfl
  events := rfl

theorem Survives.eq_keep {k k' : Survivors} (hk : Memory.wf k.mem) {back : Option Word} {s u : State}
    (h : Survives back s u k k') : k' = k.keep back s u := by
  have h' := Survivors.survives_keep hk back s u
  obtain ⟨m, b⟩ := k'
  have eb : b = (k.keep back s u).bus := h.events.trans h'.events.symm
  have em : m = (k.keep back s u).mem := by
    refine Memory.eq_of_readByte_eq h.wf h'.wf fun c => ?_
    by_cases hc : ∀ a, back = some a → InRam u a.toNat 8 → c < a.toNat ∨ a.toNat + 8 ≤ c
    · exact (h.frame c hc).trans (h'.frame c hc).symm
    · push Not at hc
      obtain ⟨a, e, hr, h1, h2⟩ := hc
      obtain ⟨j, rfl⟩ : ∃ j, c = a.toNat + j := ⟨c - a.toNat, by omega⟩
      exact (h.pte a e hr j (by omega)).trans (h'.pte a e hr j (by omega)).symm
  rw [em, eb]

/-- A bytewise store that fails, none of its own bytes committed. -/
theorem writePrecise_of_storeUndone {va : Word} {n : Nat} {v w : Word} {k : Survivors} {s t : State}
    {tr : Trap} (hw : Memory.wf s.mem) (hk : Memory.wf k.mem) (hv : SameBytes n v w)
    (h : StoreUndone va n v k s tr t) : writePrecise va n w k s = .raise tr t := by
  induction n generalizing va v w k s with
  | zero => cases h
  | succ n ih =>
    rcases h with ⟨u, e, rfl⟩ | ⟨r, u, k', e, hs, h⟩
    · simp only [writePrecise, e, Survivors.keep, Survivors.putIn]
    have wu := ((translation_framed va .write s).ok e).memory hw
    have hk' := hs.wf
    cases hs.eq_keep hk
    rcases h with ⟨hm, rfl, rfl⟩ | ⟨x, hx, h⟩
    · simp only [writePrecise, e, physWrite_unmapped hm, accessFault_eq]
      rfl
    · have hp := physWrite_of_writes (w := lowBytes 1 w) wu
        (fun k hk => (hv k (by omega)).trans (sameBytes_lowBytes 1 w k hk)) hx
      have step := ih (s := { x with hart := u.hart, others := u.others })
        (show Memory.wf x.mem from hx.wf wu) hk' hv.shift h
      simp only [writePrecise, e, hp, step]

/-! ### MemWrite -/

/-- MemWrite, as the rules describe one that succeeds. -/
theorem memWrite_of_storeDone {va : Word} {n : Nat} {v w : Word} {s t : State} (hw : Memory.wf s.mem)
    (hv : SameBytes n v w) (h : StoreDone va n v s t) : memWrite va n w s = .ok () t := by
  unfold memWrite
  rcases h with ⟨ha, h⟩ | ⟨ha, hm, h⟩
  · rw [if_pos (aligned_iff.2 ha), writeAt_of_writes hw hv h]
  · rw [if_neg (fun h => ha (aligned_iff.1 h)), if_neg (by simp [hm]), storeBytewise]
    split
    · exact writeBytewise_of_bytesWritten hw hv h
    · exact writePrecise_of_bytesWritten hw hv h

/-- MemWrite, as the rules describe one that raises. -/
theorem memWrite_of_storeFails {va : Word} {n : Nat} {v w : Word} {s t : State} {tr : Trap}
    (hw : Memory.wf s.mem) (hv : SameBytes n v w) (h : StoreFails va n v s tr t) :
    memWrite va n w s = .raise tr t := by
  rcases h with ⟨ha, h⟩ | ⟨ha, hm, rfl, rfl⟩ | ⟨ha, hm, hp, k, u, hk, h, hf⟩ | ⟨ha, hm, hp, h⟩
  · unfold memWrite; rw [if_pos (aligned_iff.2 ha), writeAt_fails h]
  · exact memWrite_misaligned ha hm
  · unfold memWrite
    rw [if_neg (fun h => ha (aligned_iff.1 h)), if_neg (by simp [hm]), storeBytewise, hp]
    exact writeBytewise_fails hw hk (hv.mono (by omega)) h hf
  · unfold memWrite
    rw [if_neg (fun h => ha (aligned_iff.1 h)), if_neg (by simp [hm]), storeBytewise, hp]
    exact writePrecise_of_storeUndone hw hw hv h

/-! ### Every access is one the rules describe -/

theorem physReads_of_physRead {pa : Word} {n : Nat} {s t : State} {x : Word}
    (h : physRead pa n s = some (x, t)) : ∃ v, PhysReads pa n s v t := by
  unfold physRead at h
  split at h
  · cases h
  · next r hr =>
    split at h
    · next hk => cases h; exact ⟨_, .ram ⟨r, hr, hk⟩⟩
    · next d hk =>
      have k : PhysReads pa n s _ _ := .device d ⟨r, hr, hk⟩ _ rfl
      rw [← lowBytes_eq_ofNat] at k
      have e : (drawDeviceRead s).2.bus = s.bus := by unfold drawDeviceRead; split <;> rfl
      simp only [Option.some.injEq, Prod.mk.injEq, e] at h
      exact ⟨_, h.2 ▸ k⟩

theorem unmapped_of_physRead {pa : Word} {n : Nat} {s : State} (h : physRead pa n s = none) :
    Unmapped s pa.toNat n := by
  unfold physRead at h
  split at h
  · assumption
  · split at h <;> cases h

theorem bytesStored_writeLE {a n : Nat} {v w : Word} {m : List Host.Cell} (hw : Memory.wf m)
    (hv : SameBytes n v w) : BytesStored a n v m (Memory.writeLE m a n w) where
  wf := Memory.writeLE_wf hw ..
  stored k hk := by rw [Memory.readByte_writeLE hw _ _ _ hk, hv k hk]
  frame _ hb := Memory.readByte_writeLE_of_outside _ _ _ _ hb

theorem physWrites_of_physWrite {pa : Word} {n : Nat} {v w : Word} {s t : State} (hw : Memory.wf s.mem)
    (hv : SameBytes n v w) (h : physWrite pa n w s = some t) : PhysWrites pa n v s t := by
  unfold physWrite at h
  split at h
  · cases h
  · next r hr =>
    split at h
    · next hk =>
      rw [clearReservations_eq, Option.some.injEq] at h
      exact h ▸ .ram ⟨r, hr, hk⟩ _ (bytesStored_writeLE hw hv)
    · next d hk =>
      rw [clearReservations_eq, ← hv.lowBytes_eq, lowBytes_eq_ofNat, Option.some.injEq] at h
      exact h ▸ .device d ⟨r, hr, hk⟩

theorem unmapped_of_physWrite {pa : Word} {n : Nat} {v : Word} {s : State}
    (h : physWrite pa n v s = none) : Unmapped s pa.toNat n := by
  unfold physWrite at h
  split at h
  · assumption
  · split at h <;> cases h

theorem readAt_cases (va : Word) (n : Nat) (acc : Access) (s : State) :
    match readAt va n acc s with
    | .ok _ t => ∃ v, Reads acc va n s v t
    | .raise tr t => AccessFails acc va n s tr t := by
  unfold readAt
  cases e : translate va acc s with
  | raise tr t => exact .inl e
  | ok pa u =>
    simp only [Attempt.bind]
    cases h : physRead pa n u with
    | none => exact .inr ⟨pa, e, unmapped_of_physRead h, accessFault_eq ..⟩
    | some p =>
      obtain ⟨v, h⟩ := physReads_of_physRead h
      exact ⟨v, pa, u, e, h⟩

theorem writeAt_cases {va : Word} {n : Nat} {v w : Word} {s : State} (hw : Memory.wf s.mem)
    (hv : SameBytes n v w) :
    match writeAt va n w s with
    | .ok _ t => Writes va n v s t
    | .raise tr t => AccessFails .write va n s tr t := by
  unfold writeAt
  cases e : translate va .write s with
  | raise tr t => exact .inl e
  | ok pa u =>
    simp only [Attempt.bind]
    cases h : physWrite pa n w u with
    | none => exact .inr ⟨pa, e, unmapped_of_physWrite h, accessFault_eq ..⟩
    | some t =>
      exact ⟨pa, u, e, physWrites_of_physWrite (((translate_framed va .write s).ok e).memory hw) hv h⟩

theorem readBytewise_cases (va : Word) (n : Nat) (s : State) :
    match readBytewise va n s with
    | .ok _ t => ∃ v, BytesRead va n s v t
    | .raise tr t => ∃ k v u, k < n ∧ BytesRead va k s v u ∧
        AccessFails .read (va + BitVec.ofNat 64 k) 1 u tr t := by
  induction n generalizing va s with
  | zero => exact ⟨0, rfl, rfl⟩
  | succ n ih =>
    unfold readBytewise
    have h1 := readAt_cases va 1 .read s
    cases e : readAt va 1 .read s with
    | raise tr t =>
      rw [e] at h1
      exact ⟨0, 0, s, by omega, ⟨rfl, rfl⟩, by simpa only [BitVec.ofNat_eq_ofNat, BitVec.add_zero] using h1⟩
    | ok b u =>
      rw [e] at h1
      obtain ⟨v, h1⟩ := h1
      have h2 := ih (va + 1) u
      simp only [Attempt.bind]
      cases e2 : readBytewise (va + 1) n u with
      | ok x t =>
        rw [e2] at h2
        obtain ⟨rest, h2⟩ := h2
        exact ⟨_, v, u, rest, h1, h2, rfl⟩
      | raise tr t =>
        rw [e2] at h2
        obtain ⟨k, rest, x, hk, h2, hf⟩ := h2
        exact ⟨k + 1, _, x, by omega, ⟨v, u, rest, h1, h2, rfl⟩, by rwa [ofNat_succ]⟩

theorem writeBytewise_cases {va : Word} {n : Nat} {v w : Word} {s : State} (hw : Memory.wf s.mem)
    (hv : SameBytes n v w) :
    match writeBytewise va n w s with
    | .ok _ t => BytesWritten va n v s t
    | .raise tr t => ∃ k u, k < n ∧ BytesWritten va k v s u ∧
        AccessFails .write (va + BitVec.ofNat 64 k) 1 u tr t := by
  induction n generalizing va v w s with
  | zero => exact rfl
  | succ n ih =>
    unfold writeBytewise
    have h1 := writeAt_cases (va := va) hw fun k hk =>
      (hv k (by omega)).trans (sameBytes_lowBytes 1 w k hk)
    cases e : writeAt va 1 (lowBytes 1 w) s with
    | raise tr t =>
      rw [e] at h1
      exact ⟨0, s, by omega, rfl, by simpa only [BitVec.ofNat_eq_ofNat, BitVec.add_zero] using h1⟩
    | ok b u =>
      rw [e] at h1
      have h1 : Writes va 1 v s u := h1
      have h2 := ih (va := va + 1) (h1.wf hw) hv.shift
      simp only [Attempt.bind]
      cases e2 : writeBytewise (va + 1) n (w >>> 8) u with
      | ok x t =>
        rw [e2] at h2
        exact ⟨u, h1, h2⟩
      | raise tr t =>
        rw [e2] at h2
        obtain ⟨k, x, hk, h2, hf⟩ := h2
        exact ⟨k + 1, x, by omega, ⟨u, h1, h2⟩, by rwa [ofNat_succ]⟩

theorem writePrecise_cases {va : Word} {n : Nat} {v w : Word} {k : Survivors} {s : State}
    (hw : Memory.wf s.mem) (hk : Memory.wf k.mem) (hv : SameBytes n v w) :
    match writePrecise va n w k s with
    | .ok _ t => BytesWritten va n v s t
    | .raise tr t => StoreUndone va n v k s tr t := by
  induction n generalizing va v w k s with
  | zero => exact rfl
  | succ n ih =>
    unfold writePrecise
    cases e : translation va .write s with
    | raise tr t => exact .inl ⟨t, e, rfl⟩
    | ok r u =>
      have wu := ((translation_framed va .write s).ok e).memory hw
      have hs := Survivors.survives_keep hk r.back s u
      have h1 : SameBytes 1 v (lowBytes 1 w) := fun k hk =>
        (hv k (by omega)).trans (sameBytes_lowBytes 1 w k hk)
      simp only
      cases h : physWrite r.pa 1 (lowBytes 1 w) u with
      | none => exact .inr ⟨r, u, _, e, hs, .inl ⟨unmapped_of_physWrite h, accessFault_eq .., rfl⟩⟩
      | some x =>
        have hx := physWrites_of_physWrite wu h1 h
        have wx := hx.wf wu
        simp only
        cases e2 : writePrecise (va + 1) n (w >>> 8) (k.keep r.back s u)
            { x with hart := u.hart, others := u.others } with
        | ok _ t =>
          have h2 := ih (va := va + 1) (k := k.keep r.back s u) (s := x) wx hs.wf hv.shift
          rw [← physWrite_lose_keepRes h, writePrecise_lose, e2] at h2
          rw [physWrite_lose_keepRes h] at h2
          exact ⟨x, ⟨r.pa, u, translate_of_ok e, hx⟩, by rw [clearReservations_eq]; exact h2⟩
        | raise tr t =>
          have h2 := ih (va := va + 1) (k := k.keep r.back s u)
            (s := { x with hart := u.hart, others := u.others }) wx hs.wf hv.shift
          rw [e2] at h2
          exact .inr ⟨r, u, _, e, hs, .inr ⟨x, hx, h2⟩⟩

/-- MemRead succeeds or raises as the rules describe, and does nothing else. -/
theorem load_cases (va : Word) (n : Nat) (s : State) :
    (∃ v w, LoadDone va n s v w) ∨ ∃ tr w, LoadFails va n s tr w := by
  by_cases ha : va.toNat % n = 0
  · have h := readAt_cases va n .read s
    cases e : readAt va n .read s with
    | ok x t =>
      rw [e] at h
      obtain ⟨v, h⟩ := h
      exact .inl ⟨v, t, .inl ⟨ha, h⟩⟩
    | raise tr t => rw [e] at h; exact .inr ⟨tr, t, .inl ⟨ha, h⟩⟩
  · cases hm : s.plat.misaligned with
    | trap => exact .inr ⟨_, s, .inr (.inl ⟨ha, hm, rfl, rfl⟩)⟩
    | bytewise =>
      have h := readBytewise_cases va n s
      cases e : readBytewise va n s with
      | ok x t =>
        rw [e] at h
        obtain ⟨v, h⟩ := h
        exact .inl ⟨v, t, .inr ⟨ha, hm, h⟩⟩
      | raise tr t => rw [e] at h; exact .inr ⟨tr, t, .inr (.inr ⟨ha, hm, h⟩)⟩

/-- MemWrite succeeds or raises as the rules describe, and does nothing else. -/
theorem store_cases (va : Word) (n : Nat) (v : Word) {s : State} (hw : Memory.wf s.mem) :
    (∃ w, StoreDone va n v s w) ∨ ∃ tr w, StoreFails va n v s tr w := by
  by_cases ha : va.toNat % n = 0
  · have h := writeAt_cases (va := va) (n := n) (v := v) hw fun _ _ => rfl
    cases e : writeAt va n v s with
    | ok x t => rw [e] at h; exact .inl ⟨t, .inl ⟨ha, h⟩⟩
    | raise tr t => rw [e] at h; exact .inr ⟨tr, t, .inl ⟨ha, h⟩⟩
  · cases hm : s.plat.misaligned with
    | trap => exact .inr ⟨_, s, .inr (.inl ⟨ha, hm, rfl, rfl⟩)⟩
    | bytewise =>
      cases hp : s.plat.partialStore with
      | kept =>
        have h := writeBytewise_cases (va := va) (n := n) (v := v) hw fun _ _ => rfl
        cases e : writeBytewise va n v s with
        | ok x t => rw [e] at h; exact .inl ⟨t, .inr ⟨ha, hm, h⟩⟩
        | raise tr t => rw [e] at h; exact .inr ⟨tr, t, .inr (.inr (.inl ⟨ha, hm, hp, h⟩))⟩
      | undone =>
        have h := writePrecise_cases (va := va) (n := n) (v := v) (k := ⟨s.mem, s.bus⟩) hw hw fun _ _ => rfl
        cases e : writePrecise va n v ⟨s.mem, s.bus⟩ s with
        | ok x t => rw [e] at h; exact .inl ⟨t, .inr ⟨ha, hm, h⟩⟩
        | raise tr t => rw [e] at h; exact .inr ⟨tr, t, .inr (.inr (.inr ⟨ha, hm, hp, h⟩))⟩

/-! ### Loads, stores and atomics -/

/-- A load whose bytes can all be read. -/
theorem loadX_of_loadDone {len : Word} {rd : RegNum} {va : Word} {n : Nat} {ext : Word → Word}
    {s w : State} {v : Nat} (hn : n ≤ 8) (h : LoadDone va n s v w) :
    ∃ t, loadX len rd va n ext s = .next t ∧
      WroteX rd (ext (BitVec.ofNat 64 v)) (s.hart.pc + len) w t := by
  have e := memRead_of_loadDone hn h
  have f := (memRead_framed va n s).ok e
  exact ⟨_, by simp only [loadX, e, Attempt.bind, settle], f.pc_eq ▸ wroteX_retireX ..⟩

theorem loadX_of_loadFails {len : Word} {rd : RegNum} {va : Word} {n : Nat} {ext : Word → Word}
    {s w : State} {tr : Trap} (h : LoadFails va n s tr w) :
    loadX len rd va n ext s = .next (takeException tr w) := by
  simp only [loadX, memRead_of_loadFails h, Attempt.bind, settle]

/-- A store whose bytes can all be written. -/
theorem storeValue_of_storeDone {len va v x : Word} {n : Nat} {s w : State} (hw : Memory.wf s.mem)
    (hv : SameBytes n v x) (h : StoreDone va n v s w) :
    ∃ t, storeValue len va n x s = .next t ∧ OnlyMovedPc (s.hart.pc + len) w t := by
  have e := memWrite_of_storeDone hw hv h
  have f := (memWrite_framed va n x s).ok e
  exact ⟨_, by simp only [storeValue, e, Attempt.bind, settle], f.pc_eq ▸ onlyMovedPc_retire ..⟩

theorem storeValue_of_storeFails {len va v x : Word} {n : Nat} {s w : State} {tr : Trap}
    (hw : Memory.wf s.mem) (hv : SameBytes n v x) (h : StoreFails va n v s tr w) :
    storeValue len va n x s = .next (takeException tr w) := by
  simp only [storeValue, memWrite_of_storeFails hw hv h, Attempt.bind, settle]

/-- An aligned LR that can read. -/
theorem loadReserved_done {rd : RegNum} {va pa : Word} {n : Nat} {ext : Word → Word} {s u w : State}
    {v : Nat} (hn : n ≤ 8) (ha : va.toNat % n = 0) (e : translate va .read s = .ok pa u)
    (h : PhysReads pa n u v w) : loadReserved rd va n ext s =
      .next (retireX 4 rd (ext (BitVec.ofNat 64 v)) (w.setRes (some ⟨pa, n⟩))) := by
  simp only [loadReserved, if_pos (aligned_iff.2 ha), e, Attempt.bind, physRead_of_reads hn h, settle]

theorem loadReserved_fails {rd : RegNum} {va : Word} {n : Nat} {ext : Word → Word} {s w : State}
    {tr : Trap} (ha : va.toNat % n = 0) (h : AccessFails .read va n s tr w) :
    loadReserved rd va n ext s = .next (takeException tr w) := by
  rcases h with e | ⟨pa, e, hm, rfl⟩
  · simp only [loadReserved, if_pos (aligned_iff.2 ha), e, Attempt.bind, settle]
  · simp only [loadReserved, if_pos (aligned_iff.2 ha), e, Attempt.bind, physRead_unmapped hm,
      accessFault_eq, settle]

/-- An aligned SC whose reservation matches and that can write. -/
theorem storeConditional_done {rd : RegNum} {va pa : Word} {n : Nat} {v : Word} {s u w : State}
    (hw : Memory.wf s.mem) (ha : va.toNat % n = 0) (e : translate va .write s = .ok pa u)
    (hr : u.hart.res = some ⟨pa, n⟩) (h : PhysWrites pa n v u w) :
    storeConditional rd va n v s = .next (retireX 4 rd 0 (w.setRes none)) := by
  have hp := physWrite_of_writes (w := v) (((translate_framed va .write s).ok e).memory hw)
    (fun _ _ => rfl) h
  simp only [storeConditional, if_pos (aligned_iff.2 ha), e, Attempt.bind, if_pos hr, hp, settle]

/-- An aligned SC whose reservation does not match. -/
theorem storeConditional_lost {rd : RegNum} {va pa : Word} {n : Nat} {v : Word} {s u : State}
    (ha : va.toNat % n = 0) (e : translate va .write s = .ok pa u)
    (hr : u.hart.res ≠ some ⟨pa, n⟩) :
    storeConditional rd va n v s = .next (retireX 4 rd 1 (u.setRes none)) := by
  simp only [storeConditional, if_pos (aligned_iff.2 ha), e, Attempt.bind, if_neg hr, settle]

/-- An aligned AMO that can read and write. -/
theorem amo_done {rd : RegNum} {va pa : Word} {n : Nat} {op ext : Word → Word} {new : Word}
    {s u w t : State} {v : Nat} (hn : n ≤ 8) (hw : Memory.wf s.mem) (ha : va.toNat % n = 0)
    (e : translate va .write s = .ok pa u) (hr : PhysReads pa n u v w)
    (hs : SameBytes n new (op (BitVec.ofNat 64 v))) (hp : PhysWrites pa n new w t) :
    amo rd va n op ext s = .next (retireX 4 rd (ext (BitVec.ofNat 64 v)) t) := by
  have r := physRead_of_reads hn hr
  have wu := ((translate_framed va .write s).ok e).memory hw
  simp only [amo, if_pos (aligned_iff.2 ha), e, Attempt.bind, r,
    physWrite_of_writes ((physRead_frame r).memory wu) hs hp, settle]

theorem amo_fails {rd : RegNum} {va : Word} {n : Nat} {op ext : Word → Word} {s w : State} {tr : Trap}
    (ha : va.toNat % n = 0) (h : AccessFails .write va n s tr w) :
    amo rd va n op ext s = .next (takeException tr w) := by
  rcases h with e | ⟨pa, e, hm, rfl⟩
  · simp only [amo, if_pos (aligned_iff.2 ha), e, Attempt.bind, settle]
  · simp only [amo, if_pos (aligned_iff.2 ha), e, Attempt.bind, physRead_unmapped hm, accessFault_eq,
      settle]

/-! ### Fetch -/

theorem parcelLength_of_three {p : Nat} (h : p % 4 = 3) : parcelLength (BitVec.ofNat 16 p) = 32 := by
  unfold parcelLength
  rw [if_pos]
  apply BitVec.eq_of_toNat_eq
  simp only [BitVec.extractLsb'_toNat, BitVec.toNat_ofNat, Nat.shiftRight_zero]
  omega

theorem parcelLength_of_not_three {p : Nat} (h : p % 4 ≠ 3) : parcelLength (BitVec.ofNat 16 p) = 16 := by
  unfold parcelLength
  rw [if_neg]
  intro e
  have e := congrArg BitVec.toNat e
  simp only [BitVec.extractLsb'_toNat, BitVec.toNat_ofNat, Nat.shiftRight_zero] at e
  omega

theorem parcel_setWidth (p : Nat) : (BitVec.ofNat 64 p).setWidth 16 = BitVec.ofNat 16 p := by
  apply BitVec.eq_of_toNat_eq
  simp only [BitVec.toNat_setWidth, BitVec.toNat_ofNat]
  omega

/-- The word of two parcels. -/
theorem parcels_append {p0 p1 : Nat} (h : p0 < 256 ^ 2) :
    BitVec.ofNat 16 p1 ++ BitVec.ofNat 16 p0 = BitVec.ofNat 32 (p0 + 2 ^ 16 * p1) := by
  apply BitVec.eq_of_toNat_eq
  rw [BitVec.toNat_append, BitVec.toNat_ofNat, BitVec.toNat_ofNat, BitVec.toNat_ofNat,
    ← Nat.shiftLeft_add_eq_or_of_lt (Nat.mod_lt _ (by decide)), Nat.shiftLeft_eq]
  omega

/-- The first parcel decides: the read of it, then the second where it ends in binary 11. -/
theorem fetch_first {s u : State} {p0 : Nat} (h : Reads .fetch s.hart.pc 2 s p0 u) :
    fetch s = if p0 % 4 = 3 then (readAt (s.hart.pc + 2) 2 .fetch u).bind fun v t =>
        .ok (32, v.setWidth 16 ++ BitVec.ofNat 16 p0) t
      else .ok (16, BitVec.ofNat 32 p0) u := by
  have f : AccessFrame s u := (readAt_framed ..).ok (readAt_of_reads (by decide) h)
  have hp : p0 < 256 ^ 2 := h.lt
  simp only [fetch, readAt_of_reads (by decide) h, Attempt.bind, parcel_setWidth, f.pc_eq]
  split
  · next e =>
    rw [if_neg (fun k => by rw [parcelLength_of_three k] at e; cases e)]
    congr 2
    apply BitVec.eq_of_toNat_eq
    simp only [BitVec.toNat_setWidth, BitVec.toNat_ofNat]
    omega
  · next e => rw [if_pos (by by_contra k; exact e (parcelLength_of_not_three k))]

/-- Fetch, as the rules describe one that succeeds. -/
theorem fetch_of_fetches {s t : State} {len : Nat} {w : InstrWord} (h : Fetches s len w t) :
    fetch s = .ok (len, w) t := by
  obtain ⟨p0, u, h0, ⟨h3, rfl, rfl, rfl⟩ | ⟨h3, rfl, p1, h1, rfl⟩⟩ := h
  · rw [fetch_first h0, if_neg h3]
  · rw [fetch_first h0, if_pos h3, readAt_of_reads (by decide) h1, ← parcels_append h0.lt,
      ← parcel_setWidth p1]
    rfl

/-- Fetch, as the rules describe one that raises. -/
theorem fetch_of_fetchFails {s t : State} {tr : Trap} (h : FetchFails s tr t) : fetch s = .raise tr t := by
  rcases h with h | ⟨p0, u, h0, h3, h⟩
  · simp only [fetch, readAt_fails h, Attempt.bind]
  · rw [fetch_first h0, if_pos h3, readAt_fails h]
    rfl

/-- Fetch answers a word or raises as the rules describe, and does nothing else. -/
theorem fetch_cases (s : State) : (∃ len w t, Fetches s len w t) ∨ ∃ tr t, FetchFails s tr t := by
  have h := readAt_cases s.hart.pc 2 .fetch s
  cases e : readAt s.hart.pc 2 .fetch s with
  | raise tr t => rw [e] at h; exact .inr ⟨tr, t, .inl h⟩
  | ok v u =>
    rw [e] at h
    obtain ⟨p0, h0⟩ := h
    by_cases h3 : p0 % 4 = 3
    · have k := readAt_cases (s.hart.pc + 2) 2 .fetch u
      cases e : readAt (s.hart.pc + 2) 2 .fetch u with
      | raise tr t => rw [e] at k; exact .inr ⟨tr, t, .inr ⟨p0, u, h0, h3, k⟩⟩
      | ok v t =>
        rw [e] at k
        obtain ⟨p1, h1⟩ := k
        exact .inl ⟨32, _, t, p0, u, h0, .inr ⟨h3, rfl, p1, h1, rfl⟩⟩
    · exact .inl ⟨16, _, u, p0, u, h0, .inl ⟨h3, rfl, rfl, rfl⟩⟩

end Sys2Proof.Machine
end

