-- ==== Sys2Proof/Laws/Csr.lean ====
section
/-! SUPPORT. What reading and writing a CSR can do, and when each answers without a fault. -/

namespace Sys2Proof.Machine

/-- The storage and the mask of every writable CSR but mstatus, sstatus, satp, frm, mip, sip and misa. -/
def plainWrites : List (CsrReg × Word) := [
  (.fcsr, 0xff#64), (.fcsr, 0x1f#64), (.stvec, 0xfffffffffffffffd#64), (.scounteren, 0x7#64),
  (.sscratch, allOnes64), (.sepc, 0xfffffffffffffffe#64), (.scause, allOnes64), (.stval, allOnes64),
  (.medeleg, 0xb3ff#64), (.mideleg, 0x222#64), (.mie, 0xaaa#64), (.mie, 0x222#64),
  (.mtvec, 0xfffffffffffffffd#64), (.mcounteren, 0x7#64), (.mscratch, allOnes64),
  (.mepc, 0xfffffffffffffffe#64), (.mcause, allOnes64), (.mtval, allOnes64), (.mcycle, allOnes64),
  (.minstret, allOnes64)]

/-- What a CSR write that does not fault can do. -/
inductive CsrWritten (v : Word) (s : State) : State → Prop
  | nothing : CsrWritten v s s
  | plain {q : CsrReg × Word} (h : q ∈ plainWrites) :
    CsrWritten v s (setCsr q.1 ((getCsr q.1 s &&& ~~~q.2) ||| (v &&& q.2)) s)
  | status (w : Word) : CsrWritten v s (setCsr .mstatus (legaliseStatus (getCsr .mstatus s) w) s)
  | satp (w : Word) : CsrWritten v s (setCsr .satp (legalise .satp (getCsr .satp s) w) s)
  | frm (w : Word) : CsrWritten v s (setCsr .fcsr (putField 5 (field 0 3 w) (getCsr .fcsr s)) s)
  | mip (w : Word) : CsrWritten v s (setCsr .mip (w &&& 0x222#64) s)

theorem csrWrite_cases {a : CsrAddr} {v : Word} {p : Priv} {s t : State} (h : csrWrite a v p s = .ok t) :
    CsrWritten v s t := by
  unfold csrWrite at h
  split at h
  · cases h
  · rename_i m hm
    have hmem := List.mem_of_find?_eq_some hm
    split at h
    · cases h
    · split at h
      · cases h
      · have key : ∀ m ∈ csrTable, (match m.kind with
          | .home (.computed c) =>
            if hasSetter c then .ok (computedWrite c (v &&& m.writeMask) s) else .error .readOnly
          | k =>
            match resolveAlias csrTable.length k m.readMask with
            | none => .error .notPresent
            | some (h, _) => Except.ok (homeWrite h m.writeMask v s)) = (.ok t : Except CsrError State) → CsrWritten v s t := by
          simp only [csrTable, csrRowsU, csrRowsS, csrRowsM, List.cons_append, List.nil_append, List.forall_mem_cons]
          refine ⟨?_, ?_, ?_, ?_, ?_, ?_, ?_, ?_, ?_, ?_, ?_, ?_, ?_, ?_, ?_, ?_, ?_, ?_, ?_, ?_, ?_, ?_, ?_, ?_, ?_, ?_, ?_, ?_, ?_, ?_, ?_, ?_, ?_, ?_, ?_, ?_⟩
          · intro e; cases e; exact .plain (q := (.fcsr, 0x1f#64)) (by decide)
          · intro e; cases e; exact .frm _
          · intro e; cases e; exact .plain (q := (.fcsr, 0xff#64)) (by decide)
          · intro e; cases e
          · intro e; cases e
          · intro e; cases e
          · intro e; cases e; exact .status _
          · intro e; cases e; exact .plain (q := (.mie, 0x222#64)) (by decide)
          · intro e; cases e; exact .plain (q := (.stvec, 0xfffffffffffffffd#64)) (by decide)
          · intro e; cases e; exact .plain (q := (.scounteren, 0x7#64)) (by decide)
          · intro e; cases e; exact .plain (q := (.sscratch, allOnes64)) (by decide)
          · intro e; cases e; exact .plain (q := (.sepc, 0xfffffffffffffffe#64)) (by decide)
          · intro e; cases e; exact .plain (q := (.scause, allOnes64)) (by decide)
          · intro e; cases e; exact .plain (q := (.stval, allOnes64)) (by decide)
          · intro e; cases e; exact .mip _
          · intro e; cases e; exact .satp _
          · intro e; cases e
          · intro e; cases e
          · intro e; cases e
          · intro e; cases e
          · intro e; cases e
          · intro e; cases e; exact .status _
          · intro e; cases e; exact .nothing
          · intro e; cases e; exact .plain (q := (.medeleg, 0xb3ff#64)) (by decide)
          · intro e; cases e; exact .plain (q := (.mideleg, 0x222#64)) (by decide)
          · intro e; cases e; exact .plain (q := (.mie, 0xaaa#64)) (by decide)
          · intro e; cases e; exact .plain (q := (.mtvec, 0xfffffffffffffffd#64)) (by decide)
          · intro e; cases e; exact .plain (q := (.mcounteren, 0x7#64)) (by decide)
          · intro e; cases e; exact .plain (q := (.mscratch, allOnes64)) (by decide)
          · intro e; cases e; exact .plain (q := (.mepc, 0xfffffffffffffffe#64)) (by decide)
          · intro e; cases e; exact .plain (q := (.mcause, allOnes64)) (by decide)
          · intro e; cases e; exact .plain (q := (.mtval, allOnes64)) (by decide)
          · intro e; cases e; exact .mip _
          · intro e; cases e; exact .plain (q := (.mcycle, allOnes64)) (by decide)
          · intro e; cases e; exact .plain (q := (.minstret, allOnes64)) (by decide)
          · exact fun _ h => nomatch h
        exact key m hmem h
/-- A CSR read changes nothing but what the sample of the timer device changes. -/
theorem csrRead_state {a : CsrAddr} {v : Word} {p : Priv} {s t : State} (h : csrRead a p s = .ok (v, t)) :
    t = s ∨ t = (sampleClint s).2 := by
  unfold csrRead at h
  split at h
  · cases h
  · split at h
    · cases h
    · split at h
      · cases h
      · rename_i home mask _
        simp only [Except.ok.injEq, Prod.mk.injEq] at h
        rw [← h.2]
        cases home with
        | plain r => cases r <;> exact .inl rfl
        | computed c => cases c <;> first | exact .inl rfl | exact .inr rfl

/-- The privilege clause of `CsrAllowed`, as the read and write algorithms test it. -/
theorem csrPriv_le (a : CsrAddr) (p : Priv) :
    (a.toNat / 256) % 4 ≤ (privBits p).toNat ↔ ¬privBits p < csrPriv a := by
  rw [BitVec.not_lt, BitVec.le_def, csrPriv, BitVec.extractLsb'_toNat, Nat.shiftRight_eq_div_pow]

theorem csrReadOnly_iff (a : CsrAddr) : csrReadOnly a = true ↔ a.toNat / 1024 = 3 := by
  rw [csrReadOnly, beq_iff_eq, ← BitVec.toNat_inj, BitVec.extractLsb'_toNat, Nat.shiftRight_eq_div_pow]
  have := a.isLt
  show a.toNat / 1024 % 4 = 3 ↔ _
  omega

theorem isFpCsr_iff (a : CsrAddr) : isFpCsr a = true ↔ 1 ≤ a.toNat ∧ a.toNat ≤ 3 := by
  simp only [isFpCsr, Bool.or_eq_true, beq_iff_eq, ← BitVec.toNat_inj]
  simp only [BitVec.toNat_ofNat]
  omega

/-- The present addresses are those of the table. -/
theorem csrPresent_iff (a : CsrAddr) : csrPresent a = true ↔ (csrFind a).isSome = true := by
  constructor
  · intro h
    have key : ∀ n, a.toNat = n → n < 4096 → (csrFind (BitVec.ofNat 12 n)).isSome = true →
        (csrFind a).isSome = true := by
      rintro n rfl - hn
      rwa [BitVec.ofNat_toNat, BitVec.setWidth_eq] at hn
    rw [csrPresent, Bool.or_eq_true] at h
    rcases h with h | h
    · unfold csrHome at h
      split at h
      all_goals first
        | exact key _ ‹_› (by decide) (by decide)
        | cases h
    · simp only [List.contains_eq_mem, List.mem_cons, List.not_mem_nil, or_false, decide_eq_true_eq] at h
      rcases h with h | h | h | h | h | h | h <;> exact key _ h (by decide) (by decide)
  · intro h
    obtain ⟨m, hm⟩ := Option.isSome_iff_exists.1 h
    have ha : m.addr = a := by simpa using List.find?_some hm
    have key : ∀ m ∈ csrTable, csrPresent m.addr = true := by decide
    exact ha ▸ key m (List.mem_of_find?_eq_some hm)

/-- A read of a present CSR at a sufficient privilege answers a value. -/
theorem csrRead_ok {a : CsrAddr} {p : Priv} (ha : csrPresent a = true)
    (hp : (a.toNat / 256) % 4 ≤ (privBits p).toNat) (s : State) : ∃ v t, csrRead a p s = .ok (v, t) := by
  obtain ⟨m, hm⟩ := Option.isSome_iff_exists.1 ((csrPresent_iff a).1 ha)
  have key : ∀ m ∈ csrTable, (resolveAlias csrTable.length m.kind m.readMask).isSome = true := by decide
  obtain ⟨⟨home, mask⟩, hr⟩ := Option.isSome_iff_exists.1 (key m (List.mem_of_find?_eq_some hm))
  simp only [csrRead, hm, if_neg ((csrPriv_le a p).1 hp), hr]
  exact ⟨_, _, rfl⟩

/-- A read of an absent CSR, or below its privilege, is a fault. -/
theorem csrRead_error {a : CsrAddr} {p : Priv}
    (h : csrPresent a = false ∨ ¬(a.toNat / 256) % 4 ≤ (privBits p).toNat) (s : State) :
    ∃ e, csrRead a p s = .error e := by
  unfold csrRead
  cases hm : csrFind a with
  | none => exact ⟨_, rfl⟩
  | some m =>
    have hp : csrPresent a = true := (csrPresent_iff a).2 (by rw [hm]; rfl)
    rcases h with h | h
    · rw [hp] at h; cases h
    · rw [csrPriv_le, not_not] at h
      exact ⟨_, if_pos h⟩

/-- A write of a present CSR that is not read-only, at a sufficient privilege, succeeds. -/
theorem csrWrite_ok {a : CsrAddr} {p : Priv} (ha : csrPresent a = true)
    (hp : (a.toNat / 256) % 4 ≤ (privBits p).toNat) (hw : a.toNat / 1024 ≠ 3) (v : Word) (s : State) :
    ∃ t, csrWrite a v p s = .ok t := by
  obtain ⟨m, hm⟩ := Option.isSome_iff_exists.1 ((csrPresent_iff a).1 ha)
  have hmem := List.mem_of_find?_eq_some hm
  have haddr : m.addr = a := by simpa using List.find?_some hm
  have hr : csrReadOnly m.addr = false := by
    rw [haddr, ← Bool.not_eq_true, csrReadOnly_iff]; exact hw
  have key1 : ∀ m ∈ csrTable, (resolveAlias csrTable.length m.kind m.readMask).isSome = true := by decide
  have key2 : ∀ m ∈ csrTable, csrReadOnly m.addr = false →
      (match m.kind with | .home (.computed c) => hasSetter c | _ => true) = true := by decide
  have key2 := key2 m hmem hr
  rw [haddr] at hr
  unfold csrWrite
  simp only [hm, if_neg ((csrPriv_le a p).1 hp), hr, Bool.false_eq_true, if_false]
  split
  · rename_i c hc
    simp only [hc] at key2
    rw [if_pos key2]
    exact ⟨_, rfl⟩
  · obtain ⟨⟨home, mask⟩, hk⟩ := Option.isSome_iff_exists.1 (key1 m hmem)
    rw [hk]
    exact ⟨_, rfl⟩

/-- A write of an absent CSR, of a read-only one, or below its privilege, is a fault. -/
theorem csrWrite_error {a : CsrAddr} {p : Priv}
    (h : csrPresent a = false ∨ ¬(a.toNat / 256) % 4 ≤ (privBits p).toNat ∨ a.toNat / 1024 = 3) (v : Word)
    (s : State) : ∃ e, csrWrite a v p s = .error e := by
  unfold csrWrite
  cases hm : csrFind a with
  | none => exact ⟨_, rfl⟩
  | some m =>
    have hp : csrPresent a = true := (csrPresent_iff a).2 (by rw [hm]; rfl)
    by_cases hq : privBits p < csrPriv a
    · exact ⟨_, if_pos hq⟩
    · rcases h with h | h | h
      · rw [hp] at h; cases h
      · exact absurd hq (by rwa [csrPriv_le] at h)
      · simp only [if_neg hq, (csrReadOnly_iff a).2 h]
        exact ⟨_, rfl⟩

end Sys2Proof.Machine
end

