-- ==== Sys2Proof/Laws/Decoding.lean ====
section
/-! SUPPORT. The laws of the decoder's and encoder's parts: segments, operands, rows, and the facts of
the table on which decoding is unambiguous and loses no bit (30_encoding R150 to R156). -/

namespace Sys2Proof

/-! ### The OR of a list of words -/

/-- The OR of `f a` over a list. -/
def orMap {α : Type} (l : List α) (f : α → InstrWord) : InstrWord := l.foldr (fun a acc => f a ||| acc) 0

theorem foldl_or {α : Type} (l : List α) (f : α → InstrWord) (b : InstrWord) :
    l.foldl (fun acc a => acc ||| f a) b = b ||| orMap l f := by
  induction l generalizing b with
  | nil => exact (BitVec.or_zero).symm
  | cons a l ih => rw [List.foldl_cons, ih, BitVec.or_assoc]; rfl

theorem orMap_congr {α : Type} {l : List α} {f g : α → InstrWord} (h : ∀ a ∈ l, f a = g a) :
    orMap l f = orMap l g := by
  induction l with
  | nil => rfl
  | cons a l ih =>
    show f a ||| orMap l f = g a ||| orMap l g
    rw [h a List.mem_cons_self, ih fun b hb => h b (List.mem_cons_of_mem _ hb)]

/-- A function that takes OR to OR and 0 to 0 goes inside. -/
theorem map_orMap {α : Type} (l : List α) (f : α → InstrWord) {F : InstrWord → InstrWord}
    (hor : ∀ a b, F (a ||| b) = F a ||| F b) (h0 : F 0 = 0) :
    F (orMap l f) = orMap l fun a => F (f a) := by
  induction l with
  | nil => exact h0
  | cons a l ih =>
    show F (f a ||| orMap l f) = F (f a) ||| orMap l fun a => F (f a)
    rw [hor, ih]

/-- One term is left where the others are 0. -/
theorem orMap_single {α : Type} {l : List α} {f : α → InstrWord} {a : α} (ha : a ∈ l)
    (h : ∀ b ∈ l, b = a ∨ f b = 0) : orMap l f = f a := by
  have key : ∀ m : List α, (∀ b ∈ m, b = a ∨ f b = 0) →
      orMap m f = 0 ∨ orMap m f = f a := by
    intro m
    induction m with
    | nil => exact fun _ => .inl rfl
    | cons b m ih =>
      intro hm
      show f b ||| orMap m f = 0 ∨ f b ||| orMap m f = f a
      have h1 := hm b List.mem_cons_self
      have h2 := ih fun c hc => hm c (List.mem_cons_of_mem _ hc)
      rcases h1 with rfl | h1 <;> rcases h2 with h2 | h2 <;> simp_all
  have mem : ∀ m : List α, a ∈ m → f a ||| orMap m f = orMap m f := by
    intro m
    induction m with
    | nil => simp
    | cons b m ih =>
      intro hm
      show f a ||| (f b ||| orMap m f) = f b ||| orMap m f
      rcases List.mem_cons.1 hm with rfl | hm
      · rw [← BitVec.or_assoc, BitVec.or_self]
      · rw [← BitVec.or_assoc, BitVec.or_comm (f a), BitVec.or_assoc, ih hm]
  have m := mem l ha
  rcases key l h with e | e
  · rw [e] at m ⊢
    simpa using m.symm
  · exact e

theorem orMap_or {α : Type} (l : List α) (f g : α → InstrWord) :
    orMap l (fun a => f a ||| g a) = orMap l f ||| orMap l g := by
  induction l with
  | nil => exact BitVec.or_zero.symm
  | cons a l ih =>
    show (f a ||| g a) ||| orMap l (fun a => f a ||| g a) = (f a ||| orMap l f) ||| (g a ||| orMap l g)
    rw [ih]
    ac_rfl

theorem orMap_zero {α : Type} (l : List α) : orMap l (fun _ => 0) = 0 := by
  induction l with
  | nil => rfl
  | cons a l ih => exact (BitVec.zero_or).trans ih

/-- A list of words inside the masks `g` is inside their OR. -/
theorem orMap_and_orMap {α : Type} {l : List α} {f g : α → InstrWord} (h : ∀ a ∈ l, f a &&& g a = f a) :
    orMap l f &&& orMap l g = orMap l f := by
  induction l with
  | nil => exact BitVec.and_self
  | cons a l ih =>
    have h1 := h a List.mem_cons_self
    have h2 := ih fun b hb => h b (List.mem_cons_of_mem _ hb)
    show (f a ||| orMap l f) &&& (g a ||| orMap l g) = f a ||| orMap l f
    apply BitVec.eq_of_getLsbD_eq
    intro i _
    have h1 := congrArg (BitVec.getLsbD · i) h1
    have h2 := congrArg (BitVec.getLsbD · i) h2
    simp only [BitVec.getLsbD_and, BitVec.getLsbD_or] at *
    revert h1 h2
    cases (f a).getLsbD i <;> cases (g a).getLsbD i <;> cases (orMap l f).getLsbD i <;>
      cases (orMap l g).getLsbD i <;> simp

theorem and_orMap {α : Type} (l : List α) (f : α → InstrWord) (w : InstrWord) :
    orMap l (fun a => w &&& f a) = w &&& orMap l f :=
  (map_orMap l f (F := fun x => w &&& x) (fun _ _ => BitVec.and_or_distrib_left) BitVec.and_zero).symm

/-! ### Segments -/

/-- The bits of the word a segment takes. -/
def Segment.span (s : Segment) : InstrWord := onesMask (s.hi - s.lo + 1) <<< s.lo

/-- The bits of the value a segment gives. -/
def Segment.valueMask (s : Segment) : InstrWord := onesMask (s.hi - s.lo + 1) <<< s.shift

/-- A segment and its contribution lie inside 32 bits. -/
def Segment.fits (s : Segment) : Bool :=
  decide (s.lo ≤ s.hi) && decide (s.hi < 32) && decide (s.shift + (s.hi - s.lo) < 32)

theorem getLsbD_onesMask (k i : Nat) : (onesMask k).getLsbD i = (decide (i < k) && decide (i < 32)) := by
  simp only [onesMask, BitVec.getLsbD_ofNat, Nat.testBit_two_pow_sub_one]
  rw [Bool.and_comm]

/-- Moving bits right, masking and moving left again. -/
theorem move_or (k l r : Nat) (a b : InstrWord) :
    (((a ||| b) >>> r) &&& onesMask k) <<< l =
      ((a >>> r) &&& onesMask k) <<< l ||| ((b >>> r) &&& onesMask k) <<< l := by
  rw [BitVec.ushiftRight_or_distrib, BitVec.and_or_distrib_right, BitVec.shiftLeft_or_distrib]

theorem getLsbD_mask (k l i : Nat) :
    (onesMask k <<< l).getLsbD i = decide (l ≤ i ∧ i < l + k ∧ i < 32) := by
  rw [Bool.eq_iff_iff]
  simp only [BitVec.getLsbD_shiftLeft, getLsbD_onesMask, Bool.and_eq_true, decide_eq_true_eq,
    Bool.not_eq_true', decide_eq_false_iff_not]
  omega

theorem getLsbD_move {k l r i : Nat} (hr : r + k ≤ 32) (w : InstrWord) :
    (((w >>> r) &&& onesMask k) <<< l).getLsbD i =
      (decide (l ≤ i ∧ i < l + k ∧ i < 32) && w.getLsbD (i - l + r)) := by
  rw [Bool.eq_iff_iff]
  simp only [BitVec.getLsbD_shiftLeft, BitVec.getLsbD_and, BitVec.getLsbD_ushiftRight, getLsbD_onesMask,
    Bool.and_eq_true, decide_eq_true_eq, Bool.not_eq_true', decide_eq_false_iff_not, Nat.add_comm r]
  constructor
  · rintro ⟨⟨h1, h2⟩, h3, h4, h5⟩
    exact ⟨by omega, h3⟩
  · rintro ⟨h1, h3⟩
    exact ⟨by omega, h3, by omega, by omega⟩

theorem move_move {k l r : Nat} (hl : l + k ≤ 32) (hr : r + k ≤ 32) (w : InstrWord) :
    (((((w >>> r) &&& onesMask k) <<< l) >>> l) &&& onesMask k) <<< r = w &&& (onesMask k <<< r) := by
  apply BitVec.eq_of_getLsbD_eq
  intro i hi
  rw [getLsbD_move hl, getLsbD_move hr, BitVec.getLsbD_and, getLsbD_mask, Bool.and_comm (w.getLsbD i)]
  by_cases h : r ≤ i ∧ i < r + k ∧ i < 32
  · rw [show i - r + l - l + r = i by omega, decide_eq_true h,
      decide_eq_true (show l ≤ i - r + l ∧ i - r + l < l + k ∧ i - r + l < 32 by omega), Bool.true_and,
      Bool.true_and]
  · rw [decide_eq_false h, Bool.false_and, Bool.false_and]

theorem move_and_mask {k l r : Nat} (w : InstrWord) :
    (((w >>> r) &&& onesMask k) <<< l) &&& (onesMask k <<< l) = ((w >>> r) &&& onesMask k) <<< l := by
  rw [← BitVec.shiftLeft_and_distrib, BitVec.and_assoc, BitVec.and_self]

theorem move_mask {k l r : Nat} (hr : r + k ≤ 32) (w : InstrWord) :
    (((w &&& (onesMask k <<< r)) >>> r) &&& onesMask k) <<< l = ((w >>> r) &&& onesMask k) <<< l := by
  apply BitVec.eq_of_getLsbD_eq
  intro i hi
  rw [getLsbD_move hr, getLsbD_move hr, BitVec.getLsbD_and, getLsbD_mask]
  by_cases h : l ≤ i ∧ i < l + k ∧ i < 32
  · rw [decide_eq_true (show r ≤ i - l + r ∧ i - l + r < r + k ∧ i - l + r < 32 by omega),
      Bool.and_true]
  · rw [decide_eq_false h, Bool.false_and, Bool.false_and]

namespace Segment
variable {s t : Segment}

theorem extract_or (s : Segment) (a b : InstrWord) : s.extract (a ||| b) = s.extract a ||| s.extract b :=
  move_or ..
theorem deposit_or (s : Segment) (a b : InstrWord) : s.deposit (a ||| b) = s.deposit a ||| s.deposit b :=
  move_or ..
theorem extract_zero (s : Segment) : s.extract 0 = 0 := by simp [extract]
theorem deposit_zero (s : Segment) : s.deposit 0 = 0 := by simp [deposit]

theorem fits_iff : s.fits = true ↔
    s.lo + (s.hi - s.lo + 1) ≤ 32 ∧ s.shift + (s.hi - s.lo + 1) ≤ 32 ∧ s.lo ≤ s.hi := by
  simp only [fits, Bool.and_eq_true, decide_eq_true_eq]
  omega

theorem extract_span (h : s.fits = true) (w : InstrWord) : s.extract (w &&& s.span) = s.extract w :=
  move_mask (fits_iff.1 h).1 w
theorem deposit_valueMask (h : s.fits = true) (v : InstrWord) :
    s.deposit (v &&& s.valueMask) = s.deposit v := move_mask (fits_iff.1 h).2.1 v
theorem extract_and_valueMask (s : Segment) (w : InstrWord) :
    s.extract w &&& s.valueMask = s.extract w := move_and_mask w
theorem deposit_and_span (s : Segment) (v : InstrWord) : s.deposit v &&& s.span = s.deposit v :=
  move_and_mask v
/-- What is put into the word is what is read from it. -/
theorem extract_deposit (h : s.fits = true) (v : InstrWord) : s.extract (s.deposit v) = v &&& s.valueMask :=
  move_move (fits_iff.1 h).1 (fits_iff.1 h).2.1 v
theorem deposit_extract (h : s.fits = true) (w : InstrWord) : s.deposit (s.extract w) = w &&& s.span :=
  move_move (fits_iff.1 h).2.1 (fits_iff.1 h).1 w

/-- A segment reads nothing where a disjoint mask has put the bits. -/
theorem extract_of_disjoint (hs : s.fits = true) {m w : InstrWord} (h : s.span &&& m = 0)
    (hw : w &&& m = w) : s.extract w = 0 := by
  rw [← extract_span hs, ← hw, BitVec.and_assoc, BitVec.and_comm m, h,
    show w &&& (0 : InstrWord) = 0 from BitVec.and_zero, extract_zero]
theorem deposit_of_disjoint (hs : s.fits = true) {m v : InstrWord} (h : s.valueMask &&& m = 0)
    (hv : v &&& m = v) : s.deposit v = 0 := by
  rw [← deposit_valueMask hs, ← hv, BitVec.and_assoc, BitVec.and_comm m, h,
    show v &&& (0 : InstrWord) = 0 from BitVec.and_zero, deposit_zero]

end Segment

/-! ### Operands -/

namespace Operand

/-- The bits of the word an operand takes. -/
def span (o : Operand) : InstrWord := orMap o.segments Segment.span

/-- The bits an operand's value can have. -/
def valueMask (o : Operand) : InstrWord := orMap o.segments Segment.valueMask

/-- The segments fit, take different bits of the word and give different bits of the value. -/
def sound (o : Operand) : Bool :=
  o.segments.all fun s => s.fits && o.segments.all fun t =>
    t == s || (s.span &&& t.span == 0 && s.valueMask &&& t.valueMask == 0)

theorem extract_eq (o : Operand) (w : InstrWord) :
    o.extract w = orMap o.segments fun s => s.extract w := by
  rw [extract, foldl_or]; exact BitVec.zero_or
theorem deposit_eq (o : Operand) (v : InstrWord) :
    o.deposit v = orMap o.segments fun s => s.deposit v := by
  rw [deposit, foldl_or]; exact BitVec.zero_or

theorem sound_iff {o : Operand} : o.sound = true ↔ ∀ s ∈ o.segments, s.fits = true ∧
    ∀ t ∈ o.segments, t = s ∨ (s.span &&& t.span = 0 ∧ s.valueMask &&& t.valueMask = 0) := by
  simp [sound]

/-- What is put into the word is what is read from it. -/
theorem extract_deposit {o : Operand} (h : o.sound = true) (v : InstrWord) :
    o.extract (o.deposit v) = v &&& o.valueMask := by
  rw [extract_eq, deposit_eq, valueMask, ← and_orMap]
  apply orMap_congr
  intro s hs
  obtain ⟨hf, hd⟩ := sound_iff.1 h s hs
  rw [map_orMap _ _ (s.extract_or) s.extract_zero, orMap_single hs, s.extract_deposit hf]
  intro t ht
  rcases hd t ht with rfl | ⟨hd, -⟩
  · exact .inl rfl
  · exact .inr (s.extract_of_disjoint hf hd (t.deposit_and_span v))

theorem deposit_extract {o : Operand} (h : o.sound = true) (w : InstrWord) :
    o.deposit (o.extract w) = w &&& o.span := by
  rw [extract_eq, deposit_eq, span, ← and_orMap]
  apply orMap_congr
  intro s hs
  obtain ⟨hf, hd⟩ := sound_iff.1 h s hs
  rw [map_orMap _ _ (s.deposit_or) s.deposit_zero, orMap_single hs, s.deposit_extract hf]
  intro t ht
  rcases hd t ht with rfl | ⟨-, hd⟩
  · exact .inl rfl
  · exact .inr (s.deposit_of_disjoint hf hd (t.extract_and_valueMask w))

theorem extract_or (o : Operand) (a b : InstrWord) : o.extract (a ||| b) = o.extract a ||| o.extract b := by
  simp only [extract_eq, ← orMap_or, Segment.extract_or]

theorem extract_zero (o : Operand) : o.extract 0 = 0 := by
  simp only [extract_eq, Segment.extract_zero, orMap_zero]

theorem extract_span {o : Operand} (ho : o.sound = true) (w : InstrWord) :
    o.extract (w &&& o.span) = o.extract w := by
  rw [← deposit_extract ho, extract_deposit ho, extract_eq]
  exact orMap_and_orMap fun s _ => s.extract_and_valueMask w

/-- An operand reads nothing where a disjoint mask has put the bits. -/
theorem extract_of_disjoint {o : Operand} (ho : o.sound = true) {m w : InstrWord}
    (h : o.span &&& m = 0) (hw : w &&& m = w) : o.extract w = 0 := by
  rw [← extract_span ho, ← hw, BitVec.and_assoc, BitVec.and_comm m, h,
    show w &&& (0 : InstrWord) = 0 from BitVec.and_zero, extract_zero]

theorem deposit_and_span (o : Operand) (v : InstrWord) : o.deposit v &&& o.span = o.deposit v := by
  rw [deposit_eq]
  exact orMap_and_orMap fun s _ => s.deposit_and_span v

theorem extract_and_valueMask (o : Operand) (w : InstrWord) : o.extract w &&& o.valueMask = o.extract w := by
  rw [extract_eq]
  exact orMap_and_orMap fun s _ => s.extract_and_valueMask w

end Operand

namespace Operand

/-- A value the operand can have and does not exclude. -/
def admits (o : Operand) (v : InstrWord) : Bool := (v &&& o.valueMask == v) && !o.exclude.contains v

/-- A value read from a word that the operand does not exclude is one it admits. -/
theorem admits_extract {o : Operand} {w : InstrWord} (h : o.excludes w = false) :
    o.admits (o.extract w) = true := by
  have h : o.exclude.contains (o.extract w) = false := h
  simp only [admits, extract_and_valueMask, h, beq_self_eq_true, Bool.not_false, Bool.and_self]

end Operand

/-! ### Rows -/

namespace Definition

/-- The bits of a word of the row's length. -/
def wordMask (d : Definition) : InstrWord := if d.length = 16 then 0xFFFF#32 else 0xFFFFFFFF#32

/-- A row's mask and operands take every bit of its word exactly once, and its operands have different
names. -/
def sound (d : Definition) : Bool :=
  d.bits &&& d.mask == d.bits && (d.length == 16 || d.length == 32) &&
    d.mask ||| orMap d.operands Operand.span == d.wordMask &&
    d.operands.all fun o => o.sound && o.span &&& d.mask == 0 && d.operands.all fun p =>
      p == o || (p.name != o.name && o.span &&& p.span == 0)

structure Sound (d : Definition) : Prop where
  bits     : d.bits &&& d.mask = d.bits
  length   : d.length = 16 ∨ d.length = 32
  cover    : d.mask ||| orMap d.operands Operand.span = d.wordMask
  operand  : ∀ o ∈ d.operands, o.sound = true
  mask     : ∀ o ∈ d.operands, o.span &&& d.mask = 0
  distinct : ∀ o ∈ d.operands, ∀ p ∈ d.operands, p = o ∨ (p.name ≠ o.name ∧ o.span &&& p.span = 0)

theorem sound_iff {d : Definition} : d.sound = true ↔ d.Sound := by
  simp only [sound, Bool.and_eq_true, Bool.or_eq_true, beq_iff_eq, List.all_eq_true, bne_iff_ne]
  constructor
  · rintro ⟨⟨⟨h1, h2⟩, h3⟩, h4⟩
    exact ⟨h1, h2, h3, fun o h => (h4 o h).1.1, fun o h => (h4 o h).1.2, fun o h => (h4 o h).2⟩
  · rintro ⟨h1, h2, h3, h4, h5, h6⟩
    exact ⟨⟨⟨h1, h2⟩, h3⟩, fun o h => ⟨⟨h4 o h, h5 o h⟩, h6 o h⟩⟩

theorem assemble_eq (d : Definition) (v : OpName → InstrWord) :
    d.assemble v = d.bits ||| orMap d.operands fun o => o.deposit (v o.name) := foldl_or ..

/-- The fixed bits of an assembled word. -/
theorem assemble_and_mask {d : Definition} (h : d.Sound) (v : OpName → InstrWord) :
    d.assemble v &&& d.mask = d.bits := by
  have e : (orMap d.operands fun o => o.deposit (v o.name)) &&& d.mask = 0 := by
    rw [BitVec.and_comm, ← and_orMap, ← orMap_zero d.operands]
    apply orMap_congr
    intro o ho
    rw [← o.deposit_and_span, BitVec.and_comm, BitVec.and_assoc, h.mask o ho]
    exact BitVec.and_zero
  rw [assemble_eq, BitVec.and_or_distrib_right, h.bits, e]
  exact BitVec.or_zero

/-- An operand of an assembled word is the value it was given, cut to the bits the operand has. -/
theorem extract_assemble {d : Definition} (h : d.Sound) (v : OpName → InstrWord) {o : Operand}
    (ho : o ∈ d.operands) : o.extract (d.assemble v) = v o.name &&& o.valueMask := by
  rw [assemble_eq, o.extract_or, o.extract_of_disjoint (h.operand o ho) (h.mask o ho) h.bits,
    map_orMap _ _ o.extract_or o.extract_zero, orMap_single ho, o.extract_deposit (h.operand o ho)]
  · exact BitVec.zero_or
  · intro p hp
    rcases h.distinct o ho p hp with rfl | ⟨-, hd⟩
    · exact .inl rfl
    · exact .inr (o.extract_of_disjoint (h.operand o ho) hd (p.deposit_and_span _))

/-- An assembled word has no bit above its length. -/
theorem assemble_and_wordMask {d : Definition} (h : d.Sound) (v : OpName → InstrWord) :
    d.assemble v &&& d.wordMask = d.assemble v := by
  rw [assemble_eq, ← h.cover]
  have e := orMap_and_orMap (l := d.operands) (f := fun o => o.deposit (v o.name)) (g := Operand.span)
    fun o _ => o.deposit_and_span _
  have b := h.bits
  apply BitVec.eq_of_getLsbD_eq
  intro i _
  have e := congrArg (BitVec.getLsbD · i) e
  have b := congrArg (BitVec.getLsbD · i) b
  simp only [BitVec.getLsbD_and, BitVec.getLsbD_or] at *
  revert e b
  cases d.bits.getLsbD i <;> cases d.mask.getLsbD i <;>
    cases (orMap d.operands fun o => o.deposit (v o.name)).getLsbD i <;>
    cases (orMap d.operands Operand.span).getLsbD i <;> simp

theorem value_of_mem {d : Definition} (h : d.Sound) (w : InstrWord) {o : Operand}
    (ho : o ∈ d.operands) : d.value w o.name = o.extract w := by
  unfold value
  cases hf : d.operands.find? (fun p => p.name == o.name) with
  | none =>
    have := List.find?_eq_none.1 hf o ho
    simp at this
  | some p =>
    have hp := List.mem_of_find?_eq_some hf
    have hn := List.find?_some hf
    rcases h.distinct o ho p hp with rfl | ⟨hd, -⟩
    · rfl
    · exact absurd (by simpa using hn) hd

/-- A word of a row is what its operands' values assemble to. -/
theorem assemble_value {d : Definition} (h : d.Sound) {w : InstrWord} (hm : w &&& d.mask = d.bits)
    (hw : w &&& d.wordMask = w) : d.assemble (d.value w) = w := by
  have e : (orMap d.operands fun o => o.deposit (d.value w o.name)) =
      w &&& orMap d.operands Operand.span := by
    rw [← and_orMap]
    apply orMap_congr
    intro o ho
    rw [value_of_mem h w ho, o.deposit_extract (h.operand o ho)]
  rw [assemble_eq, e, ← hm, ← BitVec.and_or_distrib_left, h.cover, hw]

/-- No word matches both rows: their lengths differ, or their fixed bits, or the fixed bits of one give
an operand of the other a value it excludes. -/
def apart (d e : Definition) : Bool :=
  let bars := fun d e : Definition => d.operands.any fun o =>
    o.span &&& e.mask == o.span && o.exclude.contains (o.extract e.bits)
  d.length != e.length || (d.bits ^^^ e.bits) &&& (d.mask &&& e.mask) != 0 || bars d e || bars e d

theorem excludes_of_bars {d e : Definition} (hd : d.Sound) {w : InstrWord} (hw : w &&& e.mask = e.bits)
    (h : (d.operands.any fun o => o.span &&& e.mask == o.span && o.exclude.contains (o.extract e.bits)) = true) :
    ∃ o ∈ d.operands, o.excludes w = true := by
  obtain ⟨o, ho, h⟩ := List.any_eq_true.1 h
  simp only [Bool.and_eq_true, beq_iff_eq] at h
  refine ⟨o, ho, ?_⟩
  rw [Operand.excludes, ← o.extract_span (hd.operand o ho) w, ← h.1, BitVec.and_comm o.span,
    ← BitVec.and_assoc, hw, o.extract_span (hd.operand o ho)]
  exact h.2

/-- Rows that are apart do not match one word. -/
theorem not_both_match {d e : Definition} (hd : d.Sound) (he : e.Sound) (h : d.apart e = true)
    {disabled : List Mnemonic} {mode : Mode} {len : Nat} {w : InstrWord}
    (h1 : d.matchesWord disabled mode len w = true) : e.matchesWord disabled mode len w = false := by
  rw [← Bool.not_eq_true]
  intro h2
  simp only [matchesWord, Bool.and_eq_true, beq_iff_eq, List.all_eq_true, Bool.not_eq_true'] at h1 h2
  obtain ⟨⟨⟨⟨l1, -⟩, m1⟩, x1⟩, -⟩ := h1
  obtain ⟨⟨⟨⟨l2, -⟩, m2⟩, x2⟩, -⟩ := h2
  simp only [apart, Bool.or_eq_true, bne_iff_ne] at h
  rcases h with ((h | h) | h) | h
  · exact h (l1.trans l2.symm)
  · apply h
    rw [← m1, ← m2]
    apply BitVec.eq_of_getLsbD_eq
    intro i _
    simp only [BitVec.getLsbD_and, BitVec.getLsbD_xor]
    cases w.getLsbD i <;> cases d.mask.getLsbD i <;> cases e.mask.getLsbD i <;> simp
  · obtain ⟨o, ho, hx⟩ := excludes_of_bars hd m2 h
    rw [x1 o ho] at hx; cases hx
  · obtain ⟨o, ho, hx⟩ := excludes_of_bars he m1 h
    rw [x2 o ho] at hx; cases hx

end Definition

/-! ### The table -/

/-- Every row takes every bit of its word exactly once. -/
theorem registry_sound {d : Definition} (h : d ∈ registry) : d.Sound := by
  have key : registry.all Definition.sound = true := by decide +kernel
  exact Definition.sound_iff.1 (List.all_eq_true.1 key d h)

/-- No two rows match one word, and no two have one mnemonic. -/
theorem registry_apart :
    registry.Pairwise fun d e => d.apart e = true ∧ d.mnemonic ≠ e.mnemonic := by
  decide +kernel

/-- Every row is of mode 64 or of every mode. -/
theorem registry_mode {d : Definition} (h : d ∈ registry) : d.mode = none ∨ d.mode = some .m64 := by
  have key : (registry.all fun d => d.mode == none || d.mode == some .m64) = true := by decide +kernel
  simpa using List.all_eq_true.1 key d h

theorem find?_of_apart {α : Type} {p : α → Bool} {l : List α} {a : α} (ha : a ∈ l) (hp : p a = true)
    (h : l.Pairwise fun b c => p c = true → p b = false) : l.find? p = some a := by
  induction l with
  | nil => cases ha
  | cons b l ih =>
    rw [List.pairwise_cons] at h
    rcases List.mem_cons.1 ha with rfl | ha
    · exact List.find?_cons_of_pos hp
    · rw [List.find?_cons_of_neg (by simp [h.1 a ha hp])]
      exact ih ha h.2

theorem rowOf_mnemonic {d : Definition} (h : d ∈ registry) : rowOf d.mnemonic = some d := by
  refine find?_of_apart h (by simp) (registry_apart.imp ?_)
  rintro b c ⟨-, hn⟩ hc
  rw [beq_iff_eq] at hc
  simpa [hc] using hn

theorem rowOf_mem {m : Mnemonic} {d : Definition} (h : rowOf m = some d) :
    d ∈ registry ∧ d.mnemonic = m :=
  ⟨List.mem_of_find?_eq_some h, by simpa using List.find?_some h⟩

/-- A list in which no two elements satisfy `p` has at most one that does. -/
theorem filter_of_apart {α : Type} {p : α → Bool} {l : List α} (h : l.Pairwise fun a b => p a = true → p b = false) :
    l.filter p = [] ∨ ∃ a, l.filter p = [a] := by
  induction l with
  | nil => exact .inl rfl
  | cons a l ih =>
    rw [List.pairwise_cons] at h
    by_cases ha : p a = true
    · refine .inr ⟨a, ?_⟩
      rw [List.filter_cons_of_pos ha, List.filter_eq_nil_iff.2]
      intro b hb
      simp [h.1 b hb ha]
    · rw [List.filter_cons_of_neg ha]
      exact ih h.2

theorem registry_matches_once (disabled : List Mnemonic) (mode : Mode) (len : Nat) (w : InstrWord) :
    registry.Pairwise fun d e => d.matchesWord disabled mode len w = true →
      e.matchesWord disabled mode len w = false :=
  registry_apart.imp_of_mem fun hd he h =>
    Definition.not_both_match (registry_sound hd) (registry_sound he) h.1

/-- Decoding is never ambiguous (30_encoding R154). -/
theorem lookup_ne_ambiguous (disabled : List Mnemonic) (mode : Mode) (len : Nat) (w : InstrWord) :
    lookup disabled mode len w ≠ .error .ambiguous := by
  unfold lookup
  rcases filter_of_apart (registry_matches_once disabled mode len w) with h | ⟨a, h⟩ <;> rw [h] <;> simp

theorem lookup_eq_ok {disabled : List Mnemonic} {mode : Mode} {len : Nat} {w : InstrWord} {d : Definition} :
    lookup disabled mode len w = .ok d ↔ d ∈ registry ∧ d.matchesWord disabled mode len w = true := by
  refine Iff.trans ?_ (List.mem_filter (p := fun d : Definition => d.matchesWord disabled mode len w))
  unfold lookup
  rcases filter_of_apart (registry_matches_once disabled mode len w) with h | ⟨a, h⟩ <;> rw [h]
  · simp
  · simp [eq_comm]

/-- A row matches the word it assembles from values it does not exclude. -/
theorem matchesWord_assemble {d : Definition} (h : d ∈ registry) {v : OpName → InstrWord}
    (hx : ∀ o ∈ d.operands, o.exclude.contains (v o.name &&& o.valueMask) = false) :
    d.matchesWord [] .m64 d.length (d.assemble v) = true := by
  have hd := registry_sound h
  simp only [Definition.matchesWord, Bool.and_eq_true, beq_iff_eq, List.all_eq_true,
    Definition.assemble_and_mask hd]
  refine ⟨⟨⟨⟨trivial, ?_⟩, trivial⟩, fun o ho => ?_⟩, rfl⟩
  · rcases registry_mode h with e | e <;> rw [e] <;> rfl
  · rw [Operand.excludes, Definition.extract_assemble hd v ho, hx o ho]; rfl

end Sys2Proof
end

