-- ==== Sys2Proof/Laws/Draws.lean ====
section
/-! SUPPORT. What a draw and a sample change: the tape, the tick and, for a sample, MTIME; nothing
else. -/

namespace Sys2Proof.Machine

section
variable (s : State)

theorem drawCycle_state : (drawCycle s).2 =
    { s with tape := (drawCycle s).2.tape, tick := (drawCycle s).2.tick } := by
  unfold drawCycle; cases s.tape.cycle <;> rfl

theorem drawWake_state : (drawWake s).2 =
    { s with tape := (drawWake s).2.tape, tick := (drawWake s).2.tick } := by
  unfold drawWake; cases s.tape.wake <;> rfl

theorem drawSchedule_state : (drawSchedule s).2 =
    { s with tape := (drawSchedule s).2.tape, tick := (drawSchedule s).2.tick } := by
  unfold drawSchedule; cases s.tape.schedule <;> rfl

theorem drawTlbUse_state : (drawTlbUse s).2 =
    { s with tape := (drawTlbUse s).2.tape, tick := (drawTlbUse s).2.tick } := by
  unfold drawTlbUse; cases s.tape.tlbUse <;> rfl

theorem drawDeviceRead_state : (drawDeviceRead s).2 =
    { s with tape := (drawDeviceRead s).2.tape, tick := (drawDeviceRead s).2.tick } := by
  unfold drawDeviceRead; cases s.tape.deviceRead <;> rfl

theorem drawBreakpoint_state : (drawBreakpoint s).2 =
    { s with tape := (drawBreakpoint s).2.tape, tick := (drawBreakpoint s).2.tick } := by
  unfold drawBreakpoint
  cases s.plat.debugger
  · rfl
  · cases s.tape.breakpoint <;> rfl

/-- A breakpoint draw without a debugger is false and changes nothing. -/
theorem drawBreakpoint_none (h : s.plat.debugger = false) : drawBreakpoint s = (false, s) := by
  unfold drawBreakpoint; rw [h]; rfl

theorem drawClint_state : (drawClint s).2 =
    { s with tape := (drawClint s).2.tape, tick := (drawClint s).2.tick } := by
  unfold drawClint; cases s.tape.clint <;> rfl

/-- A sample also moves MTIME to the sampled value. -/
theorem sampleClint_state : (sampleClint s).2 =
    { s with mtime := (sampleClint s).1.mtime, tape := (sampleClint s).2.tape,
             tick := (sampleClint s).2.tick } := by
  unfold sampleClint drawClint; cases s.tape.clint <;> rfl

theorem sampleClint_sampled : Sampled s (sampleClint s).1 (sampleClint s).2 where
  mtime := by
    simp only [sampleClint]
    split
    · exact Nat.le_refl _
    · next h => exact Nat.le_of_not_lt h
  given d l e := by
    simp only [sampleClint, drawClint, e, and_self, and_true]
    congr 1
    by_cases h : d.mtime < s.mtime
    · rw [if_pos h, if_neg (Nat.not_le.2 h)]
    · rw [if_neg h, if_pos (Nat.le_of_not_lt h)]
  frame := sampleClint_state s

@[simp] theorem sampleClint_hart : (sampleClint s).2.hart = s.hart := by rw [sampleClint_state]
@[simp] theorem sampleClint_others : (sampleClint s).2.others = s.others := by rw [sampleClint_state]
@[simp] theorem sampleClint_mem : (sampleClint s).2.mem = s.mem := by rw [sampleClint_state]
@[simp] theorem sampleClint_tlb : (sampleClint s).2.tlb = s.tlb := by rw [sampleClint_state]
@[simp] theorem sampleClint_plat : (sampleClint s).2.plat = s.plat := by rw [sampleClint_state]
@[simp] theorem sampleClint_bus : (sampleClint s).2.bus = s.bus := by rw [sampleClint_state]
@[simp] theorem sampleClint_note : (sampleClint s).2.note = s.note := by rw [sampleClint_state]
@[simp] theorem sampleClint_mtime : (sampleClint s).2.mtime = (sampleClint s).1.mtime := by
  rw [sampleClint_state]

end

end Sys2Proof.Machine
end

