-- ==== Sys2Proof/Laws/Status.lean ====
section
/-! SUPPORT. The status word bit by bit: what replacing a field, taking a trap, returning from one and
legalising a write do to each bit, and that they keep it legal. -/

namespace Sys2Proof.Machine

/-- The bits of a word with a field replaced. -/
theorem getLsbD_putField {n lo i : Nat} (x : BitVec n) (v : Word) (h : lo + n ≤ 64) :
    (putField lo x v).getLsbD i = if lo ≤ i ∧ i < lo + n then x.getLsbD (i - lo) else v.getLsbD i := by
  simp only [putField, BitVec.getLsbD_or, BitVec.getLsbD_and, BitVec.getLsbD_not,
    BitVec.getLsbD_shiftLeft, BitVec.getLsbD_ofNat, BitVec.getLsbD_setWidth, Nat.testBit_two_pow_sub_one]
  by_cases h1 : lo ≤ i ∧ i < lo + n
  · rw [if_pos h1]
    simp [show i < 64 by omega, show ¬ i < lo by omega, show i - lo < 64 by omega,
      show i - lo < n by omega]
  · rw [if_neg h1]
    by_cases h3 : i < 64
    · by_cases h2 : i < lo
      · simp [h2, h3]
      · rw [BitVec.getLsbD_of_ge x (i - lo) (by omega)]
        simp [h3, h2, show ¬ i - lo < n by omega]
    · rw [BitVec.getLsbD_of_ge v i (by omega)]
      simp [h3]

theorem getLsbD_putBit (lo i : Nat) (b : Bool) (v : Word) (h : lo < 64) :
    (putField lo (bit1 b) v).getLsbD i = if i = lo then b else v.getLsbD i := by
  rw [getLsbD_putField _ _ (by omega)]
  by_cases e : i = lo
  · subst e
    rw [if_pos (by omega), if_pos rfl, Nat.sub_self]
    cases b <;> rfl
  · rw [if_neg (by omega), if_neg e]

theorem getLsbD_putPair (lo i : Nat) (x : BitVec 2) (v : Word) (h : lo + 1 < 64) :
    (putField lo x v).getLsbD i =
      if i = lo then x.getLsbD 0 else if i = lo + 1 then x.getLsbD 1 else v.getLsbD i := by
  rw [getLsbD_putField _ _ (by omega)]
  by_cases e : i = lo
  · subst e
    rw [if_pos (by omega), if_pos rfl, Nat.sub_self]
  · by_cases e' : i = lo + 1
    · subst e'
      rw [if_pos (by omega), if_neg e, if_pos rfl, Nat.add_sub_cancel_left]
    · rw [if_neg (by omega), if_neg e, if_neg e']

theorem getLsbD_statusTrapM (p : Priv) (v : Word) (i : Nat) : (statusTrapM p v).getLsbD i =
    if i = 11 then (privBits p).getLsbD 0 else if i = 12 then (privBits p).getLsbD 1
    else if i = 3 then false else if i = 7 then v.getLsbD 3 else v.getLsbD i := by
  unfold statusTrapM
  rw [getLsbD_putPair _ _ _ _ (by decide), show (0#1) = bit1 false from rfl, getLsbD_putBit _ _ _ _ (by decide),
    getLsbD_putBit _ _ _ _ (by decide)]
  rfl

theorem getLsbD_statusTrapS (p : Priv) (v : Word) (i : Nat) : (statusTrapS p v).getLsbD i =
    if i = 8 then p != .U else if i = 1 then false else if i = 5 then v.getLsbD 1 else v.getLsbD i := by
  unfold statusTrapS
  rw [getLsbD_putBit _ _ _ _ (by decide), show (0#1) = bit1 false from rfl, getLsbD_putBit _ _ _ _ (by decide),
    getLsbD_putBit _ _ _ _ (by decide)]
  rfl

theorem getLsbD_statusMret (p : Priv) (v : Word) (i : Nat) : (statusMret p v).getLsbD i =
    if i = 17 ∧ p ≠ .M then false else if i = 11 then false else if i = 12 then false
    else if i = 7 then true else if i = 3 then v.getLsbD 7 else v.getLsbD i := by
  have e : (putField 11 0#2 (putField 7 1#1 (putField 3 (bit1 (statusMPIE v)) v))).getLsbD i =
      if i = 11 then false else if i = 12 then false
      else if i = 7 then true else if i = 3 then v.getLsbD 7 else v.getLsbD i := by
    rw [getLsbD_putPair _ _ _ _ (by decide), show (1#1) = bit1 true from rfl, getLsbD_putBit _ _ _ _ (by decide),
      getLsbD_putBit _ _ _ _ (by decide)]
    rfl
  simp only [statusMret]
  by_cases hp : p = .M
  · rw [if_pos hp, if_neg (fun h => h.2 hp), e]
  · rw [if_neg hp, show (0#1) = bit1 false from rfl, getLsbD_putBit _ _ _ _ (by decide), e]
    simp only [hp, ne_eq, not_false_eq_true, and_true]

theorem getLsbD_statusSret (v : Word) (i : Nat) : (statusSret v).getLsbD i =
    if i = 17 then false else if i = 8 then false else if i = 5 then true
    else if i = 1 then v.getLsbD 5 else v.getLsbD i := by
  unfold statusSret
  rw [show (0#1) = bit1 false from rfl, getLsbD_putBit _ _ _ _ (by decide), getLsbD_putBit _ _ _ _ (by decide),
    show (1#1) = bit1 true from rfl, getLsbD_putBit _ _ _ _ (by decide), getLsbD_putBit _ _ _ _ (by decide)]
  rfl

theorem getLsbD_statusDirtyFS (v : Word) (i : Nat) : (statusDirtyFS v).getLsbD i =
    if i = 13 then true else if i = 14 then true else v.getLsbD i :=
  getLsbD_putPair 13 i 3#2 v (by decide)

/-- The reserved code 2 in MPP, by its bits. -/
theorem statusMPP_eq_two (v : Word) : statusMPP v = 2 ↔ v.getLsbD 11 = false ∧ v.getLsbD 12 = true := by
  have e : statusMPP v = (if v.getLsbD 12 then 2#2 else 0) ||| (if v.getLsbD 11 then 1#2 else 0) := by
    apply BitVec.eq_of_getLsbD_eq
    intro i hi
    simp only [statusMPP, field, BitVec.getLsbD_extractLsb', decide_eq_true hi, Bool.true_and, BitVec.getLsbD_or]
    have : i = 0 ∨ i = 1 := by omega
    rcases this with rfl | rfl <;> cases v.getLsbD 11 <;> cases v.getLsbD 12 <;> simp_all
  rw [e]
  cases v.getLsbD 11 <;> cases v.getLsbD 12 <;> decide

theorem getLsbD_legaliseStatus (old new : Word) (i : Nat) : (legaliseStatus old new).getLsbD i =
    if i = 11 ∨ i = 12 then
      (if new.getLsbD 11 = false ∧ new.getLsbD 12 = true then old.getLsbD i else new.getLsbD i)
    else if mstatusWritable.getLsbD i then new.getLsbD i else old.getLsbD i := by
  have e : ∀ i, ((old &&& ~~~mstatusWritable) ||| (new &&& mstatusWritable)).getLsbD i =
      if mstatusWritable.getLsbD i then new.getLsbD i else old.getLsbD i := by
    intro i
    simp only [BitVec.getLsbD_or, BitVec.getLsbD_and, BitVec.getLsbD_not]
    by_cases hi : i < 64
    · cases mstatusWritable.getLsbD i <;> simp [hi]
    · simp [hi, BitVec.getLsbD_of_ge _ i (Nat.not_lt.1 hi)]
  have w11 : mstatusWritable.getLsbD 11 = true := by decide
  have w12 : mstatusWritable.getLsbD 12 = true := by decide
  simp only [legaliseStatus, statusMPP_eq_two, e, w11, w12, if_true]
  by_cases hm : new.getLsbD 11 = false ∧ new.getLsbD 12 = true
  · rw [if_pos hm, if_pos hm, getLsbD_putPair _ _ _ _ (by decide), e]
    by_cases h1 : i = 11
    · subst h1; simp [statusMPP, field]
    · by_cases h2 : i = 12
      · subst h2; simp [statusMPP, field]
      · simp only [h1, h2, if_false, or_self]
  · rw [if_neg hm, if_neg hm, e]
    by_cases h1 : i = 11
    · subst h1; simp [w11]
    · by_cases h2 : i = 12
      · subst h2; simp [w12]
      · simp only [h1, h2, if_false, or_self]

/-! ### Legal status words -/

/-- The clauses of `CsrFile.legal` on mstatus. -/
abbrev statusLegal (v : Word) : Prop := v &&& ~~~mstatusWritable = 0 ∧ statusMPP v ≠ 2

theorem masked_iff (v m : Word) : v &&& ~~~m = 0 ↔ ∀ i, m.getLsbD i = false → v.getLsbD i = false := by
  constructor
  · intro h i hi
    have h := congrArg (BitVec.getLsbD · i) h
    by_cases h64 : i < 64
    · simp only [BitVec.getLsbD_and, BitVec.getLsbD_not, decide_eq_true h64, hi, Bool.not_false,
        Bool.and_true] at h
      exact h.trans (BitVec.getLsbD_zero)
    · exact BitVec.getLsbD_of_ge v i (Nat.not_lt.1 h64)
  · intro h
    apply BitVec.eq_of_getLsbD_eq
    intro i hi
    cases hm : m.getLsbD i
    · simp [h i hm]
    · simp [hm]

theorem statusLegal_iff (v : Word) : statusLegal v ↔
    (∀ i, mstatusWritable.getLsbD i = false → v.getLsbD i = false) ∧
      ¬(v.getLsbD 11 = false ∧ v.getLsbD 12 = true) := by
  rw [statusLegal, masked_iff, ne_eq, statusMPP_eq_two]

/-- The writable bits of mstatus. -/
theorem writable_ne {i : Nat} (h : mstatusWritable.getLsbD i = false) : i ≠ 1 ∧ i ≠ 3 ∧ i ≠ 5 ∧ i ≠ 7 ∧
    i ≠ 8 ∧ i ≠ 11 ∧ i ≠ 12 ∧ i ≠ 13 ∧ i ≠ 14 ∧ i ≠ 17 := by
  refine ⟨?_, ?_, ?_, ?_, ?_, ?_, ?_, ?_, ?_, ?_⟩ <;> rintro rfl <;> exact absurd h (by decide)

theorem legaliseStatus_legal {o : Word} (h : statusLegal o) (v : Word) : statusLegal (legaliseStatus o v) := by
  rw [statusLegal_iff] at *
  refine ⟨fun i hi => ?_, ?_⟩
  · have w := writable_ne hi
    rw [getLsbD_legaliseStatus]
    simp [w, hi, h.1 i hi]
  · simp only [getLsbD_legaliseStatus, true_or, or_true, if_true]
    split
    · exact h.2
    · assumption

theorem statusTrapM_legal {p : Priv} (hp : p ≠ .H) {v : Word} (h : statusLegal v) :
    statusLegal (statusTrapM p v) := by
  rw [statusLegal_iff] at *
  refine ⟨fun i hi => ?_, ?_⟩
  · have w := writable_ne hi
    simp [getLsbD_statusTrapM, w, h.1 i hi]
  · rw [getLsbD_statusTrapM, getLsbD_statusTrapM]
    show ¬((privBits p).getLsbD 0 = false ∧ (privBits p).getLsbD 1 = true)
    revert hp
    cases p <;> decide

theorem statusTrapS_legal (p : Priv) {v : Word} (h : statusLegal v) : statusLegal (statusTrapS p v) := by
  rw [statusLegal_iff] at *
  refine ⟨fun i hi => ?_, ?_⟩
  · have w := writable_ne hi
    simp [getLsbD_statusTrapS, w, h.1 i hi]
  · rw [getLsbD_statusTrapS, getLsbD_statusTrapS]
    exact h.2

theorem statusMret_legal (p : Priv) {v : Word} (h : statusLegal v) : statusLegal (statusMret p v) := by
  rw [statusLegal_iff] at *
  refine ⟨fun i hi => ?_, ?_⟩
  · have w := writable_ne hi
    simp [getLsbD_statusMret, w, h.1 i hi]
  · rw [getLsbD_statusMret, getLsbD_statusMret]
    exact fun e => absurd e.2 (by simp)

theorem statusSret_legal {v : Word} (h : statusLegal v) : statusLegal (statusSret v) := by
  rw [statusLegal_iff] at *
  refine ⟨fun i hi => ?_, ?_⟩
  · have w := writable_ne hi
    simp [getLsbD_statusSret, w, h.1 i hi]
  · rw [getLsbD_statusSret, getLsbD_statusSret]
    exact h.2

theorem statusDirtyFS_legal {v : Word} (h : statusLegal v) : statusLegal (statusDirtyFS v) := by
  rw [statusLegal_iff] at *
  refine ⟨fun i hi => ?_, ?_⟩
  · have w := writable_ne hi
    simp [getLsbD_statusDirtyFS, w, h.1 i hi]
  · rw [getLsbD_statusDirtyFS, getLsbD_statusDirtyFS]
    exact h.2

end Sys2Proof.Machine
end

