-- ==== Sys2Proof/Laws/Invariant.lean ====
section
/-! SUPPORT. The invariant without its clause on the step note, and that each shared operation keeps
it. -/

namespace Sys2Proof.Machine

/-- `Inv` but for the step note, which is clear only between steps. -/
structure Steady (s : State) : Prop where
  memory : Memory.wf s.mem
  hart   : s.hart.legal
  others : ∀ h ∈ s.others, h.legal
  tlb    : tlbKeysDistinct s.tlb

theorem Inv.steady {s : State} (h : Inv s) : Steady s := ⟨h.memory, h.hart, h.others, h.tlb⟩

/-! ### Even addresses -/

theorem even_iff (v : Word) : v &&& 1#64 = 0 ↔ v.toNat % 2 = 0 := by
  rw [← BitVec.toNat_inj, BitVec.toNat_and]
  simp [Nat.and_one_is_mod]

theorem even_iff_bit (v : Word) : v &&& 1#64 = 0 ↔ v.getLsbD 0 = false := by
  rw [even_iff]
  simp only [BitVec.getLsbD, Nat.testBit_zero, decide_eq_false_iff_not]
  omega

theorem even_add {p q : Word} (hp : p &&& 1#64 = 0) (hq : q &&& 1#64 = 0) : (p + q) &&& 1#64 = 0 := by
  rw [even_iff] at *
  rw [BitVec.toNat_add]
  omega

theorem clearBit0_even (v : Word) : clearBit0 v &&& 1#64 = 0 := by simp [clearBit0, BitVec.and_assoc]

theorem sextWord_even {n : Nat} (v : BitVec n) (hv : v.getLsbD 0 = false) : sextWord v &&& 1#64 = 0 := by
  rw [even_iff_bit, sextWord]
  rcases n with _ | n
  · rw [BitVec.eq_nil v]; rfl
  · rw [BitVec.getLsbD_signExtend, if_pos (Nat.succ_pos n), hv]; rfl

/-- A vector target is even, the vector register's bit 1 being 0. -/
theorem vectorTarget_even (tvec : Word) (interrupt : Bool) (code : Nat) :
    vectorTarget tvec interrupt code &&& 1#64 = 0 := by
  have base : vectorBase tvec &&& 1#64 = 0 := by
    rw [vectorBase, BitVec.and_assoc]; simp
  unfold vectorTarget
  split
  · refine even_add base ?_
    rw [even_iff, BitVec.toNat_mul]
    simp
    omega
  · exact base

/-! ### The operations -/

namespace Steady
variable {s t : State}

theorem csr (h : Steady s) : s.hart.csr.legal := h.hart.2.2.2.1
theorem pc (h : Steady s) : s.hart.pc &&& 1#64 = 0 := h.hart.2.1

theorem setNote (h : Steady s) (n : StepNote) : Steady (s.setNote n) := ⟨h.1, h.2, h.3, h.4⟩
theorem setWfi (h : Steady s) (b : Bool) : Steady (s.setWfi b) := ⟨h.1, h.2, h.3, h.4⟩
theorem setSemihost (h : Steady s) (b : Bool) : Steady (s.setSemihost b) := ⟨h.1, h.2, h.3, h.4⟩
theorem setMem (h : Steady s) {m : List Host.Cell} (hm : Memory.wf m) : Steady (s.setMem m) :=
  ⟨hm, h.2, h.3, h.4⟩
theorem nextTick (h : Steady s) : Steady s.nextTick := ⟨h.1, h.2, h.3, h.4⟩
theorem setPc (h : Steady s) {p : Word} (hp : p &&& 1#64 = 0) : Steady (s.setPc p) :=
  ⟨h.1, ⟨h.hart.1, hp, h.hart.2.2⟩, h.3, h.4⟩
theorem setPriv (h : Steady s) {p : Priv} (hp : p ≠ .H) : Steady (s.setPriv p) :=
  ⟨h.1, ⟨h.hart.1, h.hart.2.1, hp, h.hart.2.2.2⟩, h.3, h.4⟩
theorem setCsrFile (h : Steady s) {c : CsrFile} (hc : c.legal) : Steady (s.setCsrFile c) :=
  ⟨h.1, ⟨h.hart.1, h.hart.2.1, h.hart.2.2.1, hc, h.hart.2.2.2.2⟩, h.3, h.4⟩
theorem setRes (h : Steady s) {r : Option Reservation}
    (hr : ∀ q, r = some q → q.width = 4 ∨ q.width = 8) : Steady (s.setRes r) :=
  ⟨h.1, ⟨h.hart.1, h.hart.2.1, h.hart.2.2.1, h.hart.2.2.2.1, hr⟩, h.3, h.4⟩
theorem clearRes (h : Steady s) : Steady (s.setRes none) := h.setRes fun _ e => nomatch e

theorem retireTo (h : Steady s) {p : Word} (hp : p &&& 1#64 = 0) : Steady (retireTo p s) :=
  (h.setPc hp).setNote _
theorem retire (h : Steady s) {len : Word} (hl : len &&& 1#64 = 0) : Steady (retire len s) :=
  h.retireTo (even_add h.pc hl)
theorem writeX (h : Steady s) (r : RegNum) (v : Word) : Steady (writeX r v s) where
  memory := by simpa using h.1
  hart := by simpa only [Hart.legal, writeX_x0, writeX_pc, writeX_priv, writeX_csr, writeX_res] using h.2
  others := by simpa using h.3
  tlb := by simpa using h.4
theorem writeF (h : Steady s) (r : RegNum) (v : Word) : Steady (writeF r v s) := ⟨h.1, h.2, h.3, h.4⟩
theorem retireX (h : Steady s) {len : Word} (hl : len &&& 1#64 = 0) (r : RegNum) (v : Word) :
    Steady (retireX len r v s) := (h.writeX r v).retire hl


theorem legal_of_res {h k : Hart} (hl : h.legal) (e : k = { h with res := k.res })
    (r : k.res = h.res ∨ k.res = none) : k.legal := by
  rw [e]
  refine ⟨hl.1, hl.2.1, hl.2.2.1, hl.2.2.2.1, fun q hq => ?_⟩
  rcases r with r | r
  · exact hl.2.2.2.2 q (r ▸ hq)
  · exact nomatch r.symm.trans hq

/-- An access keeps the invariant. -/
theorem access {t : State} (h : Steady s) (f : AccessFrame s t) : Steady t where
  memory := f.memory h.1
  hart := legal_of_res h.2 f.hart f.res
  others := by
    have key : ∀ l m : List Hart, List.Forall₂ (fun h k : Hart => k = { h with res := k.res } ∧
        (k.res = h.res ∨ k.res = none)) l m → (∀ h ∈ l, h.legal) → ∀ k ∈ m, k.legal := by
      intro l m hlm
      induction hlm with
      | nil => exact fun _ _ hk => nomatch hk
      | cons a _ ih =>
        intro hh
        rw [List.forall_mem_cons] at hh ⊢
        exact ⟨legal_of_res hh.1 a.1 a.2, ih hh.2⟩
    exact key _ _ f.others h.3
  tlb := f.tlb h.4

/-! Writing CSRs. -/

theorem setStatus (h : Steady s) {v : Word} (hv : statusLegal v) : Steady (setCsr .mstatus v s) := by
  obtain ⟨c1, -, -, c⟩ := h.csr
  exact h.setCsrFile (c := { s.hart.csr with mstatus := v }) ⟨c1, hv.1, hv.2, c⟩

theorem status (h : Steady s) : statusLegal s.hart.csr.mstatus := ⟨h.csr.2.1, h.csr.2.2.1⟩

theorem setDirtyFS (h : Steady s) : Steady (setDirtyFS s) := h.setStatus (statusDirtyFS_legal h.status)

theorem setFcsr (h : Steady s) {v : Word} (hv : v &&& ~~~0xff#64 = 0) : Steady (setCsr .fcsr v s) := by
  obtain ⟨-, c⟩ := h.csr
  exact h.setCsrFile (c := { s.hart.csr with fcsr := v }) ⟨hv, c⟩

theorem accrue (h : Steady s) (fl : BitVec 5) : Steady (accrue fl s) := by
  unfold Machine.accrue
  split
  · exact h
  · refine (h.setFcsr ?_).setDirtyFS
    have e : ∀ x : BitVec 5, x.setWidth 64 &&& ~~~0xff#64 = 0 := by decide
    rw [accrueFlags, BitVec.and_or_distrib_right, e]
    have := h.csr.1
    simpa [getCsr, CsrFile.get] using this

/-- Merging bits under a mask keeps what lies outside a wider mask. -/
theorem merge_masked {old mask wide v : Word} (h : old &&& ~~~wide = 0) (hm : mask &&& ~~~wide = 0) :
    ((old &&& ~~~mask) ||| (v &&& mask)) &&& ~~~wide = 0 := by
  rw [BitVec.and_or_distrib_right, BitVec.and_assoc v, hm, BitVec.and_assoc, BitVec.and_comm (~~~mask),
    ← BitVec.and_assoc, h]
  simp

/-- Merging a value under the mask of a plain write keeps the CSRs legal. -/
theorem plainWrite_legal {c : CsrFile} (h : c.legal) (v : Word) : ∀ p ∈ plainWrites,
    (c.put ((c.get p.1 &&& ~~~p.2) ||| (v &&& p.2)) p.1).legal := by
  obtain ⟨c1, c2, c3, c4, c5, c6, c7, c8, c9, c10, c11, c12, c13, c14⟩ := h
  intro p hp
  have two : ∀ x : Word, x &&& 2#64 = 0 ↔ x &&& ~~~0xfffffffffffffffd#64 = 0 := fun x => by
    rw [show ~~~0xfffffffffffffffd#64 = 2#64 from rfl]
  have one : ∀ x : Word, x &&& 1#64 = 0 ↔ x &&& ~~~0xfffffffffffffffe#64 = 0 := fun x => by
    rw [show ~~~0xfffffffffffffffe#64 = 1#64 from rfl]
  rw [two] at c8 c9
  rw [one] at c10 c11
  simp only [plainWrites, List.mem_cons, List.not_mem_nil, or_false] at hp
  rcases hp with rfl | rfl | rfl | rfl | rfl | rfl | rfl | rfl | rfl | rfl | rfl | rfl | rfl | rfl | rfl |
    rfl | rfl | rfl | rfl | rfl
  all_goals
    simp only [CsrFile.legal, CsrFile.put, CsrFile.get, two, one]
    refine ⟨?_, ?_, ?_, ?_, ?_, ?_, ?_, ?_, ?_, ?_, ?_, ?_, ?_, ?_⟩
    all_goals first | assumption | exact merge_masked (by assumption) (by decide)

theorem legalise_satp {o : Word} (h : satpMode o = 0 ∨ satpMode o = 8 ∨ satpMode o = 9 ∨ satpMode o = 10)
    (w : Word) : satpMode (legalise .satp o w) = 0 ∨ satpMode (legalise .satp o w) = 8 ∨
      satpMode (legalise .satp o w) = 9 ∨ satpMode (legalise .satp o w) = 10 := by
  have e : legalise .satp o w =
      if satpMode w = 0 || (modeLevels (satpMode w)).isSome then w else o := rfl
  have key : ∀ m : BitVec 4, (decide (m = 0) || (modeLevels m).isSome) = true →
      m = 0 ∨ m = 8 ∨ m = 9 ∨ m = 10 := by decide
  rw [e]
  split
  · rename_i hw
    exact key _ hw
  · exact h

/-- A CSR write keeps the invariant. -/
theorem csrWritten {v : Word} (h : Steady s) (w : CsrWritten v s t) : Steady t := by
  cases w with
  | nothing => exact h
  | plain hq => exact h.setCsrFile (plainWrite_legal h.csr v _ hq)
  | status w => exact h.setStatus (legaliseStatus_legal h.status w)
  | satp w =>
    obtain ⟨c1, c2, c3, c4, c5, c6, c7, c8, c9, c10, c11, c12, c13, c14⟩ := h.csr
    exact h.setCsrFile (c := { s.hart.csr with satp := legalise .satp s.hart.csr.satp w })
      ⟨c1, c2, c3, c4, c5, c6, c7, c8, c9, c10, c11, c12, c13, legalise_satp c14 w⟩
  | frm w =>
    refine h.setFcsr ?_
    rw [masked_iff]
    intro i hi
    have hf := (masked_iff _ _).1 h.csr.1 i hi
    rw [getLsbD_putField _ _ (by decide)]
    split
    · rename_i hr
      have : i = 5 ∨ i = 6 ∨ i = 7 := by omega
      rcases this with rfl | rfl | rfl <;> exact absurd hi (by decide)
    · exact hf
  | mip w =>
    obtain ⟨c1, c2, c3, c4, c5, c6, c7, c⟩ := h.csr
    refine h.setCsrFile (c := { s.hart.csr with mip := w &&& 0x222#64 }) ⟨c1, c2, c3, c4, c5, c6, ?_, c⟩
    rw [BitVec.and_assoc]
    exact BitVec.and_zero

theorem sampleClint (h : Steady s) : Steady (sampleClint s).2 := by
  have hd : Steady (drawClint s).2 := by
    unfold drawClint
    split <;> exact ⟨h.1, h.2, h.3, h.4⟩
  exact ⟨hd.1, hd.2, hd.3, hd.4⟩

theorem csrRead {a : CsrAddr} {v : Word} {p : Priv} (h : Steady s) (e : csrRead a p s = .ok (v, t)) :
    Steady t := by
  rcases csrRead_state e with rfl | rfl
  · exact h
  · exact h.sampleClint

/-! Taking an exception and returning from one. -/

theorem saveTrap (h : Steady s) (x : Priv) (interrupt : Bool) (code : Nat) (tval epc : Word) :
    Steady (saveTrap x interrupt code tval epc s) := by
  obtain ⟨c1, -, -, c4, c5, c6, c7, c8, c9, c10, c11, c12⟩ := h.csr
  have hc : (Machine.saveTrap x interrupt code tval epc s).hart.csr.legal := by
    rw [saveTrap_csr]
    split
    · have l := statusTrapS_legal s.hart.priv h.status
      exact ⟨c1, l.1, l.2, c4, c5, c6, c7, c8, c9, c10, clearBit0_even epc, c12⟩
    · have l := statusTrapM_legal h.hart.2.2.1 h.status
      exact ⟨c1, l.1, l.2, c4, c5, c6, c7, c8, c9, clearBit0_even epc, c11, c12⟩
  refine ⟨by simpa using h.1, ⟨?_, ?_, ?_, hc, ?_⟩, by simpa using h.3, by simpa using h.4⟩
  · simpa using h.hart.1
  · simpa using h.pc
  · simpa using h.hart.2.2.1
  · simpa using h.hart.2.2.2.2

theorem unresolvedTrap (h : Steady s) (x : Priv) (interrupt : Bool) (code : Nat) (tval epc : Word) :
    Steady (unresolvedTrap x interrupt code tval epc s) := by
  obtain ⟨c1, -, -, c4, c5, c6, c7, c8, c9, c10, c11, c12⟩ := h.csr
  have l := legaliseStatus_legal h.status (Config.unspecified (s.tick + 2))
  have hp : (if privOf (field 0 2 (Config.unspecified (s.tick + 1))) = .H then s.hart.priv
      else privOf (field 0 2 (Config.unspecified (s.tick + 1)))) ≠ .H := by
    split
    · exact h.hart.2.2.1
    · assumption
  have h1 := (h.setPc (clearBit0_even (Config.unspecified (s.tick + 0)))).setPriv hp
  unfold Machine.unresolvedTrap
  simp only
  split
  · have hc : CsrFile.legal { s.hart.csr with
        sepc := clearBit0 (Config.unspecified (s.tick + 3)), scause := Config.unspecified (s.tick + 4),
        stval := Config.unspecified (s.tick + 5),
        mstatus := legaliseStatus s.hart.csr.mstatus (Config.unspecified (s.tick + 2)) } :=
      ⟨c1, l.1, l.2, c4, c5, c6, c7, c8, c9, c10, clearBit0_even _, c12⟩
    have h2 := h1.setCsrFile hc
    exact ⟨h2.1, h2.2, h2.3, h2.4⟩
  · have hc : CsrFile.legal { s.hart.csr with
        mepc := clearBit0 (Config.unspecified (s.tick + 3)), mcause := Config.unspecified (s.tick + 4),
        mtval := Config.unspecified (s.tick + 5),
        mstatus := legaliseStatus s.hart.csr.mstatus (Config.unspecified (s.tick + 2)) } :=
      ⟨c1, l.1, l.2, c4, c5, c6, c7, c8, c9, clearBit0_even _, c11, c12⟩
    have h2 := h1.setCsrFile hc
    exact ⟨h2.1, h2.2, h2.3, h2.4⟩

theorem trapEntry (h : Steady s) (interrupt : Bool) (code : Nat) (tval epc : Word) :
    Steady (trapEntry interrupt code tval epc s) := by
  rcases trapEntry_cases interrupt code tval epc s with ⟨-, e⟩ | ⟨-, e⟩
  · rw [e]; exact h.unresolvedTrap ..
  · rw [e]
    refine ((((h.saveTrap ..).setPriv ?_).setPc (vectorTarget_even ..)).setWfi false).clearRes
    rcases trapTarget_cases interrupt code s with e | e <;> rw [e] <;> decide

/-- Taking an exception keeps the invariant. -/
theorem takeException (h : Steady s) (tr : Trap) : Steady (takeException tr s) :=
  (h.trapEntry ..).setNote _

theorem returnM (h : Steady s) : Steady (returnM s) := by
  refine (((h.setStatus (statusMret_legal _ h.status)).clearRes).setPriv ?_).setPc h.csr.2.2.2.2.2.2.2.2.2.1
  have hm := h.csr.2.2.1
  have key : ∀ b : BitVec 2, b ≠ 2 → privOf b ≠ .H := by decide
  exact key _ hm

theorem returnS (h : Steady s) : Steady (returnS s) := by
  refine (((h.setStatus (statusSret_legal h.status)).clearRes).setPriv ?_).setPc
    h.csr.2.2.2.2.2.2.2.2.2.2.1
  split <;> decide

/-- Where a computation that may raise keeps the invariant, so does what `exec` answers. -/
theorem settle {c : Attempt Unit} (hok : ∀ u, c = .ok () u → Steady u)
    (hraise : ∀ tr u, c = .raise tr u → Steady u) (e : settle c = .next t) : Steady t := by
  cases c with
  | ok a u => cases e; exact hok _ rfl
  | raise tr u => cases e; exact (hraise tr _ rfl).takeException tr

end Steady

end Sys2Proof.Machine
end

