-- ==== Sys2Proof/Laws/PerInstr.lean ====
section
/-! SUPPORT. What holds of every instruction as syntax, one lemma per constructor: its mnemonic and its
operand values build it, and it is well-formed when its row admits them. -/

namespace Sys2Proof

set_option Elab.async false

theorem setWidth_setWidth_self {n : Nat} (h : n ≤ 32) (v : BitVec n) : (v.setWidth 32).setWidth n = v := by
  rw [BitVec.setWidth_setWidth_of_le v h, BitVec.setWidth_eq]

theorem setWidth_inj {n : Nat} (h : n ≤ 32) {v w : BitVec n} : v.setWidth 32 = w.setWidth 32 ↔ v = w := by
  constructor
  · intro e
    rw [← setWidth_setWidth_self h v, e, setWidth_setWidth_self h]
  · rintro rfl; rfl

theorem inMask {n k : Nat} {m : InstrWord} (h : n ≤ 32) (hk : k ≤ n) (v : BitVec n)
    (hm : m = onesMask (n - k) <<< k) :
    ((v.setWidth 32 &&& m) == v.setWidth 32) = (v.extractLsb' 0 k == 0#k) := by
  subst hm
  rw [Bool.eq_iff_iff, beq_iff_eq, beq_iff_eq]
  constructor
  · intro e
    apply BitVec.eq_of_getLsbD_eq
    intro i hi
    have e := congrArg (BitVec.getLsbD · i) e
    simp only [BitVec.getLsbD_and, BitVec.getLsbD_shiftLeft, decide_eq_true hi, Bool.not_true,
      Bool.and_false, Bool.false_and, BitVec.getLsbD_setWidth] at e
    rw [decide_eq_true (show i < 32 by omega)] at e
    simp only [BitVec.getLsbD_extractLsb', BitVec.getLsbD_zero, decide_eq_true hi, Nat.zero_add,
      Bool.true_and] at e ⊢
    exact e.symm
  · intro e
    apply BitVec.eq_of_getLsbD_eq
    intro i hi
    simp only [BitVec.getLsbD_and, BitVec.getLsbD_shiftLeft, BitVec.getLsbD_setWidth, getLsbD_onesMask,
      decide_eq_true hi, Bool.true_and]
    by_cases h1 : i < k
    · have e := congrArg (BitVec.getLsbD · i) e
      simp only [BitVec.getLsbD_extractLsb', BitVec.getLsbD_zero, decide_eq_true h1, Nat.zero_add,
        Bool.true_and] at e
      rw [e, Bool.false_and]
    · by_cases h2 : i < n
      · rw [decide_eq_false h1, decide_eq_true (show i - k < n - k by omega),
          decide_eq_true (show i - k < 32 by omega)]
        exact Bool.and_true _
      · rw [BitVec.getLsbD_of_ge v i (by omega), Bool.false_and]

theorem extractLsb'_zero_eq {n : Nat} (v : BitVec n) : (v.extractLsb' 0 0 == 0#0) = true := by
  rw [beq_iff_eq]; exact Subsingleton.elim _ _

theorem extractLsb'_one_eq {n : Nat} (v : BitVec n) : (v.extractLsb' 0 1 == 0#1) = !v.getLsbD 0 := by
  have e : v.extractLsb' 0 1 = BitVec.ofBool (v.getLsbD 0) := by
    apply BitVec.eq_of_getLsbD_eq
    intro i hi
    obtain rfl : i = 0 := by omega
    simp
  rw [e]
  cases v.getLsbD 0 <;> rfl

theorem not_excluded {n : Nat} (h : n ≤ 32) (v e : BitVec n) :
    (!([e.setWidth 32].contains (v.setWidth 32))) = (v != e) := by
  rw [Bool.eq_iff_iff]
  simp [setWidth_inj h]

/-! ### The values each operand admits -/

theorem admits_opRd (v : BitVec 5) : opRd.admits (v.setWidth 32) = true := by
  show ((v.setWidth 32 &&& opRd.valueMask == v.setWidth 32) && _) = _
  rw [inMask (k := 0) (by decide) (by decide) v (by decide), extractLsb'_zero_eq]
  exact Bool.and_true _
theorem admits_opImmU (v : BitVec 32) : opImmU.admits (v.setWidth 32) = (v.extractLsb' 0 12 == 0#12) := by
  show ((v.setWidth 32 &&& opImmU.valueMask == v.setWidth 32) && _) = _
  rw [inMask (k := 12) (by decide) (by decide) v (by decide)]
  exact Bool.and_true _
theorem admits_opImmJ (v : BitVec 21) : opImmJ.admits (v.setWidth 32) = (!v.getLsbD 0) := by
  show ((v.setWidth 32 &&& opImmJ.valueMask == v.setWidth 32) && _) = _
  rw [inMask (k := 1) (by decide) (by decide) v (by decide), extractLsb'_one_eq]
  exact Bool.and_true _
theorem admits_opRs1 (v : BitVec 5) : opRs1.admits (v.setWidth 32) = true := by
  show ((v.setWidth 32 &&& opRs1.valueMask == v.setWidth 32) && _) = _
  rw [inMask (k := 0) (by decide) (by decide) v (by decide), extractLsb'_zero_eq]
  exact Bool.and_true _
theorem admits_opImmI (v : BitVec 12) : opImmI.admits (v.setWidth 32) = true := by
  show ((v.setWidth 32 &&& opImmI.valueMask == v.setWidth 32) && _) = _
  rw [inMask (k := 0) (by decide) (by decide) v (by decide), extractLsb'_zero_eq]
  exact Bool.and_true _
theorem admits_opRs2 (v : BitVec 5) : opRs2.admits (v.setWidth 32) = true := by
  show ((v.setWidth 32 &&& opRs2.valueMask == v.setWidth 32) && _) = _
  rw [inMask (k := 0) (by decide) (by decide) v (by decide), extractLsb'_zero_eq]
  exact Bool.and_true _
theorem admits_opImmB (v : BitVec 13) : opImmB.admits (v.setWidth 32) = (!v.getLsbD 0) := by
  show ((v.setWidth 32 &&& opImmB.valueMask == v.setWidth 32) && _) = _
  rw [inMask (k := 1) (by decide) (by decide) v (by decide), extractLsb'_one_eq]
  exact Bool.and_true _
theorem admits_opImmS (v : BitVec 12) : opImmS.admits (v.setWidth 32) = true := by
  show ((v.setWidth 32 &&& opImmS.valueMask == v.setWidth 32) && _) = _
  rw [inMask (k := 0) (by decide) (by decide) v (by decide), extractLsb'_zero_eq]
  exact Bool.and_true _
theorem admits_opShamt6 (v : BitVec 6) : opShamt6.admits (v.setWidth 32) = true := by
  show ((v.setWidth 32 &&& opShamt6.valueMask == v.setWidth 32) && _) = _
  rw [inMask (k := 0) (by decide) (by decide) v (by decide), extractLsb'_zero_eq]
  exact Bool.and_true _
theorem admits_opFm (v : BitVec 4) : opFm.admits (v.setWidth 32) = true := by
  show ((v.setWidth 32 &&& opFm.valueMask == v.setWidth 32) && _) = _
  rw [inMask (k := 0) (by decide) (by decide) v (by decide), extractLsb'_zero_eq]
  exact Bool.and_true _
theorem admits_opPred (v : BitVec 4) : opPred.admits (v.setWidth 32) = true := by
  show ((v.setWidth 32 &&& opPred.valueMask == v.setWidth 32) && _) = _
  rw [inMask (k := 0) (by decide) (by decide) v (by decide), extractLsb'_zero_eq]
  exact Bool.and_true _
theorem admits_opSucc (v : BitVec 4) : opSucc.admits (v.setWidth 32) = true := by
  show ((v.setWidth 32 &&& opSucc.valueMask == v.setWidth 32) && _) = _
  rw [inMask (k := 0) (by decide) (by decide) v (by decide), extractLsb'_zero_eq]
  exact Bool.and_true _
theorem admits_opShamt5 (v : BitVec 5) : opShamt5.admits (v.setWidth 32) = true := by
  show ((v.setWidth 32 &&& opShamt5.valueMask == v.setWidth 32) && _) = _
  rw [inMask (k := 0) (by decide) (by decide) v (by decide), extractLsb'_zero_eq]
  exact Bool.and_true _
theorem admits_opCsr (v : BitVec 12) : opCsr.admits (v.setWidth 32) = true := by
  show ((v.setWidth 32 &&& opCsr.valueMask == v.setWidth 32) && _) = _
  rw [inMask (k := 0) (by decide) (by decide) v (by decide), extractLsb'_zero_eq]
  exact Bool.and_true _
theorem admits_opUimm (v : BitVec 5) : opUimm.admits (v.setWidth 32) = true := by
  show ((v.setWidth 32 &&& opUimm.valueMask == v.setWidth 32) && _) = _
  rw [inMask (k := 0) (by decide) (by decide) v (by decide), extractLsb'_zero_eq]
  exact Bool.and_true _
theorem admits_opAq (v : BitVec 1) : opAq.admits (v.setWidth 32) = true := by
  show ((v.setWidth 32 &&& opAq.valueMask == v.setWidth 32) && _) = _
  rw [inMask (k := 0) (by decide) (by decide) v (by decide), extractLsb'_zero_eq]
  exact Bool.and_true _
theorem admits_opRl (v : BitVec 1) : opRl.admits (v.setWidth 32) = true := by
  show ((v.setWidth 32 &&& opRl.valueMask == v.setWidth 32) && _) = _
  rw [inMask (k := 0) (by decide) (by decide) v (by decide), extractLsb'_zero_eq]
  exact Bool.and_true _
theorem admits_opRs3 (v : BitVec 5) : opRs3.admits (v.setWidth 32) = true := by
  show ((v.setWidth 32 &&& opRs3.valueMask == v.setWidth 32) && _) = _
  rw [inMask (k := 0) (by decide) (by decide) v (by decide), extractLsb'_zero_eq]
  exact Bool.and_true _
theorem admits_opRm (v : BitVec 3) : opRm.admits (v.setWidth 32) = true := by
  show ((v.setWidth 32 &&& opRm.valueMask == v.setWidth 32) && _) = _
  rw [inMask (k := 0) (by decide) (by decide) v (by decide), extractLsb'_zero_eq]
  exact Bool.and_true _
theorem admits_opCRdLow (v : BitVec 3) : opCRdLow.admits (v.setWidth 32) = true := by
  show ((v.setWidth 32 &&& opCRdLow.valueMask == v.setWidth 32) && _) = _
  rw [inMask (k := 0) (by decide) (by decide) v (by decide), extractLsb'_zero_eq]
  exact Bool.and_true _
theorem admits_opCAddi4spn (v : BitVec 10) : opCAddi4spn.admits (v.setWidth 32) = (v.extractLsb' 0 2 == 0#2 && v != 0#10) := by
  show ((v.setWidth 32 &&& opCAddi4spn.valueMask == v.setWidth 32) && _) = _
  rw [inMask (k := 2) (by decide) (by decide) v (by decide)]
  exact congrArg (v.extractLsb' 0 2 == 0#2 && ·) (not_excluded (by decide) v 0#10)
theorem admits_opCRs1Mid (v : BitVec 3) : opCRs1Mid.admits (v.setWidth 32) = true := by
  show ((v.setWidth 32 &&& opCRs1Mid.valueMask == v.setWidth 32) && _) = _
  rw [inMask (k := 0) (by decide) (by decide) v (by decide), extractLsb'_zero_eq]
  exact Bool.and_true _
theorem admits_opCOff8 (v : BitVec 8) : opCOff8.admits (v.setWidth 32) = (v.extractLsb' 0 3 == 0#3) := by
  show ((v.setWidth 32 &&& opCOff8.valueMask == v.setWidth 32) && _) = _
  rw [inMask (k := 3) (by decide) (by decide) v (by decide)]
  exact Bool.and_true _
theorem admits_opCOff4 (v : BitVec 7) : opCOff4.admits (v.setWidth 32) = (v.extractLsb' 0 2 == 0#2) := by
  show ((v.setWidth 32 &&& opCOff4.valueMask == v.setWidth 32) && _) = _
  rw [inMask (k := 2) (by decide) (by decide) v (by decide)]
  exact Bool.and_true _
theorem admits_opCRs2Low (v : BitVec 3) : opCRs2Low.admits (v.setWidth 32) = true := by
  show ((v.setWidth 32 &&& opCRs2Low.valueMask == v.setWidth 32) && _) = _
  rw [inMask (k := 0) (by decide) (by decide) v (by decide), extractLsb'_zero_eq]
  exact Bool.and_true _
theorem admits_opCImm6 (v : BitVec 6) : opCImm6.admits (v.setWidth 32) = true := by
  show ((v.setWidth 32 &&& opCImm6.valueMask == v.setWidth 32) && _) = _
  rw [inMask (k := 0) (by decide) (by decide) v (by decide), extractLsb'_zero_eq]
  exact Bool.and_true _
theorem admits_opCRdNot0 (v : BitVec 5) : opCRdNot0.admits (v.setWidth 32) = (v != 0#5) := by
  show ((v.setWidth 32 &&& opCRdNot0.valueMask == v.setWidth 32) && _) = _
  rw [inMask (k := 0) (by decide) (by decide) v (by decide), extractLsb'_zero_eq]
  exact not_excluded (by decide) v 0#5
theorem admits_opCAddi16sp (v : BitVec 10) : opCAddi16sp.admits (v.setWidth 32) = (v.extractLsb' 0 4 == 0#4 && v != 0#10) := by
  show ((v.setWidth 32 &&& opCAddi16sp.valueMask == v.setWidth 32) && _) = _
  rw [inMask (k := 4) (by decide) (by decide) v (by decide)]
  exact congrArg (v.extractLsb' 0 4 == 0#4 && ·) (not_excluded (by decide) v 0#10)
theorem admits_opCRdNot2 (v : BitVec 5) : opCRdNot2.admits (v.setWidth 32) = (v != 2#5) := by
  show ((v.setWidth 32 &&& opCRdNot2.valueMask == v.setWidth 32) && _) = _
  rw [inMask (k := 0) (by decide) (by decide) v (by decide), extractLsb'_zero_eq]
  exact not_excluded (by decide) v 2#5
theorem admits_opCLui (v : BitVec 18) : opCLui.admits (v.setWidth 32) = (v.extractLsb' 0 12 == 0#12 && v != 0#18) := by
  show ((v.setWidth 32 &&& opCLui.valueMask == v.setWidth 32) && _) = _
  rw [inMask (k := 12) (by decide) (by decide) v (by decide)]
  exact congrArg (v.extractLsb' 0 12 == 0#12 && ·) (not_excluded (by decide) v 0#18)
theorem admits_opCRdMid (v : BitVec 3) : opCRdMid.admits (v.setWidth 32) = true := by
  show ((v.setWidth 32 &&& opCRdMid.valueMask == v.setWidth 32) && _) = _
  rw [inMask (k := 0) (by decide) (by decide) v (by decide), extractLsb'_zero_eq]
  exact Bool.and_true _
theorem admits_opCShamt (v : BitVec 6) : opCShamt.admits (v.setWidth 32) = true := by
  show ((v.setWidth 32 &&& opCShamt.valueMask == v.setWidth 32) && _) = _
  rw [inMask (k := 0) (by decide) (by decide) v (by decide), extractLsb'_zero_eq]
  exact Bool.and_true _
theorem admits_opCJump (v : BitVec 12) : opCJump.admits (v.setWidth 32) = (!v.getLsbD 0) := by
  show ((v.setWidth 32 &&& opCJump.valueMask == v.setWidth 32) && _) = _
  rw [inMask (k := 1) (by decide) (by decide) v (by decide), extractLsb'_one_eq]
  exact Bool.and_true _
theorem admits_opCBranch (v : BitVec 9) : opCBranch.admits (v.setWidth 32) = (!v.getLsbD 0) := by
  show ((v.setWidth 32 &&& opCBranch.valueMask == v.setWidth 32) && _) = _
  rw [inMask (k := 1) (by decide) (by decide) v (by decide), extractLsb'_one_eq]
  exact Bool.and_true _
theorem admits_opCLoadSp8 (v : BitVec 9) : opCLoadSp8.admits (v.setWidth 32) = (v.extractLsb' 0 3 == 0#3) := by
  show ((v.setWidth 32 &&& opCLoadSp8.valueMask == v.setWidth 32) && _) = _
  rw [inMask (k := 3) (by decide) (by decide) v (by decide)]
  exact Bool.and_true _
theorem admits_opCLoadSp4 (v : BitVec 8) : opCLoadSp4.admits (v.setWidth 32) = (v.extractLsb' 0 2 == 0#2) := by
  show ((v.setWidth 32 &&& opCLoadSp4.valueMask == v.setWidth 32) && _) = _
  rw [inMask (k := 2) (by decide) (by decide) v (by decide)]
  exact Bool.and_true _
theorem admits_opCRs1Not0 (v : BitVec 5) : opCRs1Not0.admits (v.setWidth 32) = (v != 0#5) := by
  show ((v.setWidth 32 &&& opCRs1Not0.valueMask == v.setWidth 32) && _) = _
  rw [inMask (k := 0) (by decide) (by decide) v (by decide), extractLsb'_zero_eq]
  exact not_excluded (by decide) v 0#5
theorem admits_opCRs2Not0 (v : BitVec 5) : opCRs2Not0.admits (v.setWidth 32) = (v != 0#5) := by
  show ((v.setWidth 32 &&& opCRs2Not0.valueMask == v.setWidth 32) && _) = _
  rw [inMask (k := 0) (by decide) (by decide) v (by decide), extractLsb'_zero_eq]
  exact not_excluded (by decide) v 0#5
theorem admits_opCRs2 (v : BitVec 5) : opCRs2.admits (v.setWidth 32) = true := by
  show ((v.setWidth 32 &&& opCRs2.valueMask == v.setWidth 32) && _) = _
  rw [inMask (k := 0) (by decide) (by decide) v (by decide), extractLsb'_zero_eq]
  exact Bool.and_true _
theorem admits_opCStoreSp8 (v : BitVec 9) : opCStoreSp8.admits (v.setWidth 32) = (v.extractLsb' 0 3 == 0#3) := by
  show ((v.setWidth 32 &&& opCStoreSp8.valueMask == v.setWidth 32) && _) = _
  rw [inMask (k := 3) (by decide) (by decide) v (by decide)]
  exact Bool.and_true _
theorem admits_opCStoreSp4 (v : BitVec 8) : opCStoreSp4.admits (v.setWidth 32) = (v.extractLsb' 0 2 == 0#2) := by
  show ((v.setWidth 32 &&& opCStoreSp4.valueMask == v.setWidth 32) && _) = _
  rw [inMask (k := 2) (by decide) (by decide) v (by decide)]
  exact Bool.and_true _

/-! ### The operands of each row -/

/-- The operands of a mnemonic's row. -/
def rowOperands : Mnemonic → List Operand
  | .LUI | .AUIPC => [opRd, opImmU]
  | .JAL => [opRd, opImmJ]
  | .JALR | .LB | .LH | .LW | .LD | .LBU | .LHU | .LWU | .ADDI | .SLTI | .SLTIU | .XORI | .ORI |
    .ANDI | .ADDIW | .FENCE_I | .FLW | .FLD => [opRd, opRs1, opImmI]
  | .BEQ | .BNE | .BLT | .BGE | .BLTU | .BGEU => [opRs1, opRs2, opImmB]
  | .SB | .SH | .SW | .SD | .FSW | .FSD => [opRs1, opRs2, opImmS]
  | .SLLI | .SRLI | .SRAI => [opRd, opRs1, opShamt6]
  | .ADD | .SUB | .SLL | .SLT | .SLTU | .XOR | .SRL | .SRA | .OR | .AND | .ADDW | .SUBW | .SLLW |
    .SRLW | .SRAW | .MUL | .MULH | .MULHSU | .MULHU | .DIV | .DIVU | .REM | .REMU | .MULW | .DIVW
    | .DIVUW | .REMW | .REMUW | .FSGNJ_S | .FSGNJN_S | .FSGNJX_S | .FMIN_S | .FMAX_S | .FLE_S |
    .FLT_S | .FEQ_S | .FSGNJ_D | .FSGNJN_D | .FSGNJX_D | .FMIN_D | .FMAX_D | .FLE_D | .FLT_D |
    .FEQ_D => [opRd, opRs1, opRs2]
  | .FENCE => [opRd, opRs1, opFm, opPred, opSucc]
  | .ECALL | .EBREAK | .SRET | .MRET | .WFI | .C_EBREAK => []
  | .SLLIW | .SRLIW | .SRAIW => [opRd, opRs1, opShamt5]
  | .CSRRW | .CSRRS | .CSRRC => [opRd, opRs1, opCsr]
  | .CSRRWI | .CSRRSI | .CSRRCI => [opRd, opUimm, opCsr]
  | .LR_W | .LR_D => [opRd, opRs1, opAq, opRl]
  | .SC_W | .AMOSWAP_W | .AMOADD_W | .AMOXOR_W | .AMOAND_W | .AMOOR_W | .AMOMIN_W | .AMOMAX_W |
    .AMOMINU_W | .AMOMAXU_W | .SC_D | .AMOSWAP_D | .AMOADD_D | .AMOXOR_D | .AMOAND_D | .AMOOR_D |
    .AMOMIN_D | .AMOMAX_D | .AMOMINU_D | .AMOMAXU_D => [opRd, opRs1, opRs2, opAq, opRl]
  | .SFENCE_VMA => [opRs1, opRs2]
  | .FMADD_S | .FMSUB_S | .FNMSUB_S | .FNMADD_S | .FMADD_D | .FMSUB_D | .FNMSUB_D | .FNMADD_D =>
    [opRd, opRs1, opRs2, opRs3, opRm]
  | .FADD_S | .FSUB_S | .FMUL_S | .FDIV_S | .FADD_D | .FSUB_D | .FMUL_D | .FDIV_D => [opRd, opRs1,
    opRs2, opRm]
  | .FSQRT_S | .FCVT_W_S | .FCVT_S_W | .FCVT_WU_S | .FCVT_S_WU | .FCVT_L_S | .FCVT_S_L |
    .FCVT_LU_S | .FCVT_S_LU | .FSQRT_D | .FCVT_W_D | .FCVT_D_W | .FCVT_WU_D | .FCVT_D_WU |
    .FCVT_L_D | .FCVT_D_L | .FCVT_LU_D | .FCVT_D_LU | .FCVT_S_D | .FCVT_D_S => [opRd, opRs1, opRm]
  | .FCLASS_S | .FMV_X_W | .FMV_W_X | .FCLASS_D | .FMV_X_D | .FMV_D_X => [opRd, opRs1]
  | .C_ADDI4SPN => [opCRdLow, opCAddi4spn]
  | .C_FLD | .C_LD => [opCRdLow, opCRs1Mid, opCOff8]
  | .C_LW => [opCRdLow, opCRs1Mid, opCOff4]
  | .C_FSD | .C_SD => [opCRs1Mid, opCRs2Low, opCOff8]
  | .C_SW => [opCRs1Mid, opCRs2Low, opCOff4]
  | .C_NOP => [opCImm6]
  | .C_ADDI | .C_ADDIW => [opCRdNot0, opCImm6]
  | .C_LI => [opRd, opCImm6]
  | .C_ADDI16SP => [opCAddi16sp]
  | .C_LUI => [opCRdNot2, opCLui]
  | .C_SRLI | .C_SRAI => [opCRdMid, opCShamt]
  | .C_ANDI => [opCRdMid, opCImm6]
  | .C_SUB | .C_XOR | .C_OR | .C_AND | .C_SUBW | .C_ADDW => [opCRdMid, opCRs2Low]
  | .C_J => [opCJump]
  | .C_BEQZ | .C_BNEZ => [opCRs1Mid, opCBranch]
  | .C_SLLI => [opRd, opCShamt]
  | .C_FLDSP => [opRd, opCLoadSp8]
  | .C_LWSP => [opCRdNot0, opCLoadSp4]
  | .C_LDSP => [opCRdNot0, opCLoadSp8]
  | .C_JR | .C_JALR => [opCRs1Not0]
  | .C_MV | .C_ADD => [opRd, opCRs2Not0]
  | .C_FSDSP | .C_SDSP => [opCRs2, opCStoreSp8]
  | .C_SWSP => [opCRs2, opCStoreSp4]

theorem registry_operands {d : Definition} (h : d ∈ registry) : d.operands = rowOperands d.mnemonic := by
  have key : (registry.all fun d => d.operands == rowOperands d.mnemonic) = true := by decide +kernel
  simpa using List.all_eq_true.1 key d h

/-- Every mnemonic has a row. -/
theorem rowOf_isSome (m : Mnemonic) : (rowOf m).isSome = true := by
  cases m <;> decide +kernel

/-- The instruction's operand values are ones its row admits. -/
def Instr.fits (i : Instr) : Bool :=
  (rowOperands i.mnemonic).all fun o => o.admits (i.operand o.name)


namespace Laws

/-! ### Rebuild: an instruction is what its mnemonic and its operand values build -/

/-- What an instruction's mnemonic builds from its operand values is the instruction. -/
def Rebuild.Statement (i : Instr) : Prop := i.mnemonic.build i.operand = i

theorem Rebuild.lui (rd : RegNum) (imm : BitVec 32) : Statement (.lui rd imm) := by
  show Instr.lui _ _ = _; congr 1 <;> exact setWidth_setWidth_self (by decide) _
theorem Rebuild.auipc (rd : RegNum) (imm : BitVec 32) : Statement (.auipc rd imm) := by
  show Instr.auipc _ _ = _; congr 1 <;> exact setWidth_setWidth_self (by decide) _
theorem Rebuild.jal (rd : RegNum) (imm : BitVec 21) : Statement (.jal rd imm) := by
  show Instr.jal _ _ = _; congr 1 <;> exact setWidth_setWidth_self (by decide) _
theorem Rebuild.jalr (rd rs1 : RegNum) (imm : BitVec 12) : Statement (.jalr rd rs1 imm) := by
  show Instr.jalr _ _ _ = _; congr 1 <;> exact setWidth_setWidth_self (by decide) _
theorem Rebuild.beq (rs1 rs2 : RegNum) (imm : BitVec 13) : Statement (.beq rs1 rs2 imm) := by
  show Instr.beq _ _ _ = _; congr 1 <;> exact setWidth_setWidth_self (by decide) _
theorem Rebuild.bne (rs1 rs2 : RegNum) (imm : BitVec 13) : Statement (.bne rs1 rs2 imm) := by
  show Instr.bne _ _ _ = _; congr 1 <;> exact setWidth_setWidth_self (by decide) _
theorem Rebuild.blt (rs1 rs2 : RegNum) (imm : BitVec 13) : Statement (.blt rs1 rs2 imm) := by
  show Instr.blt _ _ _ = _; congr 1 <;> exact setWidth_setWidth_self (by decide) _
theorem Rebuild.bge (rs1 rs2 : RegNum) (imm : BitVec 13) : Statement (.bge rs1 rs2 imm) := by
  show Instr.bge _ _ _ = _; congr 1 <;> exact setWidth_setWidth_self (by decide) _
theorem Rebuild.bltu (rs1 rs2 : RegNum) (imm : BitVec 13) : Statement (.bltu rs1 rs2 imm) := by
  show Instr.bltu _ _ _ = _; congr 1 <;> exact setWidth_setWidth_self (by decide) _
theorem Rebuild.bgeu (rs1 rs2 : RegNum) (imm : BitVec 13) : Statement (.bgeu rs1 rs2 imm) := by
  show Instr.bgeu _ _ _ = _; congr 1 <;> exact setWidth_setWidth_self (by decide) _
theorem Rebuild.lb (rd rs1 : RegNum) (imm : BitVec 12) : Statement (.lb rd rs1 imm) := by
  show Instr.lb _ _ _ = _; congr 1 <;> exact setWidth_setWidth_self (by decide) _
theorem Rebuild.lh (rd rs1 : RegNum) (imm : BitVec 12) : Statement (.lh rd rs1 imm) := by
  show Instr.lh _ _ _ = _; congr 1 <;> exact setWidth_setWidth_self (by decide) _
theorem Rebuild.lw (rd rs1 : RegNum) (imm : BitVec 12) : Statement (.lw rd rs1 imm) := by
  show Instr.lw _ _ _ = _; congr 1 <;> exact setWidth_setWidth_self (by decide) _
theorem Rebuild.ld (rd rs1 : RegNum) (imm : BitVec 12) : Statement (.ld rd rs1 imm) := by
  show Instr.ld _ _ _ = _; congr 1 <;> exact setWidth_setWidth_self (by decide) _
theorem Rebuild.lbu (rd rs1 : RegNum) (imm : BitVec 12) : Statement (.lbu rd rs1 imm) := by
  show Instr.lbu _ _ _ = _; congr 1 <;> exact setWidth_setWidth_self (by decide) _
theorem Rebuild.lhu (rd rs1 : RegNum) (imm : BitVec 12) : Statement (.lhu rd rs1 imm) := by
  show Instr.lhu _ _ _ = _; congr 1 <;> exact setWidth_setWidth_self (by decide) _
theorem Rebuild.lwu (rd rs1 : RegNum) (imm : BitVec 12) : Statement (.lwu rd rs1 imm) := by
  show Instr.lwu _ _ _ = _; congr 1 <;> exact setWidth_setWidth_self (by decide) _
theorem Rebuild.sb (rs1 rs2 : RegNum) (imm : BitVec 12) : Statement (.sb rs1 rs2 imm) := by
  show Instr.sb _ _ _ = _; congr 1 <;> exact setWidth_setWidth_self (by decide) _
theorem Rebuild.sh (rs1 rs2 : RegNum) (imm : BitVec 12) : Statement (.sh rs1 rs2 imm) := by
  show Instr.sh _ _ _ = _; congr 1 <;> exact setWidth_setWidth_self (by decide) _
theorem Rebuild.sw (rs1 rs2 : RegNum) (imm : BitVec 12) : Statement (.sw rs1 rs2 imm) := by
  show Instr.sw _ _ _ = _; congr 1 <;> exact setWidth_setWidth_self (by decide) _
theorem Rebuild.sd (rs1 rs2 : RegNum) (imm : BitVec 12) : Statement (.sd rs1 rs2 imm) := by
  show Instr.sd _ _ _ = _; congr 1 <;> exact setWidth_setWidth_self (by decide) _
theorem Rebuild.addi (rd rs1 : RegNum) (imm : BitVec 12) : Statement (.addi rd rs1 imm) := by
  show Instr.addi _ _ _ = _; congr 1 <;> exact setWidth_setWidth_self (by decide) _
theorem Rebuild.slti (rd rs1 : RegNum) (imm : BitVec 12) : Statement (.slti rd rs1 imm) := by
  show Instr.slti _ _ _ = _; congr 1 <;> exact setWidth_setWidth_self (by decide) _
theorem Rebuild.sltiu (rd rs1 : RegNum) (imm : BitVec 12) : Statement (.sltiu rd rs1 imm) := by
  show Instr.sltiu _ _ _ = _; congr 1 <;> exact setWidth_setWidth_self (by decide) _
theorem Rebuild.xori (rd rs1 : RegNum) (imm : BitVec 12) : Statement (.xori rd rs1 imm) := by
  show Instr.xori _ _ _ = _; congr 1 <;> exact setWidth_setWidth_self (by decide) _
theorem Rebuild.ori (rd rs1 : RegNum) (imm : BitVec 12) : Statement (.ori rd rs1 imm) := by
  show Instr.ori _ _ _ = _; congr 1 <;> exact setWidth_setWidth_self (by decide) _
theorem Rebuild.andi (rd rs1 : RegNum) (imm : BitVec 12) : Statement (.andi rd rs1 imm) := by
  show Instr.andi _ _ _ = _; congr 1 <;> exact setWidth_setWidth_self (by decide) _
theorem Rebuild.slli (rd rs1 : RegNum) (shamt : BitVec 6) : Statement (.slli rd rs1 shamt) := by
  show Instr.slli _ _ _ = _; congr 1 <;> exact setWidth_setWidth_self (by decide) _
theorem Rebuild.srli (rd rs1 : RegNum) (shamt : BitVec 6) : Statement (.srli rd rs1 shamt) := by
  show Instr.srli _ _ _ = _; congr 1 <;> exact setWidth_setWidth_self (by decide) _
theorem Rebuild.srai (rd rs1 : RegNum) (shamt : BitVec 6) : Statement (.srai rd rs1 shamt) := by
  show Instr.srai _ _ _ = _; congr 1 <;> exact setWidth_setWidth_self (by decide) _
theorem Rebuild.add (rd rs1 rs2 : RegNum) : Statement (.add rd rs1 rs2) := by
  show Instr.add _ _ _ = _; congr 1 <;> exact setWidth_setWidth_self (by decide) _
theorem Rebuild.sub (rd rs1 rs2 : RegNum) : Statement (.sub rd rs1 rs2) := by
  show Instr.sub _ _ _ = _; congr 1 <;> exact setWidth_setWidth_self (by decide) _
theorem Rebuild.sll (rd rs1 rs2 : RegNum) : Statement (.sll rd rs1 rs2) := by
  show Instr.sll _ _ _ = _; congr 1 <;> exact setWidth_setWidth_self (by decide) _
theorem Rebuild.slt (rd rs1 rs2 : RegNum) : Statement (.slt rd rs1 rs2) := by
  show Instr.slt _ _ _ = _; congr 1 <;> exact setWidth_setWidth_self (by decide) _
theorem Rebuild.sltu (rd rs1 rs2 : RegNum) : Statement (.sltu rd rs1 rs2) := by
  show Instr.sltu _ _ _ = _; congr 1 <;> exact setWidth_setWidth_self (by decide) _
theorem Rebuild.xor (rd rs1 rs2 : RegNum) : Statement (.xor rd rs1 rs2) := by
  show Instr.xor _ _ _ = _; congr 1 <;> exact setWidth_setWidth_self (by decide) _
theorem Rebuild.srl (rd rs1 rs2 : RegNum) : Statement (.srl rd rs1 rs2) := by
  show Instr.srl _ _ _ = _; congr 1 <;> exact setWidth_setWidth_self (by decide) _
theorem Rebuild.sra (rd rs1 rs2 : RegNum) : Statement (.sra rd rs1 rs2) := by
  show Instr.sra _ _ _ = _; congr 1 <;> exact setWidth_setWidth_self (by decide) _
theorem Rebuild.or (rd rs1 rs2 : RegNum) : Statement (.or rd rs1 rs2) := by
  show Instr.or _ _ _ = _; congr 1 <;> exact setWidth_setWidth_self (by decide) _
theorem Rebuild.and (rd rs1 rs2 : RegNum) : Statement (.and rd rs1 rs2) := by
  show Instr.and _ _ _ = _; congr 1 <;> exact setWidth_setWidth_self (by decide) _
theorem Rebuild.fence (rd rs1 : RegNum) (fm pred succ : BitVec 4) : Statement (.fence rd rs1 fm pred succ) := by
  show Instr.fence _ _ _ _ _ = _; congr 1 <;> exact setWidth_setWidth_self (by decide) _
theorem Rebuild.ecall : Statement .ecall := rfl
theorem Rebuild.ebreak : Statement .ebreak := rfl
theorem Rebuild.addiw (rd rs1 : RegNum) (imm : BitVec 12) : Statement (.addiw rd rs1 imm) := by
  show Instr.addiw _ _ _ = _; congr 1 <;> exact setWidth_setWidth_self (by decide) _
theorem Rebuild.slliw (rd rs1 : RegNum) (shamt : BitVec 5) : Statement (.slliw rd rs1 shamt) := by
  show Instr.slliw _ _ _ = _; congr 1 <;> exact setWidth_setWidth_self (by decide) _
theorem Rebuild.srliw (rd rs1 : RegNum) (shamt : BitVec 5) : Statement (.srliw rd rs1 shamt) := by
  show Instr.srliw _ _ _ = _; congr 1 <;> exact setWidth_setWidth_self (by decide) _
theorem Rebuild.sraiw (rd rs1 : RegNum) (shamt : BitVec 5) : Statement (.sraiw rd rs1 shamt) := by
  show Instr.sraiw _ _ _ = _; congr 1 <;> exact setWidth_setWidth_self (by decide) _
theorem Rebuild.addw (rd rs1 rs2 : RegNum) : Statement (.addw rd rs1 rs2) := by
  show Instr.addw _ _ _ = _; congr 1 <;> exact setWidth_setWidth_self (by decide) _
theorem Rebuild.subw (rd rs1 rs2 : RegNum) : Statement (.subw rd rs1 rs2) := by
  show Instr.subw _ _ _ = _; congr 1 <;> exact setWidth_setWidth_self (by decide) _
theorem Rebuild.sllw (rd rs1 rs2 : RegNum) : Statement (.sllw rd rs1 rs2) := by
  show Instr.sllw _ _ _ = _; congr 1 <;> exact setWidth_setWidth_self (by decide) _
theorem Rebuild.srlw (rd rs1 rs2 : RegNum) : Statement (.srlw rd rs1 rs2) := by
  show Instr.srlw _ _ _ = _; congr 1 <;> exact setWidth_setWidth_self (by decide) _
theorem Rebuild.sraw (rd rs1 rs2 : RegNum) : Statement (.sraw rd rs1 rs2) := by
  show Instr.sraw _ _ _ = _; congr 1 <;> exact setWidth_setWidth_self (by decide) _
theorem Rebuild.fenceI (rd rs1 : RegNum) (imm : BitVec 12) : Statement (.fenceI rd rs1 imm) := by
  show Instr.fenceI _ _ _ = _; congr 1 <;> exact setWidth_setWidth_self (by decide) _
theorem Rebuild.csrrw (rd rs1 : RegNum) (csr : CsrAddr) : Statement (.csrrw rd rs1 csr) := by
  show Instr.csrrw _ _ _ = _; congr 1 <;> exact setWidth_setWidth_self (by decide) _
theorem Rebuild.csrrs (rd rs1 : RegNum) (csr : CsrAddr) : Statement (.csrrs rd rs1 csr) := by
  show Instr.csrrs _ _ _ = _; congr 1 <;> exact setWidth_setWidth_self (by decide) _
theorem Rebuild.csrrc (rd rs1 : RegNum) (csr : CsrAddr) : Statement (.csrrc rd rs1 csr) := by
  show Instr.csrrc _ _ _ = _; congr 1 <;> exact setWidth_setWidth_self (by decide) _
theorem Rebuild.csrrwi (rd : RegNum) (uimm : BitVec 5) (csr : CsrAddr) : Statement (.csrrwi rd uimm csr) := by
  show Instr.csrrwi _ _ _ = _; congr 1 <;> exact setWidth_setWidth_self (by decide) _
theorem Rebuild.csrrsi (rd : RegNum) (uimm : BitVec 5) (csr : CsrAddr) : Statement (.csrrsi rd uimm csr) := by
  show Instr.csrrsi _ _ _ = _; congr 1 <;> exact setWidth_setWidth_self (by decide) _
theorem Rebuild.csrrci (rd : RegNum) (uimm : BitVec 5) (csr : CsrAddr) : Statement (.csrrci rd uimm csr) := by
  show Instr.csrrci _ _ _ = _; congr 1 <;> exact setWidth_setWidth_self (by decide) _
theorem Rebuild.mul (rd rs1 rs2 : RegNum) : Statement (.mul rd rs1 rs2) := by
  show Instr.mul _ _ _ = _; congr 1 <;> exact setWidth_setWidth_self (by decide) _
theorem Rebuild.mulh (rd rs1 rs2 : RegNum) : Statement (.mulh rd rs1 rs2) := by
  show Instr.mulh _ _ _ = _; congr 1 <;> exact setWidth_setWidth_self (by decide) _
theorem Rebuild.mulhsu (rd rs1 rs2 : RegNum) : Statement (.mulhsu rd rs1 rs2) := by
  show Instr.mulhsu _ _ _ = _; congr 1 <;> exact setWidth_setWidth_self (by decide) _
theorem Rebuild.mulhu (rd rs1 rs2 : RegNum) : Statement (.mulhu rd rs1 rs2) := by
  show Instr.mulhu _ _ _ = _; congr 1 <;> exact setWidth_setWidth_self (by decide) _
theorem Rebuild.div (rd rs1 rs2 : RegNum) : Statement (.div rd rs1 rs2) := by
  show Instr.div _ _ _ = _; congr 1 <;> exact setWidth_setWidth_self (by decide) _
theorem Rebuild.divu (rd rs1 rs2 : RegNum) : Statement (.divu rd rs1 rs2) := by
  show Instr.divu _ _ _ = _; congr 1 <;> exact setWidth_setWidth_self (by decide) _
theorem Rebuild.rem (rd rs1 rs2 : RegNum) : Statement (.rem rd rs1 rs2) := by
  show Instr.rem _ _ _ = _; congr 1 <;> exact setWidth_setWidth_self (by decide) _
theorem Rebuild.remu (rd rs1 rs2 : RegNum) : Statement (.remu rd rs1 rs2) := by
  show Instr.remu _ _ _ = _; congr 1 <;> exact setWidth_setWidth_self (by decide) _
theorem Rebuild.mulw (rd rs1 rs2 : RegNum) : Statement (.mulw rd rs1 rs2) := by
  show Instr.mulw _ _ _ = _; congr 1 <;> exact setWidth_setWidth_self (by decide) _
theorem Rebuild.divw (rd rs1 rs2 : RegNum) : Statement (.divw rd rs1 rs2) := by
  show Instr.divw _ _ _ = _; congr 1 <;> exact setWidth_setWidth_self (by decide) _
theorem Rebuild.divuw (rd rs1 rs2 : RegNum) : Statement (.divuw rd rs1 rs2) := by
  show Instr.divuw _ _ _ = _; congr 1 <;> exact setWidth_setWidth_self (by decide) _
theorem Rebuild.remw (rd rs1 rs2 : RegNum) : Statement (.remw rd rs1 rs2) := by
  show Instr.remw _ _ _ = _; congr 1 <;> exact setWidth_setWidth_self (by decide) _
theorem Rebuild.remuw (rd rs1 rs2 : RegNum) : Statement (.remuw rd rs1 rs2) := by
  show Instr.remuw _ _ _ = _; congr 1 <;> exact setWidth_setWidth_self (by decide) _
theorem Rebuild.lrW (rd rs1 : RegNum) (aq rl : BitVec 1) : Statement (.lrW rd rs1 aq rl) := by
  show Instr.lrW _ _ _ _ = _; congr 1 <;> exact setWidth_setWidth_self (by decide) _
theorem Rebuild.scW (rd rs1 rs2 : RegNum) (aq rl : BitVec 1) : Statement (.scW rd rs1 rs2 aq rl) := by
  show Instr.scW _ _ _ _ _ = _; congr 1 <;> exact setWidth_setWidth_self (by decide) _
theorem Rebuild.amoswapW (rd rs1 rs2 : RegNum) (aq rl : BitVec 1) : Statement (.amoswapW rd rs1 rs2 aq rl) := by
  show Instr.amoswapW _ _ _ _ _ = _; congr 1 <;> exact setWidth_setWidth_self (by decide) _
theorem Rebuild.amoaddW (rd rs1 rs2 : RegNum) (aq rl : BitVec 1) : Statement (.amoaddW rd rs1 rs2 aq rl) := by
  show Instr.amoaddW _ _ _ _ _ = _; congr 1 <;> exact setWidth_setWidth_self (by decide) _
theorem Rebuild.amoxorW (rd rs1 rs2 : RegNum) (aq rl : BitVec 1) : Statement (.amoxorW rd rs1 rs2 aq rl) := by
  show Instr.amoxorW _ _ _ _ _ = _; congr 1 <;> exact setWidth_setWidth_self (by decide) _
theorem Rebuild.amoandW (rd rs1 rs2 : RegNum) (aq rl : BitVec 1) : Statement (.amoandW rd rs1 rs2 aq rl) := by
  show Instr.amoandW _ _ _ _ _ = _; congr 1 <;> exact setWidth_setWidth_self (by decide) _
theorem Rebuild.amoorW (rd rs1 rs2 : RegNum) (aq rl : BitVec 1) : Statement (.amoorW rd rs1 rs2 aq rl) := by
  show Instr.amoorW _ _ _ _ _ = _; congr 1 <;> exact setWidth_setWidth_self (by decide) _
theorem Rebuild.amominW (rd rs1 rs2 : RegNum) (aq rl : BitVec 1) : Statement (.amominW rd rs1 rs2 aq rl) := by
  show Instr.amominW _ _ _ _ _ = _; congr 1 <;> exact setWidth_setWidth_self (by decide) _
theorem Rebuild.amomaxW (rd rs1 rs2 : RegNum) (aq rl : BitVec 1) : Statement (.amomaxW rd rs1 rs2 aq rl) := by
  show Instr.amomaxW _ _ _ _ _ = _; congr 1 <;> exact setWidth_setWidth_self (by decide) _
theorem Rebuild.amominuW (rd rs1 rs2 : RegNum) (aq rl : BitVec 1) : Statement (.amominuW rd rs1 rs2 aq rl) := by
  show Instr.amominuW _ _ _ _ _ = _; congr 1 <;> exact setWidth_setWidth_self (by decide) _
theorem Rebuild.amomaxuW (rd rs1 rs2 : RegNum) (aq rl : BitVec 1) : Statement (.amomaxuW rd rs1 rs2 aq rl) := by
  show Instr.amomaxuW _ _ _ _ _ = _; congr 1 <;> exact setWidth_setWidth_self (by decide) _
theorem Rebuild.lrD (rd rs1 : RegNum) (aq rl : BitVec 1) : Statement (.lrD rd rs1 aq rl) := by
  show Instr.lrD _ _ _ _ = _; congr 1 <;> exact setWidth_setWidth_self (by decide) _
theorem Rebuild.scD (rd rs1 rs2 : RegNum) (aq rl : BitVec 1) : Statement (.scD rd rs1 rs2 aq rl) := by
  show Instr.scD _ _ _ _ _ = _; congr 1 <;> exact setWidth_setWidth_self (by decide) _
theorem Rebuild.amoswapD (rd rs1 rs2 : RegNum) (aq rl : BitVec 1) : Statement (.amoswapD rd rs1 rs2 aq rl) := by
  show Instr.amoswapD _ _ _ _ _ = _; congr 1 <;> exact setWidth_setWidth_self (by decide) _
theorem Rebuild.amoaddD (rd rs1 rs2 : RegNum) (aq rl : BitVec 1) : Statement (.amoaddD rd rs1 rs2 aq rl) := by
  show Instr.amoaddD _ _ _ _ _ = _; congr 1 <;> exact setWidth_setWidth_self (by decide) _
theorem Rebuild.amoxorD (rd rs1 rs2 : RegNum) (aq rl : BitVec 1) : Statement (.amoxorD rd rs1 rs2 aq rl) := by
  show Instr.amoxorD _ _ _ _ _ = _; congr 1 <;> exact setWidth_setWidth_self (by decide) _
theorem Rebuild.amoandD (rd rs1 rs2 : RegNum) (aq rl : BitVec 1) : Statement (.amoandD rd rs1 rs2 aq rl) := by
  show Instr.amoandD _ _ _ _ _ = _; congr 1 <;> exact setWidth_setWidth_self (by decide) _
theorem Rebuild.amoorD (rd rs1 rs2 : RegNum) (aq rl : BitVec 1) : Statement (.amoorD rd rs1 rs2 aq rl) := by
  show Instr.amoorD _ _ _ _ _ = _; congr 1 <;> exact setWidth_setWidth_self (by decide) _
theorem Rebuild.amominD (rd rs1 rs2 : RegNum) (aq rl : BitVec 1) : Statement (.amominD rd rs1 rs2 aq rl) := by
  show Instr.amominD _ _ _ _ _ = _; congr 1 <;> exact setWidth_setWidth_self (by decide) _
theorem Rebuild.amomaxD (rd rs1 rs2 : RegNum) (aq rl : BitVec 1) : Statement (.amomaxD rd rs1 rs2 aq rl) := by
  show Instr.amomaxD _ _ _ _ _ = _; congr 1 <;> exact setWidth_setWidth_self (by decide) _
theorem Rebuild.amominuD (rd rs1 rs2 : RegNum) (aq rl : BitVec 1) : Statement (.amominuD rd rs1 rs2 aq rl) := by
  show Instr.amominuD _ _ _ _ _ = _; congr 1 <;> exact setWidth_setWidth_self (by decide) _
theorem Rebuild.amomaxuD (rd rs1 rs2 : RegNum) (aq rl : BitVec 1) : Statement (.amomaxuD rd rs1 rs2 aq rl) := by
  show Instr.amomaxuD _ _ _ _ _ = _; congr 1 <;> exact setWidth_setWidth_self (by decide) _
theorem Rebuild.sret : Statement .sret := rfl
theorem Rebuild.mret : Statement .mret := rfl
theorem Rebuild.wfi : Statement .wfi := rfl
theorem Rebuild.sfenceVma (rs1 rs2 : RegNum) : Statement (.sfenceVma rs1 rs2) := by
  show Instr.sfenceVma _ _ = _; congr 1 <;> exact setWidth_setWidth_self (by decide) _
theorem Rebuild.flw (rd rs1 : RegNum) (imm : BitVec 12) : Statement (.flw rd rs1 imm) := by
  show Instr.flw _ _ _ = _; congr 1 <;> exact setWidth_setWidth_self (by decide) _
theorem Rebuild.fsw (rs1 rs2 : RegNum) (imm : BitVec 12) : Statement (.fsw rs1 rs2 imm) := by
  show Instr.fsw _ _ _ = _; congr 1 <;> exact setWidth_setWidth_self (by decide) _
theorem Rebuild.fmaddS (rd rs1 rs2 rs3 : RegNum) (rm : BitVec 3) : Statement (.fmaddS rd rs1 rs2 rs3 rm) := by
  show Instr.fmaddS _ _ _ _ _ = _; congr 1 <;> exact setWidth_setWidth_self (by decide) _
theorem Rebuild.fmsubS (rd rs1 rs2 rs3 : RegNum) (rm : BitVec 3) : Statement (.fmsubS rd rs1 rs2 rs3 rm) := by
  show Instr.fmsubS _ _ _ _ _ = _; congr 1 <;> exact setWidth_setWidth_self (by decide) _
theorem Rebuild.fnmsubS (rd rs1 rs2 rs3 : RegNum) (rm : BitVec 3) : Statement (.fnmsubS rd rs1 rs2 rs3 rm) := by
  show Instr.fnmsubS _ _ _ _ _ = _; congr 1 <;> exact setWidth_setWidth_self (by decide) _
theorem Rebuild.fnmaddS (rd rs1 rs2 rs3 : RegNum) (rm : BitVec 3) : Statement (.fnmaddS rd rs1 rs2 rs3 rm) := by
  show Instr.fnmaddS _ _ _ _ _ = _; congr 1 <;> exact setWidth_setWidth_self (by decide) _
theorem Rebuild.faddS (rd rs1 rs2 : RegNum) (rm : BitVec 3) : Statement (.faddS rd rs1 rs2 rm) := by
  show Instr.faddS _ _ _ _ = _; congr 1 <;> exact setWidth_setWidth_self (by decide) _
theorem Rebuild.fsubS (rd rs1 rs2 : RegNum) (rm : BitVec 3) : Statement (.fsubS rd rs1 rs2 rm) := by
  show Instr.fsubS _ _ _ _ = _; congr 1 <;> exact setWidth_setWidth_self (by decide) _
theorem Rebuild.fmulS (rd rs1 rs2 : RegNum) (rm : BitVec 3) : Statement (.fmulS rd rs1 rs2 rm) := by
  show Instr.fmulS _ _ _ _ = _; congr 1 <;> exact setWidth_setWidth_self (by decide) _
theorem Rebuild.fdivS (rd rs1 rs2 : RegNum) (rm : BitVec 3) : Statement (.fdivS rd rs1 rs2 rm) := by
  show Instr.fdivS _ _ _ _ = _; congr 1 <;> exact setWidth_setWidth_self (by decide) _
theorem Rebuild.fsqrtS (rd rs1 : RegNum) (rm : BitVec 3) : Statement (.fsqrtS rd rs1 rm) := by
  show Instr.fsqrtS _ _ _ = _; congr 1 <;> exact setWidth_setWidth_self (by decide) _
theorem Rebuild.fsgnjS (rd rs1 rs2 : RegNum) : Statement (.fsgnjS rd rs1 rs2) := by
  show Instr.fsgnjS _ _ _ = _; congr 1 <;> exact setWidth_setWidth_self (by decide) _
theorem Rebuild.fsgnjnS (rd rs1 rs2 : RegNum) : Statement (.fsgnjnS rd rs1 rs2) := by
  show Instr.fsgnjnS _ _ _ = _; congr 1 <;> exact setWidth_setWidth_self (by decide) _
theorem Rebuild.fsgnjxS (rd rs1 rs2 : RegNum) : Statement (.fsgnjxS rd rs1 rs2) := by
  show Instr.fsgnjxS _ _ _ = _; congr 1 <;> exact setWidth_setWidth_self (by decide) _
theorem Rebuild.fminS (rd rs1 rs2 : RegNum) : Statement (.fminS rd rs1 rs2) := by
  show Instr.fminS _ _ _ = _; congr 1 <;> exact setWidth_setWidth_self (by decide) _
theorem Rebuild.fmaxS (rd rs1 rs2 : RegNum) : Statement (.fmaxS rd rs1 rs2) := by
  show Instr.fmaxS _ _ _ = _; congr 1 <;> exact setWidth_setWidth_self (by decide) _
theorem Rebuild.fleS (rd rs1 rs2 : RegNum) : Statement (.fleS rd rs1 rs2) := by
  show Instr.fleS _ _ _ = _; congr 1 <;> exact setWidth_setWidth_self (by decide) _
theorem Rebuild.fltS (rd rs1 rs2 : RegNum) : Statement (.fltS rd rs1 rs2) := by
  show Instr.fltS _ _ _ = _; congr 1 <;> exact setWidth_setWidth_self (by decide) _
theorem Rebuild.feqS (rd rs1 rs2 : RegNum) : Statement (.feqS rd rs1 rs2) := by
  show Instr.feqS _ _ _ = _; congr 1 <;> exact setWidth_setWidth_self (by decide) _
theorem Rebuild.fclassS (rd rs1 : RegNum) : Statement (.fclassS rd rs1) := by
  show Instr.fclassS _ _ = _; congr 1 <;> exact setWidth_setWidth_self (by decide) _
theorem Rebuild.fcvtWS (rd rs1 : RegNum) (rm : BitVec 3) : Statement (.fcvtWS rd rs1 rm) := by
  show Instr.fcvtWS _ _ _ = _; congr 1 <;> exact setWidth_setWidth_self (by decide) _
theorem Rebuild.fcvtSW (rd rs1 : RegNum) (rm : BitVec 3) : Statement (.fcvtSW rd rs1 rm) := by
  show Instr.fcvtSW _ _ _ = _; congr 1 <;> exact setWidth_setWidth_self (by decide) _
theorem Rebuild.fcvtWuS (rd rs1 : RegNum) (rm : BitVec 3) : Statement (.fcvtWuS rd rs1 rm) := by
  show Instr.fcvtWuS _ _ _ = _; congr 1 <;> exact setWidth_setWidth_self (by decide) _
theorem Rebuild.fcvtSWu (rd rs1 : RegNum) (rm : BitVec 3) : Statement (.fcvtSWu rd rs1 rm) := by
  show Instr.fcvtSWu _ _ _ = _; congr 1 <;> exact setWidth_setWidth_self (by decide) _
theorem Rebuild.fcvtLS (rd rs1 : RegNum) (rm : BitVec 3) : Statement (.fcvtLS rd rs1 rm) := by
  show Instr.fcvtLS _ _ _ = _; congr 1 <;> exact setWidth_setWidth_self (by decide) _
theorem Rebuild.fcvtSL (rd rs1 : RegNum) (rm : BitVec 3) : Statement (.fcvtSL rd rs1 rm) := by
  show Instr.fcvtSL _ _ _ = _; congr 1 <;> exact setWidth_setWidth_self (by decide) _
theorem Rebuild.fcvtLuS (rd rs1 : RegNum) (rm : BitVec 3) : Statement (.fcvtLuS rd rs1 rm) := by
  show Instr.fcvtLuS _ _ _ = _; congr 1 <;> exact setWidth_setWidth_self (by decide) _
theorem Rebuild.fcvtSLu (rd rs1 : RegNum) (rm : BitVec 3) : Statement (.fcvtSLu rd rs1 rm) := by
  show Instr.fcvtSLu _ _ _ = _; congr 1 <;> exact setWidth_setWidth_self (by decide) _
theorem Rebuild.fmvXW (rd rs1 : RegNum) : Statement (.fmvXW rd rs1) := by
  show Instr.fmvXW _ _ = _; congr 1 <;> exact setWidth_setWidth_self (by decide) _
theorem Rebuild.fmvWX (rd rs1 : RegNum) : Statement (.fmvWX rd rs1) := by
  show Instr.fmvWX _ _ = _; congr 1 <;> exact setWidth_setWidth_self (by decide) _
theorem Rebuild.fld (rd rs1 : RegNum) (imm : BitVec 12) : Statement (.fld rd rs1 imm) := by
  show Instr.fld _ _ _ = _; congr 1 <;> exact setWidth_setWidth_self (by decide) _
theorem Rebuild.fsd (rs1 rs2 : RegNum) (imm : BitVec 12) : Statement (.fsd rs1 rs2 imm) := by
  show Instr.fsd _ _ _ = _; congr 1 <;> exact setWidth_setWidth_self (by decide) _
theorem Rebuild.fmaddD (rd rs1 rs2 rs3 : RegNum) (rm : BitVec 3) : Statement (.fmaddD rd rs1 rs2 rs3 rm) := by
  show Instr.fmaddD _ _ _ _ _ = _; congr 1 <;> exact setWidth_setWidth_self (by decide) _
theorem Rebuild.fmsubD (rd rs1 rs2 rs3 : RegNum) (rm : BitVec 3) : Statement (.fmsubD rd rs1 rs2 rs3 rm) := by
  show Instr.fmsubD _ _ _ _ _ = _; congr 1 <;> exact setWidth_setWidth_self (by decide) _
theorem Rebuild.fnmsubD (rd rs1 rs2 rs3 : RegNum) (rm : BitVec 3) : Statement (.fnmsubD rd rs1 rs2 rs3 rm) := by
  show Instr.fnmsubD _ _ _ _ _ = _; congr 1 <;> exact setWidth_setWidth_self (by decide) _
theorem Rebuild.fnmaddD (rd rs1 rs2 rs3 : RegNum) (rm : BitVec 3) : Statement (.fnmaddD rd rs1 rs2 rs3 rm) := by
  show Instr.fnmaddD _ _ _ _ _ = _; congr 1 <;> exact setWidth_setWidth_self (by decide) _
theorem Rebuild.faddD (rd rs1 rs2 : RegNum) (rm : BitVec 3) : Statement (.faddD rd rs1 rs2 rm) := by
  show Instr.faddD _ _ _ _ = _; congr 1 <;> exact setWidth_setWidth_self (by decide) _
theorem Rebuild.fsubD (rd rs1 rs2 : RegNum) (rm : BitVec 3) : Statement (.fsubD rd rs1 rs2 rm) := by
  show Instr.fsubD _ _ _ _ = _; congr 1 <;> exact setWidth_setWidth_self (by decide) _
theorem Rebuild.fmulD (rd rs1 rs2 : RegNum) (rm : BitVec 3) : Statement (.fmulD rd rs1 rs2 rm) := by
  show Instr.fmulD _ _ _ _ = _; congr 1 <;> exact setWidth_setWidth_self (by decide) _
theorem Rebuild.fdivD (rd rs1 rs2 : RegNum) (rm : BitVec 3) : Statement (.fdivD rd rs1 rs2 rm) := by
  show Instr.fdivD _ _ _ _ = _; congr 1 <;> exact setWidth_setWidth_self (by decide) _
theorem Rebuild.fsqrtD (rd rs1 : RegNum) (rm : BitVec 3) : Statement (.fsqrtD rd rs1 rm) := by
  show Instr.fsqrtD _ _ _ = _; congr 1 <;> exact setWidth_setWidth_self (by decide) _
theorem Rebuild.fsgnjD (rd rs1 rs2 : RegNum) : Statement (.fsgnjD rd rs1 rs2) := by
  show Instr.fsgnjD _ _ _ = _; congr 1 <;> exact setWidth_setWidth_self (by decide) _
theorem Rebuild.fsgnjnD (rd rs1 rs2 : RegNum) : Statement (.fsgnjnD rd rs1 rs2) := by
  show Instr.fsgnjnD _ _ _ = _; congr 1 <;> exact setWidth_setWidth_self (by decide) _
theorem Rebuild.fsgnjxD (rd rs1 rs2 : RegNum) : Statement (.fsgnjxD rd rs1 rs2) := by
  show Instr.fsgnjxD _ _ _ = _; congr 1 <;> exact setWidth_setWidth_self (by decide) _
theorem Rebuild.fminD (rd rs1 rs2 : RegNum) : Statement (.fminD rd rs1 rs2) := by
  show Instr.fminD _ _ _ = _; congr 1 <;> exact setWidth_setWidth_self (by decide) _
theorem Rebuild.fmaxD (rd rs1 rs2 : RegNum) : Statement (.fmaxD rd rs1 rs2) := by
  show Instr.fmaxD _ _ _ = _; congr 1 <;> exact setWidth_setWidth_self (by decide) _
theorem Rebuild.fleD (rd rs1 rs2 : RegNum) : Statement (.fleD rd rs1 rs2) := by
  show Instr.fleD _ _ _ = _; congr 1 <;> exact setWidth_setWidth_self (by decide) _
theorem Rebuild.fltD (rd rs1 rs2 : RegNum) : Statement (.fltD rd rs1 rs2) := by
  show Instr.fltD _ _ _ = _; congr 1 <;> exact setWidth_setWidth_self (by decide) _
theorem Rebuild.feqD (rd rs1 rs2 : RegNum) : Statement (.feqD rd rs1 rs2) := by
  show Instr.feqD _ _ _ = _; congr 1 <;> exact setWidth_setWidth_self (by decide) _
theorem Rebuild.fclassD (rd rs1 : RegNum) : Statement (.fclassD rd rs1) := by
  show Instr.fclassD _ _ = _; congr 1 <;> exact setWidth_setWidth_self (by decide) _
theorem Rebuild.fcvtWD (rd rs1 : RegNum) (rm : BitVec 3) : Statement (.fcvtWD rd rs1 rm) := by
  show Instr.fcvtWD _ _ _ = _; congr 1 <;> exact setWidth_setWidth_self (by decide) _
theorem Rebuild.fcvtDW (rd rs1 : RegNum) (rm : BitVec 3) : Statement (.fcvtDW rd rs1 rm) := by
  show Instr.fcvtDW _ _ _ = _; congr 1 <;> exact setWidth_setWidth_self (by decide) _
theorem Rebuild.fcvtWuD (rd rs1 : RegNum) (rm : BitVec 3) : Statement (.fcvtWuD rd rs1 rm) := by
  show Instr.fcvtWuD _ _ _ = _; congr 1 <;> exact setWidth_setWidth_self (by decide) _
theorem Rebuild.fcvtDWu (rd rs1 : RegNum) (rm : BitVec 3) : Statement (.fcvtDWu rd rs1 rm) := by
  show Instr.fcvtDWu _ _ _ = _; congr 1 <;> exact setWidth_setWidth_self (by decide) _
theorem Rebuild.fcvtLD (rd rs1 : RegNum) (rm : BitVec 3) : Statement (.fcvtLD rd rs1 rm) := by
  show Instr.fcvtLD _ _ _ = _; congr 1 <;> exact setWidth_setWidth_self (by decide) _
theorem Rebuild.fcvtDL (rd rs1 : RegNum) (rm : BitVec 3) : Statement (.fcvtDL rd rs1 rm) := by
  show Instr.fcvtDL _ _ _ = _; congr 1 <;> exact setWidth_setWidth_self (by decide) _
theorem Rebuild.fcvtLuD (rd rs1 : RegNum) (rm : BitVec 3) : Statement (.fcvtLuD rd rs1 rm) := by
  show Instr.fcvtLuD _ _ _ = _; congr 1 <;> exact setWidth_setWidth_self (by decide) _
theorem Rebuild.fcvtDLu (rd rs1 : RegNum) (rm : BitVec 3) : Statement (.fcvtDLu rd rs1 rm) := by
  show Instr.fcvtDLu _ _ _ = _; congr 1 <;> exact setWidth_setWidth_self (by decide) _
theorem Rebuild.fcvtSD (rd rs1 : RegNum) (rm : BitVec 3) : Statement (.fcvtSD rd rs1 rm) := by
  show Instr.fcvtSD _ _ _ = _; congr 1 <;> exact setWidth_setWidth_self (by decide) _
theorem Rebuild.fcvtDS (rd rs1 : RegNum) (rm : BitVec 3) : Statement (.fcvtDS rd rs1 rm) := by
  show Instr.fcvtDS _ _ _ = _; congr 1 <;> exact setWidth_setWidth_self (by decide) _
theorem Rebuild.fmvXD (rd rs1 : RegNum) : Statement (.fmvXD rd rs1) := by
  show Instr.fmvXD _ _ = _; congr 1 <;> exact setWidth_setWidth_self (by decide) _
theorem Rebuild.fmvDX (rd rs1 : RegNum) : Statement (.fmvDX rd rs1) := by
  show Instr.fmvDX _ _ = _; congr 1 <;> exact setWidth_setWidth_self (by decide) _
theorem Rebuild.cAddi4spn (rd : CRegNum) (imm : BitVec 10) : Statement (.cAddi4spn rd imm) := by
  show Instr.cAddi4spn _ _ = _; congr 1 <;> exact setWidth_setWidth_self (by decide) _
theorem Rebuild.cFld (rd rs1 : CRegNum) (imm : BitVec 8) : Statement (.cFld rd rs1 imm) := by
  show Instr.cFld _ _ _ = _; congr 1 <;> exact setWidth_setWidth_self (by decide) _
theorem Rebuild.cLw (rd rs1 : CRegNum) (imm : BitVec 7) : Statement (.cLw rd rs1 imm) := by
  show Instr.cLw _ _ _ = _; congr 1 <;> exact setWidth_setWidth_self (by decide) _
theorem Rebuild.cLd (rd rs1 : CRegNum) (imm : BitVec 8) : Statement (.cLd rd rs1 imm) := by
  show Instr.cLd _ _ _ = _; congr 1 <;> exact setWidth_setWidth_self (by decide) _
theorem Rebuild.cFsd (rs1 rs2 : CRegNum) (imm : BitVec 8) : Statement (.cFsd rs1 rs2 imm) := by
  show Instr.cFsd _ _ _ = _; congr 1 <;> exact setWidth_setWidth_self (by decide) _
theorem Rebuild.cSw (rs1 rs2 : CRegNum) (imm : BitVec 7) : Statement (.cSw rs1 rs2 imm) := by
  show Instr.cSw _ _ _ = _; congr 1 <;> exact setWidth_setWidth_self (by decide) _
theorem Rebuild.cSd (rs1 rs2 : CRegNum) (imm : BitVec 8) : Statement (.cSd rs1 rs2 imm) := by
  show Instr.cSd _ _ _ = _; congr 1 <;> exact setWidth_setWidth_self (by decide) _
theorem Rebuild.cNop (imm : BitVec 6) : Statement (.cNop imm) := by
  show Instr.cNop _ = _; congr 1; exact setWidth_setWidth_self (by decide) _
theorem Rebuild.cAddi (rd : RegNum) (imm : BitVec 6) : Statement (.cAddi rd imm) := by
  show Instr.cAddi _ _ = _; congr 1 <;> exact setWidth_setWidth_self (by decide) _
theorem Rebuild.cAddiw (rd : RegNum) (imm : BitVec 6) : Statement (.cAddiw rd imm) := by
  show Instr.cAddiw _ _ = _; congr 1 <;> exact setWidth_setWidth_self (by decide) _
theorem Rebuild.cLi (rd : RegNum) (imm : BitVec 6) : Statement (.cLi rd imm) := by
  show Instr.cLi _ _ = _; congr 1 <;> exact setWidth_setWidth_self (by decide) _
theorem Rebuild.cAddi16sp (imm : BitVec 10) : Statement (.cAddi16sp imm) := by
  show Instr.cAddi16sp _ = _; congr 1; exact setWidth_setWidth_self (by decide) _
theorem Rebuild.cLui (rd : RegNum) (imm : BitVec 18) : Statement (.cLui rd imm) := by
  show Instr.cLui _ _ = _; congr 1 <;> exact setWidth_setWidth_self (by decide) _
theorem Rebuild.cSrli (rd : CRegNum) (shamt : BitVec 6) : Statement (.cSrli rd shamt) := by
  show Instr.cSrli _ _ = _; congr 1 <;> exact setWidth_setWidth_self (by decide) _
theorem Rebuild.cSrai (rd : CRegNum) (shamt : BitVec 6) : Statement (.cSrai rd shamt) := by
  show Instr.cSrai _ _ = _; congr 1 <;> exact setWidth_setWidth_self (by decide) _
theorem Rebuild.cAndi (rd : CRegNum) (imm : BitVec 6) : Statement (.cAndi rd imm) := by
  show Instr.cAndi _ _ = _; congr 1 <;> exact setWidth_setWidth_self (by decide) _
theorem Rebuild.cSub (rd rs2 : CRegNum) : Statement (.cSub rd rs2) := by
  show Instr.cSub _ _ = _; congr 1 <;> exact setWidth_setWidth_self (by decide) _
theorem Rebuild.cXor (rd rs2 : CRegNum) : Statement (.cXor rd rs2) := by
  show Instr.cXor _ _ = _; congr 1 <;> exact setWidth_setWidth_self (by decide) _
theorem Rebuild.cOr (rd rs2 : CRegNum) : Statement (.cOr rd rs2) := by
  show Instr.cOr _ _ = _; congr 1 <;> exact setWidth_setWidth_self (by decide) _
theorem Rebuild.cAnd (rd rs2 : CRegNum) : Statement (.cAnd rd rs2) := by
  show Instr.cAnd _ _ = _; congr 1 <;> exact setWidth_setWidth_self (by decide) _
theorem Rebuild.cSubw (rd rs2 : CRegNum) : Statement (.cSubw rd rs2) := by
  show Instr.cSubw _ _ = _; congr 1 <;> exact setWidth_setWidth_self (by decide) _
theorem Rebuild.cAddw (rd rs2 : CRegNum) : Statement (.cAddw rd rs2) := by
  show Instr.cAddw _ _ = _; congr 1 <;> exact setWidth_setWidth_self (by decide) _
theorem Rebuild.cJ (imm : BitVec 12) : Statement (.cJ imm) := by
  show Instr.cJ _ = _; congr 1; exact setWidth_setWidth_self (by decide) _
theorem Rebuild.cBeqz (rs1 : CRegNum) (imm : BitVec 9) : Statement (.cBeqz rs1 imm) := by
  show Instr.cBeqz _ _ = _; congr 1 <;> exact setWidth_setWidth_self (by decide) _
theorem Rebuild.cBnez (rs1 : CRegNum) (imm : BitVec 9) : Statement (.cBnez rs1 imm) := by
  show Instr.cBnez _ _ = _; congr 1 <;> exact setWidth_setWidth_self (by decide) _
theorem Rebuild.cSlli (rd : RegNum) (shamt : BitVec 6) : Statement (.cSlli rd shamt) := by
  show Instr.cSlli _ _ = _; congr 1 <;> exact setWidth_setWidth_self (by decide) _
theorem Rebuild.cFldsp (rd : RegNum) (imm : BitVec 9) : Statement (.cFldsp rd imm) := by
  show Instr.cFldsp _ _ = _; congr 1 <;> exact setWidth_setWidth_self (by decide) _
theorem Rebuild.cLwsp (rd : RegNum) (imm : BitVec 8) : Statement (.cLwsp rd imm) := by
  show Instr.cLwsp _ _ = _; congr 1 <;> exact setWidth_setWidth_self (by decide) _
theorem Rebuild.cLdsp (rd : RegNum) (imm : BitVec 9) : Statement (.cLdsp rd imm) := by
  show Instr.cLdsp _ _ = _; congr 1 <;> exact setWidth_setWidth_self (by decide) _
theorem Rebuild.cJr (rs1 : RegNum) : Statement (.cJr rs1) := by
  show Instr.cJr _ = _; congr 1; exact setWidth_setWidth_self (by decide) _
theorem Rebuild.cMv (rd rs2 : RegNum) : Statement (.cMv rd rs2) := by
  show Instr.cMv _ _ = _; congr 1 <;> exact setWidth_setWidth_self (by decide) _
theorem Rebuild.cEbreak : Statement .cEbreak := rfl
theorem Rebuild.cJalr (rs1 : RegNum) : Statement (.cJalr rs1) := by
  show Instr.cJalr _ = _; congr 1; exact setWidth_setWidth_self (by decide) _
theorem Rebuild.cAdd (rd rs2 : RegNum) : Statement (.cAdd rd rs2) := by
  show Instr.cAdd _ _ = _; congr 1 <;> exact setWidth_setWidth_self (by decide) _
theorem Rebuild.cFsdsp (rs2 : RegNum) (imm : BitVec 9) : Statement (.cFsdsp rs2 imm) := by
  show Instr.cFsdsp _ _ = _; congr 1 <;> exact setWidth_setWidth_self (by decide) _
theorem Rebuild.cSwsp (rs2 : RegNum) (imm : BitVec 8) : Statement (.cSwsp rs2 imm) := by
  show Instr.cSwsp _ _ = _; congr 1 <;> exact setWidth_setWidth_self (by decide) _
theorem Rebuild.cSdsp (rs2 : RegNum) (imm : BitVec 9) : Statement (.cSdsp rs2 imm) := by
  show Instr.cSdsp _ _ = _; congr 1 <;> exact setWidth_setWidth_self (by decide) _

/-! ### Fits: an instruction is well-formed when its row admits its operand values -/

/-- An instruction is well-formed exactly when its row admits its operand values. -/
def Fits.Statement (i : Instr) : Prop := i.fits = i.wellFormed

theorem Fits.lui (rd : RegNum) (imm : BitVec 32) : Statement (.lui rd imm) := by
  show (opRd.admits (rd.setWidth 32) && (opImmU.admits (imm.setWidth 32) && true)) = (imm.extractLsb' 0 12 == 0#12)
  rw [admits_opRd, admits_opImmU, Bool.true_and, Bool.and_true]
theorem Fits.auipc (rd : RegNum) (imm : BitVec 32) : Statement (.auipc rd imm) := by
  show (opRd.admits (rd.setWidth 32) && (opImmU.admits (imm.setWidth 32) && true)) = (imm.extractLsb' 0 12 == 0#12)
  rw [admits_opRd, admits_opImmU, Bool.true_and, Bool.and_true]
theorem Fits.jal (rd : RegNum) (imm : BitVec 21) : Statement (.jal rd imm) := by
  show (opRd.admits (rd.setWidth 32) && (opImmJ.admits (imm.setWidth 32) && true)) = Instr.wellFormed _
  simp [admits_opRd, admits_opImmJ, Instr.wellFormed]
theorem Fits.jalr (rd rs1 : RegNum) (imm : BitVec 12) : Statement (.jalr rd rs1 imm) := by
  show (opRd.admits (rd.setWidth 32) && (opRs1.admits (rs1.setWidth 32) && (opImmI.admits (imm.setWidth 32) && true))) = Instr.wellFormed _
  simp [admits_opRd, admits_opRs1, admits_opImmI, Instr.wellFormed]
theorem Fits.beq (rs1 rs2 : RegNum) (imm : BitVec 13) : Statement (.beq rs1 rs2 imm) := by
  show (opRs1.admits (rs1.setWidth 32) && (opRs2.admits (rs2.setWidth 32) && (opImmB.admits (imm.setWidth 32) && true))) = Instr.wellFormed _
  simp [admits_opRs1, admits_opRs2, admits_opImmB, Instr.wellFormed]
theorem Fits.bne (rs1 rs2 : RegNum) (imm : BitVec 13) : Statement (.bne rs1 rs2 imm) := by
  show (opRs1.admits (rs1.setWidth 32) && (opRs2.admits (rs2.setWidth 32) && (opImmB.admits (imm.setWidth 32) && true))) = Instr.wellFormed _
  simp [admits_opRs1, admits_opRs2, admits_opImmB, Instr.wellFormed]
theorem Fits.blt (rs1 rs2 : RegNum) (imm : BitVec 13) : Statement (.blt rs1 rs2 imm) := by
  show (opRs1.admits (rs1.setWidth 32) && (opRs2.admits (rs2.setWidth 32) && (opImmB.admits (imm.setWidth 32) && true))) = Instr.wellFormed _
  simp [admits_opRs1, admits_opRs2, admits_opImmB, Instr.wellFormed]
theorem Fits.bge (rs1 rs2 : RegNum) (imm : BitVec 13) : Statement (.bge rs1 rs2 imm) := by
  show (opRs1.admits (rs1.setWidth 32) && (opRs2.admits (rs2.setWidth 32) && (opImmB.admits (imm.setWidth 32) && true))) = Instr.wellFormed _
  simp [admits_opRs1, admits_opRs2, admits_opImmB, Instr.wellFormed]
theorem Fits.bltu (rs1 rs2 : RegNum) (imm : BitVec 13) : Statement (.bltu rs1 rs2 imm) := by
  show (opRs1.admits (rs1.setWidth 32) && (opRs2.admits (rs2.setWidth 32) && (opImmB.admits (imm.setWidth 32) && true))) = Instr.wellFormed _
  simp [admits_opRs1, admits_opRs2, admits_opImmB, Instr.wellFormed]
theorem Fits.bgeu (rs1 rs2 : RegNum) (imm : BitVec 13) : Statement (.bgeu rs1 rs2 imm) := by
  show (opRs1.admits (rs1.setWidth 32) && (opRs2.admits (rs2.setWidth 32) && (opImmB.admits (imm.setWidth 32) && true))) = Instr.wellFormed _
  simp [admits_opRs1, admits_opRs2, admits_opImmB, Instr.wellFormed]
theorem Fits.lb (rd rs1 : RegNum) (imm : BitVec 12) : Statement (.lb rd rs1 imm) := by
  show (opRd.admits (rd.setWidth 32) && (opRs1.admits (rs1.setWidth 32) && (opImmI.admits (imm.setWidth 32) && true))) = Instr.wellFormed _
  simp [admits_opRd, admits_opRs1, admits_opImmI, Instr.wellFormed]
theorem Fits.lh (rd rs1 : RegNum) (imm : BitVec 12) : Statement (.lh rd rs1 imm) := by
  show (opRd.admits (rd.setWidth 32) && (opRs1.admits (rs1.setWidth 32) && (opImmI.admits (imm.setWidth 32) && true))) = Instr.wellFormed _
  simp [admits_opRd, admits_opRs1, admits_opImmI, Instr.wellFormed]
theorem Fits.lw (rd rs1 : RegNum) (imm : BitVec 12) : Statement (.lw rd rs1 imm) := by
  show (opRd.admits (rd.setWidth 32) && (opRs1.admits (rs1.setWidth 32) && (opImmI.admits (imm.setWidth 32) && true))) = Instr.wellFormed _
  simp [admits_opRd, admits_opRs1, admits_opImmI, Instr.wellFormed]
theorem Fits.ld (rd rs1 : RegNum) (imm : BitVec 12) : Statement (.ld rd rs1 imm) := by
  show (opRd.admits (rd.setWidth 32) && (opRs1.admits (rs1.setWidth 32) && (opImmI.admits (imm.setWidth 32) && true))) = Instr.wellFormed _
  simp [admits_opRd, admits_opRs1, admits_opImmI, Instr.wellFormed]
theorem Fits.lbu (rd rs1 : RegNum) (imm : BitVec 12) : Statement (.lbu rd rs1 imm) := by
  show (opRd.admits (rd.setWidth 32) && (opRs1.admits (rs1.setWidth 32) && (opImmI.admits (imm.setWidth 32) && true))) = Instr.wellFormed _
  simp [admits_opRd, admits_opRs1, admits_opImmI, Instr.wellFormed]
theorem Fits.lhu (rd rs1 : RegNum) (imm : BitVec 12) : Statement (.lhu rd rs1 imm) := by
  show (opRd.admits (rd.setWidth 32) && (opRs1.admits (rs1.setWidth 32) && (opImmI.admits (imm.setWidth 32) && true))) = Instr.wellFormed _
  simp [admits_opRd, admits_opRs1, admits_opImmI, Instr.wellFormed]
theorem Fits.lwu (rd rs1 : RegNum) (imm : BitVec 12) : Statement (.lwu rd rs1 imm) := by
  show (opRd.admits (rd.setWidth 32) && (opRs1.admits (rs1.setWidth 32) && (opImmI.admits (imm.setWidth 32) && true))) = Instr.wellFormed _
  simp [admits_opRd, admits_opRs1, admits_opImmI, Instr.wellFormed]
theorem Fits.sb (rs1 rs2 : RegNum) (imm : BitVec 12) : Statement (.sb rs1 rs2 imm) := by
  show (opRs1.admits (rs1.setWidth 32) && (opRs2.admits (rs2.setWidth 32) && (opImmS.admits (imm.setWidth 32) && true))) = Instr.wellFormed _
  simp [admits_opRs1, admits_opRs2, admits_opImmS, Instr.wellFormed]
theorem Fits.sh (rs1 rs2 : RegNum) (imm : BitVec 12) : Statement (.sh rs1 rs2 imm) := by
  show (opRs1.admits (rs1.setWidth 32) && (opRs2.admits (rs2.setWidth 32) && (opImmS.admits (imm.setWidth 32) && true))) = Instr.wellFormed _
  simp [admits_opRs1, admits_opRs2, admits_opImmS, Instr.wellFormed]
theorem Fits.sw (rs1 rs2 : RegNum) (imm : BitVec 12) : Statement (.sw rs1 rs2 imm) := by
  show (opRs1.admits (rs1.setWidth 32) && (opRs2.admits (rs2.setWidth 32) && (opImmS.admits (imm.setWidth 32) && true))) = Instr.wellFormed _
  simp [admits_opRs1, admits_opRs2, admits_opImmS, Instr.wellFormed]
theorem Fits.sd (rs1 rs2 : RegNum) (imm : BitVec 12) : Statement (.sd rs1 rs2 imm) := by
  show (opRs1.admits (rs1.setWidth 32) && (opRs2.admits (rs2.setWidth 32) && (opImmS.admits (imm.setWidth 32) && true))) = Instr.wellFormed _
  simp [admits_opRs1, admits_opRs2, admits_opImmS, Instr.wellFormed]
theorem Fits.addi (rd rs1 : RegNum) (imm : BitVec 12) : Statement (.addi rd rs1 imm) := by
  show (opRd.admits (rd.setWidth 32) && (opRs1.admits (rs1.setWidth 32) && (opImmI.admits (imm.setWidth 32) && true))) = Instr.wellFormed _
  simp [admits_opRd, admits_opRs1, admits_opImmI, Instr.wellFormed]
theorem Fits.slti (rd rs1 : RegNum) (imm : BitVec 12) : Statement (.slti rd rs1 imm) := by
  show (opRd.admits (rd.setWidth 32) && (opRs1.admits (rs1.setWidth 32) && (opImmI.admits (imm.setWidth 32) && true))) = Instr.wellFormed _
  simp [admits_opRd, admits_opRs1, admits_opImmI, Instr.wellFormed]
theorem Fits.sltiu (rd rs1 : RegNum) (imm : BitVec 12) : Statement (.sltiu rd rs1 imm) := by
  show (opRd.admits (rd.setWidth 32) && (opRs1.admits (rs1.setWidth 32) && (opImmI.admits (imm.setWidth 32) && true))) = Instr.wellFormed _
  simp [admits_opRd, admits_opRs1, admits_opImmI, Instr.wellFormed]
theorem Fits.xori (rd rs1 : RegNum) (imm : BitVec 12) : Statement (.xori rd rs1 imm) := by
  show (opRd.admits (rd.setWidth 32) && (opRs1.admits (rs1.setWidth 32) && (opImmI.admits (imm.setWidth 32) && true))) = Instr.wellFormed _
  simp [admits_opRd, admits_opRs1, admits_opImmI, Instr.wellFormed]
theorem Fits.ori (rd rs1 : RegNum) (imm : BitVec 12) : Statement (.ori rd rs1 imm) := by
  show (opRd.admits (rd.setWidth 32) && (opRs1.admits (rs1.setWidth 32) && (opImmI.admits (imm.setWidth 32) && true))) = Instr.wellFormed _
  simp [admits_opRd, admits_opRs1, admits_opImmI, Instr.wellFormed]
theorem Fits.andi (rd rs1 : RegNum) (imm : BitVec 12) : Statement (.andi rd rs1 imm) := by
  show (opRd.admits (rd.setWidth 32) && (opRs1.admits (rs1.setWidth 32) && (opImmI.admits (imm.setWidth 32) && true))) = Instr.wellFormed _
  simp [admits_opRd, admits_opRs1, admits_opImmI, Instr.wellFormed]
theorem Fits.slli (rd rs1 : RegNum) (shamt : BitVec 6) : Statement (.slli rd rs1 shamt) := by
  show (opRd.admits (rd.setWidth 32) && (opRs1.admits (rs1.setWidth 32) && (opShamt6.admits (shamt.setWidth 32) && true))) = Instr.wellFormed _
  simp [admits_opRd, admits_opRs1, admits_opShamt6, Instr.wellFormed]
theorem Fits.srli (rd rs1 : RegNum) (shamt : BitVec 6) : Statement (.srli rd rs1 shamt) := by
  show (opRd.admits (rd.setWidth 32) && (opRs1.admits (rs1.setWidth 32) && (opShamt6.admits (shamt.setWidth 32) && true))) = Instr.wellFormed _
  simp [admits_opRd, admits_opRs1, admits_opShamt6, Instr.wellFormed]
theorem Fits.srai (rd rs1 : RegNum) (shamt : BitVec 6) : Statement (.srai rd rs1 shamt) := by
  show (opRd.admits (rd.setWidth 32) && (opRs1.admits (rs1.setWidth 32) && (opShamt6.admits (shamt.setWidth 32) && true))) = Instr.wellFormed _
  simp [admits_opRd, admits_opRs1, admits_opShamt6, Instr.wellFormed]
theorem Fits.add (rd rs1 rs2 : RegNum) : Statement (.add rd rs1 rs2) := by
  show (opRd.admits (rd.setWidth 32) && (opRs1.admits (rs1.setWidth 32) && (opRs2.admits (rs2.setWidth 32) && true))) = Instr.wellFormed _
  simp [admits_opRd, admits_opRs1, admits_opRs2, Instr.wellFormed]
theorem Fits.sub (rd rs1 rs2 : RegNum) : Statement (.sub rd rs1 rs2) := by
  show (opRd.admits (rd.setWidth 32) && (opRs1.admits (rs1.setWidth 32) && (opRs2.admits (rs2.setWidth 32) && true))) = Instr.wellFormed _
  simp [admits_opRd, admits_opRs1, admits_opRs2, Instr.wellFormed]
theorem Fits.sll (rd rs1 rs2 : RegNum) : Statement (.sll rd rs1 rs2) := by
  show (opRd.admits (rd.setWidth 32) && (opRs1.admits (rs1.setWidth 32) && (opRs2.admits (rs2.setWidth 32) && true))) = Instr.wellFormed _
  simp [admits_opRd, admits_opRs1, admits_opRs2, Instr.wellFormed]
theorem Fits.slt (rd rs1 rs2 : RegNum) : Statement (.slt rd rs1 rs2) := by
  show (opRd.admits (rd.setWidth 32) && (opRs1.admits (rs1.setWidth 32) && (opRs2.admits (rs2.setWidth 32) && true))) = Instr.wellFormed _
  simp [admits_opRd, admits_opRs1, admits_opRs2, Instr.wellFormed]
theorem Fits.sltu (rd rs1 rs2 : RegNum) : Statement (.sltu rd rs1 rs2) := by
  show (opRd.admits (rd.setWidth 32) && (opRs1.admits (rs1.setWidth 32) && (opRs2.admits (rs2.setWidth 32) && true))) = Instr.wellFormed _
  simp [admits_opRd, admits_opRs1, admits_opRs2, Instr.wellFormed]
theorem Fits.xor (rd rs1 rs2 : RegNum) : Statement (.xor rd rs1 rs2) := by
  show (opRd.admits (rd.setWidth 32) && (opRs1.admits (rs1.setWidth 32) && (opRs2.admits (rs2.setWidth 32) && true))) = Instr.wellFormed _
  simp [admits_opRd, admits_opRs1, admits_opRs2, Instr.wellFormed]
theorem Fits.srl (rd rs1 rs2 : RegNum) : Statement (.srl rd rs1 rs2) := by
  show (opRd.admits (rd.setWidth 32) && (opRs1.admits (rs1.setWidth 32) && (opRs2.admits (rs2.setWidth 32) && true))) = Instr.wellFormed _
  simp [admits_opRd, admits_opRs1, admits_opRs2, Instr.wellFormed]
theorem Fits.sra (rd rs1 rs2 : RegNum) : Statement (.sra rd rs1 rs2) := by
  show (opRd.admits (rd.setWidth 32) && (opRs1.admits (rs1.setWidth 32) && (opRs2.admits (rs2.setWidth 32) && true))) = Instr.wellFormed _
  simp [admits_opRd, admits_opRs1, admits_opRs2, Instr.wellFormed]
theorem Fits.or (rd rs1 rs2 : RegNum) : Statement (.or rd rs1 rs2) := by
  show (opRd.admits (rd.setWidth 32) && (opRs1.admits (rs1.setWidth 32) && (opRs2.admits (rs2.setWidth 32) && true))) = Instr.wellFormed _
  simp [admits_opRd, admits_opRs1, admits_opRs2, Instr.wellFormed]
theorem Fits.and (rd rs1 rs2 : RegNum) : Statement (.and rd rs1 rs2) := by
  show (opRd.admits (rd.setWidth 32) && (opRs1.admits (rs1.setWidth 32) && (opRs2.admits (rs2.setWidth 32) && true))) = Instr.wellFormed _
  simp [admits_opRd, admits_opRs1, admits_opRs2, Instr.wellFormed]
theorem Fits.fence (rd rs1 : RegNum) (fm pred succ : BitVec 4) : Statement (.fence rd rs1 fm pred succ) := by
  show (opRd.admits (rd.setWidth 32) && (opRs1.admits (rs1.setWidth 32) && (opFm.admits (fm.setWidth 32) && (opPred.admits (pred.setWidth 32) && (opSucc.admits (succ.setWidth 32) && true))))) = Instr.wellFormed _
  simp [admits_opRd, admits_opRs1, admits_opFm, admits_opPred, admits_opSucc, Instr.wellFormed]
theorem Fits.ecall : Statement .ecall := rfl
theorem Fits.ebreak : Statement .ebreak := rfl
theorem Fits.addiw (rd rs1 : RegNum) (imm : BitVec 12) : Statement (.addiw rd rs1 imm) := by
  show (opRd.admits (rd.setWidth 32) && (opRs1.admits (rs1.setWidth 32) && (opImmI.admits (imm.setWidth 32) && true))) = Instr.wellFormed _
  simp [admits_opRd, admits_opRs1, admits_opImmI, Instr.wellFormed]
theorem Fits.slliw (rd rs1 : RegNum) (shamt : BitVec 5) : Statement (.slliw rd rs1 shamt) := by
  show (opRd.admits (rd.setWidth 32) && (opRs1.admits (rs1.setWidth 32) && (opShamt5.admits (shamt.setWidth 32) && true))) = Instr.wellFormed _
  simp [admits_opRd, admits_opRs1, admits_opShamt5, Instr.wellFormed]
theorem Fits.srliw (rd rs1 : RegNum) (shamt : BitVec 5) : Statement (.srliw rd rs1 shamt) := by
  show (opRd.admits (rd.setWidth 32) && (opRs1.admits (rs1.setWidth 32) && (opShamt5.admits (shamt.setWidth 32) && true))) = Instr.wellFormed _
  simp [admits_opRd, admits_opRs1, admits_opShamt5, Instr.wellFormed]
theorem Fits.sraiw (rd rs1 : RegNum) (shamt : BitVec 5) : Statement (.sraiw rd rs1 shamt) := by
  show (opRd.admits (rd.setWidth 32) && (opRs1.admits (rs1.setWidth 32) && (opShamt5.admits (shamt.setWidth 32) && true))) = Instr.wellFormed _
  simp [admits_opRd, admits_opRs1, admits_opShamt5, Instr.wellFormed]
theorem Fits.addw (rd rs1 rs2 : RegNum) : Statement (.addw rd rs1 rs2) := by
  show (opRd.admits (rd.setWidth 32) && (opRs1.admits (rs1.setWidth 32) && (opRs2.admits (rs2.setWidth 32) && true))) = Instr.wellFormed _
  simp [admits_opRd, admits_opRs1, admits_opRs2, Instr.wellFormed]
theorem Fits.subw (rd rs1 rs2 : RegNum) : Statement (.subw rd rs1 rs2) := by
  show (opRd.admits (rd.setWidth 32) && (opRs1.admits (rs1.setWidth 32) && (opRs2.admits (rs2.setWidth 32) && true))) = Instr.wellFormed _
  simp [admits_opRd, admits_opRs1, admits_opRs2, Instr.wellFormed]
theorem Fits.sllw (rd rs1 rs2 : RegNum) : Statement (.sllw rd rs1 rs2) := by
  show (opRd.admits (rd.setWidth 32) && (opRs1.admits (rs1.setWidth 32) && (opRs2.admits (rs2.setWidth 32) && true))) = Instr.wellFormed _
  simp [admits_opRd, admits_opRs1, admits_opRs2, Instr.wellFormed]
theorem Fits.srlw (rd rs1 rs2 : RegNum) : Statement (.srlw rd rs1 rs2) := by
  show (opRd.admits (rd.setWidth 32) && (opRs1.admits (rs1.setWidth 32) && (opRs2.admits (rs2.setWidth 32) && true))) = Instr.wellFormed _
  simp [admits_opRd, admits_opRs1, admits_opRs2, Instr.wellFormed]
theorem Fits.sraw (rd rs1 rs2 : RegNum) : Statement (.sraw rd rs1 rs2) := by
  show (opRd.admits (rd.setWidth 32) && (opRs1.admits (rs1.setWidth 32) && (opRs2.admits (rs2.setWidth 32) && true))) = Instr.wellFormed _
  simp [admits_opRd, admits_opRs1, admits_opRs2, Instr.wellFormed]
theorem Fits.fenceI (rd rs1 : RegNum) (imm : BitVec 12) : Statement (.fenceI rd rs1 imm) := by
  show (opRd.admits (rd.setWidth 32) && (opRs1.admits (rs1.setWidth 32) && (opImmI.admits (imm.setWidth 32) && true))) = Instr.wellFormed _
  simp [admits_opRd, admits_opRs1, admits_opImmI, Instr.wellFormed]
theorem Fits.csrrw (rd rs1 : RegNum) (csr : CsrAddr) : Statement (.csrrw rd rs1 csr) := by
  show (opRd.admits (rd.setWidth 32) && (opRs1.admits (rs1.setWidth 32) && (opCsr.admits (csr.setWidth 32) && true))) = Instr.wellFormed _
  simp [admits_opRd, admits_opRs1, admits_opCsr, Instr.wellFormed]
theorem Fits.csrrs (rd rs1 : RegNum) (csr : CsrAddr) : Statement (.csrrs rd rs1 csr) := by
  show (opRd.admits (rd.setWidth 32) && (opRs1.admits (rs1.setWidth 32) && (opCsr.admits (csr.setWidth 32) && true))) = Instr.wellFormed _
  simp [admits_opRd, admits_opRs1, admits_opCsr, Instr.wellFormed]
theorem Fits.csrrc (rd rs1 : RegNum) (csr : CsrAddr) : Statement (.csrrc rd rs1 csr) := by
  show (opRd.admits (rd.setWidth 32) && (opRs1.admits (rs1.setWidth 32) && (opCsr.admits (csr.setWidth 32) && true))) = Instr.wellFormed _
  simp [admits_opRd, admits_opRs1, admits_opCsr, Instr.wellFormed]
theorem Fits.csrrwi (rd : RegNum) (uimm : BitVec 5) (csr : CsrAddr) : Statement (.csrrwi rd uimm csr) := by
  show (opRd.admits (rd.setWidth 32) && (opUimm.admits (uimm.setWidth 32) && (opCsr.admits (csr.setWidth 32) && true))) = Instr.wellFormed _
  simp [admits_opRd, admits_opUimm, admits_opCsr, Instr.wellFormed]
theorem Fits.csrrsi (rd : RegNum) (uimm : BitVec 5) (csr : CsrAddr) : Statement (.csrrsi rd uimm csr) := by
  show (opRd.admits (rd.setWidth 32) && (opUimm.admits (uimm.setWidth 32) && (opCsr.admits (csr.setWidth 32) && true))) = Instr.wellFormed _
  simp [admits_opRd, admits_opUimm, admits_opCsr, Instr.wellFormed]
theorem Fits.csrrci (rd : RegNum) (uimm : BitVec 5) (csr : CsrAddr) : Statement (.csrrci rd uimm csr) := by
  show (opRd.admits (rd.setWidth 32) && (opUimm.admits (uimm.setWidth 32) && (opCsr.admits (csr.setWidth 32) && true))) = Instr.wellFormed _
  simp [admits_opRd, admits_opUimm, admits_opCsr, Instr.wellFormed]
theorem Fits.mul (rd rs1 rs2 : RegNum) : Statement (.mul rd rs1 rs2) := by
  show (opRd.admits (rd.setWidth 32) && (opRs1.admits (rs1.setWidth 32) && (opRs2.admits (rs2.setWidth 32) && true))) = Instr.wellFormed _
  simp [admits_opRd, admits_opRs1, admits_opRs2, Instr.wellFormed]
theorem Fits.mulh (rd rs1 rs2 : RegNum) : Statement (.mulh rd rs1 rs2) := by
  show (opRd.admits (rd.setWidth 32) && (opRs1.admits (rs1.setWidth 32) && (opRs2.admits (rs2.setWidth 32) && true))) = Instr.wellFormed _
  simp [admits_opRd, admits_opRs1, admits_opRs2, Instr.wellFormed]
theorem Fits.mulhsu (rd rs1 rs2 : RegNum) : Statement (.mulhsu rd rs1 rs2) := by
  show (opRd.admits (rd.setWidth 32) && (opRs1.admits (rs1.setWidth 32) && (opRs2.admits (rs2.setWidth 32) && true))) = Instr.wellFormed _
  simp [admits_opRd, admits_opRs1, admits_opRs2, Instr.wellFormed]
theorem Fits.mulhu (rd rs1 rs2 : RegNum) : Statement (.mulhu rd rs1 rs2) := by
  show (opRd.admits (rd.setWidth 32) && (opRs1.admits (rs1.setWidth 32) && (opRs2.admits (rs2.setWidth 32) && true))) = Instr.wellFormed _
  simp [admits_opRd, admits_opRs1, admits_opRs2, Instr.wellFormed]
theorem Fits.div (rd rs1 rs2 : RegNum) : Statement (.div rd rs1 rs2) := by
  show (opRd.admits (rd.setWidth 32) && (opRs1.admits (rs1.setWidth 32) && (opRs2.admits (rs2.setWidth 32) && true))) = Instr.wellFormed _
  simp [admits_opRd, admits_opRs1, admits_opRs2, Instr.wellFormed]
theorem Fits.divu (rd rs1 rs2 : RegNum) : Statement (.divu rd rs1 rs2) := by
  show (opRd.admits (rd.setWidth 32) && (opRs1.admits (rs1.setWidth 32) && (opRs2.admits (rs2.setWidth 32) && true))) = Instr.wellFormed _
  simp [admits_opRd, admits_opRs1, admits_opRs2, Instr.wellFormed]
theorem Fits.rem (rd rs1 rs2 : RegNum) : Statement (.rem rd rs1 rs2) := by
  show (opRd.admits (rd.setWidth 32) && (opRs1.admits (rs1.setWidth 32) && (opRs2.admits (rs2.setWidth 32) && true))) = Instr.wellFormed _
  simp [admits_opRd, admits_opRs1, admits_opRs2, Instr.wellFormed]
theorem Fits.remu (rd rs1 rs2 : RegNum) : Statement (.remu rd rs1 rs2) := by
  show (opRd.admits (rd.setWidth 32) && (opRs1.admits (rs1.setWidth 32) && (opRs2.admits (rs2.setWidth 32) && true))) = Instr.wellFormed _
  simp [admits_opRd, admits_opRs1, admits_opRs2, Instr.wellFormed]
theorem Fits.mulw (rd rs1 rs2 : RegNum) : Statement (.mulw rd rs1 rs2) := by
  show (opRd.admits (rd.setWidth 32) && (opRs1.admits (rs1.setWidth 32) && (opRs2.admits (rs2.setWidth 32) && true))) = Instr.wellFormed _
  simp [admits_opRd, admits_opRs1, admits_opRs2, Instr.wellFormed]
theorem Fits.divw (rd rs1 rs2 : RegNum) : Statement (.divw rd rs1 rs2) := by
  show (opRd.admits (rd.setWidth 32) && (opRs1.admits (rs1.setWidth 32) && (opRs2.admits (rs2.setWidth 32) && true))) = Instr.wellFormed _
  simp [admits_opRd, admits_opRs1, admits_opRs2, Instr.wellFormed]
theorem Fits.divuw (rd rs1 rs2 : RegNum) : Statement (.divuw rd rs1 rs2) := by
  show (opRd.admits (rd.setWidth 32) && (opRs1.admits (rs1.setWidth 32) && (opRs2.admits (rs2.setWidth 32) && true))) = Instr.wellFormed _
  simp [admits_opRd, admits_opRs1, admits_opRs2, Instr.wellFormed]
theorem Fits.remw (rd rs1 rs2 : RegNum) : Statement (.remw rd rs1 rs2) := by
  show (opRd.admits (rd.setWidth 32) && (opRs1.admits (rs1.setWidth 32) && (opRs2.admits (rs2.setWidth 32) && true))) = Instr.wellFormed _
  simp [admits_opRd, admits_opRs1, admits_opRs2, Instr.wellFormed]
theorem Fits.remuw (rd rs1 rs2 : RegNum) : Statement (.remuw rd rs1 rs2) := by
  show (opRd.admits (rd.setWidth 32) && (opRs1.admits (rs1.setWidth 32) && (opRs2.admits (rs2.setWidth 32) && true))) = Instr.wellFormed _
  simp [admits_opRd, admits_opRs1, admits_opRs2, Instr.wellFormed]
theorem Fits.lrW (rd rs1 : RegNum) (aq rl : BitVec 1) : Statement (.lrW rd rs1 aq rl) := by
  show (opRd.admits (rd.setWidth 32) && (opRs1.admits (rs1.setWidth 32) && (opAq.admits (aq.setWidth 32) && (opRl.admits (rl.setWidth 32) && true)))) = Instr.wellFormed _
  simp [admits_opRd, admits_opRs1, admits_opAq, admits_opRl, Instr.wellFormed]
theorem Fits.scW (rd rs1 rs2 : RegNum) (aq rl : BitVec 1) : Statement (.scW rd rs1 rs2 aq rl) := by
  show (opRd.admits (rd.setWidth 32) && (opRs1.admits (rs1.setWidth 32) && (opRs2.admits (rs2.setWidth 32) && (opAq.admits (aq.setWidth 32) && (opRl.admits (rl.setWidth 32) && true))))) = Instr.wellFormed _
  simp [admits_opRd, admits_opRs1, admits_opRs2, admits_opAq, admits_opRl, Instr.wellFormed]
theorem Fits.amoswapW (rd rs1 rs2 : RegNum) (aq rl : BitVec 1) : Statement (.amoswapW rd rs1 rs2 aq rl) := by
  show (opRd.admits (rd.setWidth 32) && (opRs1.admits (rs1.setWidth 32) && (opRs2.admits (rs2.setWidth 32) && (opAq.admits (aq.setWidth 32) && (opRl.admits (rl.setWidth 32) && true))))) = Instr.wellFormed _
  simp [admits_opRd, admits_opRs1, admits_opRs2, admits_opAq, admits_opRl, Instr.wellFormed]
theorem Fits.amoaddW (rd rs1 rs2 : RegNum) (aq rl : BitVec 1) : Statement (.amoaddW rd rs1 rs2 aq rl) := by
  show (opRd.admits (rd.setWidth 32) && (opRs1.admits (rs1.setWidth 32) && (opRs2.admits (rs2.setWidth 32) && (opAq.admits (aq.setWidth 32) && (opRl.admits (rl.setWidth 32) && true))))) = Instr.wellFormed _
  simp [admits_opRd, admits_opRs1, admits_opRs2, admits_opAq, admits_opRl, Instr.wellFormed]
theorem Fits.amoxorW (rd rs1 rs2 : RegNum) (aq rl : BitVec 1) : Statement (.amoxorW rd rs1 rs2 aq rl) := by
  show (opRd.admits (rd.setWidth 32) && (opRs1.admits (rs1.setWidth 32) && (opRs2.admits (rs2.setWidth 32) && (opAq.admits (aq.setWidth 32) && (opRl.admits (rl.setWidth 32) && true))))) = Instr.wellFormed _
  simp [admits_opRd, admits_opRs1, admits_opRs2, admits_opAq, admits_opRl, Instr.wellFormed]
theorem Fits.amoandW (rd rs1 rs2 : RegNum) (aq rl : BitVec 1) : Statement (.amoandW rd rs1 rs2 aq rl) := by
  show (opRd.admits (rd.setWidth 32) && (opRs1.admits (rs1.setWidth 32) && (opRs2.admits (rs2.setWidth 32) && (opAq.admits (aq.setWidth 32) && (opRl.admits (rl.setWidth 32) && true))))) = Instr.wellFormed _
  simp [admits_opRd, admits_opRs1, admits_opRs2, admits_opAq, admits_opRl, Instr.wellFormed]
theorem Fits.amoorW (rd rs1 rs2 : RegNum) (aq rl : BitVec 1) : Statement (.amoorW rd rs1 rs2 aq rl) := by
  show (opRd.admits (rd.setWidth 32) && (opRs1.admits (rs1.setWidth 32) && (opRs2.admits (rs2.setWidth 32) && (opAq.admits (aq.setWidth 32) && (opRl.admits (rl.setWidth 32) && true))))) = Instr.wellFormed _
  simp [admits_opRd, admits_opRs1, admits_opRs2, admits_opAq, admits_opRl, Instr.wellFormed]
theorem Fits.amominW (rd rs1 rs2 : RegNum) (aq rl : BitVec 1) : Statement (.amominW rd rs1 rs2 aq rl) := by
  show (opRd.admits (rd.setWidth 32) && (opRs1.admits (rs1.setWidth 32) && (opRs2.admits (rs2.setWidth 32) && (opAq.admits (aq.setWidth 32) && (opRl.admits (rl.setWidth 32) && true))))) = Instr.wellFormed _
  simp [admits_opRd, admits_opRs1, admits_opRs2, admits_opAq, admits_opRl, Instr.wellFormed]
theorem Fits.amomaxW (rd rs1 rs2 : RegNum) (aq rl : BitVec 1) : Statement (.amomaxW rd rs1 rs2 aq rl) := by
  show (opRd.admits (rd.setWidth 32) && (opRs1.admits (rs1.setWidth 32) && (opRs2.admits (rs2.setWidth 32) && (opAq.admits (aq.setWidth 32) && (opRl.admits (rl.setWidth 32) && true))))) = Instr.wellFormed _
  simp [admits_opRd, admits_opRs1, admits_opRs2, admits_opAq, admits_opRl, Instr.wellFormed]
theorem Fits.amominuW (rd rs1 rs2 : RegNum) (aq rl : BitVec 1) : Statement (.amominuW rd rs1 rs2 aq rl) := by
  show (opRd.admits (rd.setWidth 32) && (opRs1.admits (rs1.setWidth 32) && (opRs2.admits (rs2.setWidth 32) && (opAq.admits (aq.setWidth 32) && (opRl.admits (rl.setWidth 32) && true))))) = Instr.wellFormed _
  simp [admits_opRd, admits_opRs1, admits_opRs2, admits_opAq, admits_opRl, Instr.wellFormed]
theorem Fits.amomaxuW (rd rs1 rs2 : RegNum) (aq rl : BitVec 1) : Statement (.amomaxuW rd rs1 rs2 aq rl) := by
  show (opRd.admits (rd.setWidth 32) && (opRs1.admits (rs1.setWidth 32) && (opRs2.admits (rs2.setWidth 32) && (opAq.admits (aq.setWidth 32) && (opRl.admits (rl.setWidth 32) && true))))) = Instr.wellFormed _
  simp [admits_opRd, admits_opRs1, admits_opRs2, admits_opAq, admits_opRl, Instr.wellFormed]
theorem Fits.lrD (rd rs1 : RegNum) (aq rl : BitVec 1) : Statement (.lrD rd rs1 aq rl) := by
  show (opRd.admits (rd.setWidth 32) && (opRs1.admits (rs1.setWidth 32) && (opAq.admits (aq.setWidth 32) && (opRl.admits (rl.setWidth 32) && true)))) = Instr.wellFormed _
  simp [admits_opRd, admits_opRs1, admits_opAq, admits_opRl, Instr.wellFormed]
theorem Fits.scD (rd rs1 rs2 : RegNum) (aq rl : BitVec 1) : Statement (.scD rd rs1 rs2 aq rl) := by
  show (opRd.admits (rd.setWidth 32) && (opRs1.admits (rs1.setWidth 32) && (opRs2.admits (rs2.setWidth 32) && (opAq.admits (aq.setWidth 32) && (opRl.admits (rl.setWidth 32) && true))))) = Instr.wellFormed _
  simp [admits_opRd, admits_opRs1, admits_opRs2, admits_opAq, admits_opRl, Instr.wellFormed]
theorem Fits.amoswapD (rd rs1 rs2 : RegNum) (aq rl : BitVec 1) : Statement (.amoswapD rd rs1 rs2 aq rl) := by
  show (opRd.admits (rd.setWidth 32) && (opRs1.admits (rs1.setWidth 32) && (opRs2.admits (rs2.setWidth 32) && (opAq.admits (aq.setWidth 32) && (opRl.admits (rl.setWidth 32) && true))))) = Instr.wellFormed _
  simp [admits_opRd, admits_opRs1, admits_opRs2, admits_opAq, admits_opRl, Instr.wellFormed]
theorem Fits.amoaddD (rd rs1 rs2 : RegNum) (aq rl : BitVec 1) : Statement (.amoaddD rd rs1 rs2 aq rl) := by
  show (opRd.admits (rd.setWidth 32) && (opRs1.admits (rs1.setWidth 32) && (opRs2.admits (rs2.setWidth 32) && (opAq.admits (aq.setWidth 32) && (opRl.admits (rl.setWidth 32) && true))))) = Instr.wellFormed _
  simp [admits_opRd, admits_opRs1, admits_opRs2, admits_opAq, admits_opRl, Instr.wellFormed]
theorem Fits.amoxorD (rd rs1 rs2 : RegNum) (aq rl : BitVec 1) : Statement (.amoxorD rd rs1 rs2 aq rl) := by
  show (opRd.admits (rd.setWidth 32) && (opRs1.admits (rs1.setWidth 32) && (opRs2.admits (rs2.setWidth 32) && (opAq.admits (aq.setWidth 32) && (opRl.admits (rl.setWidth 32) && true))))) = Instr.wellFormed _
  simp [admits_opRd, admits_opRs1, admits_opRs2, admits_opAq, admits_opRl, Instr.wellFormed]
theorem Fits.amoandD (rd rs1 rs2 : RegNum) (aq rl : BitVec 1) : Statement (.amoandD rd rs1 rs2 aq rl) := by
  show (opRd.admits (rd.setWidth 32) && (opRs1.admits (rs1.setWidth 32) && (opRs2.admits (rs2.setWidth 32) && (opAq.admits (aq.setWidth 32) && (opRl.admits (rl.setWidth 32) && true))))) = Instr.wellFormed _
  simp [admits_opRd, admits_opRs1, admits_opRs2, admits_opAq, admits_opRl, Instr.wellFormed]
theorem Fits.amoorD (rd rs1 rs2 : RegNum) (aq rl : BitVec 1) : Statement (.amoorD rd rs1 rs2 aq rl) := by
  show (opRd.admits (rd.setWidth 32) && (opRs1.admits (rs1.setWidth 32) && (opRs2.admits (rs2.setWidth 32) && (opAq.admits (aq.setWidth 32) && (opRl.admits (rl.setWidth 32) && true))))) = Instr.wellFormed _
  simp [admits_opRd, admits_opRs1, admits_opRs2, admits_opAq, admits_opRl, Instr.wellFormed]
theorem Fits.amominD (rd rs1 rs2 : RegNum) (aq rl : BitVec 1) : Statement (.amominD rd rs1 rs2 aq rl) := by
  show (opRd.admits (rd.setWidth 32) && (opRs1.admits (rs1.setWidth 32) && (opRs2.admits (rs2.setWidth 32) && (opAq.admits (aq.setWidth 32) && (opRl.admits (rl.setWidth 32) && true))))) = Instr.wellFormed _
  simp [admits_opRd, admits_opRs1, admits_opRs2, admits_opAq, admits_opRl, Instr.wellFormed]
theorem Fits.amomaxD (rd rs1 rs2 : RegNum) (aq rl : BitVec 1) : Statement (.amomaxD rd rs1 rs2 aq rl) := by
  show (opRd.admits (rd.setWidth 32) && (opRs1.admits (rs1.setWidth 32) && (opRs2.admits (rs2.setWidth 32) && (opAq.admits (aq.setWidth 32) && (opRl.admits (rl.setWidth 32) && true))))) = Instr.wellFormed _
  simp [admits_opRd, admits_opRs1, admits_opRs2, admits_opAq, admits_opRl, Instr.wellFormed]
theorem Fits.amominuD (rd rs1 rs2 : RegNum) (aq rl : BitVec 1) : Statement (.amominuD rd rs1 rs2 aq rl) := by
  show (opRd.admits (rd.setWidth 32) && (opRs1.admits (rs1.setWidth 32) && (opRs2.admits (rs2.setWidth 32) && (opAq.admits (aq.setWidth 32) && (opRl.admits (rl.setWidth 32) && true))))) = Instr.wellFormed _
  simp [admits_opRd, admits_opRs1, admits_opRs2, admits_opAq, admits_opRl, Instr.wellFormed]
theorem Fits.amomaxuD (rd rs1 rs2 : RegNum) (aq rl : BitVec 1) : Statement (.amomaxuD rd rs1 rs2 aq rl) := by
  show (opRd.admits (rd.setWidth 32) && (opRs1.admits (rs1.setWidth 32) && (opRs2.admits (rs2.setWidth 32) && (opAq.admits (aq.setWidth 32) && (opRl.admits (rl.setWidth 32) && true))))) = Instr.wellFormed _
  simp [admits_opRd, admits_opRs1, admits_opRs2, admits_opAq, admits_opRl, Instr.wellFormed]
theorem Fits.sret : Statement .sret := rfl
theorem Fits.mret : Statement .mret := rfl
theorem Fits.wfi : Statement .wfi := rfl
theorem Fits.sfenceVma (rs1 rs2 : RegNum) : Statement (.sfenceVma rs1 rs2) := by
  show (opRs1.admits (rs1.setWidth 32) && (opRs2.admits (rs2.setWidth 32) && true)) = Instr.wellFormed _
  simp [admits_opRs1, admits_opRs2, Instr.wellFormed]
theorem Fits.flw (rd rs1 : RegNum) (imm : BitVec 12) : Statement (.flw rd rs1 imm) := by
  show (opRd.admits (rd.setWidth 32) && (opRs1.admits (rs1.setWidth 32) && (opImmI.admits (imm.setWidth 32) && true))) = Instr.wellFormed _
  simp [admits_opRd, admits_opRs1, admits_opImmI, Instr.wellFormed]
theorem Fits.fsw (rs1 rs2 : RegNum) (imm : BitVec 12) : Statement (.fsw rs1 rs2 imm) := by
  show (opRs1.admits (rs1.setWidth 32) && (opRs2.admits (rs2.setWidth 32) && (opImmS.admits (imm.setWidth 32) && true))) = Instr.wellFormed _
  simp [admits_opRs1, admits_opRs2, admits_opImmS, Instr.wellFormed]
theorem Fits.fmaddS (rd rs1 rs2 rs3 : RegNum) (rm : BitVec 3) : Statement (.fmaddS rd rs1 rs2 rs3 rm) := by
  show (opRd.admits (rd.setWidth 32) && (opRs1.admits (rs1.setWidth 32) && (opRs2.admits (rs2.setWidth 32) && (opRs3.admits (rs3.setWidth 32) && (opRm.admits (rm.setWidth 32) && true))))) = Instr.wellFormed _
  simp [admits_opRd, admits_opRs1, admits_opRs2, admits_opRs3, admits_opRm, Instr.wellFormed]
theorem Fits.fmsubS (rd rs1 rs2 rs3 : RegNum) (rm : BitVec 3) : Statement (.fmsubS rd rs1 rs2 rs3 rm) := by
  show (opRd.admits (rd.setWidth 32) && (opRs1.admits (rs1.setWidth 32) && (opRs2.admits (rs2.setWidth 32) && (opRs3.admits (rs3.setWidth 32) && (opRm.admits (rm.setWidth 32) && true))))) = Instr.wellFormed _
  simp [admits_opRd, admits_opRs1, admits_opRs2, admits_opRs3, admits_opRm, Instr.wellFormed]
theorem Fits.fnmsubS (rd rs1 rs2 rs3 : RegNum) (rm : BitVec 3) : Statement (.fnmsubS rd rs1 rs2 rs3 rm) := by
  show (opRd.admits (rd.setWidth 32) && (opRs1.admits (rs1.setWidth 32) && (opRs2.admits (rs2.setWidth 32) && (opRs3.admits (rs3.setWidth 32) && (opRm.admits (rm.setWidth 32) && true))))) = Instr.wellFormed _
  simp [admits_opRd, admits_opRs1, admits_opRs2, admits_opRs3, admits_opRm, Instr.wellFormed]
theorem Fits.fnmaddS (rd rs1 rs2 rs3 : RegNum) (rm : BitVec 3) : Statement (.fnmaddS rd rs1 rs2 rs3 rm) := by
  show (opRd.admits (rd.setWidth 32) && (opRs1.admits (rs1.setWidth 32) && (opRs2.admits (rs2.setWidth 32) && (opRs3.admits (rs3.setWidth 32) && (opRm.admits (rm.setWidth 32) && true))))) = Instr.wellFormed _
  simp [admits_opRd, admits_opRs1, admits_opRs2, admits_opRs3, admits_opRm, Instr.wellFormed]
theorem Fits.faddS (rd rs1 rs2 : RegNum) (rm : BitVec 3) : Statement (.faddS rd rs1 rs2 rm) := by
  show (opRd.admits (rd.setWidth 32) && (opRs1.admits (rs1.setWidth 32) && (opRs2.admits (rs2.setWidth 32) && (opRm.admits (rm.setWidth 32) && true)))) = Instr.wellFormed _
  simp [admits_opRd, admits_opRs1, admits_opRs2, admits_opRm, Instr.wellFormed]
theorem Fits.fsubS (rd rs1 rs2 : RegNum) (rm : BitVec 3) : Statement (.fsubS rd rs1 rs2 rm) := by
  show (opRd.admits (rd.setWidth 32) && (opRs1.admits (rs1.setWidth 32) && (opRs2.admits (rs2.setWidth 32) && (opRm.admits (rm.setWidth 32) && true)))) = Instr.wellFormed _
  simp [admits_opRd, admits_opRs1, admits_opRs2, admits_opRm, Instr.wellFormed]
theorem Fits.fmulS (rd rs1 rs2 : RegNum) (rm : BitVec 3) : Statement (.fmulS rd rs1 rs2 rm) := by
  show (opRd.admits (rd.setWidth 32) && (opRs1.admits (rs1.setWidth 32) && (opRs2.admits (rs2.setWidth 32) && (opRm.admits (rm.setWidth 32) && true)))) = Instr.wellFormed _
  simp [admits_opRd, admits_opRs1, admits_opRs2, admits_opRm, Instr.wellFormed]
theorem Fits.fdivS (rd rs1 rs2 : RegNum) (rm : BitVec 3) : Statement (.fdivS rd rs1 rs2 rm) := by
  show (opRd.admits (rd.setWidth 32) && (opRs1.admits (rs1.setWidth 32) && (opRs2.admits (rs2.setWidth 32) && (opRm.admits (rm.setWidth 32) && true)))) = Instr.wellFormed _
  simp [admits_opRd, admits_opRs1, admits_opRs2, admits_opRm, Instr.wellFormed]
theorem Fits.fsqrtS (rd rs1 : RegNum) (rm : BitVec 3) : Statement (.fsqrtS rd rs1 rm) := by
  show (opRd.admits (rd.setWidth 32) && (opRs1.admits (rs1.setWidth 32) && (opRm.admits (rm.setWidth 32) && true))) = Instr.wellFormed _
  simp [admits_opRd, admits_opRs1, admits_opRm, Instr.wellFormed]
theorem Fits.fsgnjS (rd rs1 rs2 : RegNum) : Statement (.fsgnjS rd rs1 rs2) := by
  show (opRd.admits (rd.setWidth 32) && (opRs1.admits (rs1.setWidth 32) && (opRs2.admits (rs2.setWidth 32) && true))) = Instr.wellFormed _
  simp [admits_opRd, admits_opRs1, admits_opRs2, Instr.wellFormed]
theorem Fits.fsgnjnS (rd rs1 rs2 : RegNum) : Statement (.fsgnjnS rd rs1 rs2) := by
  show (opRd.admits (rd.setWidth 32) && (opRs1.admits (rs1.setWidth 32) && (opRs2.admits (rs2.setWidth 32) && true))) = Instr.wellFormed _
  simp [admits_opRd, admits_opRs1, admits_opRs2, Instr.wellFormed]
theorem Fits.fsgnjxS (rd rs1 rs2 : RegNum) : Statement (.fsgnjxS rd rs1 rs2) := by
  show (opRd.admits (rd.setWidth 32) && (opRs1.admits (rs1.setWidth 32) && (opRs2.admits (rs2.setWidth 32) && true))) = Instr.wellFormed _
  simp [admits_opRd, admits_opRs1, admits_opRs2, Instr.wellFormed]
theorem Fits.fminS (rd rs1 rs2 : RegNum) : Statement (.fminS rd rs1 rs2) := by
  show (opRd.admits (rd.setWidth 32) && (opRs1.admits (rs1.setWidth 32) && (opRs2.admits (rs2.setWidth 32) && true))) = Instr.wellFormed _
  simp [admits_opRd, admits_opRs1, admits_opRs2, Instr.wellFormed]
theorem Fits.fmaxS (rd rs1 rs2 : RegNum) : Statement (.fmaxS rd rs1 rs2) := by
  show (opRd.admits (rd.setWidth 32) && (opRs1.admits (rs1.setWidth 32) && (opRs2.admits (rs2.setWidth 32) && true))) = Instr.wellFormed _
  simp [admits_opRd, admits_opRs1, admits_opRs2, Instr.wellFormed]
theorem Fits.fleS (rd rs1 rs2 : RegNum) : Statement (.fleS rd rs1 rs2) := by
  show (opRd.admits (rd.setWidth 32) && (opRs1.admits (rs1.setWidth 32) && (opRs2.admits (rs2.setWidth 32) && true))) = Instr.wellFormed _
  simp [admits_opRd, admits_opRs1, admits_opRs2, Instr.wellFormed]
theorem Fits.fltS (rd rs1 rs2 : RegNum) : Statement (.fltS rd rs1 rs2) := by
  show (opRd.admits (rd.setWidth 32) && (opRs1.admits (rs1.setWidth 32) && (opRs2.admits (rs2.setWidth 32) && true))) = Instr.wellFormed _
  simp [admits_opRd, admits_opRs1, admits_opRs2, Instr.wellFormed]
theorem Fits.feqS (rd rs1 rs2 : RegNum) : Statement (.feqS rd rs1 rs2) := by
  show (opRd.admits (rd.setWidth 32) && (opRs1.admits (rs1.setWidth 32) && (opRs2.admits (rs2.setWidth 32) && true))) = Instr.wellFormed _
  simp [admits_opRd, admits_opRs1, admits_opRs2, Instr.wellFormed]
theorem Fits.fclassS (rd rs1 : RegNum) : Statement (.fclassS rd rs1) := by
  show (opRd.admits (rd.setWidth 32) && (opRs1.admits (rs1.setWidth 32) && true)) = Instr.wellFormed _
  simp [admits_opRd, admits_opRs1, Instr.wellFormed]
theorem Fits.fcvtWS (rd rs1 : RegNum) (rm : BitVec 3) : Statement (.fcvtWS rd rs1 rm) := by
  show (opRd.admits (rd.setWidth 32) && (opRs1.admits (rs1.setWidth 32) && (opRm.admits (rm.setWidth 32) && true))) = Instr.wellFormed _
  simp [admits_opRd, admits_opRs1, admits_opRm, Instr.wellFormed]
theorem Fits.fcvtSW (rd rs1 : RegNum) (rm : BitVec 3) : Statement (.fcvtSW rd rs1 rm) := by
  show (opRd.admits (rd.setWidth 32) && (opRs1.admits (rs1.setWidth 32) && (opRm.admits (rm.setWidth 32) && true))) = Instr.wellFormed _
  simp [admits_opRd, admits_opRs1, admits_opRm, Instr.wellFormed]
theorem Fits.fcvtWuS (rd rs1 : RegNum) (rm : BitVec 3) : Statement (.fcvtWuS rd rs1 rm) := by
  show (opRd.admits (rd.setWidth 32) && (opRs1.admits (rs1.setWidth 32) && (opRm.admits (rm.setWidth 32) && true))) = Instr.wellFormed _
  simp [admits_opRd, admits_opRs1, admits_opRm, Instr.wellFormed]
theorem Fits.fcvtSWu (rd rs1 : RegNum) (rm : BitVec 3) : Statement (.fcvtSWu rd rs1 rm) := by
  show (opRd.admits (rd.setWidth 32) && (opRs1.admits (rs1.setWidth 32) && (opRm.admits (rm.setWidth 32) && true))) = Instr.wellFormed _
  simp [admits_opRd, admits_opRs1, admits_opRm, Instr.wellFormed]
theorem Fits.fcvtLS (rd rs1 : RegNum) (rm : BitVec 3) : Statement (.fcvtLS rd rs1 rm) := by
  show (opRd.admits (rd.setWidth 32) && (opRs1.admits (rs1.setWidth 32) && (opRm.admits (rm.setWidth 32) && true))) = Instr.wellFormed _
  simp [admits_opRd, admits_opRs1, admits_opRm, Instr.wellFormed]
theorem Fits.fcvtSL (rd rs1 : RegNum) (rm : BitVec 3) : Statement (.fcvtSL rd rs1 rm) := by
  show (opRd.admits (rd.setWidth 32) && (opRs1.admits (rs1.setWidth 32) && (opRm.admits (rm.setWidth 32) && true))) = Instr.wellFormed _
  simp [admits_opRd, admits_opRs1, admits_opRm, Instr.wellFormed]
theorem Fits.fcvtLuS (rd rs1 : RegNum) (rm : BitVec 3) : Statement (.fcvtLuS rd rs1 rm) := by
  show (opRd.admits (rd.setWidth 32) && (opRs1.admits (rs1.setWidth 32) && (opRm.admits (rm.setWidth 32) && true))) = Instr.wellFormed _
  simp [admits_opRd, admits_opRs1, admits_opRm, Instr.wellFormed]
theorem Fits.fcvtSLu (rd rs1 : RegNum) (rm : BitVec 3) : Statement (.fcvtSLu rd rs1 rm) := by
  show (opRd.admits (rd.setWidth 32) && (opRs1.admits (rs1.setWidth 32) && (opRm.admits (rm.setWidth 32) && true))) = Instr.wellFormed _
  simp [admits_opRd, admits_opRs1, admits_opRm, Instr.wellFormed]
theorem Fits.fmvXW (rd rs1 : RegNum) : Statement (.fmvXW rd rs1) := by
  show (opRd.admits (rd.setWidth 32) && (opRs1.admits (rs1.setWidth 32) && true)) = Instr.wellFormed _
  simp [admits_opRd, admits_opRs1, Instr.wellFormed]
theorem Fits.fmvWX (rd rs1 : RegNum) : Statement (.fmvWX rd rs1) := by
  show (opRd.admits (rd.setWidth 32) && (opRs1.admits (rs1.setWidth 32) && true)) = Instr.wellFormed _
  simp [admits_opRd, admits_opRs1, Instr.wellFormed]
theorem Fits.fld (rd rs1 : RegNum) (imm : BitVec 12) : Statement (.fld rd rs1 imm) := by
  show (opRd.admits (rd.setWidth 32) && (opRs1.admits (rs1.setWidth 32) && (opImmI.admits (imm.setWidth 32) && true))) = Instr.wellFormed _
  simp [admits_opRd, admits_opRs1, admits_opImmI, Instr.wellFormed]
theorem Fits.fsd (rs1 rs2 : RegNum) (imm : BitVec 12) : Statement (.fsd rs1 rs2 imm) := by
  show (opRs1.admits (rs1.setWidth 32) && (opRs2.admits (rs2.setWidth 32) && (opImmS.admits (imm.setWidth 32) && true))) = Instr.wellFormed _
  simp [admits_opRs1, admits_opRs2, admits_opImmS, Instr.wellFormed]
theorem Fits.fmaddD (rd rs1 rs2 rs3 : RegNum) (rm : BitVec 3) : Statement (.fmaddD rd rs1 rs2 rs3 rm) := by
  show (opRd.admits (rd.setWidth 32) && (opRs1.admits (rs1.setWidth 32) && (opRs2.admits (rs2.setWidth 32) && (opRs3.admits (rs3.setWidth 32) && (opRm.admits (rm.setWidth 32) && true))))) = Instr.wellFormed _
  simp [admits_opRd, admits_opRs1, admits_opRs2, admits_opRs3, admits_opRm, Instr.wellFormed]
theorem Fits.fmsubD (rd rs1 rs2 rs3 : RegNum) (rm : BitVec 3) : Statement (.fmsubD rd rs1 rs2 rs3 rm) := by
  show (opRd.admits (rd.setWidth 32) && (opRs1.admits (rs1.setWidth 32) && (opRs2.admits (rs2.setWidth 32) && (opRs3.admits (rs3.setWidth 32) && (opRm.admits (rm.setWidth 32) && true))))) = Instr.wellFormed _
  simp [admits_opRd, admits_opRs1, admits_opRs2, admits_opRs3, admits_opRm, Instr.wellFormed]
theorem Fits.fnmsubD (rd rs1 rs2 rs3 : RegNum) (rm : BitVec 3) : Statement (.fnmsubD rd rs1 rs2 rs3 rm) := by
  show (opRd.admits (rd.setWidth 32) && (opRs1.admits (rs1.setWidth 32) && (opRs2.admits (rs2.setWidth 32) && (opRs3.admits (rs3.setWidth 32) && (opRm.admits (rm.setWidth 32) && true))))) = Instr.wellFormed _
  simp [admits_opRd, admits_opRs1, admits_opRs2, admits_opRs3, admits_opRm, Instr.wellFormed]
theorem Fits.fnmaddD (rd rs1 rs2 rs3 : RegNum) (rm : BitVec 3) : Statement (.fnmaddD rd rs1 rs2 rs3 rm) := by
  show (opRd.admits (rd.setWidth 32) && (opRs1.admits (rs1.setWidth 32) && (opRs2.admits (rs2.setWidth 32) && (opRs3.admits (rs3.setWidth 32) && (opRm.admits (rm.setWidth 32) && true))))) = Instr.wellFormed _
  simp [admits_opRd, admits_opRs1, admits_opRs2, admits_opRs3, admits_opRm, Instr.wellFormed]
theorem Fits.faddD (rd rs1 rs2 : RegNum) (rm : BitVec 3) : Statement (.faddD rd rs1 rs2 rm) := by
  show (opRd.admits (rd.setWidth 32) && (opRs1.admits (rs1.setWidth 32) && (opRs2.admits (rs2.setWidth 32) && (opRm.admits (rm.setWidth 32) && true)))) = Instr.wellFormed _
  simp [admits_opRd, admits_opRs1, admits_opRs2, admits_opRm, Instr.wellFormed]
theorem Fits.fsubD (rd rs1 rs2 : RegNum) (rm : BitVec 3) : Statement (.fsubD rd rs1 rs2 rm) := by
  show (opRd.admits (rd.setWidth 32) && (opRs1.admits (rs1.setWidth 32) && (opRs2.admits (rs2.setWidth 32) && (opRm.admits (rm.setWidth 32) && true)))) = Instr.wellFormed _
  simp [admits_opRd, admits_opRs1, admits_opRs2, admits_opRm, Instr.wellFormed]
theorem Fits.fmulD (rd rs1 rs2 : RegNum) (rm : BitVec 3) : Statement (.fmulD rd rs1 rs2 rm) := by
  show (opRd.admits (rd.setWidth 32) && (opRs1.admits (rs1.setWidth 32) && (opRs2.admits (rs2.setWidth 32) && (opRm.admits (rm.setWidth 32) && true)))) = Instr.wellFormed _
  simp [admits_opRd, admits_opRs1, admits_opRs2, admits_opRm, Instr.wellFormed]
theorem Fits.fdivD (rd rs1 rs2 : RegNum) (rm : BitVec 3) : Statement (.fdivD rd rs1 rs2 rm) := by
  show (opRd.admits (rd.setWidth 32) && (opRs1.admits (rs1.setWidth 32) && (opRs2.admits (rs2.setWidth 32) && (opRm.admits (rm.setWidth 32) && true)))) = Instr.wellFormed _
  simp [admits_opRd, admits_opRs1, admits_opRs2, admits_opRm, Instr.wellFormed]
theorem Fits.fsqrtD (rd rs1 : RegNum) (rm : BitVec 3) : Statement (.fsqrtD rd rs1 rm) := by
  show (opRd.admits (rd.setWidth 32) && (opRs1.admits (rs1.setWidth 32) && (opRm.admits (rm.setWidth 32) && true))) = Instr.wellFormed _
  simp [admits_opRd, admits_opRs1, admits_opRm, Instr.wellFormed]
theorem Fits.fsgnjD (rd rs1 rs2 : RegNum) : Statement (.fsgnjD rd rs1 rs2) := by
  show (opRd.admits (rd.setWidth 32) && (opRs1.admits (rs1.setWidth 32) && (opRs2.admits (rs2.setWidth 32) && true))) = Instr.wellFormed _
  simp [admits_opRd, admits_opRs1, admits_opRs2, Instr.wellFormed]
theorem Fits.fsgnjnD (rd rs1 rs2 : RegNum) : Statement (.fsgnjnD rd rs1 rs2) := by
  show (opRd.admits (rd.setWidth 32) && (opRs1.admits (rs1.setWidth 32) && (opRs2.admits (rs2.setWidth 32) && true))) = Instr.wellFormed _
  simp [admits_opRd, admits_opRs1, admits_opRs2, Instr.wellFormed]
theorem Fits.fsgnjxD (rd rs1 rs2 : RegNum) : Statement (.fsgnjxD rd rs1 rs2) := by
  show (opRd.admits (rd.setWidth 32) && (opRs1.admits (rs1.setWidth 32) && (opRs2.admits (rs2.setWidth 32) && true))) = Instr.wellFormed _
  simp [admits_opRd, admits_opRs1, admits_opRs2, Instr.wellFormed]
theorem Fits.fminD (rd rs1 rs2 : RegNum) : Statement (.fminD rd rs1 rs2) := by
  show (opRd.admits (rd.setWidth 32) && (opRs1.admits (rs1.setWidth 32) && (opRs2.admits (rs2.setWidth 32) && true))) = Instr.wellFormed _
  simp [admits_opRd, admits_opRs1, admits_opRs2, Instr.wellFormed]
theorem Fits.fmaxD (rd rs1 rs2 : RegNum) : Statement (.fmaxD rd rs1 rs2) := by
  show (opRd.admits (rd.setWidth 32) && (opRs1.admits (rs1.setWidth 32) && (opRs2.admits (rs2.setWidth 32) && true))) = Instr.wellFormed _
  simp [admits_opRd, admits_opRs1, admits_opRs2, Instr.wellFormed]
theorem Fits.fleD (rd rs1 rs2 : RegNum) : Statement (.fleD rd rs1 rs2) := by
  show (opRd.admits (rd.setWidth 32) && (opRs1.admits (rs1.setWidth 32) && (opRs2.admits (rs2.setWidth 32) && true))) = Instr.wellFormed _
  simp [admits_opRd, admits_opRs1, admits_opRs2, Instr.wellFormed]
theorem Fits.fltD (rd rs1 rs2 : RegNum) : Statement (.fltD rd rs1 rs2) := by
  show (opRd.admits (rd.setWidth 32) && (opRs1.admits (rs1.setWidth 32) && (opRs2.admits (rs2.setWidth 32) && true))) = Instr.wellFormed _
  simp [admits_opRd, admits_opRs1, admits_opRs2, Instr.wellFormed]
theorem Fits.feqD (rd rs1 rs2 : RegNum) : Statement (.feqD rd rs1 rs2) := by
  show (opRd.admits (rd.setWidth 32) && (opRs1.admits (rs1.setWidth 32) && (opRs2.admits (rs2.setWidth 32) && true))) = Instr.wellFormed _
  simp [admits_opRd, admits_opRs1, admits_opRs2, Instr.wellFormed]
theorem Fits.fclassD (rd rs1 : RegNum) : Statement (.fclassD rd rs1) := by
  show (opRd.admits (rd.setWidth 32) && (opRs1.admits (rs1.setWidth 32) && true)) = Instr.wellFormed _
  simp [admits_opRd, admits_opRs1, Instr.wellFormed]
theorem Fits.fcvtWD (rd rs1 : RegNum) (rm : BitVec 3) : Statement (.fcvtWD rd rs1 rm) := by
  show (opRd.admits (rd.setWidth 32) && (opRs1.admits (rs1.setWidth 32) && (opRm.admits (rm.setWidth 32) && true))) = Instr.wellFormed _
  simp [admits_opRd, admits_opRs1, admits_opRm, Instr.wellFormed]
theorem Fits.fcvtDW (rd rs1 : RegNum) (rm : BitVec 3) : Statement (.fcvtDW rd rs1 rm) := by
  show (opRd.admits (rd.setWidth 32) && (opRs1.admits (rs1.setWidth 32) && (opRm.admits (rm.setWidth 32) && true))) = Instr.wellFormed _
  simp [admits_opRd, admits_opRs1, admits_opRm, Instr.wellFormed]
theorem Fits.fcvtWuD (rd rs1 : RegNum) (rm : BitVec 3) : Statement (.fcvtWuD rd rs1 rm) := by
  show (opRd.admits (rd.setWidth 32) && (opRs1.admits (rs1.setWidth 32) && (opRm.admits (rm.setWidth 32) && true))) = Instr.wellFormed _
  simp [admits_opRd, admits_opRs1, admits_opRm, Instr.wellFormed]
theorem Fits.fcvtDWu (rd rs1 : RegNum) (rm : BitVec 3) : Statement (.fcvtDWu rd rs1 rm) := by
  show (opRd.admits (rd.setWidth 32) && (opRs1.admits (rs1.setWidth 32) && (opRm.admits (rm.setWidth 32) && true))) = Instr.wellFormed _
  simp [admits_opRd, admits_opRs1, admits_opRm, Instr.wellFormed]
theorem Fits.fcvtLD (rd rs1 : RegNum) (rm : BitVec 3) : Statement (.fcvtLD rd rs1 rm) := by
  show (opRd.admits (rd.setWidth 32) && (opRs1.admits (rs1.setWidth 32) && (opRm.admits (rm.setWidth 32) && true))) = Instr.wellFormed _
  simp [admits_opRd, admits_opRs1, admits_opRm, Instr.wellFormed]
theorem Fits.fcvtDL (rd rs1 : RegNum) (rm : BitVec 3) : Statement (.fcvtDL rd rs1 rm) := by
  show (opRd.admits (rd.setWidth 32) && (opRs1.admits (rs1.setWidth 32) && (opRm.admits (rm.setWidth 32) && true))) = Instr.wellFormed _
  simp [admits_opRd, admits_opRs1, admits_opRm, Instr.wellFormed]
theorem Fits.fcvtLuD (rd rs1 : RegNum) (rm : BitVec 3) : Statement (.fcvtLuD rd rs1 rm) := by
  show (opRd.admits (rd.setWidth 32) && (opRs1.admits (rs1.setWidth 32) && (opRm.admits (rm.setWidth 32) && true))) = Instr.wellFormed _
  simp [admits_opRd, admits_opRs1, admits_opRm, Instr.wellFormed]
theorem Fits.fcvtDLu (rd rs1 : RegNum) (rm : BitVec 3) : Statement (.fcvtDLu rd rs1 rm) := by
  show (opRd.admits (rd.setWidth 32) && (opRs1.admits (rs1.setWidth 32) && (opRm.admits (rm.setWidth 32) && true))) = Instr.wellFormed _
  simp [admits_opRd, admits_opRs1, admits_opRm, Instr.wellFormed]
theorem Fits.fcvtSD (rd rs1 : RegNum) (rm : BitVec 3) : Statement (.fcvtSD rd rs1 rm) := by
  show (opRd.admits (rd.setWidth 32) && (opRs1.admits (rs1.setWidth 32) && (opRm.admits (rm.setWidth 32) && true))) = Instr.wellFormed _
  simp [admits_opRd, admits_opRs1, admits_opRm, Instr.wellFormed]
theorem Fits.fcvtDS (rd rs1 : RegNum) (rm : BitVec 3) : Statement (.fcvtDS rd rs1 rm) := by
  show (opRd.admits (rd.setWidth 32) && (opRs1.admits (rs1.setWidth 32) && (opRm.admits (rm.setWidth 32) && true))) = Instr.wellFormed _
  simp [admits_opRd, admits_opRs1, admits_opRm, Instr.wellFormed]
theorem Fits.fmvXD (rd rs1 : RegNum) : Statement (.fmvXD rd rs1) := by
  show (opRd.admits (rd.setWidth 32) && (opRs1.admits (rs1.setWidth 32) && true)) = Instr.wellFormed _
  simp [admits_opRd, admits_opRs1, Instr.wellFormed]
theorem Fits.fmvDX (rd rs1 : RegNum) : Statement (.fmvDX rd rs1) := by
  show (opRd.admits (rd.setWidth 32) && (opRs1.admits (rs1.setWidth 32) && true)) = Instr.wellFormed _
  simp [admits_opRd, admits_opRs1, Instr.wellFormed]
theorem Fits.cAddi4spn (rd : CRegNum) (imm : BitVec 10) : Statement (.cAddi4spn rd imm) := by
  show (opCRdLow.admits (rd.setWidth 32) && (opCAddi4spn.admits (imm.setWidth 32) && true)) = Instr.wellFormed _
  simp [admits_opCRdLow, admits_opCAddi4spn, Instr.wellFormed]
theorem Fits.cFld (rd rs1 : CRegNum) (imm : BitVec 8) : Statement (.cFld rd rs1 imm) := by
  show (opCRdLow.admits (rd.setWidth 32) && (opCRs1Mid.admits (rs1.setWidth 32) && (opCOff8.admits (imm.setWidth 32) && true))) = Instr.wellFormed _
  simp [admits_opCRdLow, admits_opCRs1Mid, admits_opCOff8, Instr.wellFormed]
theorem Fits.cLw (rd rs1 : CRegNum) (imm : BitVec 7) : Statement (.cLw rd rs1 imm) := by
  show (opCRdLow.admits (rd.setWidth 32) && (opCRs1Mid.admits (rs1.setWidth 32) && (opCOff4.admits (imm.setWidth 32) && true))) = Instr.wellFormed _
  simp [admits_opCRdLow, admits_opCRs1Mid, admits_opCOff4, Instr.wellFormed]
theorem Fits.cLd (rd rs1 : CRegNum) (imm : BitVec 8) : Statement (.cLd rd rs1 imm) := by
  show (opCRdLow.admits (rd.setWidth 32) && (opCRs1Mid.admits (rs1.setWidth 32) && (opCOff8.admits (imm.setWidth 32) && true))) = Instr.wellFormed _
  simp [admits_opCRdLow, admits_opCRs1Mid, admits_opCOff8, Instr.wellFormed]
theorem Fits.cFsd (rs1 rs2 : CRegNum) (imm : BitVec 8) : Statement (.cFsd rs1 rs2 imm) := by
  show (opCRs1Mid.admits (rs1.setWidth 32) && (opCRs2Low.admits (rs2.setWidth 32) && (opCOff8.admits (imm.setWidth 32) && true))) = Instr.wellFormed _
  simp [admits_opCRs1Mid, admits_opCRs2Low, admits_opCOff8, Instr.wellFormed]
theorem Fits.cSw (rs1 rs2 : CRegNum) (imm : BitVec 7) : Statement (.cSw rs1 rs2 imm) := by
  show (opCRs1Mid.admits (rs1.setWidth 32) && (opCRs2Low.admits (rs2.setWidth 32) && (opCOff4.admits (imm.setWidth 32) && true))) = Instr.wellFormed _
  simp [admits_opCRs1Mid, admits_opCRs2Low, admits_opCOff4, Instr.wellFormed]
theorem Fits.cSd (rs1 rs2 : CRegNum) (imm : BitVec 8) : Statement (.cSd rs1 rs2 imm) := by
  show (opCRs1Mid.admits (rs1.setWidth 32) && (opCRs2Low.admits (rs2.setWidth 32) && (opCOff8.admits (imm.setWidth 32) && true))) = Instr.wellFormed _
  simp [admits_opCRs1Mid, admits_opCRs2Low, admits_opCOff8, Instr.wellFormed]
theorem Fits.cNop (imm : BitVec 6) : Statement (.cNop imm) := by
  show (opCImm6.admits (imm.setWidth 32) && true) = Instr.wellFormed _
  simp [admits_opCImm6, Instr.wellFormed]
theorem Fits.cAddi (rd : RegNum) (imm : BitVec 6) : Statement (.cAddi rd imm) := by
  show (opCRdNot0.admits (rd.setWidth 32) && (opCImm6.admits (imm.setWidth 32) && true)) = Instr.wellFormed _
  simp [admits_opCRdNot0, admits_opCImm6, Instr.wellFormed]
theorem Fits.cAddiw (rd : RegNum) (imm : BitVec 6) : Statement (.cAddiw rd imm) := by
  show (opCRdNot0.admits (rd.setWidth 32) && (opCImm6.admits (imm.setWidth 32) && true)) = Instr.wellFormed _
  simp [admits_opCRdNot0, admits_opCImm6, Instr.wellFormed]
theorem Fits.cLi (rd : RegNum) (imm : BitVec 6) : Statement (.cLi rd imm) := by
  show (opRd.admits (rd.setWidth 32) && (opCImm6.admits (imm.setWidth 32) && true)) = Instr.wellFormed _
  simp [admits_opRd, admits_opCImm6, Instr.wellFormed]
theorem Fits.cAddi16sp (imm : BitVec 10) : Statement (.cAddi16sp imm) := by
  show (opCAddi16sp.admits (imm.setWidth 32) && true) = Instr.wellFormed _
  simp [admits_opCAddi16sp, Instr.wellFormed]
theorem Fits.cLui (rd : RegNum) (imm : BitVec 18) : Statement (.cLui rd imm) := by
  show (opCRdNot2.admits (rd.setWidth 32) && (opCLui.admits (imm.setWidth 32) && true)) = Instr.wellFormed _
  simp [admits_opCRdNot2, admits_opCLui, Instr.wellFormed, Bool.and_assoc]
theorem Fits.cSrli (rd : CRegNum) (shamt : BitVec 6) : Statement (.cSrli rd shamt) := by
  show (opCRdMid.admits (rd.setWidth 32) && (opCShamt.admits (shamt.setWidth 32) && true)) = Instr.wellFormed _
  simp [admits_opCRdMid, admits_opCShamt, Instr.wellFormed]
theorem Fits.cSrai (rd : CRegNum) (shamt : BitVec 6) : Statement (.cSrai rd shamt) := by
  show (opCRdMid.admits (rd.setWidth 32) && (opCShamt.admits (shamt.setWidth 32) && true)) = Instr.wellFormed _
  simp [admits_opCRdMid, admits_opCShamt, Instr.wellFormed]
theorem Fits.cAndi (rd : CRegNum) (imm : BitVec 6) : Statement (.cAndi rd imm) := by
  show (opCRdMid.admits (rd.setWidth 32) && (opCImm6.admits (imm.setWidth 32) && true)) = Instr.wellFormed _
  simp [admits_opCRdMid, admits_opCImm6, Instr.wellFormed]
theorem Fits.cSub (rd rs2 : CRegNum) : Statement (.cSub rd rs2) := by
  show (opCRdMid.admits (rd.setWidth 32) && (opCRs2Low.admits (rs2.setWidth 32) && true)) = Instr.wellFormed _
  simp [admits_opCRdMid, admits_opCRs2Low, Instr.wellFormed]
theorem Fits.cXor (rd rs2 : CRegNum) : Statement (.cXor rd rs2) := by
  show (opCRdMid.admits (rd.setWidth 32) && (opCRs2Low.admits (rs2.setWidth 32) && true)) = Instr.wellFormed _
  simp [admits_opCRdMid, admits_opCRs2Low, Instr.wellFormed]
theorem Fits.cOr (rd rs2 : CRegNum) : Statement (.cOr rd rs2) := by
  show (opCRdMid.admits (rd.setWidth 32) && (opCRs2Low.admits (rs2.setWidth 32) && true)) = Instr.wellFormed _
  simp [admits_opCRdMid, admits_opCRs2Low, Instr.wellFormed]
theorem Fits.cAnd (rd rs2 : CRegNum) : Statement (.cAnd rd rs2) := by
  show (opCRdMid.admits (rd.setWidth 32) && (opCRs2Low.admits (rs2.setWidth 32) && true)) = Instr.wellFormed _
  simp [admits_opCRdMid, admits_opCRs2Low, Instr.wellFormed]
theorem Fits.cSubw (rd rs2 : CRegNum) : Statement (.cSubw rd rs2) := by
  show (opCRdMid.admits (rd.setWidth 32) && (opCRs2Low.admits (rs2.setWidth 32) && true)) = Instr.wellFormed _
  simp [admits_opCRdMid, admits_opCRs2Low, Instr.wellFormed]
theorem Fits.cAddw (rd rs2 : CRegNum) : Statement (.cAddw rd rs2) := by
  show (opCRdMid.admits (rd.setWidth 32) && (opCRs2Low.admits (rs2.setWidth 32) && true)) = Instr.wellFormed _
  simp [admits_opCRdMid, admits_opCRs2Low, Instr.wellFormed]
theorem Fits.cJ (imm : BitVec 12) : Statement (.cJ imm) := by
  show (opCJump.admits (imm.setWidth 32) && true) = Instr.wellFormed _
  simp [admits_opCJump, Instr.wellFormed]
theorem Fits.cBeqz (rs1 : CRegNum) (imm : BitVec 9) : Statement (.cBeqz rs1 imm) := by
  show (opCRs1Mid.admits (rs1.setWidth 32) && (opCBranch.admits (imm.setWidth 32) && true)) = Instr.wellFormed _
  simp [admits_opCRs1Mid, admits_opCBranch, Instr.wellFormed]
theorem Fits.cBnez (rs1 : CRegNum) (imm : BitVec 9) : Statement (.cBnez rs1 imm) := by
  show (opCRs1Mid.admits (rs1.setWidth 32) && (opCBranch.admits (imm.setWidth 32) && true)) = Instr.wellFormed _
  simp [admits_opCRs1Mid, admits_opCBranch, Instr.wellFormed]
theorem Fits.cSlli (rd : RegNum) (shamt : BitVec 6) : Statement (.cSlli rd shamt) := by
  show (opRd.admits (rd.setWidth 32) && (opCShamt.admits (shamt.setWidth 32) && true)) = Instr.wellFormed _
  simp [admits_opRd, admits_opCShamt, Instr.wellFormed]
theorem Fits.cFldsp (rd : RegNum) (imm : BitVec 9) : Statement (.cFldsp rd imm) := by
  show (opRd.admits (rd.setWidth 32) && (opCLoadSp8.admits (imm.setWidth 32) && true)) = Instr.wellFormed _
  simp [admits_opRd, admits_opCLoadSp8, Instr.wellFormed]
theorem Fits.cLwsp (rd : RegNum) (imm : BitVec 8) : Statement (.cLwsp rd imm) := by
  show (opCRdNot0.admits (rd.setWidth 32) && (opCLoadSp4.admits (imm.setWidth 32) && true)) = Instr.wellFormed _
  simp [admits_opCRdNot0, admits_opCLoadSp4, Instr.wellFormed]
theorem Fits.cLdsp (rd : RegNum) (imm : BitVec 9) : Statement (.cLdsp rd imm) := by
  show (opCRdNot0.admits (rd.setWidth 32) && (opCLoadSp8.admits (imm.setWidth 32) && true)) = Instr.wellFormed _
  simp [admits_opCRdNot0, admits_opCLoadSp8, Instr.wellFormed]
theorem Fits.cJr (rs1 : RegNum) : Statement (.cJr rs1) := by
  show (opCRs1Not0.admits (rs1.setWidth 32) && true) = Instr.wellFormed _
  simp [admits_opCRs1Not0, Instr.wellFormed]
theorem Fits.cMv (rd rs2 : RegNum) : Statement (.cMv rd rs2) := by
  show (opRd.admits (rd.setWidth 32) && (opCRs2Not0.admits (rs2.setWidth 32) && true)) = Instr.wellFormed _
  simp [admits_opRd, admits_opCRs2Not0, Instr.wellFormed]
theorem Fits.cEbreak : Statement .cEbreak := rfl
theorem Fits.cJalr (rs1 : RegNum) : Statement (.cJalr rs1) := by
  show (opCRs1Not0.admits (rs1.setWidth 32) && true) = Instr.wellFormed _
  simp [admits_opCRs1Not0, Instr.wellFormed]
theorem Fits.cAdd (rd rs2 : RegNum) : Statement (.cAdd rd rs2) := by
  show (opRd.admits (rd.setWidth 32) && (opCRs2Not0.admits (rs2.setWidth 32) && true)) = Instr.wellFormed _
  simp [admits_opRd, admits_opCRs2Not0, Instr.wellFormed]
theorem Fits.cFsdsp (rs2 : RegNum) (imm : BitVec 9) : Statement (.cFsdsp rs2 imm) := by
  show (opCRs2.admits (rs2.setWidth 32) && (opCStoreSp8.admits (imm.setWidth 32) && true)) = Instr.wellFormed _
  simp [admits_opCRs2, admits_opCStoreSp8, Instr.wellFormed]
theorem Fits.cSwsp (rs2 : RegNum) (imm : BitVec 8) : Statement (.cSwsp rs2 imm) := by
  show (opCRs2.admits (rs2.setWidth 32) && (opCStoreSp4.admits (imm.setWidth 32) && true)) = Instr.wellFormed _
  simp [admits_opCRs2, admits_opCStoreSp4, Instr.wellFormed]
theorem Fits.cSdsp (rs2 : RegNum) (imm : BitVec 9) : Statement (.cSdsp rs2 imm) := by
  show (opCRs2.admits (rs2.setWidth 32) && (opCStoreSp8.admits (imm.setWidth 32) && true)) = Instr.wellFormed _
  simp [admits_opCRs2, admits_opCStoreSp8, Instr.wellFormed]

end Laws

end Sys2Proof
end

