-- ==== Sys2Proof/Laws/Schedule.lean ====
section
/-! SUPPORT. What the choice of the hart that takes a step can do, what a step is of the hart
chosen, and what the advance of the counters at its end does. -/

namespace Sys2Proof.Machine

/-! ### Swapping harts -/

theorem swapHart_none {k : Nat} {s : State} (h : s.others[k]? = none) : swapHart k s = s := by
  simp only [swapHart, h]

theorem swapHart_some {k : Nat} {s : State} {h : Hart} (e : s.others[k]? = some h) :
    swapHart k s = { s with hart := h, others := s.others.set k s.hart } := by
  simp only [swapHart, e]

/-- Swapping changes nothing but which hart stands where. -/
theorem swapHart_eq (k : Nat) (s : State) : swapHart k s =
    { s with hart := (swapHart k s).hart, others := (swapHart k s).others } := by
  unfold swapHart
  split <;> rfl

/-- A list with one element exchanged for `x` holds, with that element, what it held with `x`. -/
theorem perm_set {α : Type} (x : α) {l : List α} {k : Nat} {y : α} (e : l[k]? = some y) :
    (y :: l.set k x).Perm (x :: l) := by
  induction l generalizing k with
  | nil => simp at e
  | cons a l ih =>
    cases k with
    | zero =>
      simp only [List.getElem?_cons_zero, Option.some.injEq] at e
      subst e
      exact .swap ..
    | succ k => exact (List.Perm.swap ..).trans (((ih e).cons a).trans (.swap ..))

theorem swapHart_perm (k : Nat) (s : State) :
    ((swapHart k s).hart :: (swapHart k s).others).Perm (s.hart :: s.others) := by
  cases e : s.others[k]? with
  | none => rw [swapHart_none e]
  | some h => rw [swapHart_some e]; exact perm_set _ e

/-! ### The choice -/

/-- On a machine of one hart nothing is drawn. -/
theorem schedule_alone {s : State} (h : s.others = []) : schedule s = s := by
  simp [schedule, h]

/-- The choice keeps the hart in `hart` or brings another there; beside that it draws. -/
theorem schedule_cases (s : State) : schedule s = s ∨ schedule s = (drawSchedule s).2 ∨
    ∃ k, schedule s = swapHart k (drawSchedule s).2 := by
  unfold schedule
  split
  · exact .inl rfl
  · simp only
    split
    · exact .inr (.inr ⟨_, rfl⟩)
    · split
      · exact .inr (.inl rfl)
      · exact .inr (.inr ⟨_, rfl⟩)

/-- The choice changes only which hart stands where, the tape and the counter of draws. -/
theorem schedule_eq (s : State) : schedule s =
    { s with hart := (schedule s).hart, others := (schedule s).others
             tape := (schedule s).tape, tick := (schedule s).tick } := by
  have hd := drawSchedule_state s
  rcases schedule_cases s with e | e | ⟨k, e⟩ <;> rw [e]
  · rw [hd]
  · rw [swapHart_eq, hd]

section
variable (s : State)

@[simp] theorem schedule_mem : (schedule s).mem = s.mem := by rw [schedule_eq]
@[simp] theorem schedule_tlb : (schedule s).tlb = s.tlb := by rw [schedule_eq]
@[simp] theorem schedule_mtime : (schedule s).mtime = s.mtime := by rw [schedule_eq]
@[simp] theorem schedule_plat : (schedule s).plat = s.plat := by rw [schedule_eq]
@[simp] theorem schedule_bus : (schedule s).bus = s.bus := by rw [schedule_eq]
@[simp] theorem schedule_note : (schedule s).note = s.note := by rw [schedule_eq]

end

/-- The harts are those there were, in another order at most. -/
theorem schedule_perm (s : State) :
    ((schedule s).hart :: (schedule s).others).Perm (s.hart :: s.others) := by
  have hd := drawSchedule_state s
  rcases schedule_cases s with e | e | ⟨k, e⟩ <;> rw [e]
  · rw [hd]
  · refine (swapHart_perm k _).trans ?_
    rw [hd]

/-- The hart chosen has not halted, wherever there is one that has not. -/
theorem schedule_canStep {s : State} (h : ∃ g ∈ s.hart :: s.others, g.halted = none) :
    (schedule s).hart.halted = none := by
  have can : ∀ {g : Hart}, g.canStep = true ↔ g.halted = none := fun {g} => by simp [Hart.canStep]
  have ho : (drawSchedule s).2.others = s.others := by rw [drawSchedule_state]
  have hh : (drawSchedule s).2.hart = s.hart := by rw [drawSchedule_state]
  unfold schedule
  split
  · rename_i e
    rw [List.isEmpty_iff] at e
    simpa [e] using h
  · simp only
    split
    · rename_i ha
      cases e : (drawSchedule s).2.others[(drawSchedule s).1]? with
      | none => simp [e] at ha
      | some g =>
        rw [swapHart_some e]
        exact can.1 (by simpa [e] using ha)
    · split
      · rename_i hc; exact can.1 hc
      · rename_i hc
        obtain ⟨g, hg, gn⟩ := h
        have hm : g ∈ s.others := by
          rcases List.mem_cons.1 hg with rfl | hm
          · exact absurd (can.2 gn) (by rwa [hh] at hc)
          · exact hm
        have hk : s.others.findIdx Hart.canStep < s.others.length :=
          List.findIdx_lt_length_of_exists ⟨g, hm, can.2 gn⟩
        rw [ho, swapHart_some (h := s.others[s.others.findIdx Hart.canStep])
          (by rw [ho]; exact List.getElem?_eq_getElem hk)]
        exact can.1 (List.findIdx_getElem (w := hk))

/-- A draw that names another hart that has not halted chooses it. -/
theorem schedule_draw {s : State} {k : Nat} {l : List Nat} {h : Hart} (ht : s.tape.schedule = k :: l)
    (hk : s.others[k]? = some h) (hn : h.halted = none) : (schedule s).hart = h := by
  have hd : drawSchedule s = (k, { s with tape := { s.tape with schedule := l } }) := by
    simp only [drawSchedule, ht]
  have he : s.others.isEmpty = false := by
    cases e : s.others with
    | nil => simp [e] at hk
    | cons _ _ => rfl
  simp only [schedule, he, hd, hk, Option.any, Hart.canStep, hn, Option.isNone_none,
    Bool.false_eq_true, if_false, if_true]
  simp only [swapHart, hk]

/-- A draw that names no other hart keeps the one in `hart`, if it has not halted. -/
theorem schedule_keep {s : State} {k : Nat} {l : List Nat} (ht : s.tape.schedule = k :: l)
    (hk : s.others.length ≤ k) (hn : s.hart.halted = none) : (schedule s).hart = s.hart := by
  unfold schedule
  split
  · rfl
  · have hd : drawSchedule s = (k, { s with tape := { s.tape with schedule := l } }) := by
      simp only [drawSchedule, ht]
    simp [hd, List.getElem?_eq_none hk, Hart.canStep, hn]

/-! ### The step -/

/-- A step where some hart has not halted is one of the hart chosen. -/
theorem step_runs {s : State} (h : ∃ g ∈ s.hart :: s.others, g.halted = none) :
    step s = runHart (schedule s) := by
  simp [step, stepHart, schedule_canStep h]

/-- A step where every hart has halted is a fault. -/
theorem step_halted {s : State} (h : ∀ g ∈ s.hart :: s.others, g.halted ≠ none) :
    step s = .fault .hartHalted := by
  have hh := h _ ((schedule_perm s).subset (List.mem_cons_self ..))
  have : (schedule s).hart.halted.isSome = true := Option.ne_none_iff_isSome.1 hh
  simp [step, stepHart, this]

/-- The choice keeps the invariant. -/
theorem Steady.schedule {s : State} (h : Steady s) : Steady (schedule s) := by
  have hp := (schedule_perm s).subset
  have hall : ∀ g ∈ s.hart :: s.others, g.legal := List.forall_mem_cons.2 ⟨h.hart, h.others⟩
  refine ⟨by simpa using h.memory, hall _ (hp (List.mem_cons_self ..)),
    fun g hg => hall g (hp (List.mem_cons_of_mem _ hg)), by simpa using h.tlb⟩

/-! ### The end of a step -/

/-- The counters advance, and the draw is made; nothing else changes. -/
theorem advanceCounters_state (s : State) : advanceCounters s = { s with
    hart := { s.hart with csr := { s.hart.csr with
      mcycle := if s.note.wroteMcycle then s.hart.csr.mcycle else s.hart.csr.mcycle + (drawCycle s).1
      minstret := if s.note.retired = true ∧ s.note.wroteMinstret = false
        then s.hart.csr.minstret + 1 else s.hart.csr.minstret } }
    tape := (advanceCounters s).tape
    tick := (advanceCounters s).tick } := by
  unfold advanceCounters drawCycle State.nextTick
  cases s.tape.cycle <;> cases h1 : s.note.wroteMcycle <;> cases h2 : s.note.retired <;>
    cases h3 : s.note.wroteMinstret <;> simp [h2, h3] <;> rfl

end Sys2Proof.Machine
end

