-- ==== Sys2Proof/Laws/Values.lean ====
section
/-! SUPPORT. The value functions of the meanings in plain arithmetic: sums, comparisons, shifts,
products, quotients, cleared bits, vector targets. -/

namespace Sys2Proof.Machine

/-- A register plus a sign-extended immediate. -/
theorem add_sextWord {n : Nat} (a : Word) (b : BitVec n) :
    a + sextWord b = BitVec.ofInt 64 (a.toInt + b.toInt) := by
  rw [BitVec.ofInt_add, BitVec.ofInt_toInt]
  rfl

theorem add_eq_ofInt {n : Nat} (a b : BitVec n) : a + b = BitVec.ofInt n (a.toInt + b.toInt) := by
  rw [BitVec.ofInt_add, BitVec.ofInt_toInt, BitVec.ofInt_toInt]

theorem sub_eq_ofInt {n : Nat} (a b : BitVec n) : a - b = BitVec.ofInt n (a.toInt - b.toInt) := by
  rw [Int.sub_eq_add_neg, BitVec.ofInt_add, BitVec.ofInt_neg, BitVec.ofInt_toInt, BitVec.ofInt_toInt,
    BitVec.sub_eq_add_neg]

theorem mul_eq_ofInt {n : Nat} (a b : BitVec n) : a * b = BitVec.ofInt n (a.toInt * b.toInt) := by
  rw [BitVec.ofInt_mul, BitVec.ofInt_toInt, BitVec.ofInt_toInt]

theorem boolWord_slt (a b : Word) : boolWord (a.slt b) = if a.toInt < b.toInt then 1 else 0 := by
  simp [boolWord, BitVec.slt]

theorem boolWord_slt_sextWord {n : Nat} (hn : n ≤ 64) (a : Word) (b : BitVec n) :
    boolWord (a.slt (sextWord b)) = if a.toInt < b.toInt then 1 else 0 := by
  rw [boolWord_slt, sextWord, BitVec.toInt_signExtend_of_le hn]

theorem boolWord_ult (a b : Word) : boolWord (a.ult b) = if a.toNat < b.toNat then 1 else 0 := by
  simp [boolWord, BitVec.ult]

theorem shiftLeft_eq_ofNat {n : Nat} (a : BitVec n) (k : Nat) :
    a <<< k = BitVec.ofNat n (a.toNat * 2 ^ k) := by
  apply BitVec.eq_of_toNat_eq
  simp [Nat.shiftLeft_eq]

theorem shiftRight_eq_ofNat {n : Nat} (a : BitVec n) (k : Nat) :
    a >>> k = BitVec.ofNat n (a.toNat / 2 ^ k) := by
  apply BitVec.eq_of_toNat_eq
  rw [BitVec.toNat_ushiftRight, Nat.shiftRight_eq_div_pow, BitVec.toNat_ofNat]
  exact (Nat.mod_eq_of_lt (Nat.lt_of_le_of_lt (Nat.div_le_self _ _) a.isLt)).symm

/-- An arithmetic right shift, then sign extension, is division toward minus infinity. -/
theorem signExtend_sshiftRight {n : Nat} (m : Nat) (a : BitVec n) (k : Nat) :
    (a.sshiftRight k).signExtend m = BitVec.ofInt m (a.toInt / 2 ^ k) := by
  rw [BitVec.signExtend, BitVec.toInt_sshiftRight, Int.shiftRight_eq_div_pow]
  simp

theorem sshiftRight_eq_ofInt {n : Nat} (a : BitVec n) (k : Nat) :
    a.sshiftRight k = BitVec.ofInt n (a.toInt / 2 ^ k) := by
  simpa using signExtend_sshiftRight n a k

theorem shift6_eq (v : Word) : shift6 v = v.toNat % 64 := by
  simp [shift6, field, BitVec.extractLsb'_toNat]

theorem shift5_eq (v : Word) : shift5 v = v.toNat % 32 := by
  simp [shift5, field, BitVec.extractLsb'_toNat]

theorem low32_add (a b : Word) : low32 (a + b) = low32 a + low32 b := BitVec.setWidth_add a b (by decide)

theorem low32_sub (a b : Word) : low32 (a - b) = low32 a - low32 b := by
  apply BitVec.eq_of_toNat_eq
  simp only [low32, BitVec.toNat_setWidth, BitVec.toNat_sub]
  have := a.isLt
  have := b.isLt
  omega

theorem low32_sextWord {n : Nat} (b : BitVec n) : low32 (sextWord b) = b.signExtend 32 := by
  apply BitVec.eq_of_getLsbD_eq
  intro i hi
  simp only [low32, sextWord, BitVec.getLsbD_setWidth, BitVec.getLsbD_signExtend,
    decide_eq_true hi, decide_eq_true (show i < 64 by omega), Bool.true_and]

theorem highProduct_eq (a b : Int) : highProduct a b = BitVec.ofInt 64 (a * b / 2 ^ 64) := by
  apply BitVec.eq_of_toNat_eq
  rw [highProduct, BitVec.extractLsb'_toNat, BitVec.toNat_ofInt, BitVec.toNat_ofInt, Nat.shiftRight_eq_div_pow]
  omega

theorem eq_zero_iff_toInt {n : Nat} (b : BitVec n) : b = 0 ↔ b.toInt = 0 := by
  constructor
  · rintro rfl; exact BitVec.toInt_zero
  · exact fun h => BitVec.eq_of_toInt_eq (by rw [h]; exact BitVec.toInt_zero.symm)

theorem toInt_minSigned (n : Nat) : (minSigned (n + 1)).toInt = -2 ^ n := by
  have e : minSigned (n + 1) = BitVec.intMin (n + 1) := by
    rw [minSigned, BitVec.intMin, BitVec.twoPow_eq, shiftLeft_eq_ofNat]
    apply BitVec.eq_of_toNat_eq
    simp
  rw [e, BitVec.toInt_intMin, Nat.add_sub_cancel, Nat.mod_eq_of_lt (Nat.pow_lt_pow_right (by decide) (by omega))]
  push_cast
  rfl

theorem toInt_allOnes (n : Nat) : (BitVec.allOnes (n + 1)).toInt = -1 := by
  rw [BitVec.toInt_allOnes]; simp

theorem divSigned_eq {n : Nat} (a b : BitVec (n + 1)) :
    divSigned a b = if b.toInt = 0 then BitVec.allOnes (n + 1)
      else BitVec.ofInt (n + 1) (a.toInt.tdiv b.toInt) := by
  simp only [divSigned, eq_zero_iff_toInt b]
  split
  · rfl
  · split
    · rename_i h
      rw [h.1, h.2, toInt_minSigned, toInt_allOnes, Int.neg_tdiv, Int.tdiv_neg, Int.tdiv_one, Int.neg_neg]
      rw [minSigned, Nat.add_sub_cancel, ← BitVec.ofInt_natCast]
      push_cast
      rfl
    · rfl

theorem remSigned_eq {n : Nat} (a b : BitVec (n + 1)) :
    remSigned a b = BitVec.ofInt (n + 1) (a.toInt.tmod b.toInt) := by
  simp only [remSigned, eq_zero_iff_toInt b]
  split
  · rename_i h
    rw [h, Int.tmod_zero, BitVec.ofInt_toInt]
  · split
    · rename_i h
      rw [h.1, h.2, toInt_allOnes, Int.tmod_neg, Int.tmod_one]
      rfl
    · rfl

theorem divUnsigned_eq {n : Nat} (a b : BitVec n) :
    divUnsigned a b = if b.toNat = 0 then BitVec.allOnes n else BitVec.ofNat n (a.toNat / b.toNat) := by
  have e : b = 0 ↔ b.toNat = 0 := by rw [← BitVec.toNat_inj, show (0 : BitVec n).toNat = 0 from rfl]
  simp only [divUnsigned, e]

theorem remUnsigned_eq {n : Nat} (a b : BitVec n) :
    remUnsigned a b = BitVec.ofNat n (a.toNat % b.toNat) := by
  have e : b = 0 ↔ b.toNat = 0 := by rw [← BitVec.toNat_inj, show (0 : BitVec n).toNat = 0 from rfl]
  simp only [remUnsigned, e]
  split
  · rename_i h; rw [h, Nat.mod_zero, BitVec.ofNat_toNat, BitVec.setWidth_eq]
  · rfl

/-! ### Cleared bits -/

theorem and_not_low (k : Nat) (v : Word) :
    v &&& ~~~BitVec.ofNat 64 (2 ^ k - 1) = BitVec.ofNat 64 (v.toNat / 2 ^ k * 2 ^ k) := by
  have e : v &&& ~~~BitVec.ofNat 64 (2 ^ k - 1) = (v >>> k) <<< k := by
    apply BitVec.eq_of_getLsbD_eq
    intro i hi
    simp only [BitVec.getLsbD_and, BitVec.getLsbD_not, BitVec.getLsbD_ofNat, Nat.testBit_two_pow_sub_one,
      BitVec.getLsbD_shiftLeft, BitVec.getLsbD_ushiftRight, decide_eq_true hi, Bool.true_and]
    by_cases h : i < k
    · simp [h]
    · simp [h, show k + (i - k) = i by omega]
  rw [e, shiftRight_eq_ofNat, shiftLeft_eq_ofNat, BitVec.toNat_ofNat]
  congr 1
  rw [Nat.mod_eq_of_lt (Nat.lt_of_le_of_lt (Nat.div_le_self _ _) v.isLt)]

theorem clearBit0_eq (v : Word) : clearBit0 v = BitVec.ofNat 64 (v.toNat / 2 * 2) :=
  and_not_low 1 v

theorem vectorBase_eq (v : Word) : vectorBase v = baseOf v := and_not_low 2 v

theorem vectorTarget_eq (tvec : Word) (interrupt : Bool) (code : Nat) :
    vectorTarget tvec interrupt code = targetOf tvec interrupt code := by
  unfold vectorTarget targetOf
  rw [vectorBase_eq]
  cases interrupt <;> cases tvec.getLsbD 0 <;> simp [BitVec.ofNat_mul]

theorem causeWord_eq (interrupt : Bool) {code : Nat} (h : code < 64) :
    causeWord interrupt code = causeValue interrupt code := by
  have key : ∀ c < 64, ∀ b, causeWord b c = causeValue b c := by decide
  exact key code h interrupt

theorem trapTarget_eq_S (interrupt : Bool) (code : Nat) (s : State) :
    trapTarget interrupt code s = .S ↔ DelegatedToS interrupt code s := by
  unfold trapTarget DelegatedToS
  cases interrupt <;> simp [getCsr, CsrFile.get]

/-- The low bytes of a word are its bytes. -/
theorem extractLsb'_lowBytes {n k : Nat} (h : k < n) (v : Word) :
    (lowBytes n v).extractLsb' (8 * k) 8 = v.extractLsb' (8 * k) 8 := by
  apply BitVec.eq_of_getLsbD_eq
  intro i hi
  simp only [lowBytes, BitVec.getLsbD_extractLsb', BitVec.getLsbD_and, BitVec.getLsbD_ofNat,
    Nat.testBit_two_pow_sub_one, decide_eq_true hi, Bool.true_and,
    decide_eq_true (show 8 * k + i < 8 * n by omega), Bool.and_true]
  by_cases h64 : 8 * k + i < 64
  · rw [decide_eq_true h64, Bool.and_true]
  · rw [BitVec.getLsbD_of_ge v _ (by omega), Bool.false_and]

end Sys2Proof.Machine
end

