-- ==== Sys2Proof/Tests/Slice0.lean ====
section
/-! SUPPORT. Tests. Decoding: the words the spec writes out. Steps: the vectors of
spec/95_test_vectors.md, each one step on a small state. Expected values come from there, never from
the model. Witnesses: for each statement with hypotheses, a state and operands that meet them. -/

set_option Elab.async false

open Sys2Proof.Machine

namespace Sys2Proof.Tests

/-! ### Ill-formed terms, refused -/

/-- LUI and AUIPC: the low 12 bits of the immediate are zero. -/
theorem test_illFormed_upper : ¬WellFormed (.lui 1 0x801) ∧ ¬WellFormed (.auipc 1 1) := by decide

/-- JAL and the branches: the offset is even. -/
theorem test_illFormed_oddOffset : ¬WellFormed (.jal 1 3) ∧ ¬WellFormed (.beq 1 2 5) ∧
    ¬WellFormed (.bne 1 2 5) ∧ ¬WellFormed (.blt 1 2 5) ∧ ¬WellFormed (.bge 1 2 5) ∧
    ¬WellFormed (.bltu 1 2 5) ∧ ¬WellFormed (.bgeu 1 2 5) := by decide

/-- C.J, C.BEQZ and C.BNEZ: the offset is even. -/
theorem test_illFormed_cOddOffset : ¬WellFormed (.cJ 3) ∧ ¬WellFormed (.cBeqz 0 3) ∧
    ¬WellFormed (.cBnez 0 3) := by decide

/-- Compressed word accesses: the offset is a multiple of 4. -/
theorem test_illFormed_cWord : ¬WellFormed (.cLw 0 0 2) ∧ ¬WellFormed (.cSw 0 0 2) ∧
    ¬WellFormed (.cLwsp 1 2) ∧ ¬WellFormed (.cSwsp 1 2) := by decide

/-- Compressed doubleword accesses: the offset is a multiple of 8. -/
theorem test_illFormed_cDouble : ¬WellFormed (.cFld 0 0 4) ∧ ¬WellFormed (.cLd 0 0 4) ∧
    ¬WellFormed (.cFsd 0 0 4) ∧ ¬WellFormed (.cSd 0 0 4) ∧ ¬WellFormed (.cFldsp 1 4) ∧
    ¬WellFormed (.cLdsp 1 4) ∧ ¬WellFormed (.cFsdsp 1 4) ∧ ¬WellFormed (.cSdsp 1 4) := by decide

/-- C.ADDI4SPN and C.ADDI16SP: aligned and not zero. -/
theorem test_illFormed_cAddSp : ¬WellFormed (.cAddi4spn 0 2) ∧ ¬WellFormed (.cAddi4spn 0 0) ∧
    ¬WellFormed (.cAddi16sp 8) ∧ ¬WellFormed (.cAddi16sp 0) := by decide

/-- C.LUI: not into x2, the low 12 bits zero, not zero. -/
theorem test_illFormed_cLui : ¬WellFormed (.cLui 2 0x1000) ∧ ¬WellFormed (.cLui 1 0x1001) ∧
    ¬WellFormed (.cLui 1 0) := by decide

/-- The register fields that their rows exclude as 0. -/
theorem test_illFormed_cZeroRegister : ¬WellFormed (.cAddi 0 1) ∧ ¬WellFormed (.cAddiw 0 1) ∧
    ¬WellFormed (.cLwsp 0 4) ∧ ¬WellFormed (.cLdsp 0 8) ∧ ¬WellFormed (.cJr 0) ∧
    ¬WellFormed (.cJalr 0) ∧ ¬WellFormed (.cMv 1 0) ∧ ¬WellFormed (.cAdd 1 0) := by decide

/-! ### Decoding -/

/-- Each word decodes to its instruction. -/
def decodesTo (l : List (InstrWord × Instr)) : Bool :=
  l.all fun p => match decodeWord [] p.2.length p.1 with
    | .ok i => decide (i = p.2)
    | .error _ => false

/-- No row matches any of the words of `len` bits. -/
def matchesNone (len : Nat) (l : List InstrWord) : Bool :=
  l.all fun w => match decodeWord [] len w with
    | .error .noMatch => true
    | _ => false

/-- The words the spec writes out for these instructions (40_integer R201 to R211). -/
theorem test_decode_integer_immediate : decodesTo [
    (0x123452B7, .lui 5 0x12345000),
    (0x00001097, .auipc 1 0x1000),
    (0x00000013, .addi 0 0 0),
    (0xFFF08113, .addi 2 1 (-1)),
    (0xFFF0A193, .slti 3 1 (-1)),
    (0xFFF0B193, .sltiu 3 1 (-1)),
    (0xFFF0C213, .xori 4 1 (-1)),
    (0x0F00E213, .ori 4 1 240),
    (0x0FF0F213, .andi 4 1 255),
    (0x03F09293, .slli 5 1 63),
    (0x03C0D293, .srli 5 1 60),
    (0x43C0D293, .srai 5 1 60)] = true := by decide +kernel

/-- The words the spec writes out for these instructions (40_integer R212 to R230). -/
theorem test_decode_integer_register : decodesTo [
    (0x002081B3, .add 3 1 2),
    (0x402081B3, .sub 3 1 2),
    (0x002091B3, .sll 3 1 2),
    (0x0020A1B3, .slt 3 1 2),
    (0x0020B1B3, .sltu 3 1 2),
    (0x0020C1B3, .xor 3 1 2),
    (0x0020D1B3, .srl 3 1 2),
    (0x4020D1B3, .sra 3 1 2),
    (0x0020E1B3, .or 3 1 2),
    (0x0020F1B3, .and 3 1 2),
    (0x0010811B, .addiw 2 1 1),
    (0x01F0911B, .slliw 2 1 31),
    (0x0040D11B, .srliw 2 1 4),
    (0x4040D11B, .sraiw 2 1 4),
    (0x002081BB, .addw 3 1 2),
    (0x402081BB, .subw 3 1 2),
    (0x002091BB, .sllw 3 1 2),
    (0x0020D1BB, .srlw 3 1 2),
    (0x4020D1BB, .sraw 3 1 2)] = true := by decide +kernel

/-- The words the spec writes out for these instructions (41_control R251 to R258). -/
theorem test_decode_control : decodesTo [
    (0x010000EF, .jal 1 16),
    (0x003280E7, .jalr 1 5 3),
    (0x00808067, .jalr 0 1 8),
    (0x00208463, .beq 1 2 8),
    (0xFE209CE3, .bne 1 2 (-8)),
    (0x0020C663, .blt 1 2 12),
    (0x0020D663, .bge 1 2 12),
    (0x0020E663, .bltu 1 2 12),
    (0x0020F663, .bgeu 1 2 12)] = true := by decide +kernel

/-- The words the spec writes out for these instructions (42_loadstore R271 to R281). -/
theorem test_decode_load_store : decodesTo [
    (0x00008283, .lb 5 1 0),
    (0x00209283, .lh 5 1 2),
    (0x0040A283, .lw 5 1 4),
    (0x0080B283, .ld 5 1 8),
    (0x0000C283, .lbu 5 1 0),
    (0x0020D283, .lhu 5 1 2),
    (0x0040E283, .lwu 5 1 4),
    (0x00208023, .sb 1 2 0),
    (0x00209123, .sh 1 2 2),
    (0x0020A223, .sw 1 2 4),
    (0xFE20BC23, .sd 1 2 (-8))] = true := by decide +kernel

/-- The words the spec writes out for these instructions (43_muldiv R291 to R303). -/
theorem test_decode_muldiv : decodesTo [
    (0x022081B3, .mul 3 1 2),
    (0x022091B3, .mulh 3 1 2),
    (0x0220A1B3, .mulhsu 3 1 2),
    (0x0220B1B3, .mulhu 3 1 2),
    (0x0220C1B3, .div 3 1 2),
    (0x0220D1B3, .divu 3 1 2),
    (0x0220E1B3, .rem 3 1 2),
    (0x0220F1B3, .remu 3 1 2),
    (0x022081BB, .mulw 3 1 2),
    (0x0220C1BB, .divw 3 1 2),
    (0x0220D1BB, .divuw 3 1 2),
    (0x0220E1BB, .remw 3 1 2),
    (0x0220F1BB, .remuw 3 1 2)] = true := by decide +kernel

/-- The words the spec writes out for these instructions (44_atomics R313 to R323). -/
theorem test_decode_atomic_word : decodesTo [
    (0x1000A1AF, .lrW 3 1 0 0),
    (0x1820A1AF, .scW 3 1 2 0 0),
    (0x0820A1AF, .amoswapW 3 1 2 0 0),
    (0x0020A1AF, .amoaddW 3 1 2 0 0),
    (0x2020A1AF, .amoxorW 3 1 2 0 0),
    (0x6020A1AF, .amoandW 3 1 2 0 0),
    (0x4020A1AF, .amoorW 3 1 2 0 0),
    (0x8020A1AF, .amominW 3 1 2 0 0),
    (0xA020A1AF, .amomaxW 3 1 2 0 0),
    (0xC020A1AF, .amominuW 3 1 2 0 0),
    (0xE020A1AF, .amomaxuW 3 1 2 0 0)] = true := by decide +kernel

/-- The words the spec writes out for these instructions (44_atomics R324 to R334). -/
theorem test_decode_atomic_double : decodesTo [
    (0x1000B1AF, .lrD 3 1 0 0),
    (0x1820B1AF, .scD 3 1 2 0 0),
    (0x0820B1AF, .amoswapD 3 1 2 0 0),
    (0x0020B1AF, .amoaddD 3 1 2 0 0),
    (0x2020B1AF, .amoxorD 3 1 2 0 0),
    (0x6020B1AF, .amoandD 3 1 2 0 0),
    (0x4020B1AF, .amoorD 3 1 2 0 0),
    (0x8020B1AF, .amominD 3 1 2 0 0),
    (0xA020B1AF, .amomaxD 3 1 2 0 0),
    (0xC020B1AF, .amominuD 3 1 2 0 0),
    (0xE020B1AF, .amomaxuD 3 1 2 0 0)] = true := by decide +kernel

/-- The words the spec writes out for these instructions (45_system R340 to R359). -/
theorem test_decode_system : decodesTo [
    (0x0330000F, .fence 0 0 0 3 3),
    (0x00000073, .ecall),
    (0x00100073, .ebreak),
    (0x0000100F, .fenceI 0 0 0),
    (0xC0031073, .csrrw 0 6 0xC00),
    (0x340312F3, .csrrw 5 6 0x340),
    (0x300022F3, .csrrs 5 0 0x300),
    (0x300332F3, .csrrc 5 6 0x300),
    (0x340FD2F3, .csrrwi 5 31 0x340),
    (0x30046073, .csrrsi 0 8 0x300),
    (0x30047073, .csrrci 0 8 0x300),
    (0x10200073, .sret),
    (0x30200073, .mret),
    (0x10500073, .wfi),
    (0x12000073, .sfenceVma 0 0)] = true := by decide +kernel

/-- The words the spec writes out for these instructions (46_float R385 to R400). -/
theorem test_decode_single_arithmetic : decodesTo [
    (0x0000A187, .flw 3 1 0),
    (0x0020A027, .fsw 1 2 0),
    (0x2020F1C3, .fmaddS 3 1 2 4 7),
    (0x2020F1C7, .fmsubS 3 1 2 4 7),
    (0x2020F1CB, .fnmsubS 3 1 2 4 7),
    (0x2020F1CF, .fnmaddS 3 1 2 4 7),
    (0x0020F1D3, .faddS 3 1 2 7),
    (0x0820F1D3, .fsubS 3 1 2 7),
    (0x1020F1D3, .fmulS 3 1 2 7),
    (0x1820F1D3, .fdivS 3 1 2 7),
    (0x5800F1D3, .fsqrtS 3 1 7),
    (0x202081D3, .fsgnjS 3 1 2),
    (0x202091D3, .fsgnjnS 3 1 2),
    (0x2020A1D3, .fsgnjxS 3 1 2),
    (0x282081D3, .fminS 3 1 2),
    (0x282091D3, .fmaxS 3 1 2)] = true := by decide +kernel

/-- The words the spec writes out for these instructions (46_float R401 to R414). -/
theorem test_decode_single_other : decodesTo [
    (0xA02082D3, .fleS 5 1 2),
    (0xA02092D3, .fltS 5 1 2),
    (0xA020A2D3, .feqS 5 1 2),
    (0xE00092D3, .fclassS 5 1),
    (0xC000F2D3, .fcvtWS 5 1 7),
    (0xD002F1D3, .fcvtSW 3 5 7),
    (0xC010F2D3, .fcvtWuS 5 1 7),
    (0xD012F1D3, .fcvtSWu 3 5 7),
    (0xC020F2D3, .fcvtLS 5 1 7),
    (0xD022F1D3, .fcvtSL 3 5 7),
    (0xC030F2D3, .fcvtLuS 5 1 7),
    (0xD032F1D3, .fcvtSLu 3 5 7),
    (0xE00082D3, .fmvXW 5 1),
    (0xF00281D3, .fmvWX 3 5)] = true := by decide +kernel

/-- The words the spec writes out for these instructions (46_float R415 to R430). -/
theorem test_decode_double_arithmetic : decodesTo [
    (0x0000B187, .fld 3 1 0),
    (0x0020B027, .fsd 1 2 0),
    (0x2220F1C3, .fmaddD 3 1 2 4 7),
    (0x2220F1C7, .fmsubD 3 1 2 4 7),
    (0x2220F1CB, .fnmsubD 3 1 2 4 7),
    (0x2220F1CF, .fnmaddD 3 1 2 4 7),
    (0x0220F1D3, .faddD 3 1 2 7),
    (0x0A20F1D3, .fsubD 3 1 2 7),
    (0x1220F1D3, .fmulD 3 1 2 7),
    (0x1A20F1D3, .fdivD 3 1 2 7),
    (0x5A00F1D3, .fsqrtD 3 1 7),
    (0x222081D3, .fsgnjD 3 1 2),
    (0x222091D3, .fsgnjnD 3 1 2),
    (0x2220A1D3, .fsgnjxD 3 1 2),
    (0x2A2081D3, .fminD 3 1 2),
    (0x2A2091D3, .fmaxD 3 1 2)] = true := by decide +kernel

/-- The words the spec writes out for these instructions (46_float R431 to R446). -/
theorem test_decode_double_other : decodesTo [
    (0xA22082D3, .fleD 5 1 2),
    (0xA22092D3, .fltD 5 1 2),
    (0xA220A2D3, .feqD 5 1 2),
    (0xE20092D3, .fclassD 5 1),
    (0xC200F2D3, .fcvtWD 5 1 7),
    (0xD202F1D3, .fcvtDW 3 5 7),
    (0xC210F2D3, .fcvtWuD 5 1 7),
    (0xD212F1D3, .fcvtDWu 3 5 7),
    (0xC220F2D3, .fcvtLD 5 1 7),
    (0xD222F1D3, .fcvtDL 3 5 7),
    (0xC230F2D3, .fcvtLuD 5 1 7),
    (0xD232F1D3, .fcvtDLu 3 5 7),
    (0x4010F1D3, .fcvtSD 3 1 7),
    (0x4200F1D3, .fcvtDS 3 1 7),
    (0xE20082D3, .fmvXD 5 1),
    (0xF20281D3, .fmvDX 3 5)] = true := by decide +kernel

/-- The words the spec writes out for these instructions (47_compressed R462 to R486). -/
theorem test_decode_compressed_quadrant0_1 : decodesTo [
    (0x0800, .cAddi4spn 0 16),
    (0x2404, .cFld 1 0 8),
    (0x4044, .cLw 1 0 4),
    (0x6404, .cLd 1 0 8),
    (0xA004, .cFsd 0 1 0),
    (0xC004, .cSw 0 1 0),
    (0xE404, .cSd 0 1 8),
    (0x0001, .cNop 0),
    (0x12FD, .cAddi 5 (-1)),
    (0x2285, .cAddiw 5 1),
    (0x5281, .cLi 5 (-32)),
    (0x7139, .cAddi16sp (-64)),
    (0x6285, .cLui 5 0x1000),
    (0x72FD, .cLui 5 (-4096)),
    (0x8011, .cSrli 0 4),
    (0x947D, .cSrai 0 63),
    (0x9841, .cAndi 0 (-16)),
    (0x8C05, .cSub 0 1),
    (0x8C25, .cXor 0 1),
    (0x8C45, .cOr 0 1),
    (0x8C65, .cAnd 0 1),
    (0x9C05, .cSubw 0 1),
    (0x9C25, .cAddw 0 1),
    (0xA201, .cJ 256),
    (0xC401, .cBeqz 0 8),
    (0xFC75, .cBnez 0 (-4))] = true := by decide +kernel

/-- The words the spec writes out for these instructions (47_compressed R487 to R498). The word
0x107E, which R487 calls c.slli x0, 31, has shamt 63 by the CI format: log 32 (R487). -/
theorem test_decode_compressed_quadrant2 : decodesTo [
    (0x107E, .cSlli 0 63),
    (0x12FE, .cSlli 5 63),
    (0x21A2, .cFldsp 3 8),
    (0x4292, .cLwsp 5 4),
    (0x62A2, .cLdsp 5 8),
    (0x8082, .cJr 1),
    (0x829A, .cMv 5 6),
    (0x9002, .cEbreak),
    (0x9282, .cJalr 5),
    (0x929A, .cAdd 5 6),
    (0xA80E, .cFsdsp 3 16),
    (0xC616, .cSwsp 5 12),
    (0xE416, .cSdsp 5 8)] = true := by decide +kernel

/-- Words that match no row, from the tables of 95_test_vectors S3 and section 2.1. -/
theorem test_decode_none :
    matchesNone 16 [0x0000, 0x6101, 0x6081, 0x4002, 0x8002] = true ∧
    matchesNone 32 [0xC05092D3, 0xFFFFFFFF] = true := by decide +kernel

/-- The host's reading of a table word is the decoder's, also where the upper bits are operands of
zeros. -/
theorem test_decodeTableWord : decodeTableWord 32 0x00808113 = some (.addi 2 1 8) ∧
    decodeTableWord 16 0x0081 = some (.cAddi 1 0) ∧ decodeTableWord 16 0x0000 = none := by
  decide +kernel

/-! ### Steps -/

/-- General registers set. -/
def withRegs (l : List (Nat × Word)) (s : State) : State :=
  l.foldl (fun t p => writeX (BitVec.ofNat 5 p.1) p.2 t) s

/-- Floating-point registers set. -/
def withFprs (l : List (Nat × Word)) (s : State) : State :=
  l.foldl (fun t p => writeF (BitVec.ofNat 5 p.1) p.2 t) s

/-- CSR storage set. -/
def withCsrs (l : List (CsrReg × Word)) (s : State) : State :=
  l.foldl (fun t p => setCsr p.1 p.2 t) s

/-- Doublewords of memory set. -/
def withDouble (a : Nat) (v : Word) (s : State) : State := s.setMem (Memory.writeLE s.mem a 8 v)

/-- The platform's answers for one step: CYCLE is 1, and the CLINT inputs as given at both samples. -/
def withInputs (mtime : Word) (mtip msip : Bool) (s : State) : State :=
  { s with tape := { s.tape with cycle := [1], clint := [⟨mtime, mtip, msip⟩, ⟨mtime, mtip, msip⟩] } }

/-- The machine of 95_test_vectors: just reset, mtvec = 0x80000100, no interrupt input. -/
def machine : State := withInputs 0 false false (setCsr .mtvec 0x80000100 State.reset)

/-- What holds after a step that fetches the word. -/
def afterStep (w : InstrWord) (s : State) (p : State → Bool) : Bool :=
  match step (placeWord w s) with
  | .next t => p t
  | _ => false

/-- The general registers of a list have their values, the others those of `s`. -/
def gprsAre (l : List (Nat × Word)) (s t : State) : Bool :=
  (List.range 32).all fun k => readX (BitVec.ofNat 5 k) t ==
    (l.lookup k).getD (readX (BitVec.ofNat 5 k) s)

/-- Rows of word, registers before, registers changed, pc after, doubleword at 0x80001000 after; every
other register is as before and nothing traps. -/
def computes (s : State)
    (l : List (InstrWord × List (Nat × Word) × List (Nat × Word) × Word × Word)) : Bool :=
  l.all fun (w, before, changed, pc, double) =>
    let u := withRegs before s
    afterStep w u fun t => gprsAre changed u t && t.hart.pc == pc &&
      Memory.readLE t.mem 0x80001000 8 == double && t.hart.csr.mcause == 0 &&
      t.hart.csr.minstret == 1 && t.hart.csr.mcycle == 1

/-- Rows of word, registers before, cause and tval; the step traps to M and commits nothing. -/
def trapsAs (s : State) (l : List (InstrWord × List (Nat × Word) × Word × Word)) : Bool :=
  l.all fun (w, before, cause, tval) =>
    let u := withRegs before s
    afterStep w u fun t => gprsAre [] u t && t.hart.pc == 0x80000100 && t.hart.csr.mcause == cause &&
      t.hart.csr.mtval == tval && t.hart.csr.mepc == s.hart.pc && t.hart.csr.minstret == 0 &&
      Memory.readLE t.mem 0x80001000 8 == Memory.readLE u.mem 0x80001000 8

/-- 95_test_vectors section 2.2. -/
theorem test_integer_vectors_1 : computes machine [
    (0xFFF10093, [(2, 0x0)], [(1, 0xFFFFFFFFFFFFFFFF)], 0x80000004, 0),
    (0xFFF12093, [(2, 0x8000000000000000)], [(1, 0x1)], 0x80000004, 0),
    (0xFFF13093, [(2, 0x5)], [(1, 0x1)], 0x80000004, 0),
    (0xFFF14093, [(2, 0x1234)], [(1, 0xFFFFFFFFFFFFEDCB)], 0x80000004, 0),
    (0x80016093, [(2, 0x1)], [(1, 0xFFFFFFFFFFFFF801)], 0x80000004, 0),
    (0xFF017093, [(2, 0x8000100F)], [(1, 0x80001000)], 0x80000004, 0),
    (0x03F11093, [(2, 0x1)], [(1, 0x8000000000000000)], 0x80000004, 0),
    (0x03F15093, [(2, 0x8000000000000000)], [(1, 0x1)], 0x80000004, 0),
    (0x43F15093, [(2, 0x8000000000000000)], [(1, 0xFFFFFFFFFFFFFFFF)], 0x80000004, 0),
    (0x003100B3, [(2, 0xFFFFFFFFFFFFFFFF), (3, 0x2)], [(1, 0x1)], 0x80000004, 0),
    (0x403100B3, [(2, 0x0), (3, 0x1)], [(1, 0xFFFFFFFFFFFFFFFF)], 0x80000004, 0),
    (0x003110B3, [(2, 0x1), (3, 0x40)], [(1, 0x1)], 0x80000004, 0)] = true := by decide +kernel

/-- 95_test_vectors section 2.2. -/
theorem test_integer_vectors_2 : computes machine [
    (0x003120B3, [(2, 0x8000000000000000), (3, 0x1)], [(1, 0x1)], 0x80000004, 0),
    (0x003130B3, [(2, 0x8000000000000000), (3, 0x1)], [(1, 0x0)], 0x80000004, 0),
    (0x002140B3, [(2, 0x55)], [(1, 0x0)], 0x80000004, 0),
    (0x003150B3, [(2, 0x8000000000000000), (3, 0x41)], [(1, 0x4000000000000000)], 0x80000004, 0),
    (0x403150B3, [(2, 0x8000000000000000), (3, 0x41)], [(1, 0xC000000000000000)], 0x80000004, 0),
    (0x003160B3, [(2, 0xF0), (3, 0xF)], [(1, 0xFF)], 0x80000004, 0),
    (0x003170B3, [(2, 0xF0), (3, 0x3C)], [(1, 0x30)], 0x80000004, 0),
    (0xFFFFF0B7, [], [(1, 0xFFFFFFFFFFFFF000)], 0x80000004, 0),
    (0xFFFFF097, [], [(1, 0x7FFFF000)], 0x80000004, 0),
    (0x0011009B, [(2, 0x7FFFFFFF)], [(1, 0xFFFFFFFF80000000)], 0x80000004, 0),
    (0x01F1109B, [(2, 0x1)], [(1, 0xFFFFFFFF80000000)], 0x80000004, 0),
    (0x0001509B, [(2, 0x80000000)], [(1, 0xFFFFFFFF80000000)], 0x80000004, 0)] = true := by decide +kernel

/-- 95_test_vectors section 2.2. -/
theorem test_integer_vectors_3 : computes machine [
    (0x4041509B, [(2, 0x80000000)], [(1, 0xFFFFFFFFF8000000)], 0x80000004, 0),
    (0x003100BB, [(2, 0x7FFFFFFF), (3, 0x1)], [(1, 0xFFFFFFFF80000000)], 0x80000004, 0),
    (0x403100BB, [(2, 0x0), (3, 0x80000000)], [(1, 0xFFFFFFFF80000000)], 0x80000004, 0),
    (0x003110BB, [(2, 0x1), (3, 0x21)], [(1, 0x2)], 0x80000004, 0),
    (0x003150BB, [(2, 0xFFFFFFFF), (3, 0x3F)], [(1, 0x1)], 0x80000004, 0),
    (0x403150BB, [(2, 0x80000000), (3, 0x1F)], [(1, 0xFFFFFFFFFFFFFFFF)], 0x80000004, 0)] = true := by decide +kernel

/-- 95_test_vectors section 2.3. -/
theorem test_control_vectors : computes machine [
    (0x010000EF, [], [(1, 0x80000004)], 0x80000010, 0),
    (0xFFDFF06F, [], [], 0x7FFFFFFC, 0),
    (0x005100E7, [(2, 0x80000100)], [(1, 0x80000004)], 0x80000104, 0),
    (0x00010167, [(2, 0x80000040)], [(2, 0x80000004)], 0x80000040, 0),
    (0x00208463, [(1, 0x5), (2, 0x5)], [], 0x80000008, 0),
    (0x00208463, [(1, 0x5), (2, 0x6)], [], 0x80000004, 0),
    (0xFE001CE3, [], [], 0x80000004, 0),
    (0x7E20CFE3, [(1, 0x8000000000000000), (2, 0x0)], [], 0x80000FFE, 0),
    (0x8020D063, [(1, 0x0), (2, 0x8000000000000000)], [], 0x7FFFF000, 0),
    (0x0020E363, [(1, 0x8000000000000000), (2, 0x0)], [], 0x80000004, 0),
    (0x0020F363, [(1, 0x8000000000000000), (2, 0x0)], [], 0x80000006, 0)] = true := by decide +kernel

/-- 95_test_vectors section 2.4. -/
theorem test_load_store_vectors : computes (withDouble 0x80001000 0x1122334455667788 machine) [
    (0x00010083, [(2, 0x80001000)], [(1, 0xFFFFFFFFFFFFFF88)], 0x80000004, 0x1122334455667788),
    (0x00011083, [(2, 0x80001000)], [(1, 0x7788)], 0x80000004, 0x1122334455667788),
    (0x00012083, [(2, 0x80001000)], [(1, 0x55667788)], 0x80000004, 0x1122334455667788),
    (0x00013083, [(2, 0x80001000)], [(1, 0x1122334455667788)], 0x80000004, 0x1122334455667788),
    (0x00014083, [(2, 0x80001000)], [(1, 0x88)], 0x80000004, 0x1122334455667788),
    (0x00015083, [(2, 0x80001000)], [(1, 0x7788)], 0x80000004, 0x1122334455667788),
    (0x00016083, [(2, 0x80001000)], [(1, 0x55667788)], 0x80000004, 0x1122334455667788),
    (0x00310023, [(2, 0x80001000), (3, 0xAB)], [], 0x80000004, 0x11223344556677AB),
    (0x00311023, [(2, 0x80001000), (3, 0xABCD)], [], 0x80000004, 0x112233445566ABCD),
    (0x00312023, [(2, 0x80001000), (3, 0xDEADBEEF)], [], 0x80000004, 0x11223344DEADBEEF),
    (0x00313023, [(2, 0x80001000), (3, 0x123456789ABCDEF)], [], 0x80000004, 0x123456789ABCDEF)] = true := by decide +kernel

/-- The trapping rows of 95_test_vectors section 2.4. -/
theorem test_load_store_traps : trapsAs (withDouble 0x80001000 0x1122334455667788 machine) [
    (0x00111083, [(2, 0x80001000)], 4, 0x80001001),
    (0x00012083, [(2, 0x0)], 5, 0x0),
    (0x00013003, [(2, 0x10)], 5, 0x10),
    (0x00312123, [(2, 0x80001000), (3, 0x1)], 6, 0x80001002),
    (0x00313023, [(2, 0x1000), (3, 0x1)], 7, 0x1000)] = true := by decide +kernel

/-- 95_test_vectors section 2.5. -/
theorem test_muldiv_vectors_1 : computes machine [
    (0x023100B3, [(2, 0xFFFFFFFFFFFFFFFF), (3, 0xFFFFFFFFFFFFFFFF)], [(1, 0x1)], 0x80000004, 0),
    (0x023110B3, [(2, 0xFFFFFFFFFFFFFFFF), (3, 0xFFFFFFFFFFFFFFFF)], [(1, 0x0)], 0x80000004, 0),
    (0x023130B3, [(2, 0xFFFFFFFFFFFFFFFF), (3, 0xFFFFFFFFFFFFFFFF)], [(1, 0xFFFFFFFFFFFFFFFE)], 0x80000004, 0),
    (0x023120B3, [(2, 0xFFFFFFFFFFFFFFFF), (3, 0xFFFFFFFFFFFFFFFF)], [(1, 0xFFFFFFFFFFFFFFFF)], 0x80000004, 0),
    (0x023140B3, [(2, 0xFFFFFFFFFFFFFFF9), (3, 0x2)], [(1, 0xFFFFFFFFFFFFFFFD)], 0x80000004, 0),
    (0x023140B3, [(2, 0x8000000000000000), (3, 0xFFFFFFFFFFFFFFFF)], [(1, 0x8000000000000000)], 0x80000004, 0),
    (0x020150B3, [(2, 0x5)], [(1, 0xFFFFFFFFFFFFFFFF)], 0x80000004, 0),
    (0x023160B3, [(2, 0xFFFFFFFFFFFFFFF9), (3, 0x2)], [(1, 0xFFFFFFFFFFFFFFFF)], 0x80000004, 0),
    (0x023160B3, [(2, 0x8000000000000000), (3, 0xFFFFFFFFFFFFFFFF)], [(1, 0x0)], 0x80000004, 0),
    (0x020170B3, [(2, 0xFFFFFFFFFFFFFFFB)], [(1, 0xFFFFFFFFFFFFFFFB)], 0x80000004, 0),
    (0x023100BB, [(2, 0x10000), (3, 0x8000)], [(1, 0xFFFFFFFF80000000)], 0x80000004, 0),
    (0x023140BB, [(2, 0x80000000), (3, 0xFFFFFFFFFFFFFFFF)], [(1, 0xFFFFFFFF80000000)], 0x80000004, 0)] = true := by decide +kernel

/-- 95_test_vectors section 2.5. -/
theorem test_muldiv_vectors_2 : computes machine [
    (0x023150BB, [(2, 0xFFFFFFFE), (3, 0x1)], [(1, 0xFFFFFFFFFFFFFFFE)], 0x80000004, 0),
    (0x023160BB, [(2, 0xFFFFFFFFFFFFFFF9), (3, 0x2)], [(1, 0xFFFFFFFFFFFFFFFF)], 0x80000004, 0),
    (0x020170BB, [(2, 0x180000000)], [(1, 0xFFFFFFFF80000000)], 0x80000004, 0)] = true := by decide +kernel

/-- 95_test_vectors section 2.6. -/
theorem test_atomic_vectors_1 : computes (withDouble 0x80001000 0x180000005 machine) [
    (0x083120AF, [(2, 0x80001000), (3, 0x7)], [(1, 0xFFFFFFFF80000005)], 0x80000004, 0x100000007),
    (0x003120AF, [(2, 0x80001000), (3, 0x7FFFFFFF)], [(1, 0xFFFFFFFF80000005)], 0x80000004, 0x100000004),
    (0x203120AF, [(2, 0x80001000), (3, 0xFFFFFFFF)], [(1, 0xFFFFFFFF80000005)], 0x80000004, 0x17FFFFFFA),
    (0x603120AF, [(2, 0x80001000), (3, 0xF)], [(1, 0xFFFFFFFF80000005)], 0x80000004, 0x100000005),
    (0x403120AF, [(2, 0x80001000), (3, 0xF0)], [(1, 0xFFFFFFFF80000005)], 0x80000004, 0x1800000F5),
    (0x803120AF, [(2, 0x80001000), (3, 0x1)], [(1, 0xFFFFFFFF80000005)], 0x80000004, 0x180000005),
    (0xA03120AF, [(2, 0x80001000), (3, 0x1)], [(1, 0xFFFFFFFF80000005)], 0x80000004, 0x100000001),
    (0xC03120AF, [(2, 0x80001000), (3, 0x1)], [(1, 0xFFFFFFFF80000005)], 0x80000004, 0x100000001),
    (0xE03120AF, [(2, 0x80001000), (3, 0x1)], [(1, 0xFFFFFFFF80000005)], 0x80000004, 0x180000005),
    (0x003130AF, [(2, 0x80001000), (3, 0x1)], [(1, 0x180000005)], 0x80000004, 0x180000006),
    (0x803130AF, [(2, 0x80001000), (3, 0xFFFFFFFFFFFFFFFF)], [(1, 0x180000005)], 0x80000004, 0xFFFFFFFFFFFFFFFF),
    (0xE03130AF, [(2, 0x80001000), (3, 0xFFFFFFFFFFFFFFFF)], [(1, 0x180000005)], 0x80000004, 0xFFFFFFFFFFFFFFFF)] = true := by decide +kernel

/-- 95_test_vectors section 2.6. -/
theorem test_atomic_vectors_2 : computes (withDouble 0x80001000 0x180000005 machine) [
    (0x100120AF, [(2, 0x80001000)], [(1, 0xFFFFFFFF80000005)], 0x80000004, 0x180000005),
    (0x183120AF, [(2, 0x80001000), (3, 0x9)], [(1, 0x1)], 0x80000004, 0x180000005)] = true := by decide +kernel

/-- The trapping rows of 95_test_vectors section 2.6. -/
theorem test_atomic_traps : trapsAs (withDouble 0x80001000 0x180000005 machine) [
    (0x083130AF, [(2, 0x80001004), (3, 0x1)], 6, 0x80001004),
    (0x003120AF, [(2, 0x100), (3, 0x1)], 7, 0x100),
    (0x100130AF, [(2, 0x80001004)], 4, 0x80001004),
    (0x183130AF, [(2, 0x80001004), (3, 0x9)], 6, 0x80001004)] = true := by decide +kernel

/-- 95_test_vectors section 2.9. -/
theorem test_compressed_vectors_1 : computes (withDouble 0x80001000 0x1122334455667788 machine) [
    (0x1FE0, [(2, 0x80000000)], [(8, 0x800003FC)], 0x80000002, 0x1122334455667788),
    (0x4144, [(10, 0x80001000)], [(9, 0x11223344)], 0x80000002, 0x1122334455667788),
    (0x6104, [(10, 0x80001000)], [(9, 0x1122334455667788)], 0x80000002, 0x1122334455667788),
    (0xC144, [(10, 0x80001000), (9, 0xAABBCCDD)], [], 0x80000002, 0xAABBCCDD55667788),
    (0xE104, [(10, 0x80001000), (9, 0x102030405060708)], [], 0x80000002, 0x102030405060708),
    (0x0001, [], [], 0x80000002, 0x1122334455667788),
    (0x1281, [(5, 0x0)], [(5, 0xFFFFFFFFFFFFFFE0)], 0x80000002, 0x1122334455667788),
    (0x2285, [(5, 0x7FFFFFFF)], [(5, 0xFFFFFFFF80000000)], 0x80000002, 0x1122334455667788),
    (0x42FD, [], [(5, 0x1F)], 0x80000002, 0x1122334455667788),
    (0x7101, [(2, 0x80001000)], [(2, 0x80000E00)], 0x80000002, 0x1122334455667788),
    (0x7281, [], [(5, 0xFFFFFFFFFFFE0000)], 0x80000002, 0x1122334455667788),
    (0x907D, [(8, 0x8000000000000000)], [(8, 0x1)], 0x80000002, 0x1122334455667788)] = true := by decide +kernel

/-- 95_test_vectors section 2.9. -/
theorem test_compressed_vectors_2 : computes (withDouble 0x80001000 0x1122334455667788 machine) [
    (0x8405, [(8, 0x8000000000000000)], [(8, 0xC000000000000000)], 0x80000002, 0x1122334455667788),
    (0x987D, [(8, 0x1234)], [(8, 0x1234)], 0x80000002, 0x1122334455667788),
    (0x8C05, [(8, 0x1), (9, 0x2)], [(8, 0xFFFFFFFFFFFFFFFF)], 0x80000002, 0x1122334455667788),
    (0x8C25, [(8, 0xF0), (9, 0xFF)], [(8, 0xF)], 0x80000002, 0x1122334455667788),
    (0x8C45, [(8, 0xF0), (9, 0xF)], [(8, 0xFF)], 0x80000002, 0x1122334455667788),
    (0x8C65, [(8, 0xF0), (9, 0x3C)], [(8, 0x30)], 0x80000002, 0x1122334455667788),
    (0x9C05, [(8, 0x0), (9, 0x80000000)], [(8, 0xFFFFFFFF80000000)], 0x80000002, 0x1122334455667788),
    (0x9C25, [(8, 0x7FFFFFFF), (9, 0x1)], [(8, 0xFFFFFFFF80000000)], 0x80000002, 0x1122334455667788),
    (0xB001, [], [], 0x7FFFF800, 0x1122334455667788),
    (0xD001, [(8, 0x0)], [], 0x7FFFFF00, 0x1122334455667788),
    (0xEC7D, [(8, 0x0)], [], 0x80000002, 0x1122334455667788),
    (0x1282, [(5, 0x1)], [(5, 0x100000000)], 0x80000002, 0x1122334455667788)] = true := by decide +kernel

/-- 95_test_vectors section 2.9. -/
theorem test_compressed_vectors_3 : computes (withDouble 0x80001000 0x1122334455667788 machine) [
    (0x4292, [(2, 0x80001000)], [(5, 0x11223344)], 0x80000002, 0x1122334455667788),
    (0x6282, [(2, 0x80001000)], [(5, 0x1122334455667788)], 0x80000002, 0x1122334455667788),
    (0x8282, [(5, 0x80000011)], [], 0x80000010, 0x1122334455667788),
    (0x829A, [(6, 0x42)], [(5, 0x42)], 0x80000002, 0x1122334455667788),
    (0x9282, [(5, 0x80000040)], [(1, 0x80000002)], 0x80000040, 0x1122334455667788),
    (0x929A, [(5, 0x1), (6, 0xFFFFFFFFFFFFFFFF)], [(5, 0x0)], 0x80000002, 0x1122334455667788),
    (0xC216, [(2, 0x80001000), (5, 0x11223344)], [], 0x80000002, 0x1122334455667788),
    (0xE016, [(2, 0x80001000), (5, 0xFFFFFFFFFFFFFFFE)], [], 0x80000002, 0xFFFFFFFFFFFFFFFE)] = true := by decide +kernel

/-- The trapping rows of 95_test_vectors section 2.9. -/
theorem test_compressed_traps : trapsAs (withDouble 0x80001000 0x1122334455667788 machine) [
    (0x9002, [], 3, 0x80000000),
    (0x4104, [(10, 0x80001002)], 4, 0x80001002)] = true := by decide +kernel

/-! #### CSR and system instructions: 95_test_vectors section 2.7 -/

/-- The machine of section 2.7 in a privilege. -/
def inPriv (p : Priv) (s : State) : State := s.setPriv p

/-- Rows of privilege, word, x6 and CSR storage before, x5 and CSR storage after. -/
def csrRows (l : List (Priv × InstrWord × Word × List (CsrReg × Word) × Word × List (CsrReg × Word))) :
    Bool :=
  l.all fun (p, w, x6, before, x5, after) =>
    let u := inPriv p (withRegs [(6, x6)] (withCsrs before machine))
    afterStep w u fun t => gprsAre [(5, x5)] u t && t.hart.pc == 0x80000004 &&
      after.all fun c => getCsr c.1 t == c.2

/-- Writes of the masked CSRs. mstatus, mtvec, mepc, medeleg, mideleg, mie, sie, satp, scounteren. -/
theorem test_csr_writes : csrRows [
    (.M, 0x30031073, 0xFFFFFFFFFFFFFFFF, [], 0, [(.mstatus, 0xE79AA)]),
    (.M, 0x30031073, 0x1000, [], 0, [(.mstatus, 0)]),
    (.M, 0x30031073, 0x1808, [], 0, [(.mstatus, 0x1808)]),
    (.M, 0x10031073, 0xFFFFFFFFFFFFFFFF, [], 0, [(.mstatus, 0xC6122)]),
    (.M, 0x30531073, 0x80000103, [], 0, [(.mtvec, 0x80000101)]),
    (.M, 0x34131073, 0x80000001, [], 0, [(.mepc, 0x80000000)]),
    (.M, 0x30231073, 0xFFFFFFFFFFFFFFFF, [], 0, [(.medeleg, 0xB3FF)]),
    (.M, 0x30331073, 0xFFFFFFFFFFFFFFFF, [], 0, [(.mideleg, 0x222)]),
    (.S, 0x10431073, 0xFFFFFFFFFFFFFFFF, [], 0, [(.mie, 0x222)]),
    (.M, 0x18031073, 0x1000000000080002, [], 0, [(.satp, 0)]),
    (.M, 0x18031073, 0x9000000000080002, [], 0, [(.satp, 0x9000000000080002)]),
    (.S, 0x10631073, 0xFFFFFFFFFFFFFFFF, [], 0, [(.scounteren, 7)]),
    (.M, 0x00331073, 0xFF, [(.mstatus, 0x2000)], 0, [(.fcsr, 0xFF), (.mstatus, 0x6000)]),
    (.M, 0x00215073, 0, [(.mstatus, 0x2000), (.fcsr, 0x1F)], 0, [(.fcsr, 0x5F), (.mstatus, 0x6000)])] =
    true := by decide +kernel

/-- Reads, and the read-modify-write forms. -/
theorem test_csr_reads : csrRows [
    (.M, 0x301022F3, 0, [], 0x800000000014112D, []),
    (.M, 0x300022F3, 0, [], 0xA00000000, []),
    (.S, 0x104022F3, 0, [(.mie, 0xAAA)], 0x222, []),
    (.U, 0x001022F3, 0, [(.mstatus, 0x2000), (.fcsr, 0x15)], 0x15, [(.mstatus, 0x2000)]),
    (.M, 0xC00072F3, 0, [(.mcycle, 0x40)], 0x40, [(.mcycle, 0x41)]),
    (.U, 0xC02022F3, 0, [(.minstret, 7)], 7, [(.minstret, 8)]),
    (.M, 0x340312F3, 0x22, [(.mscratch, 0x11)], 0x11, [(.mscratch, 0x22)]),
    (.M, 0x340FD2F3, 0, [(.mscratch, 0x22)], 0x22, [(.mscratch, 0x1F)]),
    (.M, 0x300332F3, 8, [(.mstatus, 8)], 0xA00000008, [(.mstatus, 0)]),
    (.M, 0x30046073, 0, [], 0, [(.mstatus, 8)])] = true := by decide +kernel

/-- Illegal accesses: tval is the CSR address. -/
theorem test_csr_illegal :
    trapsAs (inPriv .U machine) [(0x180022F3, [], 2, 0x180), (0x140022F3, [], 2, 0x140)] = true ∧
    trapsAs (inPriv .S machine) [(0x300022F3, [], 2, 0x300), (0x30631073, [], 2, 0x306)] = true ∧
    trapsAs machine [(0xF1431073, [], 2, 0xF14), (0x001022F3, [], 2, 0x001), (0xC0031073, [], 2, 0xC00),
      (0x7C0022F3, [], 2, 0x7C0)] = true := by decide +kernel

/-- mip reads the inputs beside the stored bits, and a write cannot clear them; sip shows its mask. -/
theorem test_csr_pending :
    afterStep 0x14431073 (inPriv .S (withRegs [(6, 0xFFF)] machine)) (fun t => getCsr .mip t == 2) = true ∧
    afterStep 0x344022F3 (withInputs 0 true true machine) (fun t => readX 5 t == 0x88) = true ∧
    afterStep 0x144022F3 (inPriv .S (withCsrs [(.mip, 0x20)] (withInputs 0 true false machine)))
      (fun t => readX 5 t == 0x20) = true ∧
    afterStep 0xC01022F3 (inPriv .U (withInputs 0x1234 false false machine))
      (fun t => readX 5 t == 0x1234) = true := by decide +kernel

/-- The machine of the system rows: pc 0x80001000, stvec 0x80000200, in a privilege. -/
def system (p : Priv) : State := (withCsrs [(.stvec, 0x80000200)] (inPriv p machine)).setPc 0x80001000

/-- ECALL: cause, saved pc, MPP and privilege; delegated to S; never delegated from M. -/
theorem test_ecall :
    afterStep 0x00000073 (system .U) (fun t => getCsr .mcause t == 8 && getCsr .mepc t == 0x80001000 &&
      getCsr .mtval t == 0 && statusMPP (getCsr .mstatus t) == 0 && t.hart.priv == .M &&
      t.hart.pc == 0x80000100 && getCsr .minstret t == 0) = true ∧
    afterStep 0x00000073 (withCsrs [(.medeleg, 0x100)] (system .U)) (fun t => getCsr .scause t == 8 &&
      getCsr .sepc t == 0x80001000 && t.hart.priv == .S && t.hart.pc == 0x80000200) = true ∧
    afterStep 0x00000073 (withCsrs [(.medeleg, 0xB3FF)] (system .M)) (fun t =>
      getCsr .mcause t == 11 && statusMPP (getCsr .mstatus t) == 3) = true := by decide +kernel

/-- EBREAK: the trap, and a debugger that answers true. -/
theorem test_ebreak :
    afterStep 0x00100073 (system .M) (fun t => getCsr .mcause t == 3 && getCsr .mepc t == 0x80001000 &&
      getCsr .mtval t == 0x80001000) = true ∧
    (match exec .ebreak { system .M with
        plat := { Platform.reset with debugger := true }, tape := { breakpoint := [true] } } with
      | .next t => t.hart.pc == 0x80001000 && !t.note.retired && !t.note.trapped
      | _ => false) = true := by decide +kernel

/-- MRET and SRET. -/
theorem test_xret :
    afterStep 0x30200073 (withCsrs [(.mstatus, 0x1880), (.mepc, 0x80000200)] (system .M)) (fun t =>
      t.hart.priv == .M && getCsr .mstatus t == 0x88 && t.hart.pc == 0x80000200) = true ∧
    afterStep 0x30200073 (withCsrs [(.mstatus, 0x20800), (.mepc, 0x4000)] (system .M)) (fun t =>
      t.hart.priv == .S && getCsr .mstatus t == 0x80 && t.hart.pc == 0x4000) = true ∧
    afterStep 0x10200073 (withCsrs [(.mstatus, 0x20), (.sepc, 0x1000)] (system .S)) (fun t =>
      t.hart.priv == .U && getCsr .mstatus t == 0x22 && t.hart.pc == 0x1000) = true ∧
    afterStep 0x10200073 (withCsrs [(.mstatus, 0x100), (.sepc, 0x2000)] (system .M)) (fun t =>
      t.hart.priv == .S && getCsr .mstatus t == 0x20 && t.hart.pc == 0x2000) = true := by decide +kernel

/-- WFI waits, or does not where an enabled interrupt is pending; the wait is one idle step. -/
theorem test_wfi :
    afterStep 0x10500073 (withCsrs [(.mie, 0x80)] ({ system .M with
        tape := { cycle := [1], clint := [⟨0, false, false⟩, ⟨0, false, false⟩], wake := [false] } }))
      (fun t => t.hart.wfi && t.hart.pc == 0x80001004 && getCsr .minstret t == 1) = true ∧
    afterStep 0x10500073 (withCsrs [(.mie, 0x80)] (withInputs 0 true false (system .M)))
      (fun t => !t.hart.wfi && t.hart.pc == 0x80001004) = true ∧
    (match step ((withCsrs [(.mie, 0x80), (.mstatus, 8)] (withInputs 0 true false (system .M))).setWfi
        true) with
      | .next t => !t.hart.wfi && getCsr .mcause t == 0x8000000000000007 &&
        getCsr .mepc t == 0x80001000 && getCsr .minstret t == 0 && getCsr .mcycle t == 1
      | _ => false) = true := by decide +kernel

/-- Privileged instructions below their privilege: tval is the word. -/
theorem test_privileged_illegal :
    trapsAs (inPriv .S machine) [(0x30200073, [], 2, 0x30200073)] = true ∧
    trapsAs (inPriv .U machine) [(0x10200073, [], 2, 0x10200073), (0x10500073, [], 2, 0x10500073),
      (0x12000073, [], 2, 0x12000073)] = true := by decide +kernel

/-- FENCE and FENCE.I in U. -/
theorem test_fences : computes (inPriv .U machine) [(0x0330000F, [], [], 0x80000004, 0),
    (0x0000100F, [], [], 0x80000004, 0)] = true := by decide +kernel

/-- The two semihosting words (30_encoding R172). -/
theorem test_semihost_words :
    afterStep 0x01F01013 machine (fun t => t.hart.semihost && t.hart.pc == 0x80000004) = true ∧
    afterStep 0x40705013 (machine.setSemihost true)
      (fun t => !t.hart.semihost && t.hart.pc == 0x80000004) = true := by decide +kernel

/-! #### Reservations: 95_test_vectors section 2.6 -/

/-- A matching SC stores and gives 0; a store by the hart itself clears the reservation. -/
theorem test_reservation :
    afterStep 0x183120AF ((withRegs [(2, 0x80001000), (3, 9)] (withDouble 0x80001000 0x180000005
        machine)).setRes (some ⟨0x80001000, 4⟩)) (fun t => readX 1 t == 0 && t.hart.res == none &&
      Memory.readLE t.mem 0x80001000 8 == 0x100000009) = true ∧
    afterStep 0x100130AF (withRegs [(2, 0x80001000)] machine)
      (fun t => t.hart.res == some ⟨0x80001000, 8⟩) = true ∧
    afterStep 0x00310023 ((withRegs [(2, 0x80001003)] machine).setRes (some ⟨0x80001000, 4⟩))
      (fun t => t.hart.res == none) = true := by decide +kernel

/-! #### Floating point: 95_test_vectors section 2.8 -/

/-- The machine of section 2.8: FS = 1. -/
def fpMachine : State := withCsrs [(.mstatus, 0x2000)] machine

/-- Rows of word, floating-point registers and x5 before, f3 and fflags after; FS becomes 3. -/
def fpRows (l : List (InstrWord × List (Nat × Word) × Word × Word × Word)) : Bool :=
  l.all fun (w, fprs, x5, f3, flags) =>
    let u := withRegs [(5, x5)] (withFprs fprs fpMachine)
    afterStep w u fun t => readF 3 t == f3 && getCsr .fcsr t == flags && gprsAre [] u t &&
      getCsr .mstatus t == 0x6000 && t.hart.pc == 0x80000004

/-- Rows of word, floating-point registers before, x5, fflags and mstatus after. -/
def fpToXRows (l : List (InstrWord × List (Nat × Word) × Word × Word × Word)) : Bool :=
  l.all fun (w, fprs, x5, flags, status) =>
    let u := withFprs fprs fpMachine
    afterStep w u fun t => gprsAre [(5, x5)] u t && t.hart.f == u.hart.f && getCsr .fcsr t == flags &&
      getCsr .mstatus t == status

/-- Part A: moves and sign injection. -/
theorem test_fp_exact : fpRows [
    (0xF00281D3, [], 0x1234567840000000, 0xFFFFFFFF40000000, 0),
    (0xF20281D3, [], 0x8000000000000000, 0x8000000000000000, 0),
    (0x201081D3, [(1, 0x3F800000)], 0, 0xFFFFFFFF7FC00000, 0),
    (0x201091D3, [(1, 0x3F800000)], 0, 0xFFFFFFFFFFC00000, 0),
    (0x201091D3, [(1, 0xFFFFFFFF7F800001)], 0, 0xFFFFFFFFFF800001, 0),
    (0x2210A1D3, [(1, 0xBFF0000000000000)], 0, 0x3FF0000000000000, 0)] = true := by decide +kernel

/-- Part A: FMV.X.W and FCLASS; FS stays 1. -/
theorem test_fp_class : fpToXRows [
    (0xE00082D3, [(1, 0xFFFFFFFFBF800000)], 0xFFFFFFFFBF800000, 0, 0x2000),
    (0xE00082D3, [(1, 0x123456789ABCDEF0)], 0xFFFFFFFF9ABCDEF0, 0, 0x2000),
    (0xE00092D3, [(1, 0xFFFFFFFFFF800000)], 0x001, 0, 0x2000),
    (0xE00092D3, [(1, 0xFFFFFFFF80000000)], 0x008, 0, 0x2000),
    (0xE00092D3, [(1, 0xFFFFFFFF00000001)], 0x020, 0, 0x2000),
    (0xE00092D3, [(1, 0xFFFFFFFF7F800001)], 0x100, 0, 0x2000),
    (0xE00092D3, [(1, 0xFFFFFFFF7FC00000)], 0x200, 0, 0x2000),
    (0xE00092D3, [(1, 0x000000003F800000)], 0x200, 0, 0x2000),
    (0xE20092D3, [(1, 0x7FF0000000000000)], 0x080, 0, 0x2000),
    (0xE20092D3, [(1, 0xFFFFFFFF3F800000)], 0x200, 0, 0x2000)] = true := by decide +kernel

/-- Part A: FS off and reserved rounding modes. -/
theorem test_fp_illegal :
    trapsAs machine [(0x0020F1D3, [], 2, 0x0020F1D3)] = true ∧
    trapsAs fpMachine [(0x0020D1D3, [], 2, 0x0020D1D3), (0x0020E1D3, [], 2, 0x0020E1D3)] = true ∧
    trapsAs (withCsrs [(.fcsr, 0xA0)] fpMachine) [(0x0020F1D3, [], 2, 0x0020F1D3)] = true ∧
    trapsAs (withCsrs [(.fcsr, 0xE0)] fpMachine) [(0x0020F1D3, [], 2, 0x0020F1D3)] = true := by
  decide +kernel

/-- Part A: loads and stores. -/
theorem test_fp_load_store :
    afterStep 0x0000A187 (withRegs [(1, 0x80001000)] (withDouble 0x80001000 0x7F800001 fpMachine))
      (fun t => readF 3 t == 0xFFFFFFFF7F800001 && getCsr .fcsr t == 0 &&
        getCsr .mstatus t == 0x6000) = true ∧
    afterStep 0x0020A027 (withRegs [(1, 0x80001000)] (withFprs [(2, 0x12345678)] fpMachine))
      (fun t => Memory.readLE t.mem 0x80001000 8 == 0x12345678 && getCsr .mstatus t == 0x2000) = true ∧
    afterStep 0x0020B027 (withRegs [(1, 0x80001000)] (withFprs [(2, 0xFFFFFFFF3F800000)] fpMachine))
      (fun t => Memory.readLE t.mem 0x80001000 8 == 0xFFFFFFFF3F800000) = true ∧
    trapsAs fpMachine [(0x0020A187, [(1, 0x80001000)], 4, 0x80001002)] = true := by decide +kernel

/-- Part B, for the intended instantiation: arithmetic. -/
theorem test_fp_arithmetic : fpRows [
    (0x0020F1D3, [(1, 0xFFFFFFFF3F800000), (2, 0xFFFFFFFF40000000)], 0, 0xFFFFFFFF40400000, 0),
    (0x1820F1D3, [(1, 0xFFFFFFFF3F800000), (2, 0xFFFFFFFF00000000)], 0, 0xFFFFFFFF7F800000, 8),
    (0x1820F1D3, [(1, 0xFFFFFFFF00000000), (2, 0xFFFFFFFF00000000)], 0, 0xFFFFFFFF7FC00000, 0x10),
    (0x5800F1D3, [(1, 0xFFFFFFFFBF800000)], 0, 0xFFFFFFFF7FC00000, 0x10),
    (0x5800F1D3, [(1, 0xFFFFFFFF80000000)], 0, 0xFFFFFFFF80000000, 0),
    (0x0810A1D3, [(1, 0xFFFFFFFF3F800000)], 0, 0xFFFFFFFF80000000, 0),
    (0x282081D3, [(1, 0xFFFFFFFF80000000), (2, 0xFFFFFFFF00000000)], 0, 0xFFFFFFFF80000000, 0),
    (0x282091D3, [(1, 0xFFFFFFFF80000000), (2, 0xFFFFFFFF00000000)], 0, 0xFFFFFFFF00000000, 0),
    (0x282081D3, [(1, 0xFFFFFFFF7F800001), (2, 0xFFFFFFFF40000000)], 0, 0xFFFFFFFF40000000, 0x10),
    (0x1220F1D3, [(1, 0x4008000000000000), (2, 0x3FE0000000000000)], 0, 0x3FF8000000000000, 0),
    (0x2220F1C3, [(1, 0x4000000000000000), (2, 0x4008000000000000), (4, 0x3FF0000000000000)], 0,
      0x401C000000000000, 0)] = true := by decide +kernel

/-- Part B: conversions to floating point. -/
theorem test_fp_convert : fpRows [
    (0xD002F1D3, [], 0xFFFFFFFFFFFFFFFF, 0xFFFFFFFFBF800000, 0),
    (0xD032F1D3, [], 0xFFFFFFFFFFFFFFFF, 0xFFFFFFFF5F800000, 1),
    (0x420081D3, [(1, 0x3F800000)], 0, 0x7FF8000000000000, 0),
    (0xD20281D3, [], 0xFFFFFFFF80000000, 0xC1E0000000000000, 0),
    (0x4010F1D3, [(1, 0x7E37E43C8800759C)], 0, 0xFFFFFFFF7F800000, 5)] = true := by decide +kernel

/-- Part B: comparisons and conversions to integers. -/
theorem test_fp_to_integer : fpToXRows [
    (0xA020A2D3, [(1, 0xFFFFFFFF7FC00000), (2, 0xFFFFFFFF3F800000)], 0, 0, 0x2000),
    (0xA020A2D3, [(1, 0xFFFFFFFF7F800001), (2, 0xFFFFFFFF3F800000)], 0, 0x10, 0x6000),
    (0xA02092D3, [(1, 0xFFFFFFFF7FC00000), (2, 0xFFFFFFFF3F800000)], 0, 0x10, 0x6000),
    (0xA020A2D3, [(1, 0xFFFFFFFF80000000), (2, 0xFFFFFFFF00000000)], 1, 0, 0x2000),
    (0xA22082D3, [(1, 0x7FF8000000000000), (2, 0x3FF0000000000000)], 0, 0x10, 0x6000),
    (0xC00082D3, [(1, 0xFFFFFFFF3FC00000)], 2, 1, 0x6000),
    (0xC00092D3, [(1, 0xFFFFFFFF3FC00000)], 1, 1, 0x6000),
    (0xC00092D3, [(1, 0xFFFFFFFF7FC00000)], 0x7FFFFFFF, 0x10, 0x6000),
    (0xC00092D3, [(1, 0xFFFFFFFFCF32D05E)], 0xFFFFFFFF80000000, 0x10, 0x6000),
    (0xC01092D3, [(1, 0xFFFFFFFFBF800000)], 0, 0x10, 0x6000),
    (0xC01092D3, [(1, 0xFFFFFFFF4F6E6B28)], 0xFFFFFFFFEE6B2800, 0, 0x2000),
    (0xC03092D3, [(1, 0xFFFFFFFFBF800000)], 0, 0x10, 0x6000),
    (0xC22092D3, [(1, 0x7FF0000000000000)], 0x7FFFFFFFFFFFFFFF, 0x10, 0x6000)] = true := by
  decide +kernel

/-! #### Translation: 95_test_vectors section 2.10 -/

/-- The page tables of section 2.10, in S with satp Sv39 and an empty TLB that is always used. -/
def paged : State :=
  let tables : List (Nat × Word) := [(0x80002000, 0x20000C01), (0x80002018, 0x200000EF),
    (0x80003000, 0x20001001), (0x80003008, 0x200800CF), (0x80003010, 0x20080447),
    (0x80004020, 0x20001407), (0x80004028, 0x20001805), (0x80004030, 0x2000185B),
    (0x80004038, 0x20001849)]
  let s := withCsrs [(.satp, 0x8000000000080002)] (inPriv .S machine)
  { tables.foldl (fun t p => withDouble p.1 p.2 t) s with
    tape := { tlbUse := [0, 0, 0, 0], cycle := [1], clint := [⟨0, false, false⟩] } }

/-- The translation answers the physical address. -/
def translatesTo (s : State) (l : List (Word × Access × Word)) : Bool :=
  l.all fun (va, acc, pa) => match translate va acc s with
    | .ok p _ => p == pa
    | .raise _ _ => false

/-- The translation raises the cause, with the address as tval. -/
def faultsAs (s : State) (l : List (Word × Access × Cause)) : Bool :=
  l.all fun (va, acc, c) => match translate va acc s with
    | .ok _ _ => false
    | .raise t _ => t == ⟨c, va⟩

/-- The state after a translation. -/
def afterTranslate (va : Word) (acc : Access) (s : State) : State :=
  match translate va acc s with
  | .ok _ t => t
  | .raise _ t => t

/-- Rows 1, 4, 10, 13, 14, 19 and the user-mode rows. -/
theorem test_translate :
    translatesTo paged [(0x4123, .read, 0x80005123), (0x200000, .read, 0x80200000),
      (0x7000, .fetch, 0x80006000), (0xC0001234, .read, 0x80001234)] = true ∧
    translatesTo (withCsrs [(.mstatus, 0x40000)] paged) [(0x6000, .read, 0x80006000)] = true ∧
    translatesTo (withCsrs [(.mstatus, 0x80000)] paged) [(0x7000, .read, 0x80006000)] = true ∧
    translatesTo (inPriv .U paged) [(0x6000, .read, 0x80006000), (0x6000, .fetch, 0x80006000)] = true ∧
    translatesTo (inPriv .M (withCsrs [(.mstatus, 0x20800)] paged)) [(0x4123, .read, 0x80005123),
      (0x4123, .fetch, 0x4123)] = true := by decide +kernel

/-- Rows 7 to 9, 11, 12, 15 to 18 and the user-mode rows. -/
theorem test_translate_faults :
    faultsAs paged [(0x400000, .read, .loadPage), (0x5000, .read, .loadPage),
      (0x5000, .write, .storePage), (0x5000, .fetch, .instrPage), (0x6000, .read, .loadPage),
      (0x7000, .read, .loadPage), (0x8000, .read, .loadPage), (0x8000, .write, .storePage),
      (0x40000000, .write, .storePage), (0x8000000000, .read, .loadPage),
      (0xFFFFFFC000000000, .read, .loadPage)] = true ∧
    faultsAs (withCsrs [(.mstatus, 0x40000)] paged) [(0x6000, .fetch, .instrPage)] = true ∧
    faultsAs (inPriv .U paged) [(0x6000, .write, .storePage), (0x4000, .read, .loadPage)] = true := by
  decide +kernel

/-- Rows 1 to 3: A is set by the walk, D by the hit that writes, and a later hit changes nothing. -/
theorem test_translate_accessed_dirty :
    let s1 := afterTranslate 0x4123 .read paged
    let s2 := afterTranslate 0x4000 .write s1
    Memory.readLE s1.mem 0x80004020 8 = 0x20001447 ∧ s1.tlb.length = 1 ∧
    Memory.readLE s2.mem 0x80004020 8 = 0x200014C7 ∧ s2.tlb.length = 1 ∧
    (afterTranslate 0x4008 .read s2).mem = s2.mem := by decide +kernel

/-- The entries of the partial flushes, by page and address space. -/
def flushSet : List TlbEntry :=
  [⟨0x80004020, 4, 1, 0, 0x80005000, 4096, 0x20001447⟩, ⟨0x80004028, 5, 1, 0, 0x80006000, 4096, 0x20001847⟩,
   ⟨0x80004020, 4, 2, 0, 0x80005000, 4096, 0x20001447⟩,
   ⟨0x80002018, 0xC0000, 1, 0, 0x80000000, 0x40000000, 0x200000EF⟩]

/-- What SFENCE.VMA leaves, as positions of `flushSet`. -/
def flushLeaves (w : InstrWord) (x10 x11 : Word) (left : List Nat) : Bool :=
  afterStep w (inPriv .S ((withRegs [(10, x10), (11, x11)] machine).setTlb flushSet)) fun t =>
    t.tlb == left.filterMap (flushSet[·]?)

/-- The partial flushes. -/
theorem test_sfence : flushLeaves 0x12050073 0x4000 0 [1, 3] = true ∧
    flushLeaves 0x12B00073 0 1 [2] = true ∧ flushLeaves 0x12B50073 0x4000 2 [0, 1, 3] = true ∧
    flushLeaves 0x12B50073 0xC0000000 2 [0, 1, 2] = true ∧ flushLeaves 0x12000073 0 0 [] = true := by
  decide +kernel

/-! #### Traps and interrupts: 95_test_vectors section 2.11 -/

/-- ADD x1, x2, x3, which retires. -/
def addWord : InstrWord := 0x003100B3

/-- Interrupts taken, and their order. -/
theorem test_interrupts :
    afterStep addWord (withCsrs [(.mstatus, 8), (.mie, 0x80)] (withInputs 0 true false (system .M)))
      (fun t => getCsr .mcause t == 0x8000000000000007 && getCsr .mepc t == 0x80001004 &&
        getCsr .mtval t == 0 && getCsr .mstatus t == 0x1880 && t.hart.pc == 0x80000100) = true ∧
    afterStep addWord (withCsrs [(.mie, 0x80)] (withInputs 0 true false (system .M)))
      (fun t => t.hart.pc == 0x80001004) = true ∧
    afterStep addWord (withCsrs [(.mstatus, 8), (.mie, 0x88)] (withInputs 0 true true (system .M)))
      (fun t => getCsr .mcause t == 0x8000000000000003) = true ∧
    afterStep addWord (withCsrs [(.mie, 0x82), (.mip, 2)] (withInputs 0 true false (system .S)))
      (fun t => getCsr .mcause t == 0x8000000000000007) = true ∧
    afterStep addWord (withCsrs [(.mideleg, 0x20), (.mie, 0x20), (.mip, 0x20)] (system .U))
      (fun t => getCsr .scause t == 0x8000000000000005 && getCsr .sepc t == 0x80001004 &&
        t.hart.priv == .S && t.hart.pc == 0x80000200) = true ∧
    afterStep addWord (withCsrs [(.mideleg, 0x20), (.mie, 0x20), (.mip, 0x20), (.mstatus, 0xA)]
      (system .M)) (fun t => t.hart.pc == 0x80001004) = true := by decide +kernel

/-- Vectored interrupts and exceptions, and an interrupt after MRET. -/
theorem test_vectored :
    afterStep addWord ((withCsrs [(.mie, 0x80), (.mtvec, 0x80000101)]
      (withInputs 0 true false (system .S))).setPc 0x80004000)
      (fun t => getCsr .mepc t == 0x80004004 && t.hart.pc == 0x8000011C) = true ∧
    afterStep 0x00000073 (withCsrs [(.mtvec, 0x80000101)] (system .M))
      (fun t => getCsr .mcause t == 11 && t.hart.pc == 0x80000100) = true ∧
    afterStep 0x30200073 (withCsrs [(.mie, 0x80), (.mstatus, 0x1880), (.mepc, 0x80002000)]
      (withInputs 0 true false (system .M)))
      (fun t => getCsr .mcause t == 0x8000000000000007 && getCsr .mepc t == 0x80002000) = true := by
  decide +kernel

/-- An unresolved trap halts the hart, and reports. -/
theorem test_unresolved :
    afterStep 0x00000073 (withCsrs [(.mtvec, 0)] (system .M))
      (fun t => t.hart.halted == some ⟨false, 11, 0, 0x80001000⟩) = true ∧
    afterStep 0x00000073 (withCsrs [(.medeleg, 0x100), (.stvec, 0)] (system .U))
      (fun t => t.hart.halted == some ⟨false, 8, 0, 0x80001000⟩) = true ∧
    afterStep addWord (withCsrs [(.mtvec, 1), (.mie, 0x80)] (withInputs 0 true false (system .U)))
      (fun t => t.hart.halted.isSome) = true := by decide +kernel

/-- Illegal words, and fetch faults of either parcel. -/
theorem test_fetch_faults :
    trapsAs machine [(0x00000000, [], 2, 0), (0xFFFFFFFF, [], 2, 0xFFFFFFFF)] = true ∧
    (match step (machine.setPc 0x7FFFFFF0) with
      | .next t => getCsr .mcause t == 1 && getCsr .mepc t == 0x7FFFFFF0 && getCsr .mtval t == 0x7FFFFFF0
      | _ => false) = true ∧
    (match step ((machine.setPc 0x80007FFE).setMem (Memory.writeLE [] 0x80007FFE 2 0x0013)) with
      | .next t => getCsr .mcause t == 1 && getCsr .mepc t == 0x80007FFE && getCsr .mtval t == 0x80008000
      | _ => false) = true ∧
    (match step ((machine.setPc 0x80007FFE).setMem (Memory.writeLE [] 0x80007FFE 2 0x0001)) with
      | .next t => t.hart.pc == 0x80008000
      | _ => false) = true := by decide +kernel

/-- A 32-bit instruction across two pages of which the second is not mapped, and one from a device
(30_encoding R160, 60_exceptions R529). -/
theorem test_fetch_translated :
    (match step ((withDouble 0x80006FF8 0x0013000000000000 paged).setPc 0x7FFE) with
      | .next t => getCsr .mcause t == 12 && getCsr .mepc t == 0x7FFE && getCsr .mtval t == 0x8000
      | _ => false) = true ∧
    (match step { machine.setPc 0x10000000 with
        plat := { Platform.reset with pmap := ⟨0x10000000, 0x1000, .device 0⟩ :: Platform.reset.pmap }
        tape := { machine.tape with deviceRead := [0x0001] } } with
      | .next t => t.hart.pc == 0x10000002 && t.bus == [.read 0 0x10000000 2 1]
      | _ => false) = true := by decide +kernel

/-- The alignment check comes before translation. -/
theorem test_misaligned_before_page_fault :
    (match exec (.lw 1 2 2) (withRegs [(2, 0x5000)] paged) with
      | .next t => getCsr .mcause t == 4 && getCsr .mtval t == 0x5002
      | _ => false) = true := by decide +kernel

/-- Misaligned data performed bytewise, `a` in x1, x2 and x8, and which rule a store that fails at a
later byte follows. -/
def splitAt (a : Word) (m : PartialStore) : State :=
  { withRegs [(1, a), (2, a), (3, 0x1122334455667788), (8, a)] fpMachine with
    plat := { Platform.reset with misaligned := .bytewise, partialStore := m } }

/-- A store of 8 bytes of which RAM holds the first 4: the fault of the fifth byte, and the first four
written (20_memory R105) or not (60_exceptions R523). -/
theorem test_partial_store :
    let stored := fun (m : PartialStore) => match exec (.sd 1 3 0) (splitAt 0x80007FFC m) with
      | .next t => some (getCsr .mcause t, getCsr .mtval t, Memory.readLE t.mem 0x80007FFC 4)
      | _ => none
    stored .kept = some (7, 0x80008000, 0x55667788) ∧ stored .undone = some (7, 0x80008000, 0) := by
  decide +kernel

/-- A store across two pages of which the second is not mapped: under `undone` what survives is A and D
of the first page and its TLB entry (20_memory R121, 60_exceptions R523). -/
theorem test_undone_keeps_writebacks :
    let s := withRegs [(1, 0x4FFC), (3, 0x1122334455667788)] { paged with
      plat := { Platform.reset with misaligned := .bytewise }
      tape := { paged.tape with tlbUse := [0, 0, 0, 0] } };
    (match exec (.sd 1 3 0) s with
      | .next t => getCsr .mcause t == 15 && getCsr .mtval t == 0x5000 &&
          Memory.readLE t.mem 0x80004020 8 == 0x200014C7 && Memory.readLE t.mem 0x80005FFC 4 == 0 &&
          t.tlb.map (·.pteAddr) == [0x80004020]
      | _ => false) = true := by decide +kernel

/-- The same where the store's first byte falls on the PTE that a stale TLB entry of the second page
writes back, with that byte's own value: the whole PTE stays written back (20_memory R118, R121, R131),
and the store's bytes are gone. -/
theorem test_undone_keeps_whole_pte :
    let s := withRegs [(1, 0x4FFC), (3, 0x1122334455667705)] { paged with
      plat := { Platform.reset with misaligned := .bytewise }
      tape := { paged.tape with tlbUse := List.replicate 8 0 }
      tlb := [⟨0x80004020, 4, 0, 0, 0x80004000, 4096, 0x200010C7⟩,
        ⟨0x80004FF8, 5, 0, 0, 0x1000, 4096, 0x0000000500000007⟩] };
    (match exec (.sd 1 3 0) s with
      | .next t => getCsr .mcause t == 7 && getCsr .mtval t == 0x5000 &&
          Memory.readLE t.mem 0x80004FF8 8 == 0x00000005000000C7 &&
          t.tlb.map (·.raw) == [0x200010C7, 0x00000005000000C7]
      | _ => false) = true := by decide +kernel

/-- A device sees a load of its low bytes and a store; RAM is as it was, and an overlapping reservation
is lost (20_memory R100, R102, R132). -/
theorem test_device :
    let s := ({ withRegs [(1, 0x10000000), (3, 0x1122334455667788)] machine with
      plat := { Platform.reset with pmap := ⟨0x10000000, 0x1000, .device 7⟩ :: Platform.reset.pmap }
      tape := { deviceRead := [0xFFFFFFFF80000001] } } : State).setRes (some ⟨0x10000004, 4⟩);
    (match exec (.lw 5 1 0) s with
      | .next t => readX 5 t == 0xFFFFFFFF80000001 && t.bus == [.read 7 0x10000000 4 0x80000001] &&
          t.mem == [] && t.hart.res == some ⟨0x10000004, 4⟩
      | _ => false) = true ∧
    (match exec (.sh 1 3 6) s with
      | .next t => t.bus == [.write 7 0x10000006 2 0x7788] && t.mem == [] && t.hart.res == none
      | _ => false) = true := by decide +kernel

/-! #### Reset: 95_test_vectors section 2.12 -/

/-- The first step after reset runs the placed word; an ECALL then halts, for mtvec is 0. -/
theorem test_reset :
    State.reset.hart.pc = 0x80000000 ∧
    (match exec .ecall (State.reset.withFetchWord 32 0x00000073) with
      | .next t => t.hart.halted == some ⟨false, 11, 0, 0x80000000⟩
      | _ => false) = true ∧
    (match step { State.reset.withFetchWord 32 0x00008293 with
        tape := { cycle := [0], clint := [⟨0, false, false⟩] } } with
      | .next t => readX 5 t == 0 && t.hart.pc == 0x80000004
      | _ => false) = true := by decide +kernel

/-- Two harts: a store of one clears the reservation of the other (20_memory R132). -/
theorem test_two_harts :
    let s := { powerOn Platform.reset 0x80000000 [0x80000000] [] with
      tape := { cycle := [1], clint := [⟨0, false, false⟩] } }
    let u := { withRegs [(2, 0x80001000)] s with
      others := s.others.map fun h => { h with res := some ⟨0x80001000, 8⟩ } }
    afterStep 0x00310223 u (fun t => t.hart.id == 0 && t.others.map (fun h => (h.id, h.res)) ==
      [(1, none)]) = true := by decide +kernel

/-- ADDI x5, x1, 0 loaded where two harts enter, and the draw of the schedule. -/
def twoHarts (draw : Nat) : State :=
  { powerOn Platform.reset 0x80000000 [0x80000000] [(0x80000000, 0x93), (0x80000001, 0x82)] with
    tape := { cycle := [1], clint := [⟨0, false, false⟩], schedule := [draw] } }

/-- Which hart a step is of, where it answers a next state and the hart has moved on. -/
def steppedHart (s : State) : Option Nat :=
  match step s with
  | .next t => if t.hart.pc == 0x80000004 then some t.hart.id else none
  | _ => none

/-- Either hart may take the first step after bring-up, and only one that has not halted may; a reset
revives a halted one (20_memory R127, 70_reset_and_hazards R582, R583). -/
theorem test_schedule :
    let dead := some ⟨false, 0, 0, 0⟩
    let bothDead := { (twoHarts 5).setHalted dead with
      others := (twoHarts 5).others.map fun h => { h with halted := dead } }
    steppedHart (twoHarts 0) = some 1 ∧ steppedHart (twoHarts 1) = some 0 ∧
    steppedHart ((twoHarts 5).setHalted dead) = some 1 ∧ steppedHart bothDead = none ∧
    (hostReset 1 0x80000000 bothDead).bind steppedHart = some 1 ∧
    (hostReset 0 0x80000000 bothDead).bind steppedHart = some 0 := by decide +kernel

/-! ### Witnesses: the hypotheses of the statements can be met -/

/-- Decides `InRam`. -/
def inRamB (s : State) (a n : Nat) : Bool :=
  match findRegion s.plat.pmap a n with
  | some r => decide (r.kind = .ram)
  | none => false

theorem inRamB_sound {s : State} {a n : Nat} (h : inRamB s a n = true) : InRam s a n := by
  unfold inRamB at h
  split at h
  · next r hr => exact ⟨r, hr, of_decide_eq_true h⟩
  · exact absurd h (by simp)

/-- Decides `Untranslated`. -/
def untranslatedB (acc : Access) (s : State) : Bool :=
  decide (effectivePriv acc s = .M ∨ satpMode s.hart.csr.satp = 0)

theorem untranslatedB_sound {acc : Access} {s : State} (h : untranslatedB acc s = true) :
    Untranslated acc s := by
  have h' : effectivePriv acc s = .M ∨ satpMode s.hart.csr.satp = 0 := of_decide_eq_true h
  exact h'

/-- Decides `PlainAccess`. -/
def plainB (va : Word) (n : Nat) (acc : Access) (s : State) : Bool :=
  untranslatedB acc s &&
    if va.toNat % n = 0 then inRamB s va.toNat n
    else decide (s.plat.misaligned = .bytewise) &&
      (List.range n).all fun k => inRamB s (va.toNat + k) 1

theorem plainB_sound {va : Word} {n : Nat} {acc : Access} {s : State} (h : plainB va n acc s = true) :
    PlainAccess va n acc s := by
  simp only [plainB, Bool.and_eq_true] at h
  refine ⟨untranslatedB_sound h.1, ?_⟩
  have h2 := h.2
  split at h2
  · next ha => exact Or.inl ⟨ha, inRamB_sound h2⟩
  · next ha =>
    simp only [Bool.and_eq_true, List.all_eq_true, List.mem_range] at h2
    exact Or.inr ⟨ha, of_decide_eq_true h2.1, fun k hk => inRamB_sound (h2.2 k hk)⟩

/-- Decides `PlainAtomic`. -/
def atomicB (va : Word) (n : Nat) (acc : Access) (s : State) : Bool :=
  untranslatedB acc s && (decide (va.toNat % n = 0) && inRamB s va.toNat n)

theorem atomicB_sound {va : Word} {n : Nat} {acc : Access} {s : State}
    (h : atomicB va n acc s = true) : PlainAtomic va n acc s := by
  simp only [atomicB, Bool.and_eq_true] at h
  exact ⟨untranslatedB_sound h.1, of_decide_eq_true h.2.1, inRamB_sound h.2.2⟩

/-- Whether an attempt did not raise. -/
def okB {α : Type} : Attempt α → Bool
  | .ok _ _ => true
  | .raise _ _ => false

theorem loadDone_of_okB {va : Word} {n : Nat} {s : State} (h : okB (memRead va n s) = true) :
    ∃ v w, LoadDone va n s v w := by
  rcases load_cases va n s with k | ⟨tr, w, k⟩
  · exact k
  · rw [memRead_of_loadFails k] at h; exact absurd h (by simp [okB])

theorem loadFails_of_okB {va : Word} {n : Nat} {s : State} (hn : n ≤ 8)
    (h : okB (memRead va n s) = false) : ∃ tr w, LoadFails va n s tr w := by
  rcases load_cases va n s with ⟨v, w, k⟩ | k
  · rw [memRead_of_loadDone hn k] at h; exact absurd h (by simp [okB])
  · exact k

theorem storeDone_of_okB {va v : Word} {n : Nat} {s : State} (hw : Memory.wf s.mem)
    (h : okB (memWrite va n v s) = true) : ∃ w, StoreDone va n v s w := by
  rcases store_cases va n v hw with k | ⟨tr, w, k⟩
  · exact k
  · rw [memWrite_of_storeFails hw (fun _ _ => rfl) k] at h; exact absurd h (by simp [okB])

theorem storeFails_of_okB {va v : Word} {n : Nat} {s : State} (hw : Memory.wf s.mem)
    (h : okB (memWrite va n v s) = false) : ∃ tr w, StoreFails va n v s tr w := by
  rcases store_cases va n v hw with ⟨w, k⟩ | k
  · rw [memWrite_of_storeDone hw (fun _ _ => rfl) k] at h; exact absurd h (by simp [okB])
  · exact k

/-- Decides that translation answers an address that a region holds, and `q` of the state it leaves. -/
def heldB (va : Word) (n : Nat) (acc : Access) (s : State) (q : Word → State → Bool) : Bool :=
  match translate va acc s with
  | .ok pa u => (findRegion u.plat.pmap pa.toNat n).isSome && q pa u
  | .raise _ _ => false

theorem heldB_sound {va : Word} {n : Nat} {acc : Access} {s : State} {q : Word → State → Bool}
    (hw : Memory.wf s.mem) (h : heldB va n acc s q = true) :
    ∃ pa u, translate va acc s = .ok pa u ∧ q pa u = true ∧ (∀ new, ∃ t, PhysWrites pa n new u t) ∧
      ∃ v w, PhysReads pa n u v w ∧ ∀ new, ∃ t, PhysWrites pa n new w t := by
  unfold heldB at h
  split at h
  · next pa u e =>
    rw [Bool.and_eq_true] at h
    have wu := ((translate_framed va acc s).ok e).memory hw
    have writes : ∀ (w : State), Memory.wf w.mem → w.plat = u.plat → ∀ new, ∃ t, PhysWrites pa n new w t := by
      intro w ww hp new
      cases k : physWrite pa n new w with
      | some t => exact ⟨t, physWrites_of_physWrite ww (fun _ _ => rfl) k⟩
      | none =>
        have := unmapped_of_physWrite k
        rw [Unmapped, hp] at this
        rw [this] at h
        exact absurd h.1 (by simp)
    refine ⟨pa, u, e, h.2, writes u wu rfl, ?_⟩
    cases k : physRead pa n u with
    | some p =>
      obtain ⟨v, r⟩ := physReads_of_physRead k
      exact ⟨v, p.2, r, writes p.2 ((physRead_frame k).memory wu) (physRead_frame k).plat⟩
    | none =>
      have := unmapped_of_physRead k
      rw [Unmapped] at this
      rw [this] at h
      exact absurd h.1 (by simp)
  · exact absurd h (by simp)

/-- Whether a result is a next state. -/
def isNext (r : Result) : Bool :=
  match r with
  | .next _ => true
  | _ => false

theorem isNext_sound {r : Result} (h : isNext r = true) : ∃ t, r = .next t := by
  unfold isNext at h
  split at h
  · next t => exact ⟨t, rfl⟩
  · exact absurd h (by simp)

/-- The last doubleword of RAM is in x1, x2 and x8. -/
def atTop : State := withRegs [(1, 0x80007FF8), (2, 0x80007FF8), (8, 0x80007FF8)] fpMachine

/-- Misaligned addresses in x1, x2 and x8, performed bytewise, up to the last byte of RAM. -/
def splitTop : State :=
  { withRegs [(1, 0x80007FF7), (2, 0x80007FF7), (8, 0x80007FF7)] fpMachine with
    plat := { Platform.reset with misaligned := .bytewise } }

/-- Misaligned addresses under trap. -/
def oddTop : State := withRegs [(1, 0x80007FF7), (2, 0x80007FF7), (8, 0x80007FF7)] fpMachine

/-- The first addresses past RAM. -/
def pastTop : State := withRegs [(1, 0x80008000), (2, 0x80008000), (8, 0x80008000)] fpMachine

/-- The address of each form of load and store, at offset 0 from x1, x8 or x2. -/
def accessAddrs (s : State) : List Word :=
  let c := readX (BitVec.ofNat 5 (8 + (0 : CRegNum).toNat)) s
  [readX 1 s + (0 : BitVec 12).signExtend 64, c + (0 : BitVec 7).setWidth 64,
    c + (0 : BitVec 8).setWidth 64, readX 2 s + (0 : BitVec 8).setWidth 64,
    readX 2 s + (0 : BitVec 9).setWidth 64, readX 1 s]

/-- The machine with the page tables, FS on, and `a` in x1, x2 and x8. -/
def pagedAt (a : Word) : State :=
  withCsrs [(.mstatus, 0x2000)] (withRegs [(1, a), (2, a), (8, a)] paged)

theorem witness_ShiftImmediateResults :
    ¬((0 : RegNum) = 0 ∧ (0 : RegNum) = 0 ∧ (30 : BitVec 6) = 31) ∧
    ¬((0 : RegNum) = 0 ∧ (1 : RegNum) = 0 ∧ (31 : BitVec 6) = 31) ∧
    ¬((0 : RegNum) = 0 ∧ (0 : RegNum) = 0 ∧ (8 : BitVec 6) = 7) ∧
    ¬((1 : RegNum) = 0 ∧ (0 : RegNum) = 0 ∧ (7 : BitVec 6) = 7) := by decide

/-- Each width, aligned at the end of RAM and bytewise. -/
theorem witness_LoadResults :
    (∀ n ∈ [1, 2, 4, 8], PlainAccess (readX 1 atTop + (0 : BitVec 12).signExtend 64) n .read atTop) ∧
    (∀ n ∈ [1, 2, 4, 8], PlainAccess (readX 1 splitTop + (0 : BitVec 12).signExtend 64) n .read splitTop) := by
  have h : ([1, 2, 4, 8].all fun n =>
      plainB (readX 1 atTop + (0 : BitVec 12).signExtend 64) n .read atTop &&
      plainB (readX 1 splitTop + (0 : BitVec 12).signExtend 64) n .read splitTop) = true := by
    decide +kernel
  rw [List.all_eq_true] at h
  exact ⟨fun n hn => plainB_sound (Bool.and_eq_true .. ▸ h n hn).1,
    fun n hn => plainB_sound (Bool.and_eq_true .. ▸ h n hn).2⟩

theorem witness_StoreResults :
    Memory.wf atTop.mem ∧ Memory.wf splitTop.mem ∧
    (∀ n ∈ [1, 2, 4, 8], PlainAccess (readX 1 atTop + (0 : BitVec 12).signExtend 64) n .write atTop) ∧
    (∀ n ∈ [1, 2, 4, 8], PlainAccess (readX 1 splitTop + (0 : BitVec 12).signExtend 64) n .write splitTop) := by
  have h : ([1, 2, 4, 8].all fun n =>
      plainB (readX 1 atTop + (0 : BitVec 12).signExtend 64) n .write atTop &&
      plainB (readX 1 splitTop + (0 : BitVec 12).signExtend 64) n .write splitTop) = true := by
    decide +kernel
  rw [List.all_eq_true] at h
  exact ⟨by decide +kernel, by decide +kernel, fun n hn => plainB_sound (Bool.and_eq_true .. ▸ h n hn).1,
    fun n hn => plainB_sound (Bool.and_eq_true .. ▸ h n hn).2⟩

/-- The same, the page at 0x5000 mapped too where `next`, misaligned accesses performed bytewise. -/
def spanAt (a : Word) (next : Bool) (m : PartialStore) : State :=
  let s := if next then withDouble 0x80004028 0x20001807 (pagedAt a) else pagedAt a
  { s with
    plat := { Platform.reset with misaligned := .bytewise, partialStore := m }
    tape := { s.tape with tlbUse := List.replicate 16 0 } }

/-- A device at 0x10000000, that address in x1, x2 and x8, x3 to store, and what the device reads as. -/
def deviceAt (reads : List Word) : State :=
  let s := withRegs [(1, 0x10000000), (2, 0x10000000), (3, 0x1122334455667788), (8, 0x10000000)] fpMachine
  { s with
    plat := { Platform.reset with pmap := ⟨0x10000000, 0x1000, .device 0⟩ :: Platform.reset.pmap }
    tape := { s.tape with deviceRead := reads } }

/-- Whether each form of load and of store of each width succeeds, or each fails. -/
def accessesB (ok : Bool) (widths : List Nat) (s : State) : Bool :=
  decide (Memory.wf s.mem ∧ s.hart.csr.mstatus.toNat / 2 ^ 13 % 4 ≠ 0) &&
    (accessAddrs s).all fun a => widths.all fun n => decide (n ≤ 8) && okB (memRead a n s) == ok &&
      [readX 3 s, readF 3 s].all fun v => okB (memWrite a n v s) == ok

/-- Each form succeeds in a translated page, in a device and bytewise across two pages; each fails
where translation raises, past RAM, where a misaligned access traps and at the second byte of a
bytewise access. -/
theorem witness_TranslatedAccesses :
    (∀ p ∈ [([1, 2, 4, 8], pagedAt 0x4000), ([1, 2, 4, 8], deviceAt [0]),
        ([2, 4, 8], spanAt 0x4FFF true .kept), ([2, 4, 8], spanAt 0x4FFF true .undone)],
      Memory.wf p.2.mem ∧ FpOn p.2 ∧ ∀ a ∈ accessAddrs p.2, ∀ n ∈ p.1,
        (∃ v w, LoadDone a n p.2 v w) ∧ ∀ v ∈ [readX 3 p.2, readF 3 p.2], ∃ w, StoreDone a n v p.2 w) ∧
    (∀ p ∈ [([1, 2, 4, 8], pagedAt 0x5000), ([1, 2, 4, 8], pastTop), ([2, 4, 8], oddTop),
        ([2, 4, 8], spanAt 0x4FFF false .kept), ([2, 4, 8], spanAt 0x4FFF false .undone)],
      Memory.wf p.2.mem ∧ FpOn p.2 ∧ ∀ a ∈ accessAddrs p.2, ∀ n ∈ p.1,
        (∃ tr w, LoadFails a n p.2 tr w) ∧
        ∀ v ∈ [readX 3 p.2, readF 3 p.2], ∃ tr w, StoreFails a n v p.2 tr w) := by
  have h : (([([1, 2, 4, 8], pagedAt 0x4000), ([1, 2, 4, 8], deviceAt [0]),
      ([2, 4, 8], spanAt 0x4FFF true .kept), ([2, 4, 8], spanAt 0x4FFF true .undone)] :
      List (List Nat × State)).all fun p => accessesB true p.1 p.2) = true := by decide +kernel
  have k : (([([1, 2, 4, 8], pagedAt 0x5000), ([1, 2, 4, 8], pastTop), ([2, 4, 8], oddTop),
      ([2, 4, 8], spanAt 0x4FFF false .kept), ([2, 4, 8], spanAt 0x4FFF false .undone)] :
      List (List Nat × State)).all fun p => accessesB false p.1 p.2) = true := by decide +kernel
  simp only [List.all_eq_true, accessesB, Bool.and_eq_true, beq_iff_eq, decide_eq_true_eq] at h k
  exact ⟨fun p hp => ⟨(h p hp).1.1, (h p hp).1.2, fun a ha n hn =>
      ⟨loadDone_of_okB ((h p hp).2 a ha n hn).1.2,
        fun v hv => storeDone_of_okB (h p hp).1.1 (((h p hp).2 a ha n hn).2 v hv)⟩⟩,
    fun p hp => ⟨(k p hp).1.1, (k p hp).1.2, fun a ha n hn =>
      ⟨loadFails_of_okB ((k p hp).2 a ha n hn).1.1 ((k p hp).2 a ha n hn).1.2,
        fun v hv => storeFails_of_okB (k p hp).1.1 (((k p hp).2 a ha n hn).2 v hv)⟩⟩⟩

/-- LR, SC and the AMOs in a translated page and in a device, an SC whose reservation matches and one
whose does not, one whose address no region holds, and a translation that raises. -/
theorem witness_TranslatedAccesses_atomic :
    (∀ s ∈ [pagedAt 0x4000, deviceAt [0]], Memory.wf s.mem ∧ ∀ n ∈ [4, 8], (readX 1 s).toNat % n = 0 ∧
      ∀ acc ∈ [Access.read, .write], ∃ pa u, Sys2Proof.Machine.translate (readX 1 s) acc s = .ok pa u ∧
        u.hart.res ≠ some ⟨pa, n⟩ ∧
        ∃ v w, PhysReads pa n u v w ∧ ∀ new, ∃ t, PhysWrites pa n new w t) ∧
    (∀ p ∈ [(pagedAt 0x4000, 0x80005000#64), (deviceAt [0], 0x10000000#64)], ∀ n ∈ [4, 8],
      let s := p.1.setRes (some ⟨p.2, n⟩)
      Memory.wf s.mem ∧ ∃ pa u, Sys2Proof.Machine.translate (readX 1 s) .write s = .ok pa u ∧
        u.hart.res = some ⟨pa, n⟩ ∧ ∀ new, ∃ t, PhysWrites pa n new u t) ∧
    (∀ n ∈ [4, 8], let s := pastTop.setRes (some ⟨0x80008000, n⟩)
      Sys2Proof.Machine.translate (readX 1 s) .write s = .ok 0x80008000 s ∧
        Unmapped s 0x80008000 n) ∧
    (∀ acc ∈ [Access.read, .write], ∃ tr u,
      Sys2Proof.Machine.translate (readX 1 (pagedAt 0x5000)) acc (pagedAt 0x5000) = .raise tr u) ∧
    ∃ k l, (deviceAt [0]).tape.deviceRead = k :: l := by
  have h : ([pagedAt 0x4000, deviceAt [0]].all fun s => decide (Memory.wf s.mem) && [4, 8].all fun n =>
      (readX 1 s).toNat % n == 0 && [Access.read, .write].all fun acc =>
        heldB (readX 1 s) n acc s fun _ u => u.hart.res == none) = true := by decide +kernel
  have k : ([(pagedAt 0x4000, 0x80005000#64), (deviceAt [0], 0x10000000#64)].all fun p => [4, 8].all fun n =>
      (let s := p.1.setRes (some ⟨p.2, n⟩);
        decide (Memory.wf s.mem) && heldB (readX 1 s) n .write s fun pa u =>
          u.hart.res == some ⟨pa, n⟩)) = true := by decide +kernel
  have r : ([Access.read, .write].all fun acc =>
      !okB (Sys2Proof.Machine.translate (readX 1 (pagedAt 0x5000)) acc (pagedAt 0x5000))) = true := by
    decide +kernel
  simp only [List.all_eq_true, Bool.and_eq_true, beq_iff_eq, decide_eq_true_eq] at h k r
  refine ⟨fun s hs => ⟨(h s hs).1, fun n hn => ⟨((h s hs).2 n hn).1, fun acc hacc => ?_⟩⟩,
    fun p hp n hn => ⟨(k p hp n hn).1, ?_⟩, fun n hn => ⟨?_, ?_⟩,
    fun acc hacc => ?_, ⟨0, [], rfl⟩⟩
  · obtain ⟨pa, u, e, hq, -, v, w, hv⟩ := heldB_sound (h s hs).1 (((h s hs).2 n hn).2 acc hacc)
    exact ⟨pa, u, e, by rw [beq_iff_eq.1 hq]; simp, v, w, hv⟩
  · obtain ⟨pa, u, e, hq, hv, -⟩ := heldB_sound (k p hp n hn).1 (k p hp n hn).2
    exact ⟨pa, u, e, beq_iff_eq.1 hq, hv⟩
  · have e : ∀ n ∈ [4, 8], effectivePriv .write (pastTop.setRes (some ⟨0x80008000, n⟩)) = .M ∧
        readX 1 (pastTop.setRes (some ⟨0x80008000, n⟩)) = 0x80008000 := by decide +kernel
    rw [(e n hn).2]
    exact translate_untranslated (.inl (e n hn).1)
  · unfold Unmapped
    revert n
    decide +kernel
  · have e := r acc hacc
    cases e2 : Sys2Proof.Machine.translate (readX 1 (pagedAt 0x5000)) acc (pagedAt 0x5000) with
    | ok pa u => rw [e2] at e; exact absurd e (by simp [okB])
    | raise tr u => exact ⟨tr, u, rfl⟩

/-- A matching reservation, an absent one and one of the other width, for both widths. -/
theorem witness_ReservedResults :
    Memory.wf atTop.mem ∧
    (∀ n ∈ [4, 8], PlainAtomic (readX 1 atTop) n .read atTop) ∧
    (∀ n ∈ [4, 8], ∀ m ∈ [4, 8], let s := atTop.setRes (some ⟨0x80007FF8, m⟩);
      Memory.wf s.mem ∧ PlainAtomic (readX 1 s) n .write s ∧
      (s.hart.res = some ⟨readX 1 s, n⟩ ↔ n = m)) ∧
    atTop.hart.res ≠ some ⟨readX 1 atTop, 4⟩ ∧ Untranslated .write atTop ∧
    (readX 1 atTop).toNat % 8 = 0 := by
  have h : (∀ n ∈ [4, 8], atomicB (readX 1 atTop) n .read atTop = true) := by decide +kernel
  have h' : (∀ n ∈ [4, 8], ∀ m ∈ [4, 8], let s := atTop.setRes (some ⟨0x80007FF8, m⟩);
      Memory.wf s.mem ∧ atomicB (readX 1 s) n .write s = true ∧
      (s.hart.res = some ⟨readX 1 s, n⟩ ↔ n = m)) := by decide +kernel
  exact ⟨by decide +kernel, fun n hn => atomicB_sound (h n hn),
    fun n hn m hm => ⟨(h' n hn m hm).1, atomicB_sound (h' n hn m hm).2.1, (h' n hn m hm).2.2⟩,
    by decide +kernel, Or.inl (by decide +kernel), by decide +kernel⟩

theorem witness_AmoWordResults :
    Memory.wf atTop.mem ∧ PlainAtomic (readX 1 atTop) 4 .write atTop :=
  ⟨by decide +kernel, atomicB_sound (by decide +kernel)⟩

theorem witness_AmoDoubleResults :
    Memory.wf atTop.mem ∧ PlainAtomic (readX 1 atTop) 8 .write atTop :=
  ⟨by decide +kernel, atomicB_sound (by decide +kernel)⟩

/-- Every clause's address is misaligned; for the atomics, whatever the platform does. -/
theorem witness_MisalignedDataTraps :
    Memory.wf oddTop.mem ∧ Memory.wf splitTop.mem ∧ oddTop.plat.misaligned = .trap ∧ FpOn oddTop ∧
    (∀ n ∈ [2, 4, 8], (readX 1 oddTop + (0 : BitVec 12).signExtend 64).toNat % n ≠ 0) ∧
    (readX (BitVec.ofNat 5 (8 + (0 : CRegNum).toNat)) oddTop + (0 : BitVec 7).setWidth 64).toNat % 4 ≠ 0 ∧
    (readX (BitVec.ofNat 5 (8 + (0 : CRegNum).toNat)) oddTop + (0 : BitVec 8).setWidth 64).toNat % 8 ≠ 0 ∧
    (readX 2 oddTop + (0 : BitVec 8).setWidth 64).toNat % 4 ≠ 0 ∧
    (readX 2 oddTop + (0 : BitVec 9).setWidth 64).toNat % 8 ≠ 0 ∧
    splitTop.plat.misaligned = .bytewise ∧ (readX 1 splitTop).toNat % 4 ≠ 0 ∧
    (readX 1 splitTop).toNat % 8 ≠ 0 := by
  unfold FpOn
  decide +kernel

/-- A bytewise access of each width and form that leaves RAM at its second, its last or its first
byte, under both rules for a store. -/
theorem witness_MisalignedDataTraps_bytewise :
    ∀ m ∈ [PartialStore.kept, .undone], ∀ p ∈ [(0x80007FFF, 1), (0x80007FF9, 7), (0x80008001, 0)],
      let s := splitAt (BitVec.ofNat 64 p.1) m;
      Memory.wf s.mem ∧ s.plat.misaligned = .bytewise ∧ s.plat.partialStore = m ∧ FpOn s ∧
      Untranslated .read s ∧ Untranslated .write s ∧
      (∀ a ∈ accessAddrs s, (∀ n ∈ [2, 4, 8], a.toNat % n ≠ 0) ∧
        (∀ j, j < p.2 → InRam s (a.toNat + j) 1) ∧ Unmapped s (a + BitVec.ofNat 64 p.2).toNat 1) := by
  have h : ([PartialStore.kept, .undone].all fun m =>
      [(0x80007FFF, 1), (0x80007FF9, 7), (0x80008001, 0)].all fun p =>
      let s := splitAt (BitVec.ofNat 64 p.1) m;
      decide (Memory.wf s.mem ∧ s.plat.misaligned = .bytewise ∧ s.plat.partialStore = m ∧
        s.hart.csr.mstatus.toNat / 2 ^ 13 % 4 ≠ 0) && untranslatedB .read s && untranslatedB .write s &&
      (accessAddrs s).all fun a => ([2, 4, 8].all fun n => a.toNat % n != 0) &&
        ((List.range p.2).all fun j => inRamB s (a.toNat + j) 1) &&
        findRegion s.plat.pmap (a + BitVec.ofNat 64 p.2).toNat 1 == none) = true := by decide +kernel
  simp only [List.all_eq_true] at h
  intro m hm p hp
  have e := h m hm p hp
  simp only [Bool.and_eq_true, List.all_eq_true, List.mem_range] at e
  obtain ⟨⟨⟨e1, e2⟩, e3⟩, e4⟩ := e
  obtain ⟨f1, f2, f3, f4⟩ := of_decide_eq_true e1
  refine ⟨f1, f2, f3, f4, untranslatedB_sound e2, untranslatedB_sound e3, fun a ha => ?_⟩
  obtain ⟨⟨g1, g2⟩, g3⟩ := e4 a ha
  exact ⟨fun n hn => by simpa using g1 n hn, fun j hj => inRamB_sound (g2 j hj), beq_iff_eq.1 g3⟩

/-- The first address past RAM in each form, the last before it, a reservation there, and a fetch of
either parcel. -/
theorem witness_UnmappedAccessTraps :
    Untranslated .read pastTop ∧ Untranslated .write pastTop ∧ FpOn pastTop ∧
    ((accessAddrs pastTop).all fun a => [1, 2, 4, 8].all fun n =>
      a.toNat % n == 0 && findRegion pastTop.plat.pmap a.toNat n == none) = true ∧
    (∀ n ∈ [1, 2, 4, 8],
      Unmapped pastTop (readX 1 pastTop + (-8 : BitVec 12).signExtend 64 - 0x8000#64).toNat n) ∧
    (∀ n ∈ [4, 8], let s := pastTop.setRes (some ⟨0x80008000, n⟩);
      Untranslated .write s ∧ s.hart.res = some ⟨readX 1 s, n⟩ ∧ Unmapped s (readX 1 s).toNat n) ∧
    (let u := schedule (pastTop.setPc 0x80008000);
      u.hart.halted = none ∧ u.hart.wfi = false ∧ u.hart.pc.toNat % 2 = 0 ∧ Untranslated .fetch u ∧
      Unmapped u u.hart.pc.toNat 2) ∧
    (let u := schedule ((pastTop.setPc 0x80007FFE).setMem (Memory.writeLE [] 0x80007FFE 2 0x0013));
      u.hart.halted = none ∧ u.hart.wfi = false ∧ u.hart.pc.toNat % 2 = 0 ∧ Untranslated .fetch u ∧
      inRamB u u.hart.pc.toNat 2 = true ∧ (Memory.readByte u.mem u.hart.pc.toNat).toNat % 4 = 3 ∧
      Unmapped u (u.hart.pc + 2).toNat 2) := by
  unfold Untranslated FpOn Unmapped
  decide +kernel

/-- A CSR of M, a read of a user CSR, and a floating-point CSR with FS on. -/
theorem witness_CsrInstructionResults :
    CsrAllowed 0x340 true machine ∧ CsrAllowed 0xC00 ((0 : RegNum) != 0) (inPriv .U machine) ∧
    CsrAllowed 0xC00 ((0 : BitVec 5) != 0) (inPriv .U machine) ∧
    CsrAllowed 0x003 true (inPriv .U fpMachine) ∧ CsrAllowed 0x301 ((1 : RegNum) != 0) machine := by
  refine ⟨⟨?_, ?_, ?_, ?_⟩, ⟨?_, ?_, ?_, ?_⟩, ⟨?_, ?_, ?_, ?_⟩, ⟨?_, ?_, ?_, ?_⟩, ⟨?_, ?_, ?_, ?_⟩⟩ <;>
    decide +kernel

/-- Absent, below its privilege, read-only and written, and floating-point with FS off. -/
theorem witness_CsrAccessFaults :
    ¬CsrAllowed 0x7C0 ((0 : RegNum) != 0) machine ∧ ¬CsrAllowed 0x300 true (inPriv .S machine) ∧
    ¬CsrAllowed 0xC00 true machine ∧ ¬CsrAllowed 0xC00 ((1 : BitVec 5) != 0) machine ∧
    ¬CsrAllowed 0x001 ((0 : BitVec 5) != 0) machine := by
  refine ⟨fun h => absurd h.present (by decide +kernel), fun h => absurd h.priv (by decide +kernel),
    fun h => absurd (h.rw rfl) (by decide), fun h => absurd (h.rw rfl) (by decide),
    fun h => absurd (h.fp (by decide) (by decide)) (by decide +kernel)⟩

theorem witness_StatusWrites : machine.hart.priv = .M ∧ (inPriv .S machine).hart.priv = .S := by
  decide +kernel

/-- Each privilege may access some CSR of its own level, and the stored mip can be full. -/
theorem witness_CsrMaskedWrites :
    (withCsrs [(.mip, 0x222)] machine).hart.csr.mip &&& ~~~0x222#64 = 0 ∧
    (let may := fun (a : CsrAddr) (p : Priv) => a.toNat / 256 % 4 ≤ (privBits p).toNat;
      may 0x003 .U ∧ may 0x002 .U ∧ ¬may 0x144 .U ∧ may 0x144 .S ∧ may 0x180 .S ∧ ¬may 0x344 .S ∧
      may 0x344 .M ∧ may 0xB02 .M) := by decide +kernel

theorem witness_CsrReadValues : (withCsrs [(.mip, 0x222), (.mstatus, 0xE79AA), (.satp, 0xA000000000000000),
    (.mie, 0xAAA), (.fcsr, 0xFF)] machine).hart.csr.legal ∧
    (let may := fun (a : CsrAddr) (p : Priv) => a.toNat / 256 % 4 ≤ (privBits p).toNat;
      may 0xC01 .U ∧ may 0x001 .U ∧ ¬may 0x104 .U ∧ may 0x144 .S ∧ ¬may 0xF14 .S ∧ may 0xF15 .M) ∧
    machine.tape.clint = ⟨0, false, false⟩ :: [⟨0, false, false⟩] := by
  decide +kernel

/-- ECALL from U to S, from U to M, and from M; that from reset has no vector. -/
theorem witness_EcallTakesException :
    (let s := withCsrs [(.medeleg, 0x100)] (system .U);
      s.hart.priv ≠ .H ∧ DelegatedToS false 8 s ∧ baseOf s.hart.csr.stvec ≠ 0) ∧
    (let s := system .U;
      s.hart.priv ≠ .H ∧ ¬DelegatedToS false 8 s ∧ baseOf s.hart.csr.mtvec ≠ 0) ∧
    (let s := system .M;
      s.hart.priv ≠ .H ∧ ¬DelegatedToS false 11 s ∧ baseOf s.hart.csr.mtvec ≠ 0) ∧
    State.reset.hart.priv ≠ .H := by
  unfold DelegatedToS
  decide +kernel

/-- The flag set; a debugger that answers true; one that answers false; none. -/
theorem witness_EbreakOutcomes :
    (machine.setSemihost true).hart.semihost = true ∧ machine.hart.semihost = false ∧
    (∀ b, (drawBreakpoint { machine with
      plat := { Platform.reset with debugger := true }, tape := { breakpoint := [b] } }).1 = b) ∧ machine.plat.debugger = false := by
  refine ⟨by decide +kernel, by decide +kernel, fun b => rfl, by decide +kernel⟩

/-- MPP of each privilege; SRET in S and in M. -/
theorem witness_TrapReturns :
    (∀ p ∈ [Priv.U, .S, .M], let s := withCsrs [(.mstatus, (privBits p).setWidth 64 <<< 11)] machine;
      s.hart.priv = .M ∧ privBits p = s.hart.csr.mstatus.extractLsb' 11 2 ∧ p ≠ .H) ∧
    (inPriv .S machine).hart.priv = .S ∧ machine.hart.priv = .M := by decide +kernel

theorem witness_WfiResults : (inPriv .S machine).hart.priv = .S ∨ (inPriv .S machine).hart.priv = .M := by
  decide +kernel

theorem witness_SfenceFlushes : (inPriv .S machine).hart.priv = .S ∨ (inPriv .S machine).hart.priv = .M := by
  decide +kernel

theorem witness_PrivilegedInstructionsTrap :
    (inPriv .S machine).hart.priv = .S ∧ (inPriv .U machine).hart.priv = .U := by decide +kernel

theorem witness_FpOffTraps :
    (∀ i ∈ [Instr.faddS 3 1 2 7, .flw 3 1 0, .fclassD 5 1, .cFsdsp 3 16], i.mnemonic ∈ fpMnemonics) ∧
    ¬FpOn machine := by
  unfold FpOn
  decide +kernel

/-- The field 5, 6, and 7 under frm 5 and 7. -/
theorem witness_BadRoundingTraps :
    ((Instr.faddS 3 1 2 5).mnemonic ∈ roundedMnemonics ∧
      BadRounding (((Instr.faddS 3 1 2 5).operand .rm).setWidth 3) fpMachine) ∧
    ((Instr.fcvtDW 3 1 6).mnemonic ∈ roundedMnemonics ∧
      BadRounding (((Instr.fcvtDW 3 1 6).operand .rm).setWidth 3) fpMachine) ∧
    BadRounding (((Instr.faddS 3 1 2 7).operand .rm).setWidth 3) (withCsrs [(.fcsr, 0xA0)] fpMachine) ∧
    BadRounding (((Instr.faddS 3 1 2 7).operand .rm).setWidth 3) (withCsrs [(.fcsr, 0xE0)] fpMachine) ∧
    FpOn fpMachine ∧ FpOn (withCsrs [(.fcsr, 0xE0)] fpMachine) := by
  unfold FpOn BadRounding
  exact ⟨⟨by decide +kernel, by decide +kernel⟩, ⟨by decide +kernel, by decide +kernel⟩,
    by decide +kernel, by decide +kernel, by decide +kernel, by decide +kernel⟩

theorem witness_FpLoadStoreResults :
    Memory.wf atTop.mem ∧ FpOn atTop ∧
    (∀ n ∈ [4, 8], ∀ acc ∈ [Access.read, .write],
      PlainAccess (readX 1 atTop + (0 : BitVec 12).signExtend 64) n acc atTop) ∧
    (∀ acc ∈ [Access.read, .write],
      PlainAccess (readX (BitVec.ofNat 5 (8 + (0 : CRegNum).toNat)) atTop + (0 : BitVec 8).setWidth 64) 8
        acc atTop ∧
      PlainAccess (readX 2 atTop + (0 : BitVec 9).setWidth 64) 8 acc atTop) := by
  have h : (∀ n ∈ [4, 8], ∀ acc ∈ [Access.read, .write],
      plainB (readX 1 atTop + (0 : BitVec 12).signExtend 64) n acc atTop = true) := by decide +kernel
  have h' : (∀ acc ∈ [Access.read, .write],
      plainB (readX (BitVec.ofNat 5 (8 + (0 : CRegNum).toNat)) atTop + (0 : BitVec 8).setWidth 64) 8 acc
        atTop = true ∧ plainB (readX 2 atTop + (0 : BitVec 9).setWidth 64) 8 acc atTop = true) := by
    decide +kernel
  exact ⟨by decide +kernel, by unfold FpOn; decide +kernel,
    fun n hn acc ha => plainB_sound (h n hn acc ha),
    fun acc ha => ⟨plainB_sound (h' acc ha).1, plainB_sound (h' acc ha).2⟩⟩

theorem witness_FpSignInjectionResults : FpOn fpMachine := by unfold FpOn; decide +kernel

theorem witness_FpMoveClassResults : FpOn fpMachine := by unfold FpOn; decide +kernel

/-- Every mode, static and dynamic. -/
theorem roundings_met :
    FpOn fpMachine ∧
    (∀ p ∈ [(RoundingMode.rne, (0 : BitVec 3)), (.rtz, 1), (.rdn, 2), (.rup, 3), (.rmm, 4)],
      RoundsBy p.2 p.1 fpMachine) ∧
    (∀ p ∈ [(RoundingMode.rne, (0 : Word)), (.rtz, 0x20), (.rdn, 0x40), (.rup, 0x60), (.rmm, 0x80)],
      let s := withCsrs [(.fcsr, p.2)] fpMachine;
      FpOn s ∧ RoundsBy 7 p.1 s) := by
  unfold FpOn RoundsBy
  decide +kernel

theorem witness_FpFusedResults : FpOn fpMachine ∧ RoundsBy 7 .rne fpMachine := by
  unfold FpOn RoundsBy
  decide +kernel

theorem witness_FpArithmeticResults : FpOn fpMachine ∧ RoundsBy 4 .rmm fpMachine := by
  unfold FpOn RoundsBy
  decide +kernel

theorem witness_FpConversionResults : FpOn fpMachine ∧ RoundsBy 0 .rne fpMachine := by
  unfold FpOn RoundsBy
  decide +kernel

theorem witness_FpToIntegerResults : FpOn fpMachine ∧ RoundsBy 1 .rtz fpMachine := by
  unfold FpOn RoundsBy
  decide +kernel

theorem witness_FpCompareMinMaxResults : FpOn fpMachine := by unfold FpOn; decide +kernel

theorem witness_CompressedLoadStoreResults :
    Memory.wf atTop.mem ∧ Memory.wf splitTop.mem ∧
    (∀ s ∈ [atTop, splitTop], ∀ acc ∈ [Access.read, .write],
      let c := readX (BitVec.ofNat 5 (8 + (0 : CRegNum).toNat)) s;
      PlainAccess (c + (0 : BitVec 7).setWidth 64) 4 acc s ∧
      PlainAccess (c + (0 : BitVec 8).setWidth 64) 8 acc s ∧
      PlainAccess (readX 2 s + (0 : BitVec 8).setWidth 64) 4 acc s ∧
      PlainAccess (readX 2 s + (0 : BitVec 9).setWidth 64) 8 acc s) := by
  have h : (∀ s ∈ [atTop, splitTop], ∀ acc ∈ [Access.read, .write],
      let c := readX (BitVec.ofNat 5 (8 + (0 : CRegNum).toNat)) s;
      plainB (c + (0 : BitVec 7).setWidth 64) 4 acc s = true ∧
      plainB (c + (0 : BitVec 8).setWidth 64) 8 acc s = true ∧
      plainB (readX 2 s + (0 : BitVec 8).setWidth 64) 4 acc s = true ∧
      plainB (readX 2 s + (0 : BitVec 9).setWidth 64) 8 acc s = true) := by decide +kernel
  exact ⟨by decide +kernel, by decide +kernel, fun s hs acc ha =>
    ⟨plainB_sound (h s hs acc ha).1, plainB_sound (h s hs acc ha).2.1,
      plainB_sound (h s hs acc ha).2.2.1, plainB_sound (h s hs acc ha).2.2.2⟩⟩

theorem fetches_of_fetch {s t : State} {len : Nat} {w : InstrWord}
    (h : Sys2Proof.Machine.fetch s = .ok (len, w) t) : Fetches s len w t := by
  rcases fetch_cases s with ⟨l, x, u, k⟩ | ⟨tr, u, k⟩
  · rw [fetch_of_fetches k] at h; cases h; exact k
  · rw [fetch_of_fetchFails k] at h; cases h

theorem fetchFails_of_okB {s : State} (h : okB (Sys2Proof.Machine.fetch s) = false) :
    ∃ tr t, FetchFails s tr t := by
  rcases fetch_cases s with ⟨l, x, u, k⟩ | k
  · rw [fetch_of_fetches k] at h; exact absurd h (by simp [okB])
  · exact k

/-- Whether the hart of a state runs, fetches the word and it decodes so. -/
def fetchesB (s : State) (len : Nat) (w : InstrWord) (r : Except DecodeError Instr) : Bool :=
  s.hart.halted == none && !s.hart.wfi && s.hart.pc.toNat % 2 == 0 &&
    (match decodeWord s.plat.rvcDisabled len w, r with
      | .ok i, .ok j => decide (i = j)
      | .error d, .error e => decide (d = e)
      | _, _ => false) &&
    match Sys2Proof.Machine.fetch s with
    | .ok f _ => f == (len, w)
    | .raise _ _ => false

theorem fetchesB_sound {s : State} {len : Nat} {w : InstrWord} {r : Except DecodeError Instr}
    (h : fetchesB s len w r = true) : s.hart.halted = none ∧ s.hart.wfi = false ∧
      s.hart.pc.toNat % 2 = 0 ∧ (∃ v, Fetches s len w v) ∧ decodeWord s.plat.rvcDisabled len w = r := by
  simp only [fetchesB, Bool.and_eq_true, beq_iff_eq, Bool.not_eq_true'] at h
  obtain ⟨⟨⟨⟨h1, h2⟩, h3⟩, h4⟩, h5⟩ := h
  refine ⟨h1, h2, h3, ?_, ?_⟩
  · split at h5
    · next f v e => exact ⟨v, fetches_of_fetch (by rw [e, beq_iff_eq.1 h5])⟩
    · exact absurd h5 (by simp)
  · split at h4
    · next i j e => rw [e, of_decide_eq_true h4]
    · next i j e => rw [e, of_decide_eq_true h4]
    · exact absurd h4 (by simp)

/-- `paged`, at `pc`, with a doubleword in the page that 0x7000 names, which can be executed. -/
def pagedPc (pc : Word) (a : Nat) (v : Word) : State := (withDouble a v paged).setPc pc

/-- Fetches of both lengths through a page, and one from a device. -/
theorem witness_StepRunsDecodedInstruction_fetch :
    ∀ p ∈ [(pagedPc 0x7000 0x80006000 0x003100B3, 32, addWord, Instr.add 1 2 3),
      (pagedPc 0x7FFE 0x80006FF8 0x0001000000000000, 16, 0x0001, .cNop 0),
      ((deviceAt [0x0001]).setPc 0x10000FFE, 16, 0x0001, .cNop 0)],
      let u := schedule p.1
      u.hart.halted = none ∧ u.hart.wfi = false ∧ u.hart.pc.toNat % 2 = 0 ∧
        (∃ v, Fetches u p.2.1 p.2.2.1 v) ∧ decodeWord u.plat.rvcDisabled p.2.1 p.2.2.1 = .ok p.2.2.2 := by
  have h : ([(pagedPc 0x7000 0x80006000 0x003100B3, 32, addWord, Instr.add 1 2 3),
      (pagedPc 0x7FFE 0x80006FF8 0x0001000000000000, 16, 0x0001, .cNop 0),
      ((deviceAt [0x0001]).setPc 0x10000FFE, 16, 0x0001, .cNop 0)].all fun p =>
      fetchesB (schedule p.1) p.2.1 p.2.2.1 (.ok p.2.2.2)) = true := by decide +kernel
  rw [List.all_eq_true] at h
  exact fun p hp => fetchesB_sound (h p hp)

/-- An ADD at the start of RAM, and a C.NOP in its last halfword. -/
theorem witness_StepRunsDecodedInstruction :
    machine.others = [] ∧
    (let s := schedule (placeWord addWord machine);
      s.hart.halted = none ∧ s.hart.wfi = false ∧ s.hart.pc.toNat % 2 = 0 ∧
      Sys2Proof.Machine.fetch s = .ok (32, addWord) s ∧
      decodeWord s.plat.rvcDisabled 32 addWord = .ok (.add 1 2 3) ∧
      decodeBytes s.plat.rvcDisabled
        ((List.range 4).map fun k => Memory.readByte s.mem (s.hart.pc.toNat + k)) = .ok (.add 1 2 3, []) ∧
      untranslatedB .fetch s = true ∧ inRamB s s.hart.pc.toNat 2 = true ∧
      inRamB s (s.hart.pc.toNat + 2) 2 = true) ∧
    (let s := schedule ((machine.setPc 0x80007FFE).setMem (Memory.writeLE [] 0x80007FFE 2 0x0001));
      s.hart.halted = none ∧ s.hart.wfi = false ∧ s.hart.pc.toNat % 2 = 0 ∧
      decodeBytes s.plat.rvcDisabled
        ((List.range 4).map fun k => Memory.readByte s.mem (s.hart.pc.toNat + k)) =
          .ok (.cNop 0, [0, 0]) ∧
      untranslatedB .fetch s = true ∧ inRamB s s.hart.pc.toNat 2 = true ∧
      inRamB s (s.hart.pc.toNat + 2) 2 = false) := by decide +kernel

/-- A word of no row, in RAM and through a page, and fetches that fail: at the first parcel in
translation and outside every region, and at the second so. -/
theorem witness_StepWithoutInstruction_fetch :
    (∀ s ∈ [placeWord 0xFFFFFFFF machine, pagedPc 0x7000 0x80006000 0xFFFFFFFF],
      let u := schedule s
      u.hart.halted = none ∧ u.hart.wfi = false ∧ u.hart.pc.toNat % 2 = 0 ∧
        (∃ v, Fetches u 32 0xFFFFFFFF v) ∧ decodeWord u.plat.rvcDisabled 32 0xFFFFFFFF = .error .noMatch) ∧
    (∀ s ∈ [paged.setPc 0x8000, machine.setPc 0x7FFFFFF0, pagedPc 0x7FFE 0x80006FF8 0x0013000000000000,
        (machine.setPc 0x80007FFE).setMem (Memory.writeLE [] 0x80007FFE 2 0x0013)],
      let u := schedule s
      u.hart.halted = none ∧ u.hart.wfi = false ∧ u.hart.pc.toNat % 2 = 0 ∧ ∃ tr t, FetchFails u tr t) := by
  have h : ([placeWord 0xFFFFFFFF machine, pagedPc 0x7000 0x80006000 0xFFFFFFFF].all fun s =>
      fetchesB (schedule s) 32 0xFFFFFFFF (.error .noMatch)) = true := by decide +kernel
  have k : ([paged.setPc 0x8000, machine.setPc 0x7FFFFFF0, pagedPc 0x7FFE 0x80006FF8 0x0013000000000000,
      (machine.setPc 0x80007FFE).setMem (Memory.writeLE [] 0x80007FFE 2 0x0013)].all fun s =>
      (let u := schedule s;
        u.hart.halted == none && u.hart.wfi == false && u.hart.pc.toNat % 2 == 0 &&
          okB (Sys2Proof.Machine.fetch u) == false)) = true := by decide +kernel
  simp only [List.all_eq_true, Bool.and_eq_true, beq_iff_eq] at h k
  exact ⟨fun s hs => fetchesB_sound (h s hs), fun s hs =>
    ⟨(k s hs).1.1.1, (k s hs).1.1.2, (k s hs).1.2, fetchFails_of_okB (k s hs).2⟩⟩

/-- A waiting hart, a halted one and an odd pc. -/
theorem witness_StepWithoutInstruction :
    (let s := schedule (machine.setWfi true); s.hart.wfi = true ∧ s.hart.halted = none) ∧
    (schedule (machine.setHalted (some ⟨false, 0, 0, 0⟩))).hart.halted ≠ none ∧
    (let s := schedule (machine.setPc 1);
      s.hart.halted = none ∧ s.hart.wfi = false ∧ s.hart.pc.toNat % 2 = 1) := by decide +kernel

/-- An instruction of each length, at extreme operands. -/
theorem witness_DecodeOfEncode : WellFormed (.jal 31 (-0x100000)) ∧ WellFormed (.beq 0 31 0xFFE) ∧
    WellFormed (.cAddi16sp (-512)) ∧ WellFormed (.cLui 31 (-0x20000)) ∧
    (Instr.cLui 31 (-0x20000)).mnemonic ∈ [Mnemonic.C_LUI] ∧
    (Instr.jal 31 (-0x100000)).mnemonic ∉ [Mnemonic.C_LUI] := by decide

theorem witness_EncodeOfDecode :
    ((16 : Nat) = 32 ∨ ((16 : Nat) = 16 ∧ (0x829A : InstrWord).toNat < 2 ^ 16)) ∧
    decodeWord [] 16 0x829A = .ok (.cMv 5 6) ∧ decodeWord [.C_MV] 16 0x829A = .error .noMatch ∧
    decodeWord [] 32 addWord = .ok (.add 1 2 3) := by decide +kernel

/-- The reset machine with an ADD placed meets the invariant, and steps. -/
theorem witness_StepKeepsInvariant :
    Inv (placeWord addWord machine) ∧ ∃ t, step (placeWord addWord machine) = .next t :=
  ⟨⟨by decide +kernel, by decide +kernel, by decide +kernel, by decide +kernel, by decide +kernel⟩,
    isNext_sound (by decide +kernel)⟩

theorem witness_InvariantAtReset :
    (0x80000000#64).toNat % 2 = 0 ∧ ∀ e ∈ [0x80000000#64, 0xFFFFFFFFFFFFFFFE#64], e.toNat % 2 = 0 := by
  simp

/-- The hart in `hart`, one in `others`, and an odd entry. -/
theorem witness_ResetState :
    (let s := twoHarts 0; s.hart.id ≠ 1 ∧ s.others[0]? = some (Hart.reset 1 0x80000000) ∧
      (Hart.reset 1 0x80000000).id = 1) ∧
    (∀ j (g : Hart), j < 0 → (twoHarts 0).others[j]? = some g → g.id ≠ 1) ∧ (1#64).toNat % 2 = 1 ∧
    State.reset.hart = Hart.reset 0 0x80000000 ∧ (0x80000000#64).toNat % 2 = 0 ∧
    State.reset.hart.id = 0 :=
  ⟨by decide +kernel, fun _ _ h => absurd h (Nat.not_lt_zero _), by decide +kernel⟩

/-- To S and to M, an exception and an interrupt, codes at both ends. -/
theorem witness_TrapEntryState :
    (let s := withCsrs [(.medeleg, 0x8001), (.mideleg, 0x20)] (system .S);
      (15 < 64 ∧ DelegatedToS false 15 s) ∧ DelegatedToS false 0 s ∧ DelegatedToS true 5 s ∧
      baseOf s.hart.csr.stvec ≠ 0) ∧
    (let s := system .M;
      (∀ code ∈ [0, 63], code < 64 ∧ ¬DelegatedToS false code s ∧ ¬DelegatedToS true code s) ∧
      baseOf s.hart.csr.mtvec ≠ 0) := by
  unfold DelegatedToS
  decide +kernel

/-- Both targets, the mode bit set, and another hart that has halted. -/
theorem witness_UnresolvedTrapHalts :
    (let s := withCsrs [(.medeleg, 0x100), (.stvec, 1)] (system .U);
      DelegatedToS false 8 s ∧ baseOf s.hart.csr.stvec = 0 ∧ ∀ h ∈ s.others, h.halted ≠ none) ∧
    (let s := { withCsrs [(.mtvec, 1)] (system .U) with
        others := [{ Hart.reset 1 0 with halted := some ⟨false, 11, 0, 0⟩ }] };
      ¬DelegatedToS true 7 s ∧ baseOf s.hart.csr.mtvec = 0 ∧ ∀ h ∈ s.others, h.halted ≠ none) := by
  unfold DelegatedToS
  decide +kernel

/-- An interrupt for M, one for S only, and none. -/
theorem witness_InterruptPriority :
    let pend := fun (s : State) (k : Nat) => s.hart.csr.mie.getLsbD k &&
      (if k = 3 then (sampleClint s).1.msip else if k = 7 then (sampleClint s).1.mtip
        else s.hart.csr.mip.getLsbD k)
    let forM := fun (s : State) =>
      [3, 7, 1, 5].filter fun k => pend s k && !s.hart.csr.mideleg.getLsbD k
    let forS := fun (s : State) => [1, 5].filter fun k => pend s k && s.hart.csr.mideleg.getLsbD k
    let inMask := fun (s : State) => s.hart.csr.mip &&& ~~~0x222#64 = 0
    (let s := withCsrs [(.mie, 0x8A), (.mip, 2)] (withInputs 0 true true (system .S));
      s.hart.priv ≠ .H ∧ inMask s ∧ forM s = [3, 7, 1] ∧ s.hart.priv ≠ .M) ∧
    (let s := withCsrs [(.mie, 0x22), (.mip, 0x22), (.mideleg, 0x22), (.mstatus, 2)] (system .S);
      s.hart.priv ≠ .H ∧ inMask s ∧ forM s = [] ∧ forS s = [1, 5] ∧ s.hart.priv = .S ∧
      s.hart.csr.mstatus.getLsbD 1 = true) ∧
    (let s := withCsrs [(.mie, 0x80)] (withInputs 0 true false (system .M));
      s.hart.priv ≠ .H ∧ inMask s ∧ forM s = [7] ∧ ¬(s.hart.priv ≠ .M ∨ s.hart.csr.mstatus.getLsbD 3 = true) ∧
      forS s = []) ∧
    (let s := (withCsrs [(.mie, 0x80)] (withInputs 0 true false (system .M))).setWfi true;
      s.hart.priv ≠ .H ∧ inMask s ∧ ([3, 7, 1, 5].any (pend s)) = true) ∧
    (let s := { machine.setWfi true with tape := { machine.tape with wake := [true] } };
      s.hart.priv ≠ .H ∧ inMask s ∧ s.tape.wake = true :: [] ∧ s.hart.wfi = true ∧ ([3, 7, 1, 5].any (pend s)) = false) := by decide +kernel

/-- A draw given, and a step that wrote mcycle, that trapped, in which the hart halted. -/
theorem witness_CountersAdvance : machine.tape.cycle = 1 :: [] ∧ machine.note.wroteMcycle = false ∧
    (machine.setNote { wroteMcycle := true }).note.wroteMcycle = true ∧
    (machine.setNote { trapped := true }).note.trapped = true ∧
    (machine.setHalted (some ⟨false, 0, 0, 0⟩)).hart.halted ≠ none := by decide +kernel

/-- Each clause: MRET to U, WFI, an unresolved ECALL and a backdoor word. -/
theorem witness_ModeChangesOnlyByTheirInstructions :
    let after := fun (i : Instr) (s : State) (p : State → Bool) =>
      match exec i s with
      | .next t => p t
      | _ => false
    after .mret machine (fun t => t.hart.priv != .M) = true ∧
    after .wfi machine (fun t => t.hart.wfi) = true ∧
    after .ecall State.reset (fun t => t.hart.halted.isSome) = true ∧
    after (.slli 0 0 31) machine (fun t => t.hart.semihost) = true := by decide +kernel

/-- A step of the first of two harts, with an entry of each in the TLB. -/
theorem witness_OtherHartsIsolated :
    let s := placeWord addWord ({ powerOn Platform.reset 0x80000000 [0x80000000] [] with
      tape := { cycle := [1], clint := [⟨0, false, false⟩], schedule := [] },
      tlb := [⟨0, 0, 0, 0, 0, 4096, 0⟩, ⟨0, 0, 0, 1, 0, 4096, 0⟩] });
    s.others.length = 1 ∧ ∃ t, step s = .next t :=
  ⟨by decide +kernel, isNext_sound (by decide +kernel)⟩

/-- The PTE at an address of `paged`. -/
def pteAt (a : Nat) : Word := BitVec.ofNat 64 (leNat paged.mem a 8)

/-- A valid PTE, as WalkLevel says it. -/
abbrev valid (pte : Word) : Prop := pteBit pte 0 = true ∧ ¬(pteBit pte 2 = true ∧ pteBit pte 1 = false)

/-- A leaf PTE, as WalkLevel says it. -/
abbrev leaf (pte : Word) : Prop := pteBit pte 1 = true ∨ pteBit pte 3 = true

/-- Each outcome of a level, on the tables of 95_test_vectors section 2.10, and a leaf read from a
device that a read must and need not write back. -/
theorem witness_WalkLevel :
    Memory.wf paged.mem ∧ Unmapped paged 0x1000 8 ∧
    (∀ a ∈ [0x80002000, 0x80003010, 0x80004020, 0x80004028, 0x80004030, 0x80004040],
      PhysReads (BitVec.ofNat 64 a) 8 paged (leNat paged.mem a 8) paged) ∧
    ¬valid (pteAt 0x80004040) ∧ ¬valid (pteAt 0x80004028) ∧
    (valid (pteAt 0x80002000) ∧ ¬leaf (pteAt 0x80002000)) ∧
    (valid (pteAt 0x80004030) ∧ leaf (pteAt 0x80004030) ∧ Denied (pteAt 0x80004030) .read .S 0) ∧
    (valid (pteAt 0x80003010) ∧ leaf (pteAt 0x80003010) ∧ ptePage (pteAt 0x80003010) % 2 ^ (9 * 1) ≠ 0) ∧
    (valid (pteAt 0x80004020) ∧ leaf (pteAt 0x80004020) ∧ ¬Denied (pteAt 0x80004020) .write .S 0 ∧
      ptePage (pteAt 0x80004020) % 2 ^ (9 * 0) = 0) ∧
    Memory.wf (deviceAt []).mem ∧
    (∀ pte ∈ [0x20001407#64, 0x20001447#64], valid pte ∧ leaf pte ∧ ¬Denied pte .read .S 0 ∧
      ptePage pte % 2 ^ (9 * 0) = 0 ∧ ∃ s1, PhysReads 0x10000000 8 (deviceAt [pte]) pte.toNat s1) := by
  have h : ([0x80002000, 0x80003010, 0x80004020, 0x80004028, 0x80004030, 0x80004040].all fun a =>
      inRamB paged (BitVec.ofNat 64 a).toNat 8 && (BitVec.ofNat 64 a).toNat == a) = true := by
    decide +kernel
  simp only [List.all_eq_true, Bool.and_eq_true, beq_iff_eq] at h
  refine ⟨by decide +kernel, by unfold Unmapped; decide +kernel, fun a ha => ?_, by decide +kernel,
    by decide +kernel, by decide +kernel, ⟨by decide +kernel, by decide +kernel, by unfold Denied; decide +kernel⟩,
    by decide +kernel, ⟨by decide +kernel, by decide +kernel, by unfold Denied; decide +kernel,
      by decide +kernel⟩, by decide +kernel, fun pte hp => ?_⟩
  · have e := PhysReads.ram (inRamB_sound (h a ha).1)
    rwa [(h a ha).2] at e
  · simp only [List.mem_cons, List.not_mem_nil, or_false] at hp
    unfold Denied
    rcases hp with rfl | rfl
    · exact ⟨by decide +kernel, by decide +kernel, by decide +kernel, by decide +kernel,
        _, .device 0 ⟨_, rfl, rfl⟩ _ (by decide +kernel)⟩
    · exact ⟨by decide +kernel, by decide +kernel, by decide +kernel, by decide +kernel,
        _, .device 0 ⟨_, rfl, rfl⟩ _ (by decide +kernel)⟩

/-- The ends of the canonical ranges of each mode, and the first addresses outside them. -/
theorem witness_TranslationModes :
    Untranslated .read machine ∧ (∀ s ∈ [paged], effectivePriv .read s = .S) ∧
    (∀ m ∈ [(8, 3, 39), (9, 4, 48), (10, 5, 57)],
      let s := withCsrs [(.satp, BitVec.ofNat 64 (m.1 * 2 ^ 60 + 0x80002))] paged;
      effectivePriv .read s = .S ∧ s.hart.csr.satp.toNat / 2 ^ 60 = m.1 ∧
      (let va : Word := BitVec.ofNat 64 (2 ^ (m.2.2 - 1) - 1);
        -2 ^ (m.2.2 - 1) ≤ va.toInt ∧ va.toInt < 2 ^ (m.2.2 - 1)) ∧
      (let va : Word := BitVec.ofNat 64 (2 ^ (m.2.2 - 1));
        ¬(-2 ^ (m.2.2 - 1) ≤ va.toInt ∧ va.toInt < 2 ^ (m.2.2 - 1))) ∧
      ∀ e ∈ s.tlb, ¬(e.hart = s.hart.id ∧ e.covers 0 = true ∧
        (e.asid = s.hart.csr.satp.extractLsb' 44 16 ∨ e.raw.getLsbD 5 = true))) ∧
    (∀ k ∈ [0, 4], ∃ e : TlbEntry, e.size = BitVec.ofNat 64 (4096 * 2 ^ (9 * k))) := by
  refine ⟨Or.inl (by decide +kernel), by decide +kernel, by decide +kernel, fun k _ =>
    ⟨⟨0, 0, 0, 0, 0, BitVec.ofNat 64 (4096 * 2 ^ (9 * k)), 0⟩, rfl⟩⟩

/-- The machine with the page tables and the entry of the page at 0x4000 read once, in a mode, with
the next draw of TLB_USE, and a device at 0x10000000. -/
def hitIn (mode draw : Nat) (pteAddr : Word) : State :=
  let s := afterTranslate 0x4123 .read paged
  { withCsrs [(.satp, BitVec.ofNat 64 (mode * 2 ^ 60 + 0x80002))] s with
    plat := (deviceAt []).plat
    tlb := s.tlb.map (fun e => { e with pteAddr := pteAddr })
    tape := { tlbUse := [draw] } }

/-- The entries an access to 0x4000 may use, as TlbHit says it. -/
abbrev usableIn (s : State) : List TlbEntry := s.tlb.filter fun e => e.hart == s.hart.id &&
  e.covers (0x4000#64 >>> 12) && (e.asid == s.hart.csr.satp.extractLsb' 44 16 || e.raw.getLsbD 5)

/-- In each mode: an entry not used; one used by a denied fetch, by a read that finds A set, and by a
write that sets D, the PTE in RAM, in a device and outside both. -/
theorem witness_TlbHit :
    (∀ m ∈ [(8, 3, 39), (9, 4, 48), (10, 5, 57)], ∀ draw ∈ [0, 1], ∀ acc ∈ [Access.fetch, .read, .write],
      let s := hitIn m.1 draw 0x80004020;
      Memory.wf s.mem ∧ effectivePriv acc s = .S ∧ s.hart.csr.satp.toNat / 2 ^ 60 = m.1 ∧
      -2 ^ (m.2.2 - 1) ≤ (0x4000#64).toInt ∧ (0x4000#64).toInt < 2 ^ (m.2.2 - 1) ∧
      s.tape.tlbUse = draw :: [] ∧ usableIn s ≠ []) ∧
    (let s := hitIn 8 1 0x80004020;
      (usableIn s)[(drawTlbUse s).1]? = none) ∧
    (∀ a ∈ [0x80004020, 0x10000000, 0x1000], let s := hitIn 8 0 (BitVec.ofNat 64 a);
      ∃ e, (usableIn s)[(drawTlbUse s).1]? = some e ∧ Denied e.raw .fetch .S s.hart.csr.mstatus ∧
        ¬Denied e.raw .read .S s.hart.csr.mstatus ∧ ¬Denied e.raw .write .S s.hart.csr.mstatus ∧
        e.raw ||| 0x40#64 ||| 0 = e.raw ∧ e.raw ||| 0x40#64 ||| 0x80#64 ≠ e.raw ∧
        (Unmapped s e.pteAddr.toNat 8 ↔ a = 0x1000)) := by
  unfold Denied Unmapped
  exact ⟨by decide +kernel, by decide +kernel, fun a ha => ⟨⟨BitVec.ofNat 64 a, 4, 0, 0, 0x80005000, 4096,
    0x20001447⟩, by revert a; decide +kernel⟩⟩

/-- One hart; two, with each draw; two of which one has halted; two halted. -/
theorem witness_ScheduleIsFree :
    machine.others = [] ∧
    (let s := twoHarts 0;
      s.tape.schedule = 0 :: [] ∧ s.others[0]? = some (Hart.reset 1 0x80000000) ∧
      (Hart.reset 1 0x80000000).halted = none ∧ ∃ h ∈ s.hart :: s.others, h.halted = none) ∧
    (let s := twoHarts 1; s.others.length ≤ 1 ∧ s.hart.halted = none) ∧
    (let s := (twoHarts 1).setHalted (some ⟨false, 0, 0, 0⟩);
      (∃ h ∈ s.hart :: s.others, h.halted = none) ∧ ∀ h ∈ [s.hart], h.halted ≠ none) ∧
    (let s := machine.setHalted (some ⟨false, 0, 0, 0⟩);
      ∀ h ∈ s.hart :: s.others, h.halted ≠ none) := by decide +kernel

end Sys2Proof.Tests
end

section
/-! PROOFS. Loads, stores and atomics, translated or not and misaligned (O11, O15). Every load and store
runs as one MemRead or MemWrite at its address: tables of forms say so once, and what an access does
is then in the relations of Safety.lean. -/

namespace Sys2Proof.Machine

/-! ### Values and operands of loads and stores -/

theorem field_zero_ofNat {n : Nat} (hn : n ≤ 64) (v : Nat) :
    field 0 n (BitVec.ofNat 64 v) = BitVec.ofNat n v := by
  apply BitVec.eq_of_toNat_eq
  rw [field, BitVec.extractLsb'_toNat, BitVec.toNat_ofNat, BitVec.toNat_ofNat, Nat.shiftRight_zero,
    Nat.mod_mod_of_dvd _ (Nat.pow_dvd_pow 2 hn)]

theorem low32_ofNat (v : Nat) : low32 (BitVec.ofNat 64 v) = BitVec.ofNat 32 v :=
  BitVec.setWidth_ofNat_of_le (by decide) v

theorem sextWord_field_ofNat {n : Nat} (hn : n ≤ 64) (v : Nat) :
    sextWord (field 0 n (BitVec.ofNat 64 v)) = BitVec.ofInt 64 (BitVec.ofNat n v).toInt := by
  rw [field_zero_ofNat hn]; rfl

theorem sext32_low32_ofNat (v : Nat) :
    sext32 (low32 (BitVec.ofNat 64 v)) = BitVec.ofInt 64 (BitVec.ofNat 32 v).toInt := by
  rw [low32_ofNat]; rfl

/-- Below its width, a value read and zero-extended is itself. -/
theorem zextWord_field_ofNat {n v : Nat} (hn : n ≤ 64) (hv : v < 2 ^ n) :
    zextWord (field 0 n (BitVec.ofNat 64 v)) = BitVec.ofNat 64 v := by
  rw [field_zero_ofNat hn]
  apply BitVec.eq_of_toNat_eq
  rw [zextWord, BitVec.toNat_setWidth, BitVec.toNat_ofNat, BitVec.toNat_ofNat, Nat.mod_eq_of_lt hv]

theorem boxSingle_low32 (v : Word) : boxSingle (low32 v) = boxed v := by
  apply BitVec.eq_of_toNat_eq
  rw [boxSingle, boxed, low32, BitVec.toNat_append, BitVec.toNat_setWidth, BitVec.toNat_ofNat,
    ← Nat.shiftLeft_add_eq_or_of_lt (Nat.mod_lt _ (by decide)), Nat.shiftLeft_eq]
  have : v.toNat % 2 ^ 32 < 2 ^ 32 := Nat.mod_lt _ (by decide)
  simp only [BitVec.toNat_ofNat]
  omega

/-- The register a compressed form's field names, as the statements write it (30_encoding R164). -/
theorem ofNat_eight_add (c : CRegNum) : BitVec.ofNat 5 (8 + c.toNat) = primeReg c := by
  apply BitVec.eq_of_toNat_eq
  simp only [primeReg, BitVec.toNat_ofNat, BitVec.toNat_add, BitVec.toNat_setWidth]
  omega

/-- FS on, as the statements write it, opens the gate (46_float R380). -/
theorem FpOn.gate {s : State} (h : FpOn s) : statusFS s.hart.csr.mstatus ≠ 0 := by
  intro e
  have e := congrArg BitVec.toNat e
  rw [statusFS, field, BitVec.extractLsb'_toNat, Nat.shiftRight_eq_div_pow] at e
  exact h e

theorem settle_fpGate {s : State} (h : FpOn s) (i : Instr) (run : State → Attempt Unit) :
    settle (fpGate i run s) = settle (run s) := by rw [fpGate_on h.gate]

theorem SameBytes.refl (n : Nat) (v : Word) : SameBytes n v v := fun _ _ => rfl

/-! ### What the accesses of the rules leave alone -/

theorem LoadDone.frame {va : Word} {n v : Nat} {s w : State} (hn : n ≤ 8) (h : LoadDone va n s v w) :
    AccessFrame s w := (memRead_framed va n s).ok (memRead_of_loadDone hn h)

theorem PhysReads.frame {pa : Word} {n v : Nat} {s w : State} (hn : n ≤ 8) (h : PhysReads pa n s v w) :
    AccessFrame s w := physRead_frame (physRead_of_reads hn h)

theorem PhysWrites.frame {pa v : Word} {n : Nat} {s w : State} (hw : Memory.wf s.mem)
    (h : PhysWrites pa n v s w) : AccessFrame s w :=
  physWrite_frame (physWrite_of_writes hw (.refl n v) h)

theorem translate_frame {va pa : Word} {acc : Access} {s u : State} (h : translate va acc s = .ok pa u) :
    AccessFrame s u := (translate_framed va acc s).ok h

/-! ### Loads and stores as forms -/

/-- The form's instruction runs as MemRead at its address and then writes the extended value to its
register, by `write`, and retires. -/
structure LoadForm.Runs (write : RegNum → Word → State → State) (p : LoadForm) (s : State) : Prop where
  width : p.width ≤ 8
  runs  : ∃ ext : Word → Word,
    exec p.instr s = settle ((memRead p.addr p.width s).bind fun v w =>
      .ok () (retire p.len (write p.rd (ext v) w))) ∧
    ∀ v, v < 256 ^ p.width → ext (BitVec.ofNat 64 v) = p.ext v

/-- The form's instruction runs as MemWrite at its address of a word with its value's low bytes, and
then retires. -/
def StoreForm.Runs (p : StoreForm) (s : State) : Prop :=
  ∃ x, SameBytes p.width p.value x ∧ exec p.instr s = storeValue p.len p.addr p.width x s

section
variable {write : RegNum → Word → State → State} {p : LoadForm} {s w : State} {tr : Trap}

theorem LoadForm.Runs.of_loadX {i : Instr} {va len : Word} {n : Nat} {rd : RegNum} {ext : Word → Word}
    {val : Nat → Word} (hn : n ≤ 8) (he : exec i s = loadX len rd va n ext s)
    (hx : ∀ v, v < 256 ^ n → ext (BitVec.ofNat 64 v) = val v) :
    (⟨i, va, n, rd, val, len⟩ : LoadForm).Runs writeX s := ⟨hn, ext, he, hx⟩

theorem LoadForm.Runs.of_fpLoad {i : Instr} {va len : Word} {n : Nat} {rd : RegNum} {fmt : FpFmt}
    {val : Nat → Word} (h : FpOn s) (hn : n ≤ 8)
    (he : exec i s = settle (fpGate i (fpLoad fmt len rd va n) s))
    (hx : ∀ v, fpBox fmt (BitVec.ofNat 64 v) = val v) :
    (⟨i, va, n, rd, val, len⟩ : LoadForm).Runs writeFp s :=
  ⟨hn, fpBox fmt, he.trans (settle_fpGate h ..), fun v _ => hx v⟩

/-- A load takes the exception its MemRead raises. -/
theorem LoadForm.Runs.raises (h : p.Runs write s) (e : memRead p.addr p.width s = .raise tr w) :
    exec p.instr s = .next (takeException tr w) := by
  obtain ⟨ext, he, -⟩ := h.runs
  simp only [he, e, Attempt.bind, settle]

theorem LoadForm.Runs.fails (h : p.Runs write s) (hf : LoadFails p.addr p.width s tr w) :
    exec p.instr s = .next (takeException tr w) := h.raises (memRead_of_loadFails hf)

/-- A load whose MemRead succeeds writes its register and retires. -/
theorem LoadForm.Runs.done {v : Nat} (h : p.Runs write s) (hd : LoadDone p.addr p.width s v w) :
    exec p.instr s = .next (retire p.len (write p.rd (p.ext v) w)) := by
  obtain ⟨ext, he, hx⟩ := h.runs
  simp only [he, memRead_of_loadDone h.width hd, Attempt.bind, settle, hx v hd.lt]

theorem LoadForm.Runs.wroteX {v : Nat} (h : p.Runs writeX s) (hd : LoadDone p.addr p.width s v w) :
    RunsTo p.instr s (WroteX p.rd (p.ext v) (s.hart.pc + p.len) w) :=
  ⟨_, h.done hd, (hd.frame h.width).pc_eq ▸ wroteX_retireX w p.len p.rd (p.ext v)⟩

theorem LoadForm.Runs.wroteF {v : Nat} (h : p.Runs writeFp s) (hd : LoadDone p.addr p.width s v w) :
    RunsTo p.instr s (WroteF p.rd (p.ext v) 0 p.len w) :=
  ⟨_, h.done hd, wroteF_retire_writeFp w p.rd (p.ext v) p.len⟩

end

section
variable {p : StoreForm} {s w : State} {tr : Trap}

theorem StoreForm.Runs.fails (h : p.Runs s) (hw : Memory.wf s.mem)
    (hf : StoreFails p.addr p.width p.value s tr w) : exec p.instr s = .next (takeException tr w) := by
  obtain ⟨x, hx, he⟩ := h
  rw [he, storeValue_of_storeFails hw hx hf]

theorem StoreForm.Runs.done (h : p.Runs s) (hw : Memory.wf s.mem)
    (hd : StoreDone p.addr p.width p.value s w) :
    RunsTo p.instr s (OnlyMovedPc (s.hart.pc + p.len) w) := by
  obtain ⟨x, hx, he⟩ := h
  obtain ⟨t, ht, hm⟩ := storeValue_of_storeDone (len := p.len) hw hx hd
  exact ⟨t, he.trans ht, hm⟩

end

/-! ### Every load and store is of that shape -/

section
variable (r q : RegNum) (cr cq : CRegNum) (imm : BitVec 12) (u7 : BitVec 7) (u8 : BitVec 8) (u9 : BitVec 9)
  (s : State)

/-- The integer loads and their compressed forms. -/
def loadForms : List LoadForm :=
  let va := readX r s + imm.signExtend 64
  let c7 := readX (BitVec.ofNat 5 (8 + cr.toNat)) s + u7.setWidth 64
  let c8 := readX (BitVec.ofNat 5 (8 + cr.toNat)) s + u8.setWidth 64
  let p8 := readX 2 s + u8.setWidth 64
  let p9 := readX 2 s + u9.setWidth 64
  let xq := BitVec.ofNat 5 (8 + cq.toNat)
  let sext (n : Nat) (v : Nat) : Word := BitVec.ofInt 64 (BitVec.ofNat n v).toInt
  let zext (v : Nat) : Word := BitVec.ofNat 64 v
  [⟨.lb q r imm, va, 1, q, sext 8, 4⟩, ⟨.lh q r imm, va, 2, q, sext 16, 4⟩,
    ⟨.lw q r imm, va, 4, q, sext 32, 4⟩, ⟨.ld q r imm, va, 8, q, zext, 4⟩,
    ⟨.lbu q r imm, va, 1, q, zext, 4⟩, ⟨.lhu q r imm, va, 2, q, zext, 4⟩,
    ⟨.lwu q r imm, va, 4, q, zext, 4⟩, ⟨.cLw cq cr u7, c7, 4, xq, sext 32, 2⟩,
    ⟨.cLd cq cr u8, c8, 8, xq, zext, 2⟩, ⟨.cLwsp q u8, p8, 4, q, sext 32, 2⟩,
    ⟨.cLdsp q u9, p9, 8, q, zext, 2⟩]

/-- The floating-point loads and their compressed forms. -/
def fpLoadForms : List LoadForm :=
  let va := readX r s + imm.signExtend 64
  let c8 := readX (BitVec.ofNat 5 (8 + cr.toNat)) s + u8.setWidth 64
  let p9 := readX 2 s + u9.setWidth 64
  [⟨.flw q r imm, va, 4, q, fun v => boxed (BitVec.ofNat 64 v), 4⟩,
    ⟨.fld q r imm, va, 8, q, fun v => BitVec.ofNat 64 v, 4⟩,
    ⟨.cFld cq cr u8, c8, 8, BitVec.ofNat 5 (8 + cq.toNat), fun v => BitVec.ofNat 64 v, 2⟩,
    ⟨.cFldsp q u9, p9, 8, q, fun v => BitVec.ofNat 64 v, 2⟩]

/-- The integer stores and their compressed forms. -/
def storeForms : List StoreForm :=
  let va := readX r s + imm.signExtend 64
  let c7 := readX (BitVec.ofNat 5 (8 + cr.toNat)) s + u7.setWidth 64
  let c8 := readX (BitVec.ofNat 5 (8 + cr.toNat)) s + u8.setWidth 64
  let p8 := readX 2 s + u8.setWidth 64
  let p9 := readX 2 s + u9.setWidth 64
  let xq := BitVec.ofNat 5 (8 + cq.toNat)
  [⟨.sb r q imm, va, 1, readX q s, 4⟩, ⟨.sh r q imm, va, 2, readX q s, 4⟩,
    ⟨.sw r q imm, va, 4, readX q s, 4⟩, ⟨.sd r q imm, va, 8, readX q s, 4⟩,
    ⟨.cSw cr cq u7, c7, 4, readX xq s, 2⟩, ⟨.cSd cr cq u8, c8, 8, readX xq s, 2⟩,
    ⟨.cSwsp q u8, p8, 4, readX q s, 2⟩, ⟨.cSdsp q u9, p9, 8, readX q s, 2⟩]

/-- The floating-point stores and their compressed forms. -/
def fpStoreForms : List StoreForm :=
  let va := readX r s + imm.signExtend 64
  let c8 := readX (BitVec.ofNat 5 (8 + cr.toNat)) s + u8.setWidth 64
  let p9 := readX 2 s + u9.setWidth 64
  [⟨.fsw r q imm, va, 4, readF q s, 4⟩, ⟨.fsd r q imm, va, 8, readF q s, 4⟩,
    ⟨.cFsd cr cq u8, c8, 8, readF (BitVec.ofNat 5 (8 + cq.toNat)) s, 2⟩,
    ⟨.cFsdsp q u9, p9, 8, readF q s, 2⟩]

theorem loadForms_run : ∀ p ∈ loadForms r q cr cq imm u7 u8 u9 s, p.Runs writeX s := by
  simp only [loadForms, ofNat_eight_add, List.forall_mem_cons]
  exact ⟨.of_loadX (by decide) rfl fun v _ => sextWord_field_ofNat (by decide) v,
    .of_loadX (by decide) rfl fun v _ => sextWord_field_ofNat (by decide) v,
    .of_loadX (by decide) rfl fun v _ => sextWord_field_ofNat (by decide) v,
    .of_loadX (by decide) rfl fun _ _ => rfl,
    .of_loadX (by decide) rfl fun _ => zextWord_field_ofNat (n := 8) (by decide),
    .of_loadX (by decide) rfl fun _ => zextWord_field_ofNat (n := 16) (by decide),
    .of_loadX (by decide) rfl fun _ => zextWord_field_ofNat (n := 32) (by decide),
    .of_loadX (by decide) rfl fun v _ => sext32_low32_ofNat v, .of_loadX (by decide) rfl fun _ _ => rfl,
    .of_loadX (by decide) rfl fun v _ => sext32_low32_ofNat v, .of_loadX (by decide) rfl fun _ _ => rfl,
    List.forall_mem_nil _⟩

theorem fpLoadForms_run (h : FpOn s) : ∀ p ∈ fpLoadForms r q cr cq imm u8 u9 s, p.Runs writeFp s := by
  simp only [fpLoadForms, ofNat_eight_add, List.forall_mem_cons]
  exact ⟨.of_fpLoad (fmt := .S) h (by decide) rfl fun _ => boxSingle_low32 _,
    .of_fpLoad (fmt := .D) h (by decide) rfl fun _ => rfl,
    .of_fpLoad (fmt := .D) h (by decide) rfl fun _ => rfl,
    .of_fpLoad (fmt := .D) h (by decide) rfl fun _ => rfl, List.forall_mem_nil _⟩

theorem storeForms_run : ∀ p ∈ storeForms r q cr cq imm u7 u8 u9 s, p.Runs s := by
  simp only [storeForms, ofNat_eight_add, List.forall_mem_cons]
  exact ⟨⟨_, sameBytes_lowBytes _ _, rfl⟩, ⟨_, sameBytes_lowBytes _ _, rfl⟩,
    ⟨_, sameBytes_lowBytes _ _, rfl⟩, ⟨_, sameBytes_lowBytes _ _, rfl⟩,
    ⟨_, sameBytes_lowBytes _ _, rfl⟩, ⟨_, .refl _ _, rfl⟩, ⟨_, sameBytes_lowBytes _ _, rfl⟩,
    ⟨_, .refl _ _, rfl⟩, List.forall_mem_nil _⟩

theorem fpStoreForms_run (h : FpOn s) : ∀ p ∈ fpStoreForms r q cr cq imm u8 u9 s, p.Runs s := by
  simp only [fpStoreForms, ofNat_eight_add, List.forall_mem_cons]
  exact ⟨⟨_, sameBytes_lowBytes _ _, settle_fpGate h _ _⟩, ⟨_, sameBytes_lowBytes _ _, settle_fpGate h _ _⟩,
    ⟨_, .refl _ _, settle_fpGate h _ _⟩, ⟨_, .refl _ _, settle_fpGate h _ _⟩, List.forall_mem_nil _⟩

end

/-! ### Atomics -/

/-- Writing `x[rd]` and retiring with a new reservation, seen from before the reservation changed. -/
theorem retireX_setRes (rd : RegNum) (v : Word) (res : Option Reservation) (w : State) :
    HartWroteX rd v (w.hart.pc + 4) w (retireX 4 rd v (w.setRes res)) ∧
      (retireX 4 rd v (w.setRes res)).hart.res = res ∧
      KeepsShared w (retireX 4 rd v (w.setRes res)) := by
  obtain ⟨⟨result, frame, fprs, csrs, pc, retired, id, priv, wfi, semihost, halted⟩, hres,
    ⟨others, memory, tlb, mtime, plat, bus⟩⟩ := wroteX_retireX (w.setRes res) 4 rd v
  exact ⟨⟨result, frame, fprs, csrs, pc, retired, id, priv, wfi, semihost, halted⟩, hres,
    others, memory, tlb, mtime, plat, bus⟩

section
variable {i : Instr} {rd : RegNum} {va : Word} {n : Nat} {s : State}

/-- An aligned LR that can read, by its value and reservation, and one that cannot. -/
theorem loadReserved_outcomes {ext : Word → Word} {val : Nat → Word} (hn : n ≤ 8)
    (he : exec i s = loadReserved rd va n ext s) (hx : ∀ v, ext (BitVec.ofNat 64 v) = val v)
    (ha : va.toNat % n = 0) :
    (∀ pa u v w, translate va .read s = .ok pa u → PhysReads pa n u v w →
      RunsTo i s fun t => HartWroteX rd (val v) (s.hart.pc + 4) w t ∧
        t.hart.res = some ⟨pa, n⟩ ∧ KeepsShared w t) ∧
    ∀ tr w, AccessFails .read va n s tr w → exec i s = .next (takeException tr w) := by
  refine ⟨fun pa u v w ht hr => ?_, fun tr w hf => he.trans (loadReserved_fails ha hf)⟩
  rw [← hx v, ← ((translate_frame ht).trans (hr.frame hn)).pc_eq]
  exact ⟨_, he.trans (loadReserved_done hn ha ht hr), retireX_setRes ..⟩

/-- An aligned SC whose reservation matches but whose bytes no region holds. -/
theorem storeConditional_unmapped {pa v : Word} {u : State} (ha : va.toNat % n = 0)
    (ht : translate va .write s = .ok pa u) (hr : u.hart.res = some ⟨pa, n⟩)
    (hm : Unmapped u pa.toNat n) :
    storeConditional rd va n v s = .next (takeException ⟨.storeAccess, va⟩ u) := by
  simp only [storeConditional, if_pos (aligned_iff.2 ha), ht, Attempt.bind, if_pos hr,
    physWrite_unmapped hm, accessFault, settle]

/-- An aligned SC whose translation raises. -/
theorem storeConditional_raises {v : Word} {w : State} {tr : Trap} (ha : va.toNat % n = 0)
    (ht : translate va .write s = .raise tr w) :
    storeConditional rd va n v s = .next (takeException tr w) := by
  simp only [storeConditional, if_pos (aligned_iff.2 ha), ht, Attempt.bind, settle]

/-- An aligned SC: it writes, faults or fails by its reservation, or its translation raises. -/
theorem storeConditional_outcomes {v : Word} (hw : Memory.wf s.mem)
    (he : exec i s = storeConditional rd va n v s) (ha : va.toNat % n = 0) :
    let ends := fun (result : Word) (w : State) => RunsTo i s fun t =>
      HartWroteX rd result (s.hart.pc + 4) w t ∧ t.hart.res = none ∧ KeepsShared w t
    (∀ pa u, translate va .write s = .ok pa u →
      (u.hart.res = some ⟨pa, n⟩ → ∀ w, PhysWrites pa n v u w → ends 0 w) ∧
      (u.hart.res = some ⟨pa, n⟩ → Unmapped u pa.toNat n →
        exec i s = .next (takeException ⟨.storeAccess, va⟩ u)) ∧
      (u.hart.res ≠ some ⟨pa, n⟩ → ends 1 u)) ∧
    ∀ tr w, translate va .write s = .raise tr w → exec i s = .next (takeException tr w) := by
  refine ⟨fun pa u ht => ⟨fun hr w hp => ?_, fun hr hm => ?_, fun hr => ?_⟩, fun tr w ht => ?_⟩
  · have hf := translate_frame ht
    rw [← (hf.trans (hp.frame (hf.memory hw))).pc_eq]
    exact ⟨_, he.trans (storeConditional_done hw ha ht hr hp), retireX_setRes ..⟩
  · exact he.trans (storeConditional_unmapped ha ht hr hm)
  · rw [← (translate_frame ht).pc_eq]
    exact ⟨_, he.trans (storeConditional_lost ha ht hr), retireX_setRes ..⟩
  · exact he.trans (storeConditional_raises ha ht)

/-- An aligned AMO that can read and write, by what it stores and the value it writes, and one that
cannot. -/
theorem amo_outcomes {op ext : Word → Word} {new val : Nat → Word} (hn : n ≤ 8) (hw : Memory.wf s.mem)
    (he : exec i s = amo rd va n op ext s) (hop : ∀ v, op (BitVec.ofNat 64 v) = new v)
    (hx : ∀ v, ext (BitVec.ofNat 64 v) = val v) (ha : va.toNat % n = 0) :
    (∀ pa u v w t, translate va .write s = .ok pa u → PhysReads pa n u v w →
      PhysWrites pa n (new v) w t → RunsTo i s (WroteX rd (val v) (s.hart.pc + 4) t)) ∧
    ∀ tr w, AccessFails .write va n s tr w → exec i s = .next (takeException tr w) := by
  refine ⟨fun pa u v w t ht hr hp => ?_, fun tr w hf => he.trans (amo_fails ha hf)⟩
  have hsw := (translate_frame ht).trans (hr.frame hn)
  rw [← hx v, ← (hsw.trans (hp.frame (hsw.memory hw))).pc_eq]
  exact ⟨_, he.trans (amo_done hn hw ha ht hr (hop v ▸ .refl n _) hp), wroteX_retireX ..⟩

end

section
variable (rd r q : RegNum) (aq rl : BitVec 1)

/-- The word AMOs with their operations on the old word and the low word of x[rs2]. -/
def amoWords : List (Instr × (BitVec 32 → BitVec 32 → BitVec 32)) :=
  [(.amoswapW rd r q aq rl, fun _ b => b), (.amoaddW rd r q aq rl, fun old b => old + b),
    (.amoxorW rd r q aq rl, fun old b => old ^^^ b), (.amoandW rd r q aq rl, fun old b => old &&& b),
    (.amoorW rd r q aq rl, fun old b => old ||| b),
    (.amominW rd r q aq rl, fun old b => if old.toInt ≤ b.toInt then old else b),
    (.amomaxW rd r q aq rl, fun old b => if old.toInt ≥ b.toInt then old else b),
    (.amominuW rd r q aq rl, fun old b => if old.toNat ≤ b.toNat then old else b),
    (.amomaxuW rd r q aq rl, fun old b => if old.toNat ≥ b.toNat then old else b)]

/-- The doubleword AMOs with their operations on the old doubleword and x[rs2]. -/
def amoDoubles : List (Instr × (Word → Word → Word)) :=
  [(.amoswapD rd r q aq rl, fun _ b => b), (.amoaddD rd r q aq rl, fun old b => old + b),
    (.amoxorD rd r q aq rl, fun old b => old ^^^ b), (.amoandD rd r q aq rl, fun old b => old &&& b),
    (.amoorD rd r q aq rl, fun old b => old ||| b),
    (.amominD rd r q aq rl, fun old b => if old.toInt ≤ b.toInt then old else b),
    (.amomaxD rd r q aq rl, fun old b => if old.toInt ≥ b.toInt then old else b),
    (.amominuD rd r q aq rl, fun old b => if old.toNat ≤ b.toNat then old else b),
    (.amomaxuD rd r q aq rl, fun old b => if old.toNat ≥ b.toNat then old else b)]

theorem ite_sle {n : Nat} (a b x y : BitVec n) :
    (if a.sle b then x else y) = if a.toInt ≤ b.toInt then x else y := by simp [BitVec.sle]

theorem ite_ule {n : Nat} (a b x y : BitVec n) :
    (if a.ule b then x else y) = if a.toNat ≤ b.toNat then x else y := by simp [BitVec.ule]

theorem exec_amoWords (s : State) : ∀ p ∈ amoWords rd r q aq rl,
    exec p.1 s = amoW rd (readX r s) (readX q s) p.2 s := by
  simp only [amoWords, List.forall_mem_cons, ge_iff_le, ← ite_sle, ← ite_ule]
  exact ⟨rfl, rfl, rfl, rfl, rfl, rfl, rfl, rfl, rfl, List.forall_mem_nil _⟩

theorem exec_amoDoubles (s : State) : ∀ p ∈ amoDoubles rd r q aq rl,
    exec p.1 s = amoD rd (readX r s) (readX q s) p.2 s := by
  simp only [amoDoubles, List.forall_mem_cons, ge_iff_le, ← ite_sle, ← ite_ule]
  exact ⟨rfl, rfl, rfl, rfl, rfl, rfl, rfl, rfl, rfl, List.forall_mem_nil _⟩

end

theorem drawDeviceRead_cons {s : State} {k : Word} {l : List Word} (h : s.tape.deviceRead = k :: l) :
    drawDeviceRead s = (k, { s with tape := { s.tape with deviceRead := l } }) := by
  simp only [drawDeviceRead, h]

/-- Settles O11: each form runs as the access its tables give, and each access is one the rules
describe. -/
theorem translatedAccesses : Obligations.TranslatedAccesses := by
  intro r q rd cr cq imm u7 u8 u9 aq rl s hw
  have loads := loadForms_run r q cr cq imm u7 u8 u9 s
  have stores := storeForms_run r q cr cq imm u7 u8 u9 s
  refine ⟨fun p _ => load_cases p.addr p.width s, fun p _ => store_cases p.addr p.width p.value hw,
    fun p hp => ⟨fun _ _ => (loads p hp).fails, fun _ _ => (loads p hp).wroteX⟩,
    fun hfs p hp => ?_, fun p hp => ⟨fun _ _ => (stores p hp).fails hw, fun _ => (stores p hp).done hw⟩,
    fun hfs p hp => ?_, ?_, ?_, fun p hp => ?_, fun p hp => ?_, fun _ _ => drawDeviceRead_cons⟩
  · have h := fpLoadForms_run r q cr cq imm u8 u9 s hfs p hp
    exact ⟨fun _ _ => h.fails, fun _ _ => h.wroteF⟩
  · have h := fpStoreForms_run r q cr cq imm u8 u9 s hfs p hp
    exact ⟨fun _ _ => h.fails hw, fun _ => h.done hw⟩
  · simp only [List.forall_mem_cons]
    exact ⟨loadReserved_outcomes (by decide) rfl sext32_low32_ofNat,
      loadReserved_outcomes (by decide) rfl fun _ => rfl, List.forall_mem_nil _⟩
  · simp only [List.forall_mem_cons]
    exact ⟨storeConditional_outcomes hw rfl, storeConditional_outcomes hw rfl, List.forall_mem_nil _⟩
  · refine amo_outcomes (by decide) hw (exec_amoWords rd r q aq rl s p hp) (fun v => ?_)
      sext32_low32_ofNat
    rw [low32_ofNat]
    rfl
  · exact amo_outcomes (by decide) hw (exec_amoDoubles rd r q aq rl s p hp) (fun _ => rfl) fun _ => rfl

/-! ### Misaligned accesses -/

theorem memRead_unmapped {va : Word} {n k : Nat} {s : State} (hb : s.plat.misaligned = .bytewise)
    (hu : Untranslated .read s) (ha : va.toNat % n ≠ 0) (hk : k < n)
    (hr : ∀ j, j < k → InRam s (va.toNat + j) 1) (hm : Unmapped s (va + BitVec.ofNat 64 k).toNat 1) :
    memRead va n s = .raise ⟨.loadAccess, va + BitVec.ofNat 64 k⟩ s := by
  unfold memRead
  rw [if_neg (fun h => ha (aligned_iff.1 h)), if_neg (by simp [hb])]
  exact readBytewise_unmapped hu hk hr hm

theorem memWrite_unmapped {va : Word} {n k : Nat} {v : Word} {s : State}
    (hb : s.plat.misaligned = .bytewise) (hu : Untranslated .write s) (ha : va.toNat % n ≠ 0)
    (hk : k < n) (hr : ∀ j, j < k → InRam s (va.toNat + j) 1)
    (hm : Unmapped s (va + BitVec.ofNat 64 k).toNat 1) :
    memWrite va n v s = .raise ⟨.storeAccess, va + BitVec.ofNat 64 k⟩
      (match s.plat.partialStore with
        | .kept => ramWritten va.toNat k v s
        | .undone => s) := by
  unfold memWrite
  rw [if_neg (fun h => ha (aligned_iff.1 h)), if_neg (by simp [hb])]
  exact storeBytewise_unmapped hu hk hr hm

theorem StoredAt.sameBytes {a n : Nat} {v w : Word} {s t : State} (h : StoredAt a n w s t)
    (hv : SameBytes n v w) : StoredAt a n v s t :=
  { h with stored := fun k hk => (h.stored k hk).trans (hv k hk).symm }

theorem loadReserved_misaligned {rd : RegNum} {va : Word} {n : Nat} {ext : Word → Word} {s : State}
    (ha : va.toNat % n ≠ 0) :
    loadReserved rd va n ext s = .next (takeException ⟨.loadMisaligned, va⟩ s) := by
  simp only [loadReserved, if_neg (fun h => ha (aligned_iff.1 h)), settle]

theorem storeConditional_misaligned {rd : RegNum} {va v : Word} {n : Nat} {s : State}
    (ha : va.toNat % n ≠ 0) :
    storeConditional rd va n v s = .next (takeException ⟨.storeMisaligned, va⟩ s) := by
  simp only [storeConditional, if_neg (fun h => ha (aligned_iff.1 h)), settle]

theorem amo_misaligned {rd : RegNum} {va : Word} {n : Nat} {op ext : Word → Word} {s : State}
    (ha : va.toNat % n ≠ 0) :
    amo rd va n op ext s = .next (takeException ⟨.storeMisaligned, va⟩ s) := by
  simp only [amo, if_neg (fun h => ha (aligned_iff.1 h)), settle]

section
variable (rd r q : RegNum) (aq rl : BitVec 1) (s : State)

theorem amoWords_misaligned (ha : (readX r s).toNat % 4 ≠ 0) :
    ∀ i ∈ (amoWords rd r q aq rl).map Prod.fst, Traps i s .storeMisaligned (readX r s) s :=
  List.forall_mem_map.2 fun p hp => (exec_amoWords rd r q aq rl s p hp).trans (amo_misaligned ha)

theorem amoDoubles_misaligned (ha : (readX r s).toNat % 8 ≠ 0) :
    ∀ i ∈ (amoDoubles rd r q aq rl).map Prod.fst, Traps i s .storeMisaligned (readX r s) s :=
  List.forall_mem_map.2 fun p hp => (exec_amoDoubles rd r q aq rl s p hp).trans (amo_misaligned ha)

end

section
variable {s : State}

/-- Under `trap` a misaligned load raises before it translates (20_memory R105). -/
theorem LoadForm.Runs.misaligned {write : RegNum → Word → State → State} {p : LoadForm}
    (h : p.Runs write s) (ht : s.plat.misaligned = .trap) (ha : p.addr.toNat % p.width ≠ 0) :
    Traps p.instr s .loadMisaligned p.addr s := h.raises (memRead_misaligned ha ht)

theorem StoreForm.Runs.misaligned {p : StoreForm} (h : p.Runs s) (hw : Memory.wf s.mem)
    (ht : s.plat.misaligned = .trap) (ha : p.addr.toNat % p.width ≠ 0) :
    Traps p.instr s .storeMisaligned p.addr s := h.fails hw (.inr (.inl ⟨ha, ht, rfl, rfl⟩))

/-- A bytewise load stops at the first byte that no region holds, with no effect. -/
theorem LoadForm.Runs.unmapped {write : RegNum → Word → State → State} {p : LoadForm}
    (h : p.Runs write s) (hb : s.plat.misaligned = .bytewise) (hu : Untranslated .read s)
    (ha : p.addr.toNat % p.width ≠ 0) (k : Nat) (hk : k < p.width)
    (hr : ∀ j, j < k → InRam s (p.addr.toNat + j) 1)
    (hm : Unmapped s (p.addr + BitVec.ofNat 64 k).toNat 1) :
    Traps p.instr s .loadAccess (p.addr + BitVec.ofNat 64 k) s :=
  h.raises (memRead_unmapped hb hu ha hk hr hm)

/-- A bytewise store stops at the first byte that no region holds, with nothing written or the bytes
before it (log 13). -/
theorem StoreForm.Runs.unmapped {p : StoreForm} (h : p.Runs s) (hw : Memory.wf s.mem)
    (hb : s.plat.misaligned = .bytewise) (hu : Untranslated .write s)
    (ha : p.addr.toNat % p.width ≠ 0) (k : Nat) (hk : k < p.width)
    (hr : ∀ j, j < k → InRam s (p.addr.toNat + j) 1)
    (hm : Unmapped s (p.addr + BitVec.ofNat 64 k).toNat 1) :
    ∃ u, Traps p.instr s .storeAccess (p.addr + BitVec.ofNat 64 k) u ∧
      (s.plat.partialStore = .undone → u = s) ∧
      (s.plat.partialStore = .kept → StoredAt p.addr.toNat k p.value s u ∧ u.note = s.note ∧
        u.hart = { s.hart with res := survivingRes p.addr.toNat k s.hart.res }) := by
  obtain ⟨x, hx, he⟩ := h
  have e := memWrite_unmapped (v := x) hb hu ha hk hr hm
  refine ⟨_, by rw [Traps, he, storeValue, e]; rfl, fun hp => by rw [hp], fun hp => ?_⟩
  rw [hp]
  exact ⟨(ramWritten_storedAt _ x hw).sameBytes (hx.mono (by omega)), rfl, ramWritten_hart ..⟩

end

/-- Settles O15: each misaligned form takes the exception of the access its tables give. -/
theorem misalignedDataTraps : Obligations.MisalignedDataTraps := by
  intro r q cr cq imm u7 u8 u9 aq rl s hw
  have loads := loadForms_run r q cr cq imm u7 u8 u9 s
  have stores := storeForms_run r q cr cq imm u7 u8 u9 s
  have fpLoads := fpLoadForms_run r q cr cq imm u8 u9 s
  have fpStores := fpStoreForms_run r q cr cq imm u8 u9 s
  simp only [loadForms, storeForms, fpLoadForms, fpStoreForms, List.forall_mem_cons]
    at loads stores fpLoads fpStores
  obtain ⟨-, lh, lw, ld, -, lhu, lwu, cLw, cLd, cLwsp, cLdsp, -⟩ := loads
  obtain ⟨-, sh, sw, sd, cSw, cSd, cSwsp, cSdsp, -⟩ := stores
  refine ⟨fun ht => ⟨?_, ?_, fun h => ⟨cLw.misaligned ht h, cSw.misaligned hw ht h⟩,
      fun h => ⟨cLd.misaligned ht h, cSd.misaligned hw ht h⟩,
      fun h => ⟨cLwsp.misaligned ht h, cSwsp.misaligned hw ht h⟩,
      fun h => ⟨cLdsp.misaligned ht h, cSdsp.misaligned hw ht h⟩, fun hfs => ?_⟩,
    fun ha => ⟨loadReserved_misaligned ha, fun rd => List.forall_mem_cons.2
      ⟨storeConditional_misaligned ha, amoWords_misaligned rd r q aq rl s ha⟩⟩,
    fun ha => ⟨loadReserved_misaligned ha, fun rd => List.forall_mem_cons.2
      ⟨storeConditional_misaligned ha, amoDoubles_misaligned rd r q aq rl s ha⟩⟩,
    fun hb hu => ⟨?_, fun hfs => ?_⟩, fun hb hu => ⟨?_, fun hfs => ?_⟩⟩
  · simp only [List.forall_mem_cons]
    exact ⟨lh.misaligned ht, lhu.misaligned ht, lw.misaligned ht, lwu.misaligned ht, ld.misaligned ht,
      List.forall_mem_nil _⟩
  · simp only [List.forall_mem_cons]
    exact ⟨sh.misaligned hw ht, sw.misaligned hw ht, sd.misaligned hw ht, List.forall_mem_nil _⟩
  · obtain ⟨flw, fld, cFld, cFldsp, -⟩ := fpLoads hfs
    obtain ⟨fsw, fsd, cFsd, cFsdsp, -⟩ := fpStores hfs
    exact ⟨fun h => ⟨flw.misaligned ht h, fsw.misaligned hw ht h⟩,
      fun h => ⟨fld.misaligned ht h, fsd.misaligned hw ht h⟩,
      fun h => ⟨cFld.misaligned ht h, cFsd.misaligned hw ht h⟩,
      fun h => ⟨cFldsp.misaligned ht h, cFsdsp.misaligned hw ht h⟩⟩
  · simp only [List.forall_mem_cons]
    exact ⟨lh.unmapped hb hu, lw.unmapped hb hu, ld.unmapped hb hu, lhu.unmapped hb hu,
      lwu.unmapped hb hu, cLw.unmapped hb hu, cLd.unmapped hb hu, cLwsp.unmapped hb hu,
      cLdsp.unmapped hb hu, List.forall_mem_nil _⟩
  · obtain ⟨flw, fld, cFld, cFldsp, -⟩ := fpLoads hfs
    simp only [List.forall_mem_cons]
    exact ⟨flw.unmapped hb hu, fld.unmapped hb hu, cFld.unmapped hb hu, cFldsp.unmapped hb hu,
      List.forall_mem_nil _⟩
  · simp only [List.forall_mem_cons]
    exact ⟨sh.unmapped hw hb hu, sw.unmapped hw hb hu, sd.unmapped hw hb hu, cSw.unmapped hw hb hu,
      cSd.unmapped hw hb hu, cSwsp.unmapped hw hb hu, cSdsp.unmapped hw hb hu, List.forall_mem_nil _⟩
  · obtain ⟨fsw, fsd, cFsd, cFsdsp, -⟩ := fpStores hfs
    simp only [List.forall_mem_cons]
    exact ⟨fsw.unmapped hw hb hu, fsd.unmapped hw hb hu, cFsd.unmapped hw hb hu,
      cFsdsp.unmapped hw hb hu, List.forall_mem_nil _⟩

end Sys2Proof.Machine
end

section
/-! PROOFS. What executing an instruction can do, said once: privilege and flags change only by their
instructions (O55), and what every instruction keeps of the invariant and of the other harts. -/

namespace Sys2Proof.Machine

/-! ### What the other harts and the platform keep -/

/-- The stepping hart's id and the platform are as before, each other hart is as before but for a lost
reservation, and the TLB entries of the other harts are the same (20_memory R111, R132). -/
structure Isolated (s t : State) : Prop where
  id      : t.hart.id = s.hart.id
  plat    : t.plat = s.plat
  others  : List.Forall₂ (fun h k : Hart => k = { h with res := k.res } ∧
    (k.res = h.res ∨ k.res = none)) s.others t.others
  foreign : t.tlb.filter (fun e => e.hart != s.hart.id) = s.tlb.filter (fun e => e.hart != s.hart.id)

namespace Isolated
variable {s t u : State}

theorem of_same (hi : t.hart.id = s.hart.id) (hp : t.plat = s.plat) (ho : t.others = s.others)
    (ht : t.tlb = s.tlb) : Isolated s t :=
  ⟨hi, hp, ho ▸ AccessFrame.forall₂_refl _, by rw [ht]⟩

theorem of_access (f : AccessFrame s t) : Isolated s t := ⟨f.id_eq, f.plat, f.others, f.foreign⟩

theorem trans (h : Isolated s t) (k : Isolated t u) : Isolated s u where
  id := k.id.trans h.id
  plat := k.plat.trans h.plat
  others := AccessFrame.forall₂_trans h.others k.others
  foreign := by
    have e := k.foreign
    rw [h.id] at e
    exact e.trans h.foreign

end Isolated

/-- SFENCE.VMA removes entries of the hart's own (20_memory R123). -/
theorem isolated_tlbFlush (vaddr : Word) (asid : BitVec 16) (s : State) :
    Isolated s (tlbFlush s.hart.id vaddr asid s) where
  id := rfl
  plat := rfl
  others := AccessFrame.forall₂_refl _
  foreign := by
    show (s.tlb.filter _).filter _ = _
    rw [List.filter_filter]
    refine List.filter_congr fun e _ => ?_
    by_cases h : e.hart = s.hart.id <;> simp [TlbEntry.flushed, h]

theorem isolated_trapEntry (interrupt : Bool) (code : Nat) (tval epc : Word) (s : State) :
    Isolated s (trapEntry interrupt code tval epc s) := by
  obtain ⟨hid, -, -, -, hothers, -, htlb, -, hplat, -, -⟩ := trapEntry_frame interrupt code tval epc s
  exact .of_same hid hplat hothers htlb

theorem isolated_takeException (tr : Trap) (s : State) : Isolated s (takeException tr s) :=
  have h := isolated_trapEntry false (causeCode tr.cause) tr.tval s.hart.pc s
  ⟨h.id, h.plat, h.others, h.foreign⟩

/-! ### Instructions that keep the mode -/

/-- The instructions whose target is the pc plus their immediate. -/
def pcRelative : List Mnemonic :=
  [.JAL, .BEQ, .BNE, .BLT, .BGE, .BLTU, .BGEU, .C_J, .C_BEQZ, .C_BNEZ]

/-- A pc-relative offset is even, as every encoded one is (30_encoding R162, R165). -/
def EvenOffset (i : Instr) : Prop := pcRelative.contains i.mnemonic = true → i.wellFormed = true

theorem EvenOffset.bit {i : Instr} {n : Nat} {imm : BitVec n} (hm : pcRelative.contains i.mnemonic = true)
    (hw : i.wellFormed = !imm.getLsbD 0) (h : EvenOffset i) : imm.getLsbD 0 = false := by
  simpa [hw] using h hm

theorem KeepsMode.trans {s t u : State} (h : KeepsMode s t) (k : KeepsMode t u) : KeepsMode s u :=
  ⟨k.id.trans h.id, k.priv.trans h.priv, k.wfi.trans h.wfi, k.semihost.trans h.semihost,
    k.halted.trans h.halted⟩

/-- What a part of an instruction that does not touch privilege or flags can do. -/
structure Ordinary (i : Instr) (s t : State) : Prop where
  steady   : EvenOffset i → Steady s → Steady t
  mode     : KeepsMode s t
  isolated : Isolated s t

namespace Ordinary
variable {i : Instr} {s t u : State}

theorem trans (h : Ordinary i s t) (k : Ordinary i t u) : Ordinary i s u :=
  ⟨fun hi hs => k.steady hi (h.steady hi hs), h.mode.trans k.mode, h.isolated.trans k.isolated⟩

theorem of_same (hs : EvenOffset i → Steady s → Steady t) (hm : KeepsMode s t)
    (ho : t.others = s.others) (hp : t.plat = s.plat) (ht : t.tlb = s.tlb) : Ordinary i s t :=
  ⟨hs, hm, .of_same hm.id hp ho ht⟩

theorem of_keeps (hs : EvenOffset i → Steady s → Steady t) (hm : KeepsMode s t) (hk : KeepsShared s t) :
    Ordinary i s t := of_same hs hm hk.others hk.plat hk.tlb

theorem refl (i : Instr) (s : State) : Ordinary i s s := of_keeps (fun _ h => h) (.refl s) (.refl s)

theorem of_access (f : AccessFrame s t) : Ordinary i s t where
  steady _ h := h.access f
  mode := ⟨f.id_eq, f.priv_eq, f.wfi_eq, f.semihost_eq, f.halted_eq⟩
  isolated := .of_access f

/-! Ending an instruction. -/

theorem retireTo {rd : RegNum} {v p : Word} (hp : EvenOffset i → Steady s → p &&& 1#64 = 0) :
    Ordinary i s (retireTo p (writeX rd v s)) :=
  have h := wroteX_retireTo s rd v p
  of_keeps (fun hi hs => (hs.writeX rd v).retireTo (hp hi hs)) h.hart.mode h.shared

theorem retireX {len : Word} (hl : len &&& 1#64 = 0) (rd : RegNum) (v : Word) :
    Ordinary i s (retireX len rd v s) :=
  have h := wroteX_retireX s len rd v
  of_keeps (fun _ hs => hs.retireX hl rd v) h.hart.mode h.shared

theorem retire {len : Word} (hl : len &&& 1#64 = 0) : Ordinary i s (retire len s) := retireX hl 0 0

/-- A jump by an even offset. -/
theorem jumpBy {n : Nat} {rd : RegNum} {v : Word} {imm : BitVec n}
    (hv : EvenOffset i → imm.getLsbD 0 = false) :
    Ordinary i s (jumpLink rd v (s.hart.pc + sextWord imm) s) :=
  retireTo fun hi hs => even_add hs.pc (sextWord_even imm (hv hi))

/-- A jump to a computed address, whose bit 0 is cleared. -/
theorem jumpTo {rd : RegNum} {v p : Word} : Ordinary i s (jumpLink rd v (clearBit0 p) s) :=
  retireTo fun _ _ => clearBit0_even p

theorem branch {n : Nat} {len : Word} {imm : BitVec n} (hl : len &&& 1#64 = 0) (taken : Bool)
    (hv : EvenOffset i → imm.getLsbD 0 = false) :
    Ordinary i s (branch len taken (sextWord imm) s) := by
  refine retireTo (rd := 0) (v := 0) fun hi hs => even_add hs.pc ?_
  cases taken
  · exact hl
  · exact sextWord_even imm (hv hi)

/-! Floating-point results. -/

theorem writeFp {len : Word} (hl : len &&& 1#64 = 0) (rd : RegNum) (v : Word) :
    Ordinary i s (Machine.retire len (writeFp rd v s)) :=
  have h := wroteF_retire_writeFp s rd v len
  of_keeps (fun _ hs => ((hs.writeF rd v).setDirtyFS).retire hl) h.mode h.shared

theorem resultF (fmt : FpFmt) (rd : RegNum) (r : FpResult) :
    Ordinary i s (Machine.retire 4 (resultF fmt rd r s)) :=
  have h := wroteF_retire_resultF s fmt rd r 4
  of_keeps (fun _ hs => (((hs.writeF rd _).setDirtyFS).accrue r.flags).retire (by decide)) h.mode h.shared

/-- A result for `x[rd]` with its flags. -/
theorem resultX (rd : RegNum) (v : Word) (fl : BitVec 5) :
    Ordinary i s (Machine.retire 4 (accrue fl (writeX rd v s))) :=
  have h := wroteXFlags_retire_accrue s rd v fl
  of_keeps (fun _ hs => ((hs.writeX rd v).accrue fl).retire (by decide)) h.mode h.shared

/-! Reservations, draws, CSRs and the TLB. -/

theorem setRes {r : Option Reservation} (hr : ∀ q, r = some q → q.width = 4 ∨ q.width = 8) :
    Ordinary i s (s.setRes r) := of_keeps (fun _ hs => hs.setRes hr) ⟨rfl, rfl, rfl, rfl, rfl⟩
      ⟨rfl, fun _ => rfl, rfl, rfl, rfl, rfl⟩

theorem sampleClint : Ordinary i s (sampleClint s).2 :=
  of_same (fun _ hs => hs.sampleClint) (by constructor <;> simp) (by simp) (by simp) (by simp)

theorem drawBreakpoint : Ordinary i s (drawBreakpoint s).2 := by
  rw [drawBreakpoint_state]
  exact of_same (fun _ h => ⟨h.1, h.2, h.3, h.4⟩) ⟨rfl, rfl, rfl, rfl, rfl⟩ rfl rfl rfl

theorem semihostCall : Ordinary i s (semihostCall s) := by
  refine of_same (fun _ h => (h.nextTick.setMem (Memory.normalise_wf _)).writeX ..) ?_ ?_ ?_ ?_
  · constructor <;> simp [Machine.semihostCall]
  all_goals simp [Machine.semihostCall]

theorem setDirtyFS : Ordinary i s (setDirtyFS s) :=
  of_same (fun _ hs => hs.setDirtyFS) ⟨rfl, rfl, rfl, rfl, rfl⟩ rfl rfl rfl

theorem setNote (n : StepNote) : Ordinary i s (s.setNote n) :=
  of_same (fun _ hs => hs.setNote n) ⟨rfl, rfl, rfl, rfl, rfl⟩ rfl rfl rfl

theorem tlbFlush (vaddr : Word) (asid : BitVec 16) : Ordinary i s (tlbFlush s.hart.id vaddr asid s) where
  steady _ hs := ⟨hs.1, hs.2, hs.3, hs.4.filter _⟩
  mode := ⟨rfl, rfl, rfl, rfl, rfl⟩
  isolated := isolated_tlbFlush ..

end Ordinary

/-- A CSR write changes the CSRs alone. -/
theorem CsrWritten.exists_csrFile {v : Word} {s t : State} (h : CsrWritten v s t) :
    ∃ c, t = s.setCsrFile c := by
  cases h <;> exact ⟨_, rfl⟩

theorem CsrWritten.ordinary {i : Instr} {v : Word} {s t : State} (h : CsrWritten v s t) :
    Ordinary i s t := by
  have hs : Steady s → Steady t := fun hs => hs.csrWritten h
  obtain ⟨c, rfl⟩ := h.exists_csrFile
  exact .of_same (fun _ => hs) ⟨rfl, rfl, rfl, rfl, rfl⟩ rfl rfl rfl

theorem ordinary_afterCsrWrite (i : Instr) (a : CsrAddr) (s : State) : Ordinary i s (afterCsrWrite a s) := by
  have h : Ordinary i s (if isFpCsr a then setDirtyFS s else s) := by
    split
    · exact .setDirtyFS
    · exact .refl i s
  unfold afterCsrWrite
  simp only
  split
  · exact h.trans (.setNote _)
  · split
    · exact h.trans (.setNote _)
    · exact h

/-! ### Computations that may raise -/

/-- The state where the computation stops, with or without an exception, satisfies `P`. -/
def Attempt.Ends {α : Type} (P : State → Prop) : Attempt α → Prop
  | .ok _ t => P t
  | .raise _ t => P t

section
variable {α β : Type} {i : Instr} {s : State}

theorem Attempt.Framed.ordinary {c : Attempt α} (h : c.Framed s) : c.Ends (Ordinary i s) := by
  cases c <;> exact .of_access h

theorem Attempt.Ends.bind {c : Attempt α} {f : α → State → Attempt β} (hc : c.Ends (Ordinary i s))
    (hf : ∀ a t, (f a t).Ends (Ordinary i t)) : (c.bind f).Ends (Ordinary i s) := by
  cases c with
  | raise tr t => exact hc
  | ok a t =>
    have h := hf a t
    simp only [Attempt.bind]
    cases e : f a t with
    | ok b u => rw [e] at h; exact Ordinary.trans hc h
    | raise tr u => rw [e] at h; exact Ordinary.trans hc h

theorem ends_fpGate {j : Instr} {run : State → Attempt Unit} (h : (run s).Ends (Ordinary i s)) :
    (fpGate j run s).Ends (Ordinary i s) := by
  unfold fpGate
  split
  · exact .refl i s
  · exact h

theorem ends_csrReadHalf (a : CsrAddr) (doRead : Bool) :
    (csrReadHalf a doRead s).Ends (Ordinary i s) := by
  unfold csrReadHalf
  split
  · split
    · rename_i h
      rcases csrRead_state h with rfl | rfl
      · exact .refl ..
      · exact .sampleClint
    · exact .refl i s
  · exact .refl i s

theorem ends_csrWriteHalf (a : CsrAddr) (doWrite : Bool) (v : Word) :
    (csrWriteHalf a doWrite v s).Ends (Ordinary i s) := by
  unfold csrWriteHalf
  split
  · split
    · rename_i h
      exact (csrWrite_cases h).ordinary.trans (ordinary_afterCsrWrite ..)
    · exact .refl i s
  · exact .refl i s

theorem ends_csrInstr (rd : RegNum) (a : CsrAddr) (doRead doWrite : Bool) (f : Word → Word) :
    (csrInstr rd a doRead doWrite f s).Ends (Ordinary i s) := by
  unfold csrInstr
  split
  · exact .refl i s
  · refine .bind (ends_csrReadHalf ..) fun v t => .bind (ends_csrWriteHalf ..) fun _ u => ?_
    cases doRead
    · exact .retire (by decide)
    · exact .retireX (by decide) rd v

theorem ends_breakpoint {len : Word} (hl : len &&& 1#64 = 0) :
    (breakpoint len s).Ends (Ordinary i s) := by
  unfold breakpoint
  split
  · exact Ordinary.semihostCall.trans (.retire hl)
  · have h : Ordinary i s (drawBreakpoint s).2 := .drawBreakpoint
    split <;> rename_i e <;> rw [e] at h <;> exact h

end

/-! ### What executing an instruction can do -/

/-- What executing an instruction can do: keep the mode, be one of the five instructions that change
it, or raise from a state with the mode kept. -/
inductive Executed (i : Instr) (s : State) : State → Prop
  | kept {t : State} (h : Ordinary i s t) : Executed i s t
  | backdoorSet (hi : i = .slli 0 0 31) : Executed i s (retire 4 (s.setSemihost true))
  | backdoorClear (hi : i = .srai 0 0 7) : Executed i s (retire 4 (s.setSemihost false))
  | mret (hi : i = .mret) : Executed i s (noteRetired (returnM s))
  | sret (hi : i = .sret) : Executed i s (noteRetired (returnS s))
  | wfi (hi : i = .wfi) : Executed i s (waitForInterrupt s)
  | raised {tr : Trap} {u : State} (h : Ordinary i s u) : Executed i s (takeException tr u)

section
variable {i : Instr} {s : State}

theorem settle_executed {c : Attempt Unit} (h : c.Ends (Ordinary i s)) :
    ∃ t, settle c = .next t ∧ Executed i s t := by
  cases c with
  | ok a t => exact ⟨t, rfl, .kept h⟩
  | raise tr u => exact ⟨_, rfl, .raised h⟩

theorem loadX_executed {len : Word} (hl : len &&& 1#64 = 0) (rd : RegNum) (va : Word) (n : Nat)
    (ext : Word → Word) : ∃ t, loadX len rd va n ext s = .next t ∧ Executed i s t :=
  settle_executed <| .bind (memRead_framed ..).ordinary fun v _ => .retireX hl rd (ext v)

theorem storeValue_executed {len : Word} (hl : len &&& 1#64 = 0) (va : Word) (n : Nat) (v : Word) :
    ∃ t, storeValue len va n v s = .next t ∧ Executed i s t :=
  settle_executed <| .bind (memWrite_framed ..).ordinary fun _ _ => .retire hl

theorem fpLoad_executed {j : Instr} {len : Word} (hl : len &&& 1#64 = 0) (fmt : FpFmt) (rd : RegNum)
    (va : Word) (n : Nat) :
    ∃ t, settle (fpGate j (fpLoad fmt len rd va n) s) = .next t ∧ Executed i s t :=
  settle_executed <| ends_fpGate <|
    .bind (memRead_framed ..).ordinary fun v _ => .writeFp hl rd (fpBox fmt v)

theorem fpStore_executed {j : Instr} {len : Word} (hl : len &&& 1#64 = 0) (va : Word) (n : Nat)
    (v : Word) : ∃ t, settle (fpGate j (fpStore len va n v) s) = .next t ∧ Executed i s t :=
  settle_executed <| ends_fpGate <| .bind (memWrite_framed ..).ordinary fun _ _ => .retire hl

theorem loadReserved_executed (rd : RegNum) (va : Word) {n : Nat} (hn : n = 4 ∨ n = 8)
    (ext : Word → Word) : ∃ t, loadReserved rd va n ext s = .next t ∧ Executed i s t := by
  refine settle_executed ?_
  split
  · refine .bind (translate_framed ..).ordinary fun pa t => ?_
    split
    · exact .refl i t
    · rename_i h
      have hr : ∀ q : Reservation, some (⟨pa, n⟩ : Reservation) = some q → q.width = 4 ∨ q.width = 8 := by
        rintro _ ⟨⟩
        exact hn
      exact (Ordinary.of_access (physRead_frame h)).trans ((Ordinary.setRes hr).trans (.retireX (by decide) ..))
  · exact .refl i s

theorem storeConditional_executed (rd : RegNum) (va : Word) (n : Nat) (v : Word) :
    ∃ t, storeConditional rd va n v s = .next t ∧ Executed i s t := by
  have clear : ∀ t : State, Ordinary i t (t.setRes none) := fun _ => .setRes fun _ e => nomatch e
  refine settle_executed ?_
  split
  · refine .bind (translate_framed ..).ordinary fun pa t => ?_
    split
    · split
      · exact .refl i t
      · rename_i h
        exact (Ordinary.of_access (physWrite_frame h)).trans ((clear _).trans (.retireX (by decide) ..))
    · exact (clear t).trans (.retireX (by decide) ..)
  · exact .refl i s

theorem amo_executed (rd : RegNum) (va : Word) (n : Nat) (op ext : Word → Word) :
    ∃ t, amo rd va n op ext s = .next t ∧ Executed i s t := by
  refine settle_executed ?_
  split
  · refine .bind (translate_framed ..).ordinary fun pa t => ?_
    split
    · exact .refl i t
    · rename_i h
      have read : Ordinary i t _ := .of_access (physRead_frame h)
      split
      · exact read
      · rename_i h
        exact read.trans ((Ordinary.of_access (physWrite_frame h)).trans (.retireX (by decide) ..))
  · exact .refl i s

theorem fpRounded_executed {j : Instr} {rm : BitVec 3} {fmt : FpFmt} {op : FpOp} {ops : List Word}
    {finish : FpResult → State → State} (h : ∀ r, Ordinary i s (retire 4 (finish r s))) :
    ∃ t, fpRounded j rm fmt op ops finish s = .next t ∧ Executed i s t := by
  refine settle_executed (ends_fpGate ?_)
  split
  · exact .refl i s
  · exact h _

theorem fpUnrounded_executed {j : Instr} {fmt : FpFmt} {op : FpOp} {ops : List Word}
    {finish : FpResult → State → State} (h : ∀ r, Ordinary i s (retire 4 (finish r s))) :
    ∃ t, fpUnrounded j fmt op ops finish s = .next t ∧ Executed i s t :=
  settle_executed (ends_fpGate (h _))

/-- A privileged instruction raises where its privilege is lacking. -/
theorem privileged_executed {allowed : Bool} (run : State → State) (h : Executed i s (run s)) :
    ∃ t, settle (privileged i allowed (fun s => .ok () (run s)) s) = .next t ∧ Executed i s t := by
  cases allowed
  · exact ⟨_, rfl, .raised (.refl i s)⟩
  · exact ⟨_, rfl, h⟩

theorem execSlli_executed (rd rs1 : RegNum) (shamt : BitVec 6) :
    RunsTo (.slli rd rs1 shamt) s (Executed (.slli rd rs1 shamt) s) := by
  show ∃ t, execSlli rd rs1 shamt s = .next t ∧ _
  unfold execSlli isBackdoorSet
  split
  · rename_i h
    simp only [Bool.and_eq_true, beq_iff_eq] at h
    obtain ⟨⟨rfl, rfl⟩, rfl⟩ := h
    exact ⟨_, rfl, .backdoorSet rfl⟩
  · exact ⟨_, rfl, .kept (.retireX (by decide) ..)⟩

theorem execSrai_executed (rd rs1 : RegNum) (shamt : BitVec 6) :
    RunsTo (.srai rd rs1 shamt) s (Executed (.srai rd rs1 shamt) s) := by
  show ∃ t, execSrai rd rs1 shamt s = .next t ∧ _
  unfold execSrai isBackdoorClear
  split
  · rename_i h
    simp only [Bool.and_eq_true, beq_iff_eq] at h
    obtain ⟨⟨rfl, rfl⟩, rfl⟩ := h
    exact ⟨_, rfl, .backdoorClear rfl⟩
  · exact ⟨_, rfl, .kept (.retireX (by decide) ..)⟩

end

/-- Every instruction answers a next state, by one of the cases of `Executed`. -/
theorem exec_executed (i : Instr) (s : State) : RunsTo i s (Executed i s) := by
  cases i with
  | lui | auipc | addi | slti | sltiu | xori | ori | andi | srli | add | sub | sll | slt | sltu | xor
  | srl | sra | or | and | addiw | slliw | srliw | sraiw | addw | subw | sllw | srlw | sraw
  | mul | mulh | mulhsu | mulhu | div | divu | rem | remu | mulw | divw | divuw | remw | remuw
  | cAddi4spn | cAddi | cAddiw | cLi | cAddi16sp | cLui | cSrli | cSrai | cAndi | cSub | cXor | cOr
  | cAnd | cSubw | cAddw | cSlli | cMv | cAdd => exact ⟨_, rfl, .kept (.retireX (by decide) _ _)⟩
  | fence | fenceI | cNop => exact ⟨_, rfl, .kept (.retire (by decide))⟩
  | slli rd rs1 shamt => exact execSlli_executed ..
  | srai rd rs1 shamt => exact execSrai_executed ..
  | jal => exact ⟨_, rfl, .kept (.jumpBy (EvenOffset.bit rfl rfl))⟩
  | cJ => exact ⟨_, rfl, .kept (.jumpBy (rd := 0) (v := 0) (EvenOffset.bit rfl rfl))⟩
  | jalr | cJalr => exact ⟨_, rfl, .kept .jumpTo⟩
  | cJr => exact ⟨_, rfl, .kept (.jumpTo (rd := 0) (v := 0))⟩
  | beq | bne | blt | bge | bltu | bgeu | cBeqz | cBnez =>
    exact ⟨_, rfl, .kept (.branch (by decide) _ (EvenOffset.bit rfl rfl))⟩
  | lb | lh | lw | ld | lbu | lhu | lwu | cLw | cLd | cLwsp | cLdsp => exact loadX_executed (by decide) ..
  | sb | sh | sw | sd | cSw | cSd | cSwsp | cSdsp => exact storeValue_executed (by decide) ..
  | flw | fld | cFld | cFldsp => exact fpLoad_executed (by decide) ..
  | fsw | fsd | cFsd | cFsdsp => exact fpStore_executed (by decide) ..
  | lrW | lrD => exact loadReserved_executed _ _ (by decide) _
  | scW | scD => exact storeConditional_executed ..
  | amoswapW | amoaddW | amoxorW | amoandW | amoorW | amominW | amomaxW | amominuW | amomaxuW
  | amoswapD | amoaddD | amoxorD | amoandD | amoorD | amominD | amomaxD | amominuD | amomaxuD =>
    exact amo_executed ..
  | csrrw | csrrs | csrrc | csrrwi | csrrsi | csrrci => exact settle_executed (ends_csrInstr ..)
  | ecall => exact ⟨_, rfl, .raised (.refl _ s)⟩
  | ebreak | cEbreak => exact settle_executed (ends_breakpoint (by decide))
  | mret => exact privileged_executed (fun s => noteRetired (returnM s)) (.mret rfl)
  | sret => exact privileged_executed (fun s => noteRetired (returnS s)) (.sret rfl)
  | wfi => exact privileged_executed waitForInterrupt (.wfi rfl)
  | sfenceVma rs1 rs2 =>
    exact privileged_executed
      (fun s => retire 4 (tlbFlush s.hart.id (readX rs1 s) ((readX rs2 s).setWidth 16) s))
      (.kept (.trans (.tlbFlush ..) (.retire (by decide))))
  | fmaddS | fmsubS | fnmsubS | fnmaddS | faddS | fsubS | fmulS | fdivS | fsqrtS
  | fmaddD | fmsubD | fnmsubD | fnmaddD | faddD | fsubD | fmulD | fdivD | fsqrtD
  | fcvtSW | fcvtSWu | fcvtSL | fcvtSLu | fcvtDW | fcvtDWu | fcvtDL | fcvtDLu | fcvtSD | fcvtDS =>
    exact fpRounded_executed fun _ => .resultF ..
  | fcvtWS | fcvtWuS | fcvtLS | fcvtLuS | fcvtWD | fcvtWuD | fcvtLD | fcvtLuD =>
    exact fpRounded_executed fun _ => .resultX ..
  | fminS | fmaxS | fminD | fmaxD => exact fpUnrounded_executed fun _ => .resultF ..
  | fleS | fltS | feqS | fleD | fltD | feqD => exact fpUnrounded_executed fun _ => .resultX ..
  | fsgnjS | fsgnjnS | fsgnjxS | fsgnjD | fsgnjnD | fsgnjxD | fmvWX | fmvDX =>
    exact settle_executed (ends_fpGate (.writeFp (by decide) ..))
  | fclassS | fclassD | fmvXW | fmvXD => exact settle_executed (ends_fpGate (.retireX (by decide) ..))

/-! ### What every instruction keeps -/

/-- WFI samples the timer, may set the wait flag, and retires. -/
theorem waitForInterrupt_eq (s : State) : ∃ b, waitForInterrupt s =
    retire 4 ((sampleClint s).2.setWfi b) := by
  unfold waitForInterrupt
  simp only
  split
  · exact ⟨(sampleClint s).2.hart.wfi, rfl⟩
  · exact ⟨true, rfl⟩

theorem Steady.waitForInterrupt {s : State} (h : Steady s) : Steady (waitForInterrupt s) := by
  obtain ⟨b, e⟩ := waitForInterrupt_eq s
  rw [e]
  exact (h.sampleClint.setWfi b).retire (by decide)

theorem Executed.steady {i : Instr} {s t : State} (h : Executed i s t) (hi : EvenOffset i)
    (hs : Steady s) : Steady t := by
  cases h with
  | kept h => exact h.steady hi hs
  | backdoorSet => exact (hs.setSemihost true).retire (by decide)
  | backdoorClear => exact (hs.setSemihost false).retire (by decide)
  | mret => exact hs.returnM.setNote _
  | sret => exact hs.returnS.setNote _
  | wfi => exact hs.waitForInterrupt
  | raised h => exact (h.steady hi hs).takeException _

theorem Executed.isolated {i : Instr} {s t : State} (h : Executed i s t) : Isolated s t := by
  cases h with
  | kept h => exact h.isolated
  | backdoorSet | backdoorClear | mret | sret => exact .of_same rfl rfl rfl rfl
  | wfi =>
    obtain ⟨b, e⟩ := waitForInterrupt_eq s
    rw [e]
    exact .of_same (by simp [retire]) (by simp [retire]) (by simp [retire]) (by simp [retire])
  | raised h => exact h.isolated.trans (isolated_takeException ..)

/-- Settles O55: the cases of `Executed` name the instructions that change each flag. -/
theorem modeChangesOnlyByTheirInstructions : Obligations.ModeChangesOnlyByTheirInstructions := by
  intro i s t ht
  obtain ⟨u, hu, h⟩ := exec_executed i s
  cases hu.symm.trans ht
  have same {α : Type} {a : α} {p : Prop} (h : a ≠ a) : p := absurd rfl h
  intro trapped
  cases h with
  | kept h =>
    obtain ⟨-, priv, wfi, semihost, halted⟩ := h.mode
    exact ⟨absurd priv, absurd wfi, absurd halted, absurd semihost⟩
  | backdoorSet hi => exact ⟨same, same, same, fun _ => .inl hi⟩
  | backdoorClear hi => exact ⟨same, same, same, fun _ => .inr hi⟩
  | mret hi => exact ⟨fun _ => .inl hi, same, same, same⟩
  | sret hi => exact ⟨fun _ => .inr (.inl hi), same, same, same⟩
  | wfi hi =>
    obtain ⟨b, e⟩ := waitForInterrupt_eq s
    simp only [e, retire, retireTo_priv, retireTo_halted, retireTo_semihost, State.setWfi_priv,
      State.setWfi_halted, State.setWfi_semihost, sampleClint_hart]
    exact ⟨same, fun _ => .inl hi, same, same⟩
  | @raised tr u h =>
    obtain ⟨-, priv, wfi, semihost, halted⟩ := h.mode
    obtain ⟨-, -, -, keeps, -⟩ := trapEntry_frame false (causeCode tr.cause) tr.tval u.hart.pc u
    have raised : trapped := ⟨tr, u, rfl, priv, wfi, halted, semihost⟩
    exact ⟨fun _ => .inr (.inr raised), fun _ => .inr raised, fun _ => raised,
      absurd (keeps.trans semihost)⟩

end Sys2Proof.Machine
end

section
/-! PROOFS. What a step can do: the decoder answers only even offsets, the end of a step (O54), every
step keeps the invariant (O48) and leaves the other harts and the platform alone (O56), and the choice
of the hart that steps (O60). -/

namespace Sys2Proof.Machine

/-! ### Decoded instructions -/

/-- A row of a pc-relative instruction has an immediate whose bit 0 is always 0. -/
theorem registry_evenOffset {d : Definition} (h : d ∈ registry)
    (hm : pcRelative.contains d.mnemonic = true) :
    ∃ o ∈ d.operands, o.name = .imm ∧ o.valueMask.getLsbD 0 = false := by
  have key : (registry.all fun d => !pcRelative.contains d.mnemonic ||
      d.operands.any fun o => o.name == .imm && !o.valueMask.getLsbD 0) = true := by decide +kernel
  have := List.all_eq_true.1 key d h
  rw [hm] at this
  simpa [and_assoc] using this

theorem build_mnemonic (m : Mnemonic) (v : OpName → InstrWord) : (m.build v).mnemonic = m := by
  cases m <;> rfl

/-- What a pc-relative instruction's row builds is well formed where its immediate is even. -/
theorem build_wellFormed {m : Mnemonic} (hm : m ∈ pcRelative) {v : OpName → InstrWord}
    (hv : (v .imm).getLsbD 0 = false) : (m.build v).wellFormed = true := by
  simp only [pcRelative, List.mem_cons, List.not_mem_nil, or_false] at hm
  rcases hm with rfl | rfl | rfl | rfl | rfl | rfl | rfl | rfl | rfl | rfl <;>
    simp [Mnemonic.build, Instr.wellFormed, hv, BitVec.getLsbD_setWidth, -BitVec.getLsbD_eq_getElem]

/-- The decoder answers only even offsets (30_encoding R162, R165). -/
theorem decodeWord_evenOffset {disabled : List Mnemonic} {len : Nat} {w : InstrWord} {i : Instr}
    (h : decodeWord disabled len w = .ok i) : EvenOffset i := by
  unfold decodeWord at h
  split at h
  · rename_i d hd
    cases h
    obtain ⟨hd, -⟩ := lookup_eq_ok.1 hd
    intro hm
    rw [build_mnemonic] at hm
    obtain ⟨o, ho, hn, hb⟩ := registry_evenOffset hd hm
    refine build_wellFormed (List.contains_iff_mem.1 hm) ?_
    rw [← hn, Definition.value_of_mem (registry_sound hd) w ho, ← o.extract_and_valueMask,
      BitVec.getLsbD_and, hb, Bool.and_false]
  · cases h

/-! ### The end of a step -/

/-- The wake check leaves all alone but the wait flag and the draw. -/
theorem wakeCheck_state (c : ClintSample) (s : State) : wakeCheck c s = { s with
    hart := { s.hart with wfi := (wakeCheck c s).hart.wfi }
    tape := (wakeCheck c s).tape, tick := (wakeCheck c s).tick } := by
  unfold wakeCheck
  have e := drawWake_state s
  split
  · split
    · rfl
    · simp only
      split
      · rw [e]; rfl
      · rw [e]
  · rfl

theorem interruptCheck_cases (s : State) :
    ∃ c u, u = wakeCheck c (sampleClint s).2 ∧
      (interruptCheck s = u ∨ ∃ i, interruptCheck s = trapEntry true (irqCode i) 0 u.hart.pc u) := by
  refine ⟨(sampleClint s).1, _, rfl, ?_⟩
  unfold interruptCheck
  simp only
  split
  · exact .inr ⟨_, rfl⟩
  · exact .inl rfl

/-- The CSRs a trap entry may write are mstatus and the target's epc, cause and tval. -/
theorem trapEntry_get (interrupt : Bool) (code : Nat) (tval epc : Word) (s : State) (r : CsrReg)
    (hr : r ∉ [CsrReg.mstatus, .mepc, .mcause, .mtval, .sepc, .scause, .stval]) :
    (trapEntry interrupt code tval epc s).hart.csr.get r = s.hart.csr.get r := by
  rcases trapEntry_cases interrupt code tval epc s with ⟨-, e⟩ | ⟨-, e⟩ <;> rw [e]
  · exact unresolvedTrap_get _ _ _ _ _ _ r hr
  · simp only [State.setRes_csr, State.setWfi_csr, State.setPc_csr, State.setPriv_csr, saveTrap_csr]
    cases r
    case mstatus | mepc | mcause | mtval | sepc | scause | stval => exact absurd (by decide) hr
    all_goals split <;> rfl

section
variable (s : State)

theorem wakeCheck_sample_isolated (c : ClintSample) : Isolated s (wakeCheck c (sampleClint s).2) := by
  rw [wakeCheck_state, sampleClint_state]
  exact .of_same rfl rfl rfl rfl

theorem Steady.wakeCheck_sample {s : State} (h : Steady s) (c : ClintSample) :
    Steady (wakeCheck c (Machine.sampleClint s).2) := by
  have hs := h.sampleClint
  rw [wakeCheck_state]
  exact ⟨hs.1, hs.2, hs.3, hs.4⟩

theorem interruptCheck_isolated : Isolated s (interruptCheck s) := by
  obtain ⟨c, u, rfl, e | ⟨i, e⟩⟩ := interruptCheck_cases s <;> rw [e]
  · exact wakeCheck_sample_isolated s c
  · exact (wakeCheck_sample_isolated s c).trans (isolated_trapEntry ..)

theorem Steady.interruptCheck {s : State} (h : Steady s) : Steady (interruptCheck s) := by
  obtain ⟨c, u, rfl, e | ⟨i, e⟩⟩ := interruptCheck_cases s <;> rw [e]
  · exact h.wakeCheck_sample c
  · exact (h.wakeCheck_sample c).trapEntry ..

theorem interruptCheck_others : (interruptCheck s).others = s.others := by
  obtain ⟨c, u, rfl, e | ⟨i, e⟩⟩ := interruptCheck_cases s <;> rw [e]
  · rw [wakeCheck_state]; simp
  · obtain ⟨-, -, -, -, others, -⟩ := trapEntry_frame true (irqCode i) 0
      (wakeCheck c (sampleClint s).2).hart.pc (wakeCheck c (sampleClint s).2)
    rw [others, wakeCheck_state]; simp

/-- The interrupt check leaves every CSR alone that a trap entry does. -/
theorem interruptCheck_get (r : CsrReg)
    (hr : r ∉ [CsrReg.mstatus, .mepc, .mcause, .mtval, .sepc, .scause, .stval]) :
    (interruptCheck s).hart.csr.get r = s.hart.csr.get r := by
  obtain ⟨c, u, rfl, e | ⟨i, e⟩⟩ := interruptCheck_cases s <;> rw [e]
  · rw [wakeCheck_state]; simp
  · rw [trapEntry_get _ _ _ _ _ r hr, wakeCheck_state]; simp

theorem Steady.advanceCounters {s : State} (h : Steady s) : Steady (advanceCounters s) := by
  rw [advanceCounters_state]
  exact ⟨h.1, h.2, h.3, h.4⟩

theorem advanceCounters_isolated : Isolated s (advanceCounters s) := by
  rw [advanceCounters_state]
  exact .of_same rfl rfl rfl rfl

theorem endStep_eq : endStep s = { (if s.note.trapped = true ∨ s.hart.halted ≠ none
    then advanceCounters s else interruptCheck (advanceCounters s)) with note := {} } := by
  have note : (advanceCounters s).note = s.note := by rw [advanceCounters_state]
  have halted : (advanceCounters s).hart.halted = s.hart.halted := by rw [advanceCounters_state]
  simp only [endStep, note, halted, State.setNote, Bool.or_eq_true, Option.isSome_iff_ne_none]

theorem Steady.endStep {s : State} (h : Steady s) : Steady (endStep s) := by
  have : Steady (if s.note.trapped = true ∨ s.hart.halted ≠ none then Machine.advanceCounters s
      else Machine.interruptCheck (Machine.advanceCounters s)) := by
    split
    · exact h.advanceCounters
    · exact h.advanceCounters.interruptCheck
  rw [endStep_eq]
  exact ⟨this.1, this.2, this.3, this.4⟩

theorem endStep_isolated : Isolated s (endStep s) := by
  have : Isolated s (if s.note.trapped = true ∨ s.hart.halted ≠ none then advanceCounters s
      else interruptCheck (advanceCounters s)) := by
    split
    · exact advanceCounters_isolated s
    · exact (advanceCounters_isolated s).trans (interruptCheck_isolated _)
  rw [endStep_eq]
  exact ⟨this.1, this.2, this.3, this.4⟩

/-- The draw the advance of the counters makes, or that it makes none. -/
theorem advanceCounters_draw :
    (s.note.wroteMcycle = true → (advanceCounters s).tape = s.tape ∧ (advanceCounters s).tick = s.tick) ∧
    (s.note.wroteMcycle = false → ∀ v l, s.tape.cycle = v :: l →
      (advanceCounters s).tape = { s.tape with cycle := l } ∧ (advanceCounters s).tick = s.tick) := by
  refine ⟨fun h => ?_, fun h v l e => ?_⟩
  · simp only [advanceCounters, h, if_true]
    constructor <;> split <;> rfl
  · simp only [advanceCounters, h, drawCycle, e, Bool.false_eq_true, if_false]
    constructor <;> split <;> rfl

end

/-- Settles O54: the end of a step is the advance of the counters and then the interrupt check, which
leaves both counters and the other harts alone. -/
theorem countersAdvance : Obligations.CountersAdvance := by
  intro s
  have adv := advanceCounters_state s
  have e := endStep_eq s
  have keeps : ∀ r : CsrReg, r ∉ [CsrReg.mstatus, .mepc, .mcause, .mtval, .sepc, .scause, .stval] →
      (endStep s).hart.csr.get r = (advanceCounters s).hart.csr.get r := fun r hr => by
    rw [e]
    show (State.hart (if _ then _ else _)).csr.get r = _
    split
    · rfl
    · exact interruptCheck_get _ r hr
  refine ⟨⟨advanceCounters s, adv, (advanceCounters_draw s).1, (advanceCounters_draw s).2, e⟩,
    ?_, ?_, ?_, ?_, fun v l h => ?_⟩
  · exact (keeps .mcycle (by decide)).trans (by rw [adv]; rfl)
  · exact (keeps .minstret (by decide)).trans (by rw [adv]; rfl)
  · rw [e]
    show State.others (if _ then _ else _) = _
    split
    · rw [adv]
    · rw [interruptCheck_others, adv]
  · rw [e]
  · simp only [drawCycle, h]

/-! ### The step -/

/-- What a step of a hart can do before the end of the step: nothing, where it waits; fetch and raise;
or fetch and execute. -/
theorem runHart_cases {s t : State} (h : runHart s = .next t) : ∃ u, t = endStep u ∧ (u = s ∨
    ∃ v, AccessFrame s v ∧ ((∃ tr, u = takeException tr v) ∨ ∃ i, EvenOffset i ∧ Executed i v u)) := by
  unfold runHart at h
  split at h
  · cases h
    exact ⟨s, rfl, .inl rfl⟩
  · split at h
    · cases h
    · have f := fetch_framed s
      cases e : fetch s with
      | raise tr v =>
        rw [e] at h f
        cases h
        exact ⟨_, rfl, .inr ⟨v, f, .inl ⟨tr, rfl⟩⟩⟩
      | ok w v =>
        rw [e] at h f
        simp only [execWord] at h
        split at h
        · rename_i i hi
          obtain ⟨u, hu, he⟩ := exec_executed i v
          rw [hu] at h
          cases h
          exact ⟨u, rfl, .inr ⟨v, f, .inr ⟨i, decodeWord_evenOffset hi, he⟩⟩⟩
        · cases h
          exact ⟨_, rfl, .inr ⟨v, f, .inl ⟨_, rfl⟩⟩⟩
        · cases h

theorem runHart_steady {s t : State} (hs : Steady s) (h : runHart s = .next t) : Steady t := by
  obtain ⟨u, rfl, rfl | ⟨v, f, ⟨tr, rfl⟩ | ⟨i, hi, e⟩⟩⟩ := runHart_cases h
  · exact hs.endStep
  · exact ((hs.access f).takeException tr).endStep
  · exact (e.steady hi (hs.access f)).endStep

theorem runHart_isolated {s t : State} (h : runHart s = .next t) : Isolated s t := by
  obtain ⟨u, rfl, rfl | ⟨v, f, ⟨tr, rfl⟩ | ⟨i, -, e⟩⟩⟩ := runHart_cases h
  · exact endStep_isolated u
  · exact (Isolated.of_access f).trans ((isolated_takeException tr v).trans (endStep_isolated _))
  · exact (Isolated.of_access f).trans (e.isolated.trans (endStep_isolated _))

theorem runHart_note {s t : State} (h : runHart s = .next t) : t.note = {} := by
  obtain ⟨u, rfl, -⟩ := runHart_cases h
  rw [endStep_eq]

/-- A step that answers a next state is one of the hart chosen. -/
theorem step_next {s t : State} (h : step s = .next t) : runHart (schedule s) = .next t := by
  unfold step stepHart at h
  split at h
  · cases h
  · exact h

/-- Settles O48: the choice of the hart, the fetch, the instruction and the end of the step each keep
the invariant but for its clause on the note, which the end of the step clears. -/
theorem stepKeepsInvariant : Obligations.StepKeepsInvariant := by
  intro s t hs h
  have h := step_next h
  have st := runHart_steady hs.steady.schedule h
  exact ⟨st.memory, st.hart, st.others, st.tlb, runHart_note h⟩

/-- Settles O56: the choice only moves the harts, and a step of the hart chosen leaves the others alone. -/
theorem otherHartsIsolated : Obligations.OtherHartsIsolated := by
  intro s t h
  obtain ⟨id, plat, others, foreign⟩ := runHart_isolated (step_next h)
  exact ⟨schedule_perm s, id, plat.trans (schedule_plat s), others, foreign.trans (by rw [schedule_tlb])⟩

/-- Settles O60: what the schedule's laws say of the hart chosen. -/
theorem scheduleIsFree : Obligations.ScheduleIsFree := by
  intro s
  refine ⟨schedule_alone, schedule_perm s, by simp, by simp, by simp, by simp, by simp, by simp,
    fun h => ⟨schedule_canStep h, step_runs h⟩, step_halted, fun k l ht => ⟨fun g hk hg => ?_, fun hk hn => ?_⟩⟩
  · exact schedule_draw ht hk hg
  · exact schedule_keep ht hk hn

end Sys2Proof.Machine
end

section
/-! PROOFS. The CSRs: what a read and a write of each does (O20, O21, O22), and what the CSR
instructions do with them (O18, O19). -/

namespace Sys2Proof.Machine

/-! ### Masked values -/

theorem and_eq_of_masked {v m : Word} (h : v &&& ~~~m = 0) : v &&& m = v := by
  rw [masked_iff] at h
  apply BitVec.eq_of_getLsbD_eq
  intro i _
  rw [BitVec.getLsbD_and]
  cases e : m.getLsbD i
  · rw [h i e, Bool.false_and]
  · exact Bool.and_true _

/-- A word inside a mask is inside every wider one. -/
theorem masked_mono {v m n : Word} (h : v &&& ~~~m = 0) (hm : m &&& ~~~n = 0) : v &&& ~~~n = 0 := by
  rw [← and_eq_of_masked h, BitVec.and_assoc, hm]
  exact BitVec.and_zero

theorem and_allOnes64 (v : Word) : v &&& allOnes64 = v := BitVec.and_allOnes

theorem merge_allOnes64 (old v : Word) : (old &&& ~~~allOnes64) ||| (v &&& allOnes64) = v := by
  rw [allOnes64, BitVec.not_allOnes, BitVec.and_zero, BitVec.zero_or, BitVec.and_allOnes]

/-- Where no bit is in both, OR is addition. -/
theorem or_eq_add {v w : Word} (h : v &&& w = 0) : v ||| w = v + w := (BitVec.add_eq_or_of_and_eq_zero v w h).symm

/-- Words whose bits lie in disjoint masks have none in common. -/
theorem and_eq_zero_of_masked {v w m n : Word} (hv : v &&& ~~~m = 0) (hw : w &&& ~~~n = 0)
    (h : m &&& n = 0) : v &&& w = 0 := by
  rw [← and_eq_of_masked hv, ← and_eq_of_masked hw]
  have e : v &&& m &&& (w &&& n) = v &&& w &&& (m &&& n) := by ac_rfl
  rw [e, h]
  exact BitVec.and_zero

/-! ### A CSR's row decides what its access does -/

section
variable {a : CsrAddr} {p : Priv} {m : CsrMeta} {h : CsrHome} {mask : Word}

/-- A read of the CSR of row `m`, whose alias chain ends in `h` (10_state R50). -/
theorem csrRead_row (hf : csrFind a = some m)
    (hk : resolveAlias csrTable.length m.kind m.readMask = some (h, mask))
    (hp : a.toNat / 256 % 4 ≤ (privBits p).toNat) {s t : State} {v : Word}
    (hv : (homeRead h s).1 &&& mask = v) (ht : (homeRead h s).2 = t) : csrRead a p s = .ok (v, t) := by
  simp only [csrRead, hf, if_neg ((csrPriv_le a p).1 hp), hk, hv, ht]

/-- A write of the CSR of row `m`, whose alias chain ends in `h`, where the row is not itself computed
(10_state R51). -/
theorem csrWrite_row (hf : csrFind a = some m)
    (hk : resolveAlias csrTable.length m.kind m.readMask = some (h, mask))
    (hc : ∀ c, m.kind ≠ .home (.computed c)) (hp : a.toNat / 256 % 4 ≤ (privBits p).toNat)
    (hr : csrReadOnly a = false) (v : Word) (s : State) :
    csrWrite a v p s = .ok (homeWrite h m.writeMask v s) := by
  have hp := (csrPriv_le a p).1 hp
  obtain ⟨addr, (r | c) | b, readMask, writeMask⟩ := m
  · simp only [csrWrite, hf, if_neg hp, hr, Bool.false_eq_true, if_false, hk]
  · exact absurd rfl (hc c)
  · simp only [csrWrite, hf, if_neg hp, hr, Bool.false_eq_true, if_false, hk]

/-- A write of a computed CSR with a setter (10_state R51). -/
theorem csrWrite_setter {c : ComputedCsr} {readMask writeMask : Word}
    (hf : csrFind a = some (computedCsr a c readMask writeMask))
    (hp : a.toNat / 256 % 4 ≤ (privBits p).toNat) (hs : hasSetter c = true) (hr : csrReadOnly a = false)
    (v : Word) (s : State) : csrWrite a v p s = .ok (computedWrite c (v &&& writeMask) s) := by
  simp only [csrWrite, hf, if_neg ((csrPriv_le a p).1 hp), hr, Bool.false_eq_true, if_false, computedCsr, hs,
    if_true]

/-- A write of a CSR with storage merges under its mask. -/
theorem csrWrite_plain (r : CsrReg) (hf : csrFind a = some (plainCsr a r mask))
    (hp : a.toNat / 256 % 4 ≤ (privBits p).toNat) (v : Word) (s : State)
    (hl : ∀ o w, legalise r o w = w := by exact fun _ _ => rfl)
    (hr : csrReadOnly a = false := by rfl) :
    csrWrite a v p s = .ok (setCsr r ((getCsr r s &&& ~~~mask) ||| (v &&& mask)) s) := by
  rw [csrWrite_row hf rfl (fun _ => nofun) hp hr]
  simp only [homeWrite, hl, plainCsr]

/-- A write of a CSR that takes every bit replaces its storage. -/
theorem csrWrite_whole (r : CsrReg) (hf : csrFind a = some (plainCsr a r allOnes64))
    (hp : a.toNat / 256 % 4 ≤ (privBits p).toNat) (v : Word) (s : State)
    (hl : ∀ o w, legalise r o w = w := by exact fun _ _ => rfl)
    (hr : csrReadOnly a = false := by rfl) : csrWrite a v p s = .ok (setCsr r v s) := by
  rw [csrWrite_plain r hf hp v s hl hr, merge_allOnes64]

/-- A write of a view of a CSR merges into that CSR under the view's mask. -/
theorem csrWrite_alias {b : CsrAddr} {m : CsrMeta} {readMask writeMask : Word}
    (hf : csrFind a = some (aliasCsr a b readMask writeMask)) (hb : csrFind b = some m)
    (hm : m.kind = .home h) (hp : a.toNat / 256 % 4 ≤ (privBits p).toNat) (v : Word) (s : State)
    (hr : csrReadOnly a = false := by rfl) :
    csrWrite a v p s = .ok (homeWrite h writeMask v s) := by
  refine csrWrite_row hf (mask := readMask &&& m.readMask) ?_ (fun _ => nofun) hp hr v s
  show resolveAlias (34 + 1) (.aliasOf b) readMask = _
  simp only [resolveAlias, hb, hm]

end

/-! ### Values of single CSRs -/

/-- satp takes a value whose MODE is one it can hold (10_state R80). -/
theorem legalise_satp_eq (old new : Word) : legalise .satp old new =
    if new.toNat / 2 ^ 60 ∈ [0, 8, 9, 10] then new else old := by
  have key : ∀ k : BitVec 4, (decide (k = 0) || (modeLevels k).isSome) = true ↔ k.toNat ∈ [0, 8, 9, 10] := by
    decide
  have e : (satpMode new).toNat = new.toNat / 2 ^ 60 := by
    rw [satpMode, field, BitVec.extractLsb'_toNat, Nat.shiftRight_eq_div_pow]
    have := new.isLt
    omega
  simp only [legalise, key, e]

/-- frm is bits 7:5 of fcsr (10_state R61). -/
theorem putField_frm (old v : Word) :
    putField 5 (field 0 3 (v &&& 7#64)) old = (old &&& ~~~0xE0#64) ||| ((v &&& 7#64) <<< 5) := by
  have e : (field 0 3 (v &&& 7#64)).setWidth 64 = v &&& 7#64 := by
    apply BitVec.eq_of_toNat_eq
    rw [BitVec.toNat_setWidth, field, BitVec.extractLsb'_toNat, Nat.shiftRight_zero, BitVec.toNat_and]
    have : v.toNat &&& (7#64).toNat ≤ 7 := Nat.and_le_right
    omega
  rw [putField, e]
  rfl

/-- Settles O21: each CSR's row merges under its mask. -/
theorem csrMaskedWrites : Obligations.CsrMaskedWrites := by
  intro v p s may
  refine ⟨fun h => csrWrite_plain .medeleg rfl h v s, fun h => csrWrite_plain .mideleg rfl h v s,
    fun h => csrWrite_plain .mie rfl h v s, fun h => csrWrite_alias (h := .plain .mie) rfl rfl rfl h v s,
    fun h => csrWrite_plain .mtvec rfl h v s, fun h => csrWrite_plain .stvec rfl h v s,
    fun h => csrWrite_plain .mcounteren rfl h v s, fun h => csrWrite_plain .scounteren rfl h v s,
    fun h => csrWrite_plain .mepc rfl h v s, fun h => csrWrite_plain .sepc rfl h v s,
    fun h => csrWrite_plain .fcsr rfl h v s, fun h => csrWrite_alias (h := .plain .fcsr) rfl rfl rfl h v s,
    fun h => csrWrite_whole .mscratch rfl h v s, fun h => csrWrite_whole .sscratch rfl h v s,
    fun h => csrWrite_whole .mcause rfl h v s, fun h => csrWrite_whole .scause rfl h v s,
    fun h => csrWrite_whole .mtval rfl h v s, fun h => csrWrite_whole .stval rfl h v s,
    fun h => csrWrite_whole .mcycle rfl h v s, fun h => csrWrite_whole .minstret rfl h v s,
    ?_, fun hmip => ⟨fun h => ?_, fun h => ?_⟩, fun h => ?_, fun h => csrWrite_setter (c := .misa) rfl h rfl rfl v s⟩
  · rw [csrWrite_setter (c := .frm) rfl (Nat.zero_le _) rfl rfl]
    exact congrArg (fun w => Except.ok (setCsr .fcsr w s)) (putField_frm s.hart.csr.fcsr v)
  · rw [csrWrite_setter (c := .mip) rfl h rfl rfl]
    refine congrArg (fun w => Except.ok (setCsr .mip w s)) ?_
    rw [BitVec.and_assoc, BitVec.and_self]
    rfl
  · rw [csrWrite_alias (h := .computed .mip) rfl rfl rfl h]
    refine congrArg (fun w => Except.ok (setCsr .mip w s)) ?_
    exact and_eq_of_masked (Steady.merge_masked hmip (by decide))
  · rw [csrWrite_row (m := plainCsr 0x180 .satp allOnes64) rfl rfl (fun _ => nofun) h rfl]
    refine congrArg (fun w => Except.ok (setCsr .satp w s)) ?_
    rw [← legalise_satp_eq]
    exact congrArg (legalise .satp s.hart.csr.satp) (merge_allOnes64 ..)

/-! ### What each CSR reads -/

section
variable {a : CsrAddr} {p : Priv} {mask : Word} {s : State}

/-- A read of a CSR with storage whose bits lie in its mask gives its storage. -/
theorem csrRead_plain (r : CsrReg) (hf : csrFind a = some (plainCsr a r mask))
    (hr : r ≠ .mstatus) (hp : a.toNat / 256 % 4 ≤ (privBits p).toNat)
    (hl : getCsr r s &&& ~~~mask = 0) : csrRead a p s = .ok (getCsr r s, s) := by
  have e : homeRead (.plain r) s = (getCsr r s, s) := by
    cases r
    case mstatus => exact absurd rfl hr
    all_goals rfl
  exact csrRead_row hf rfl hp (by rw [e]; exact and_eq_of_masked hl) (by rw [e])

/-- A read of a CSR all of whose bits are its own gives its storage. -/
theorem csrRead_whole (r : CsrReg) (hf : csrFind a = some (plainCsr a r allOnes64))
    (hr : r ≠ .mstatus) (hp : a.toNat / 256 % 4 ≤ (privBits p).toNat) :
    csrRead a p s = .ok (getCsr r s, s) :=
  csrRead_plain r hf hr hp (by rw [allOnes64, BitVec.not_allOnes]; exact BitVec.and_zero)

/-- A read of a computed CSR that shows every bit gives what its supplier gives. -/
theorem csrRead_computed (c : ComputedCsr) {writeMask : Word}
    (hf : csrFind a = some (computedCsr a c allOnes64 writeMask))
    (hp : a.toNat / 256 % 4 ≤ (privBits p).toNat) :
    csrRead a p s = .ok (homeRead (.computed c) s) :=
  csrRead_row hf rfl hp (and_allOnes64 _) rfl

end

/-- frm reads bits 7:5 of fcsr (10_state R61). -/
theorem fcsrFrm_masked (v : Word) : zextWord (fcsrFrm v) &&& 7#64 = BitVec.ofNat 64 (v.toNat / 32 % 8) := by
  have key : ∀ b : BitVec 3, zextWord b &&& 7#64 = BitVec.ofNat 64 b.toNat := by decide
  rw [key, fcsrFrm, field, BitVec.extractLsb'_toNat, Nat.shiftRight_eq_div_pow]

/-- mip's inputs are added to its stored bits (10_state R72). -/
theorem mipValue_eq {stored : Word} (h : stored &&& ~~~0x222#64 = 0) (c : ClintSample) :
    mipValue stored c = stored + (if c.msip then 8 else 0) + (if c.mtip then 0x80 else 0) := by
  have hs : (if c.msip then 8#64 else 0) &&& ~~~8#64 = 0 := by cases c.msip <;> decide
  have ht : (if c.mtip then 0x80#64 else 0) &&& ~~~0x80#64 = 0 := by cases c.mtip <;> decide
  have h' : (stored ||| (if c.msip then 8#64 else 0)) &&& ~~~0x22a#64 = 0 := by
    rw [BitVec.and_or_distrib_right, masked_mono h (by decide), masked_mono hs (by decide)]
    exact BitVec.or_zero
  exact (or_eq_add (and_eq_zero_of_masked h' ht (by decide))).trans
    (congrArg (· + _) (or_eq_add (and_eq_zero_of_masked h hs (by decide))))

/-- sip's mask leaves the inputs out of what mip reads (10_state R73). -/
theorem mipValue_masked {stored : Word} (h : stored &&& ~~~0x222#64 = 0) (c : ClintSample) :
    mipValue stored c &&& 0x222#64 = stored := by
  have hs : (if c.msip then 8#64 else 0) &&& 0x222#64 = 0#64 := by cases c.msip <;> decide
  have ht : (if c.mtip then 0x80#64 else 0) &&& 0x222#64 = 0#64 := by cases c.mtip <;> decide
  rw [mipValue, BitVec.and_or_distrib_right, BitVec.and_or_distrib_right, and_eq_of_masked h, hs, ht,
    BitVec.or_zero, BitVec.or_zero]

/-- Settles O22: each CSR's row gives what its storage or its supplier holds under its mask. -/
theorem csrReadValues : Obligations.CsrReadValues := by
  intro p s hl may
  obtain ⟨fcsr, -, -, medeleg, mideleg, mie, mip, mtvec, stvec, mepc, sepc, mcounteren, scounteren, -⟩ := hl
  refine ⟨sampleClint_sampled s, fun h => csrRead_plain .medeleg rfl nofun h medeleg,
    fun h => csrRead_plain .mideleg rfl nofun h mideleg, fun h => csrRead_plain .mie rfl nofun h mie,
    fun h => csrRead_plain .mtvec rfl nofun h mtvec, fun h => csrRead_plain .stvec rfl nofun h stvec,
    fun h => csrRead_plain .mcounteren rfl nofun h mcounteren,
    fun h => csrRead_plain .scounteren rfl nofun h scounteren,
    fun h => csrRead_plain .mepc rfl nofun h mepc, fun h => csrRead_plain .sepc rfl nofun h sepc,
    fun h => csrRead_whole .mscratch rfl nofun h, fun h => csrRead_whole .sscratch rfl nofun h,
    fun h => csrRead_whole .mcause rfl nofun h, fun h => csrRead_whole .scause rfl nofun h,
    fun h => csrRead_whole .mtval rfl nofun h, fun h => csrRead_whole .stval rfl nofun h,
    fun h => csrRead_whole .satp rfl nofun h, fun h => csrRead_whole .mcycle rfl nofun h,
    fun h => csrRead_whole .minstret rfl nofun h, fun h => csrRead_computed .cycle rfl h,
    fun h => csrRead_computed .instret rfl h, fun h => csrRead_plain .fcsr rfl nofun h fcsr,
    fun h => csrRead_row (h := .plain .mie) rfl rfl h rfl rfl,
    fun h => csrRead_row (h := .plain .fcsr) rfl rfl h rfl rfl,
    fun h => csrRead_row (h := .computed .frm) rfl rfl h (fcsrFrm_masked _) rfl,
    fun h => csrRead_computed .misa rfl h, fun h => csrRead_computed .hartId rfl h, ?_,
    fun h => csrRead_computed .time rfl h, fun h => ?_, fun h => ?_⟩
  · simp only [List.forall_mem_cons]
    exact ⟨fun h => csrRead_computed .zero rfl h, fun h => csrRead_computed .zero rfl h,
      fun h => csrRead_computed .zero rfl h, fun h => csrRead_computed .zero rfl h, List.forall_mem_nil _⟩
  · rw [← mipValue_eq mip]
    exact csrRead_computed .mip rfl h
  · exact csrRead_row (h := .computed .mip) rfl rfl h (mipValue_masked mip _) rfl

/-! ### mstatus and sstatus -/

theorem statusFS_eq_three (v : Word) : statusFS v = 3 ↔ (v.getLsbD 13 && v.getLsbD 14) = true := by
  have key : ∀ b : BitVec 2, b = 3 ↔ (b.getLsbD 0 && b.getLsbD 1) = true := by decide
  rw [key, statusFS, field, BitVec.getLsbD_extractLsb', BitVec.getLsbD_extractLsb']
  simp only [show (0 : Nat) < 2 from by decide, show (1 : Nat) < 2 from by decide, decide_true, Bool.true_and,
    Nat.add_zero, Nat.reduceAdd]

/-- The view of mstatus is a sum of parts with no bit in common (10_state R64). -/
theorem statusView_eq (v : Word) : statusView v = (v &&& 0xE79AA#64) + 0xA00000000#64 +
    (if v.getLsbD 13 && v.getLsbD 14 then 0x8000000000000000#64 else 0) := by
  have stored : v &&& 0xE79AA#64 &&& ~~~0xE79AA#64 = 0 := by
    rw [BitVec.and_assoc, BitVec.and_not_self]
    exact BitVec.and_zero
  have both : (v &&& 0xE79AA#64 ||| 0xA00000000#64) &&& ~~~0xA000E79AA#64 = 0 := by
    rw [BitVec.and_or_distrib_right, masked_mono stored (by decide)]
    decide
  have sd : (if v.getLsbD 13 && v.getLsbD 14 then 0x8000000000000000#64 else 0) &&&
      ~~~0x8000000000000000#64 = 0 := by
    split <;> decide
  simp only [statusView, statusFS_eq_three]
  exact (or_eq_add (and_eq_zero_of_masked both sd (by decide))).trans
    (congrArg (· + _) (or_eq_add (and_eq_zero_of_masked (n := 0xA00000000#64) stored (by decide) (by decide))))

theorem merge_getLsbD (old v mask : Word) {i : Nat} (hi : i < 64) :
    ((old &&& ~~~mask) ||| (v &&& mask)).getLsbD i = if mask.getLsbD i then v.getLsbD i else old.getLsbD i := by
  simp only [BitVec.getLsbD_or, BitVec.getLsbD_and, BitVec.getLsbD_not, hi, decide_true, Bool.true_and]
  cases mask.getLsbD i <;> simp

/-- The writable bits of mstatus beside MPP. -/
theorem mstatusWritable_getLsbD {i : Nat} (hi : i < 64) (h : ¬(i = 11 ∨ i = 12)) :
    mstatusWritable.getLsbD i = true ↔ i ∈ [1, 3, 5, 7, 8, 13, 14, 17, 18, 19] := by
  revert h
  revert i
  decide

/-- The bits of sstatus that mstatus stores. -/
theorem sstatusMask_getLsbD {i : Nat} (hi : i < 64) :
    (mstatusWritable.getLsbD i = true ∧ sstatusMask.getLsbD i = true) ↔ i ∈ [1, 5, 8, 13, 14, 18, 19] := by
  revert i
  decide

/-- A write of mstatus, bit by bit (10_state R65). -/
theorem mstatusWrite_getLsbD (old v : Word) {i : Nat} (hi : i < 64) :
    (legaliseStatus old ((old &&& ~~~mstatusWritable) ||| (v &&& mstatusWritable))).getLsbD i =
      if i = 11 ∨ i = 12 then
        (if v.getLsbD 11 = false ∧ v.getLsbD 12 = true then old.getLsbD i else v.getLsbD i)
      else if i ∈ [1, 3, 5, 7, 8, 13, 14, 17, 18, 19] then v.getLsbD i else old.getLsbD i := by
  have w11 : mstatusWritable.getLsbD 11 = true := by decide
  have w12 : mstatusWritable.getLsbD 12 = true := by decide
  rw [getLsbD_legaliseStatus, merge_getLsbD _ _ _ hi, merge_getLsbD _ _ _ (by decide : 11 < 64),
    merge_getLsbD _ _ _ (by decide : 12 < 64), if_pos w11, if_pos w12]
  split
  · rename_i h
    have w : mstatusWritable.getLsbD i = true := by rcases h with rfl | rfl <;> assumption
    rw [if_pos w]
  · rename_i h
    simp only [mstatusWritable_getLsbD hi h]
    split <;> rfl

/-- A write of sstatus, bit by bit: MPP is not among its bits (10_state R66). -/
theorem sstatusWrite_getLsbD (old v : Word) {i : Nat} (hi : i < 64) :
    (legaliseStatus old ((old &&& ~~~sstatusMask) ||| (v &&& sstatusMask))).getLsbD i =
      if i ∈ [1, 5, 8, 13, 14, 18, 19] then v.getLsbD i else old.getLsbD i := by
  simp only [getLsbD_legaliseStatus, merge_getLsbD _ _ _ hi, ← sstatusMask_getLsbD hi]
  split
  · rename_i h
    have w : sstatusMask.getLsbD i = false := by rcases h with rfl | rfl <;> decide
    simp only [w, Bool.false_eq_true, and_false, if_false, ite_self]
  · cases mstatusWritable.getLsbD i <;> cases sstatusMask.getLsbD i <;> rfl

/-- Settles O20: both are written through mstatus's legalisation and read through its view. -/
theorem statusWrites : Obligations.StatusWrites := by
  intro v p s old fs3 view
  have hview : statusView old = view := statusView_eq old
  have sup (h : p = .M ∨ p = .S) : (0x100 : CsrAddr).toNat / 256 % 4 ≤ (privBits p).toNat := by
    rcases h with rfl | rfl <;> decide
  refine ⟨?_, fun hp => ?_, ?_, fun hp => ?_⟩
  · rintro rfl
    exact ⟨_, csrWrite_row (m := ⟨0x300, .home (.plain .mstatus), allOnes64, mstatusWritable⟩) rfl rfl
      (fun _ => nofun) (by decide) rfl v s, fun i hi => mstatusWrite_getLsbD old v hi⟩
  · exact ⟨_, csrWrite_alias (h := .plain .mstatus) rfl rfl rfl (sup hp) v s,
      fun i hi => sstatusWrite_getLsbD old v hi⟩
  · rintro rfl
    exact csrRead_row (h := .plain .mstatus) rfl rfl (by decide) ((and_allOnes64 _).trans hview) rfl
  · exact csrRead_row (h := .plain .mstatus) rfl rfl (sup hp) (congrArg (· &&& sstatusMask) hview) rfl

/-! ### The CSR instructions -/

section
variable {a : CsrAddr} {reads writes : Bool} {s : State}

/-- The state of a CSR read: the platform's inputs may have been sampled, all else is as before. -/
structure SampledOnly (s t : State) : Prop where
  hart   : t.hart = s.hart
  others : t.others = s.others
  mem    : t.mem = s.mem
  tlb    : t.tlb = s.tlb
  plat   : t.plat = s.plat
  bus    : t.bus = s.bus
  note   : t.note = s.note

theorem SampledOnly.refl (s : State) : SampledOnly s s := ⟨rfl, rfl, rfl, rfl, rfl, rfl, rfl⟩

theorem csrRead_sampledOnly {a : CsrAddr} {v : Word} {p : Priv} {s t : State}
    (h : csrRead a p s = .ok (v, t)) : SampledOnly s t := by
  rcases csrRead_state h with rfl | rfl
  · exact .refl t
  · constructor <;> simp

/-- The read half, where the access is allowed, is CsrRead where the form reads. -/
theorem csrReadHalf_ok (ha : csrPresent a = true) (hp : (a.toNat / 256) % 4 ≤ (privBits s.hart.priv).toNat)
    (reads : Bool) : ∃ v t, csrReadHalf a reads s = .ok v t ∧
      (if reads then csrRead a s.hart.priv s = .ok (v, t) else t = s) ∧ SampledOnly s t := by
  cases reads with
  | false => exact ⟨0, s, rfl, rfl, .refl s⟩
  | true =>
    obtain ⟨v, t, e⟩ := csrRead_ok ha hp s
    exact ⟨v, t, by simp only [csrReadHalf, e, if_true], e, csrRead_sampledOnly e⟩

/-- The write half, where the access is allowed, is CsrWrite and its effects where the form writes. -/
theorem csrWriteHalf_ok (h : CsrAllowed a writes s) (v : Word) : ∃ c,
    csrWriteHalf a writes v s = .ok () (if writes then afterCsrWrite a (s.setCsrFile c) else s.setCsrFile c) ∧
    (if writes then csrWrite a v s.hart.priv s = .ok (s.setCsrFile c) else s.setCsrFile c = s) := by
  cases writes with
  | false => exact ⟨s.hart.csr, rfl, rfl⟩
  | true =>
    obtain ⟨t, e⟩ := csrWrite_ok h.present h.priv (h.rw rfl) v s
    obtain ⟨c, rfl⟩ := (csrWrite_cases e).exists_csrFile
    exact ⟨c, by simp only [csrWriteHalf, e, if_true], e⟩

/-- What a write notes beside the CSR: FS, and the counters (10_state R59, R81, R82). -/
theorem afterCsrWrite_eq (a : CsrAddr) (writes : Bool) (s : State) :
    (if writes then afterCsrWrite a s else s) = { s with
      hart := { s.hart with csr := if writes ∧ 1 ≤ a.toNat ∧ a.toNat ≤ 3 then
        { s.hart.csr with mstatus := s.hart.csr.mstatus ||| 0x6000#64 } else s.hart.csr }
      note := { s.note with
        wroteMcycle := s.note.wroteMcycle || (writes && a == 0xB00#12)
        wroteMinstret := s.note.wroteMinstret || (writes && a == 0xB02#12) } } := by
  cases writes with
  | false => simp
  | true =>
    have fs : setDirtyFS s = s.setCsrFile { s.hart.csr with mstatus := s.hart.csr.mstatus ||| 0x6000#64 } :=
      setDirtyFS_csr s ▸ rfl
    simp only [if_true, true_and, ← isFpCsr_iff, Bool.true_and, afterCsrWrite, fs]
    by_cases hc : a = 0xB00#12
    · subst hc
      simp [isFpCsr, State.setNote]
    · by_cases hi : a = 0xB02#12
      · subst hi
        simp [isFpCsr, State.setNote]
      · simp only [if_neg hc, if_neg hi, beq_false_of_ne hc, beq_false_of_ne hi, Bool.or_false]
        split <;> rfl

/-- The gate of the floating-point CSRs is that FS is not Off (10_state R59). -/
theorem fpCsrGate_iff (a : CsrAddr) (s : State) :
    (isFpCsr a && statusFS (getCsr .mstatus s) == 0) = false ↔
      (1 ≤ a.toNat → a.toNat ≤ 3 → statusFS s.hart.csr.mstatus ≠ 0) := by
  rw [Bool.and_eq_false_imp, isFpCsr_iff, beq_eq_false_iff_ne, and_imp]
  rfl

/-- A CSR instruction that may access its CSR; only a form that writes no register does not read
(45_system R342). -/
theorem csrInstr_effect {rd : RegNum} (h : CsrAllowed a writes s) (hr : reads = false → rd = 0)
    (f : Word → Word) : ∃ t, settle (csrInstr rd a reads writes f s) = .next t ∧
      CsrEffect rd a reads writes f s t := by
  obtain ⟨v, s1, eread, hread, hart, others, mem, tlb, plat, bus, note⟩ := csrReadHalf_ok h.present h.priv reads
  obtain ⟨c, ewrite, hwrite⟩ :=
    csrWriteHalf_ok (s := s1) ⟨h.present, hart ▸ h.priv, h.rw, hart ▸ h.fp⟩ (f v)
  have after := afterCsrWrite_eq a writes (s1.setCsrFile c)
  generalize (if writes then afterCsrWrite a (s1.setCsrFile c) else s1.setCsrFile c) = s3 at ewrite after
  have last : (if reads then writeX rd v s3 else s3) = writeX rd v s3 := by
    cases reads with
    | true => rfl
    | false => rw [hr rfl]; rfl
  obtain ⟨⟨result, frame, fprs, csrs, pc, retired, mode⟩, res, shared⟩ := wroteX_retireX s3 4 rd v
  have run : csrInstr rd a reads writes f s = .ok () (retireX 4 rd v s3) := by
    simp only [csrInstr, (fpCsrGate_iff a s).2 h.fp, Bool.false_eq_true, if_false, eread, Attempt.bind, ewrite,
      last]
    rfl
  rw [run]
  subst after
  exact ⟨_, rfl, v, s1, s1.setCsrFile c, hread, hart ▸ hwrite, result,
    fun r hr => (frame r hr).trans (by simp only [readX, State.setCsrFile, hart]),
    fprs.trans (congrArg (·.f) hart), csrs, pc.trans (congrArg (·.pc + 4) hart), retired.trans (note ▸ rfl),
    ⟨mode.id.trans (congrArg (·.id) hart), mode.priv.trans (congrArg (·.priv) hart),
      mode.wfi.trans (congrArg (·.wfi) hart), mode.semihost.trans (congrArg (·.semihost) hart),
      mode.halted.trans (congrArg (·.halted) hart)⟩,
    res.trans (congrArg (·.res) hart), shared.others.trans others,
    fun b => (shared.memory b).trans (congrArg (Memory.readByte · b) mem), shared.tlb.trans tlb,
    shared.plat.trans plat, shared.bus.trans bus, shared.mtime⟩

/-- A CSR instruction that may not access its CSR commits nothing but a sample (10_state R52). -/
theorem csrInstr_faults {rd : RegNum} (h : ¬CsrAllowed a writes s) (hrw : reads = true ∨ writes = true)
    (f : Word → Word) : ∃ u, settle (csrInstr rd a reads writes f s) = .next (takeException (csrTrap a) u) ∧
      SampledOnly s u := by
  cases gate : isFpCsr a && statusFS (getCsr .mstatus s) == 0 with
  | true => exact ⟨s, by simp only [csrInstr, gate, if_true]; rfl, .refl s⟩
  | false =>
    by_cases ha : csrPresent a = true ∧ (a.toNat / 256) % 4 ≤ (privBits s.hart.priv).toNat
    · obtain ⟨hw, ho⟩ : writes = true ∧ a.toNat / 1024 = 3 := by
        by_contra hn
        exact h ⟨ha.1, ha.2, fun hw ho => hn ⟨hw, ho⟩, (fpCsrGate_iff a s).1 gate⟩
      obtain ⟨v, t, eread, -, ht⟩ := csrReadHalf_ok ha.1 ha.2 reads
      obtain ⟨e, ewrite⟩ := csrWrite_error (.inr (.inr ho)) (f v) t (p := t.hart.priv)
      refine ⟨t, ?_, ht⟩
      simp only [csrInstr, gate, Bool.false_eq_true, if_false, eread, Attempt.bind, csrWriteHalf, hw, if_true,
        ewrite, settle]
    · have bad : csrPresent a = false ∨ ¬(a.toNat / 256) % 4 ≤ (privBits s.hart.priv).toNat := by
        rw [← Bool.not_eq_true]
        exact not_and_or.1 ha
      refine ⟨s, ?_, .refl s⟩
      cases reads with
      | true =>
        obtain ⟨e, eread⟩ := csrRead_error bad s
        simp only [csrInstr, gate, Bool.false_eq_true, if_false, csrReadHalf, if_true, eread, Attempt.bind, settle]
      | false =>
        obtain ⟨e, ewrite⟩ := csrWrite_error (bad.imp_right .inl) (f 0) s
        have hw : writes = true := hrw.resolve_left nofun
        simp only [csrInstr, gate, Bool.false_eq_true, if_false, csrReadHalf, Attempt.bind, csrWriteHalf, hw,
          if_true, ewrite, settle]

end

/-- Settles O18: the six forms are one law with their own operands. -/
theorem csrInstructionResults : Obligations.CsrInstructionResults := by
  intro rd rs1 uimm a s
  have noRead : (rd != 0) = false → rd = 0 := fun h => by simpa using h
  have reads : true = false → rd = 0 := nofun
  exact ⟨fun h => ⟨csrInstr_effect h noRead _, csrInstr_effect h noRead _⟩,
    fun h => ⟨csrInstr_effect h reads _, csrInstr_effect h reads _⟩,
    fun h => ⟨csrInstr_effect h reads _, csrInstr_effect h reads _⟩⟩

/-- Settles O19: a forbidden access raises in the FS gate, in the read or in the write. -/
theorem csrAccessFaults : Obligations.CsrAccessFaults := by
  intro rd rs1 uimm a s faults
  have fault {i : Instr} {reads writes : Bool} {f : Word → Word} (h : ¬CsrAllowed a writes s)
      (hrw : reads = true ∨ writes = true)
      (e : exec i s = settle (csrInstr rd a reads writes f s)) : faults i := by
    obtain ⟨u, hu, hart, others, mem, tlb, plat, bus, note⟩ := csrInstr_faults (rd := rd) h hrw f
    exact ⟨u, e.trans hu, hart, others, mem, tlb, plat, bus, note⟩
  exact ⟨fun h => ⟨fault h (.inr rfl) rfl, fault h (.inr rfl) rfl⟩,
    fun h => ⟨fault h (.inl rfl) rfl, fault h (.inl rfl) rfl⟩,
    fun h => ⟨fault h (.inl rfl) rfl, fault h (.inl rfl) rfl⟩⟩

end Sys2Proof.Machine
end

section
/-! PROOFS. The step of the hart chosen: it fetches and runs the word, or raises, waits or stops (O43,
O44), and the accesses that no region holds (O16). -/

namespace Sys2Proof.Machine

/-! ### What a hart does in its step -/

/-- Bit 0 of a word says that it is odd. -/
theorem getLsbD_zero_eq (v : Word) : v.getLsbD 0 = decide (v.toNat % 2 = 1) := Nat.testBit_zero v.toNat

theorem stepHart_halted {u : State} (hh : u.hart.halted ≠ none) : stepHart u = .fault .hartHalted :=
  if_pos (Option.ne_none_iff_isSome.1 hh)

section
variable {u v : State} (hh : u.hart.halted = none)
include hh

theorem stepHart_running : stepHart u = runHart u := by simp [stepHart, hh]

theorem stepHart_waiting (hw : u.hart.wfi = true) : stepHart u = .next (endStep u) := by
  rw [stepHart_running hh, runHart, if_pos hw]

theorem stepHart_oddPc (hw : u.hart.wfi = false) (hp : u.hart.pc.toNat % 2 = 1) :
    stepHart u = .refused .oddPc := by
  rw [stepHart_running hh, runHart, if_neg (by simp [hw]), getLsbD_zero_eq, if_pos (decide_eq_true hp)]

variable (hw : u.hart.wfi = false) (hp : u.hart.pc.toNat % 2 = 0)
include hw hp

theorem stepHart_fetched {f : Fetched} (hf : fetch u = .ok f v) :
    stepHart u = thenEndStep (execWord f v) := by
  simp only [stepHart_running hh, runHart, hw, getLsbD_zero_eq, hp, hf, Nat.zero_ne_one, decide_false,
    Bool.false_eq_true, if_false]

/-- A fetch that raises is taken as an exception, with no instruction run (60_exceptions R520). -/
theorem stepHart_fetchFails {tr : Trap} (hf : FetchFails u tr v) :
    stepHart u = .next (endStep (takeException tr v)) := by
  simp only [stepHart_running hh, runHart, hw, getLsbD_zero_eq, hp, fetch_of_fetchFails hf,
    Nat.zero_ne_one, decide_false, Bool.false_eq_true, if_false]

variable {len : Nat} {w : InstrWord} (hf : Fetches u len w v)
include hf

/-- A fetched word that decodes runs as its instruction. -/
theorem stepHart_decodes {i : Instr} (hd : decodeWord u.plat.rvcDisabled len w = .ok i) :
    stepHart u = thenEndStep (exec i v) := by
  have e := fetch_of_fetches hf
  rw [stepHart_fetched hh hw hp e, execWord, ((fetch_framed u).ok e).plat, hd]

/-- A fetched word of no row is an illegal instruction (30_encoding R155). -/
theorem stepHart_noMatch (hd : decodeWord u.plat.rvcDisabled len w = .error .noMatch) :
    stepHart u = .next (endStep (takeException ⟨.illegalInstr, BitVec.ofNat 64 w.toNat⟩ v)) := by
  have e := fetch_of_fetches hf
  rw [stepHart_fetched hh hw hp e, execWord, ((fetch_framed u).ok e).plat, hd, BitVec.ofNat_toNat]
  rfl

end

/-- Settles O44: the step of the hart chosen, by what its fetch answers and where it makes none. -/
theorem stepWithoutInstruction : Obligations.StepWithoutInstruction := by
  intro s
  exact ⟨fun hh hw hp => ⟨fun _ _ _ => stepHart_noMatch hh hw hp, fun _ _ => stepHart_fetchFails hh hw hp⟩,
    fetch_cases _, stepHart_waiting, stepHart_halted, stepHart_oddPc⟩

/-! ### The bytes at the pc -/

theorem Reads.plain {acc : Access} {va : Word} {n : Nat} {s : State} (hu : Untranslated acc s)
    (hr : InRam s va.toNat n) : Reads acc va n s (leNat s.mem va.toNat n) s :=
  ⟨va, s, translate_untranslated hu, .ram hr⟩

/-- Two bytes, the one at the lower address in the low half. -/
theorem readByte_append (m : List Host.Cell) (a : Nat) :
    Memory.readByte m (a + 1) ++ Memory.readByte m a = BitVec.ofNat 16 (leNat m a 2) := by
  apply BitVec.eq_of_toNat_eq
  have h0 := (Memory.readByte m a).isLt
  have h1 := (Memory.readByte m (a + 1)).isLt
  rw [BitVec.toNat_append, ← Nat.shiftLeft_add_eq_or_of_lt h0, Nat.shiftLeft_eq, BitVec.toNat_ofNat]
  simp only [leNat]
  omega

/-- A decoded instruction is as long as its word. -/
theorem length_of_decodeWord {disabled : List Mnemonic} {len : Nat} {w : InstrWord} {i : Instr}
    (h : decodeWord disabled len w = .ok i) : i.length = len := by
  unfold decodeWord at h
  split at h
  · next d hd =>
    cases h
    obtain ⟨hd, hm⟩ := lookup_eq_ok.1 hd
    simp only [Definition.matchesWord, Bool.and_eq_true, beq_iff_eq] at hm
    rw [Instr.length, build_mnemonic, rowOf_mnemonic hd]
    obtain ⟨⟨⟨⟨h, -⟩, -⟩, -⟩, -⟩ := hm
    exact h
  · cases h

theorem parcelLength_eq_sixteen (p : Nat) : parcelLength (BitVec.ofNat 16 p) = 16 ↔ p % 4 ≠ 3 := by
  by_cases h : p % 4 = 3
  · simp [parcelLength_of_three h, h]
  · simp [parcelLength_of_not_three h, h]

/-- An instruction decoded from four bytes of memory is that of the first parcel, or of two. -/
theorem decodeBytes_memory {disabled : List Mnemonic} {m : List Host.Cell} {a : Nat} {i : Instr}
    {rest : List Byte}
    (h : decodeBytes disabled ((List.range 4).map fun k => Memory.readByte m (a + k)) = .ok (i, rest)) :
    (leNat m a 2 % 4 ≠ 3 ∧ decodeWord disabled 16 (BitVec.ofNat 32 (leNat m a 2)) = .ok i) ∨
    (leNat m a 2 % 4 = 3 ∧
      decodeWord disabled 32 (BitVec.ofNat 32 (leNat m a 2 + 2 ^ 16 * leNat m (a + 2) 2)) = .ok i) := by
  have lt := leNat_lt m a 2
  have e0 := readByte_append m a
  have e2 := readByte_append m (a + 2)
  simp only [show List.range 4 = [0, 1, 2, 3] from rfl, List.map, Nat.add_zero, decodeBytes, e0,
    parcelLength_eq_sixteen] at h
  split at h
  · next h3 =>
    have w : (BitVec.ofNat 16 (leNat m a 2)).setWidth 32 = BitVec.ofNat 32 (leNat m a 2) := by
      apply BitVec.eq_of_toNat_eq
      simp only [BitVec.toNat_setWidth, BitVec.toNat_ofNat]
      omega
    rw [w] at h
    split at h
    · next hd => cases h; exact .inl ⟨h3, hd⟩
    · cases h
  · next h3 =>
    have w : Memory.readByte m (a + 3) ++ Memory.readByte m (a + 2) ++ Memory.readByte m (a + 1) ++
        Memory.readByte m a = BitVec.ofNat 32 (leNat m a 2 + 2 ^ 16 * leNat m (a + 2) 2) := by
      rw [← parcels_append lt, ← e0, ← e2, BitVec.append_assoc']
      rfl
    rw [w] at h
    split at h
    · next hd => cases h; exact .inr ⟨not_not.1 h3, hd⟩
    · cases h

/-- An untranslated fetch in RAM answers the word that the bytes at the pc decode by, with no effect. -/
theorem fetches_of_decodeBytes {u : State} {disabled : List Mnemonic} {i : Instr} {rest : List Byte}
    (hu : Untranslated .fetch u) (h0 : InRam u u.hart.pc.toNat 2)
    (h1 : i.length = 32 → InRam u (u.hart.pc.toNat + 2) 2)
    (h : decodeBytes disabled ((List.range 4).map fun k => Memory.readByte u.mem (u.hart.pc.toNat + k)) =
      .ok (i, rest)) : ∃ len w, Fetches u len w u ∧ decodeWord disabled len w = .ok i := by
  have first := Reads.plain hu h0
  rcases decodeBytes_memory h with ⟨h3, hd⟩ | ⟨h3, hd⟩
  · exact ⟨_, _, ⟨_, u, first, .inl ⟨h3, rfl, rfl, rfl⟩⟩, hd⟩
  · have hnext : (u.hart.pc + 2).toNat = u.hart.pc.toNat + 2 := by
      have := h0.lt
      rw [BitVec.toNat_add]
      change (u.hart.pc.toNat + 2) % 2 ^ 64 = _
      omega
    have second := Reads.plain (va := u.hart.pc + 2) hu (hnext ▸ h1 (length_of_decodeWord hd))
    rw [hnext] at second
    exact ⟨_, _, ⟨_, u, first, .inr ⟨h3, rfl, _, second, rfl⟩⟩, hd⟩

/-- Settles O43: the word fetched decides, and it is the bytes at the pc where these are in RAM. -/
theorem stepRunsDecodedInstruction : Obligations.StepRunsDecodedInstruction := by
  intro s i
  refine ⟨schedule_alone, fun _ => rfl, fun _ => rfl, fun _ => rfl, fun hh hw hp =>
    ⟨fun len w v hf => ⟨fetch_of_fetches hf, stepHart_decodes hh hw hp hf⟩, fun hu h0 h1 rest hb _ => ?_⟩⟩
  obtain ⟨len, w, hf, hd⟩ := fetches_of_decodeBytes hu h0 h1 hb
  exact stepHart_decodes hh hw hp hf hd

/-! ### Accesses that no region holds -/

/-- An untranslated access outside every region fails, with no effect. -/
theorem AccessFails.unmapped {acc : Access} {va : Word} {n : Nat} {s : State} (hu : Untranslated acc s)
    (hm : Unmapped s va.toNat n) : AccessFails acc va n s ⟨accessCause acc, va⟩ s :=
  .inr ⟨va, translate_untranslated hu, hm, rfl⟩

/-- The form's instruction, with its address and width, takes an access fault where its address is
aligned and no region holds its bytes. -/
def FaultsUnmapped (cause : Cause) (s : State) (p : Instr × Word × Nat) : Prop :=
  p.2.1.toNat % p.2.2 = 0 → Unmapped s p.2.1.toNat p.2.2 → Traps p.1 s cause p.2.1 s

section
variable {s : State}

/-- A load's instruction, address and width. -/
def LoadForm.access (p : LoadForm) : Instr × Word × Nat := (p.instr, p.addr, p.width)

/-- A store's instruction, address and width. -/
def StoreForm.access (p : StoreForm) : Instr × Word × Nat := (p.instr, p.addr, p.width)

theorem LoadForm.Runs.faultsUnmapped {write : RegNum → Word → State → State} {p : LoadForm}
    (h : p.Runs write s) (hu : Untranslated .read s) : FaultsUnmapped .loadAccess s p.access :=
  fun ha hm => h.fails (.inl ⟨ha, .unmapped hu hm⟩)

/-- An aligned store whose bytes no region holds. -/
theorem storeValue_unmapped {len va v : Word} {n : Nat} (ha : va.toNat % n = 0)
    (hu : Untranslated .write s) (hm : Unmapped s va.toNat n) :
    storeValue len va n v s = .next (takeException ⟨.storeAccess, va⟩ s) := by
  simp only [storeValue, memWrite, if_pos (aligned_iff.2 ha), writeAt_unmapped hu hm, Attempt.bind, settle,
    accessFault]

theorem StoreForm.Runs.faultsUnmapped {p : StoreForm} (h : p.Runs s) (hu : Untranslated .write s) :
    FaultsUnmapped .storeAccess s p.access := fun ha hm => by
  obtain ⟨x, -, he⟩ := h
  exact he.trans (storeValue_unmapped ha hu hm)

theorem amo_faultsUnmapped {i : Instr} {rd : RegNum} {va : Word} {n : Nat} {op ext : Word → Word}
    (hu : Untranslated .write s) (he : exec i s = amo rd va n op ext s) :
    FaultsUnmapped .storeAccess s (i, va, n) :=
  fun ha hm => he.trans (amo_fails ha (.unmapped hu hm))

theorem loadReserved_faultsUnmapped {i : Instr} {rd : RegNum} {va : Word} {n : Nat} {ext : Word → Word}
    (hu : Untranslated .read s) (he : exec i s = loadReserved rd va n ext s) :
    FaultsUnmapped .loadAccess s (i, va, n) :=
  fun ha hm => he.trans (loadReserved_fails ha (.unmapped hu hm))

end

/-- Settles O16: each form's access, and each parcel of a fetch, fails outside every region. -/
theorem unmappedAccessTraps : Obligations.UnmappedAccessTraps := by
  intro r q rd cr cq imm u7 u8 u9 aq rl s
  refine ⟨fun hu => ?_, fun hu => ?_, fun hu => ?_, fun hfs hu => ?_, fun hfs hu => ?_,
    fun hh hw hp hu => ⟨fun hm => ?_, fun hr h3 hm => ?_⟩⟩
  · show ∀ p ∈ (loadForms r q cr cq imm u7 u8 u9 s).map LoadForm.access ++
      [(.lrW rd r aq rl, readX r s, 4), (.lrD rd r aq rl, readX r s, 8)], FaultsUnmapped .loadAccess s p
    simp only [List.forall_mem_append, List.forall_mem_map, List.forall_mem_cons]
    exact ⟨fun p hp => (loadForms_run r q cr cq imm u7 u8 u9 s p hp).faultsUnmapped hu,
      loadReserved_faultsUnmapped hu rfl, loadReserved_faultsUnmapped hu rfl, List.forall_mem_nil _⟩
  · show ∀ p ∈ (storeForms r q cr cq imm u7 u8 u9 s).map StoreForm.access ++
      ((amoWords rd r q aq rl).map (fun p => (p.1, readX r s, 4)) ++
        (amoDoubles rd r q aq rl).map (fun p => (p.1, readX r s, 8))), FaultsUnmapped .storeAccess s p
    simp only [List.forall_mem_append, List.forall_mem_map]
    exact ⟨fun p hp => (storeForms_run r q cr cq imm u7 u8 u9 s p hp).faultsUnmapped hu,
      fun p hp => amo_faultsUnmapped hu (exec_amoWords rd r q aq rl s p hp),
      fun p hp => amo_faultsUnmapped hu (exec_amoDoubles rd r q aq rl s p hp)⟩
  · have ht := translate_untranslated (va := readX r s) hu
    simp only [List.forall_mem_cons]
    exact ⟨fun ha hm hres => storeConditional_unmapped ha ht hres hm,
      fun ha hm hres => storeConditional_unmapped ha ht hres hm, List.forall_mem_nil _⟩
  · show ∀ p ∈ (fpLoadForms r q cr cq imm u8 u9 s).map LoadForm.access, FaultsUnmapped .loadAccess s p
    exact List.forall_mem_map.2 fun p hp => (fpLoadForms_run r q cr cq imm u8 u9 s hfs p hp).faultsUnmapped hu
  · show ∀ p ∈ (fpStoreForms r q cr cq imm u8 u9 s).map StoreForm.access, FaultsUnmapped .storeAccess s p
    exact List.forall_mem_map.2 fun p hp => (fpStoreForms_run r q cr cq imm u8 u9 s hfs p hp).faultsUnmapped hu
  · exact stepHart_fetchFails hh hw hp (.inl (.unmapped hu hm))
  · have first := Reads.plain hu hr
    refine stepHart_fetchFails hh hw hp (.inr ⟨_, _, first, ?_, .unmapped hu hm⟩)
    simp only [leNat]
    omega

end Sys2Proof.Machine
end

section
/-! PROOFS. Address translation: the modes and their identity (O58), one level of the walk (O57) and a
TLB hit (O59). -/

namespace Sys2Proof.Machine

/-! ### Fields and masks as arithmetic -/

theorem pageFault_eq (acc : Access) (va : Word) : pageFault acc va = ⟨pageCause acc, va⟩ := by
  cases acc <;> rfl

theorem satpMode_toNat (v : Word) : (satpMode v).toNat = v.toNat / 2 ^ 60 := by
  rw [satpMode, field, BitVec.extractLsb'_toNat, Nat.shiftRight_eq_div_pow]
  have := v.isLt
  omega

theorem ptePpn_toNat (pte : Word) : (ptePpn pte).toNat = ptePage pte := by
  rw [ptePpn, field, BitVec.extractLsb'_toNat, Nat.shiftRight_eq_div_pow, ptePage]

/-- A page number's address. -/
theorem zextWord_shiftLeft_twelve (p : BitVec 44) : zextWord p <<< 12 = BitVec.ofNat 64 (p.toNat * 4096) := by
  rw [shiftLeft_eq_ofNat, zextWord, BitVec.toNat_setWidth_of_le (by decide)]
  rfl

theorem pteBase_eq (pte : Word) : pteBase pte = BitVec.ofNat 64 (ptePage pte * 4096) := by
  rw [pteBase, zextWord_shiftLeft_twelve, ptePpn_toNat]

/-- The root table that satp names (20_memory R115). -/
theorem satpRoot_eq (v : Word) : zextWord (satpPpn v) <<< 12 = BitVec.ofNat 64 (v.toNat % 2 ^ 44 * 4096) := by
  rw [zextWord_shiftLeft_twelve, satpPpn, field, BitVec.extractLsb'_toNat, Nat.shiftRight_zero]

theorem superpageAligned_iff (level : Nat) (pte : Word) :
    superpageAligned level pte = true ↔ ptePage pte % 2 ^ (9 * level) = 0 := by
  rw [superpageAligned, beq_iff_eq, ptePpn_toNat]

theorem pageSize_eq (level : Nat) : pageSize level = BitVec.ofNat 64 (4096 * 2 ^ (9 * level)) := by
  rw [pageSize, shiftLeft_eq_ofNat, BitVec.toNat_ofNat]

/-- Sv39, Sv48 and Sv57: satp.MODE, the levels and the bits of a virtual address (20_memory R110). -/
def pagedModes : List (Nat × Nat × Nat) := [(8, 3, 39), (9, 4, 48), (10, 5, 57)]

theorem pagedModes_bits {m : Nat × Nat × Nat} (hm : m ∈ pagedModes) : m.2.2 - 1 = 11 + 9 * m.2.1 := by
  revert m; decide

theorem modeLevels_of_mem {m : Nat × Nat × Nat} (hm : m ∈ pagedModes) {b : BitVec 4} (hb : b.toNat = m.1) :
    modeLevels b = some m.2.1 := by
  have key : ∀ m ∈ pagedModes, modeLevels (BitVec.ofNat 4 m.1) = some m.2.1 := by decide
  rw [← key m hm, ← hb, BitVec.ofNat_toNat, BitVec.setWidth_eq]

/-- The offset in a page table of the PTE for `va` (20_memory R115). -/
theorem vpnIndex_offset (level : Nat) (va : Word) :
    vpnIndex level va * 8#64 = BitVec.ofNat 64 (va.toNat / 2 ^ (12 + 9 * level) % 512 * 8) := by
  apply BitVec.eq_of_toNat_eq
  rw [vpnIndex, zextWord, field, BitVec.toNat_mul, BitVec.toNat_setWidth_of_le (by decide),
    BitVec.extractLsb'_toNat, Nat.shiftRight_eq_div_pow, BitVec.toNat_ofNat]
  rfl

/-- The page size of a level that translation has, as a power of two. -/
theorem toNat_ofNat_pageSize {level : Nat} (h : level ≤ 4) :
    (BitVec.ofNat 64 (4096 * 2 ^ (9 * level))).toNat = 2 ^ (12 + 9 * level) := by
  rw [show 4096 * 2 ^ (9 * level) = 2 ^ (12 + 9 * level) from (Nat.pow_add 2 12 _).symm, BitVec.toNat_ofNat,
    Nat.mod_eq_of_lt (Nat.pow_lt_pow_right (by decide) (by omega))]

/-- The offset of an address in a page. -/
theorem and_pageSize (va : Word) {level : Nat} (h : level ≤ 4) :
    va &&& (pageSize level - 1) = BitVec.ofNat 64 (va.toNat % (4096 * 2 ^ (9 * level))) := by
  have e : (pageSize level - 1).toNat = 2 ^ (12 + 9 * level) - 1 := by
    have one : (1 : Word) ≤ pageSize level := by
      rw [BitVec.le_def, pageSize_eq, toNat_ofNat_pageSize h]
      exact Nat.one_le_two_pow
    rw [BitVec.toNat_sub_of_le one, pageSize_eq, toNat_ofNat_pageSize h]
    rfl
  apply BitVec.eq_of_toNat_eq
  rw [BitVec.toNat_and, e, Nat.and_two_pow_sub_one_eq_mod, BitVec.toNat_ofNat, Nat.pow_add,
    Nat.mod_eq_of_lt (Nat.lt_of_le_of_lt (Nat.mod_le ..) va.isLt)]

/-- The bits from the top of a virtual address up are equal where it lies in the signed range. -/
theorem canonical_iff (levels : Nat) (va : Word) : canonical levels va = true ↔
    -2 ^ (11 + 9 * levels) ≤ va.toInt ∧ va.toInt < 2 ^ (11 + 9 * levels) := by
  have zero : ∀ x : Word, x = 0 ↔ x.toInt = 0 := fun x => eq_zero_iff_toInt x
  have ones : ∀ x : Word, x = BitVec.allOnes 64 ↔ x.toInt = -1 := fun x => by
    rw [← toInt_allOnes 63, BitVec.toInt_inj]
  simp only [canonical, Bool.or_eq_true, beq_iff_eq, zero, ones, BitVec.toInt_sshiftRight,
    Int.shiftRight_eq_div_pow]
  push_cast
  have hk : (0 : Int) < 2 ^ (11 + 9 * levels) := by positivity
  generalize (2 : Int) ^ (11 + 9 * levels) = k at hk
  have e := Int.mul_ediv_add_emod va.toInt k
  have h0 := Int.emod_nonneg va.toInt hk.ne'
  have h1 := Int.emod_lt_of_pos va.toInt hk
  constructor
  · rintro (h | h) <;> rw [h] at e <;> omega
  · intro ⟨hl, hu⟩
    have : va.toInt / k < 1 := Int.ediv_lt_of_lt_mul hk (by omega)
    have : -1 ≤ va.toInt / k := (Int.le_ediv_iff_mul_le hk).2 (by omega)
    omega

/-- A page's entry covers the pages of that page (20_memory R111). -/
theorem covers_iff {e : TlbEntry} {k : Nat} (v : Word) (hk : k ≤ 4)
    (hs : e.size = BitVec.ofNat 64 (4096 * 2 ^ (9 * k))) :
    e.covers v = true ↔ v.toNat / 2 ^ (9 * k) = e.vpn.toNat / 2 ^ (9 * k) := by
  rw [TlbEntry.covers, hs, toNat_ofNat_pageSize hk, Nat.log2_two_pow, Nat.add_sub_cancel_left, beq_iff_eq,
    ← BitVec.toNat_inj, BitVec.toNat_ushiftRight, BitVec.toNat_ushiftRight, Nat.shiftRight_eq_div_pow,
    Nat.shiftRight_eq_div_pow]

/-! ### Active translation -/

/-- The permission check allows what the rules do not refuse (20_memory R117). -/
theorem permits_iff (pte : Word) (acc : Access) (p : Priv) (status : Word) :
    permits pte acc p status = true ↔ ¬Denied pte acc p status := by
  simp only [permits, Denied, not_or, Bool.and_eq_true, Bool.or_eq_true, Bool.not_eq_true', ← Bool.not_eq_true,
    beq_iff_eq, and_assoc]
  rfl

/-- The entries an access of the stepping hart may use (20_memory R112). -/
def usableEntries (va : Word) (s : State) : List TlbEntry :=
  s.tlb.filter fun e => e.hart == s.hart.id && e.covers (va >>> 12) &&
    (e.asid == s.hart.csr.satp.extractLsb' 44 16 || e.raw.getLsbD 5)

theorem usableEntries_eq_nil {va : Word} {s : State}
    (h : ∀ e ∈ s.tlb, ¬(e.hart = s.hart.id ∧ e.covers (va >>> 12) = true ∧
      (e.asid = s.hart.csr.satp.extractLsb' 44 16 ∨ e.raw.getLsbD 5 = true))) :
    usableEntries va s = [] := by
  refine List.filter_eq_nil_iff.2 fun e he hu => h e he ?_
  simpa only [Bool.and_eq_true, Bool.or_eq_true, beq_iff_eq, and_assoc] using hu

theorem tlbChoose_none {va : Word} {s : State} (h : usableEntries va s = []) :
    tlbChoose va s = (none, s) := by
  unfold usableEntries at h
  simp only [tlbChoose, TlbEntry.usable, satpAsid, field, getCsr, CsrFile.get, pteG, h]

/-- Where there are usable entries the draw picks one, or none (20_memory R112). -/
theorem tlbChoose_some {va : Word} {s : State} (h : usableEntries va s ≠ []) :
    tlbChoose va s = ((usableEntries va s)[(drawTlbUse s).1]?, (drawTlbUse s).2) := by
  obtain ⟨e, es, h⟩ := List.exists_cons_of_ne_nil h
  rw [h]
  unfold usableEntries at h
  simp only [tlbChoose, TlbEntry.usable, satpAsid, field, getCsr, CsrFile.get, pteG, h]

theorem canonical_of_range {m : Nat × Nat × Nat} {va : Word} (hm : m ∈ pagedModes)
    (hl : -2 ^ (m.2.2 - 1) ≤ va.toInt) (hu : va.toInt < 2 ^ (m.2.2 - 1)) : canonical m.2.1 va = true :=
  (canonical_iff ..).2 (pagedModes_bits hm ▸ ⟨hl, hu⟩)

section
variable {m : Nat × Nat × Nat} {acc : Access} {va : Word} {s : State} (hm : m ∈ pagedModes)
  (hp : effectivePriv acc s = .S ∨ effectivePriv acc s = .U)
  (hs : s.hart.csr.satp.toNat / 2 ^ 60 = m.1)
include hm hp hs

theorem activeLevels_of_mode : activeLevels acc s = some m.2.1 := by
  have e := modeLevels_of_mem hm ((satpMode_toNat _).trans hs)
  rcases hp with hp | hp <;> (rw [activeLevels, hp]; exact e)

/-- An address outside the mode's signed range raises before the TLB is looked at (20_memory R110). -/
theorem translation_noncanonical
    (hva : ¬(-2 ^ (m.2.2 - 1) ≤ va.toInt ∧ va.toInt < 2 ^ (m.2.2 - 1))) :
    translation va acc s = .raise ⟨pageCause acc, va⟩ s := by
  rw [pagedModes_bits hm, ← canonical_iff, Bool.not_eq_true] at hva
  simp only [translation, activeLevels_of_mode hm hp hs, hva, Bool.not_false, if_true, pageFault_eq]

variable (hl : -2 ^ (m.2.2 - 1) ≤ va.toInt) (hu : va.toInt < 2 ^ (m.2.2 - 1)) {t : State}
include hl hu

/-- A canonical address for which no entry is chosen is walked from the root that satp names. -/
theorem translation_walks (hc : tlbChoose va s = (none, t)) : translation va acc s =
    walk va acc (effectivePriv acc s) m.2.1
      (BitVec.ofNat 64 (s.hart.csr.satp.toNat % 2 ^ 44 * 4096)) t := by
  simp only [translation, activeLevels_of_mode hm hp hs, canonical_of_range hm hl hu, Bool.not_true,
    Bool.false_eq_true, if_false, hc, satpRoot_eq]
  rfl

theorem translation_hits {e : TlbEntry} (hc : tlbChoose va s = (some e, t)) :
    translation va acc s = tlbHit e va acc (effectivePriv acc s) t := by
  simp only [translation, activeLevels_of_mode hm hp hs, canonical_of_range hm hl hu, Bool.not_true,
    Bool.false_eq_true, if_false, hc]

end

/-- Settles O58: the mode's levels, the canonical range and the entry's page, each in arithmetic. -/
theorem translationModes : Obligations.TranslationModes := by
  intro va acc s
  refine ⟨?_, translation_untranslated, fun m hm hp hs =>
    ⟨translation_noncanonical hm hp hs, fun hl hu he => ?_⟩, fun e v k hk => covers_iff v hk⟩
  · rw [translate]
    cases translation va acc s <;> rfl
  · exact translation_walks hm hp hs hl hu (tlbChoose_none (usableEntries_eq_nil he))

/-! ### Setting A and D -/

theorem or_twoPow_eq_self {v : Word} {k : Nat} (hk : k < 64) :
    v ||| BitVec.twoPow 64 k = v ↔ v.getLsbD k = true := by
  constructor
  · intro h
    rw [← h, BitVec.getLsbD_or, BitVec.getLsbD_twoPow]
    simp [hk]
  · intro h
    apply BitVec.eq_of_getLsbD_eq
    intro i hi
    rw [BitVec.getLsbD_or, BitVec.getLsbD_twoPow]
    by_cases hik : k = i
    · rw [← hik, h, Bool.true_or]
    · simp [hik]

theorem or_or_eq_self {v a b : Word} : v ||| a ||| b = v ↔ v ||| a = v ∧ v ||| b = v := by
  constructor
  · intro h
    constructor
    · calc v ||| a = v ||| a ||| b ||| a := by rw [h]
        _ = v ||| (a ||| a) ||| b := by ac_rfl
        _ = v := by rw [BitVec.or_self, h]
    · calc v ||| b = v ||| a ||| b ||| b := by rw [h]
        _ = v := by rw [BitVec.or_assoc, BitVec.or_self, h]
  · rintro ⟨ha, hb⟩
    rw [ha, hb]

/-- An access must set A or D where the PTE lacks one it needs (20_memory R118). -/
theorem needsTouch_iff (pte : Word) (acc : Access) : needsTouch pte acc = true ↔ touchPte pte acc ≠ pte := by
  have a : pte ||| 0x40#64 = pte ↔ pteA pte = true := or_twoPow_eq_self (k := 6) (by decide)
  have d : pte ||| 0x80#64 = pte ↔ pteD pte = true := or_twoPow_eq_self (k := 7) (by decide)
  rw [touchPte, Ne, or_or_eq_self, a, needsTouch]
  by_cases hw : acc = .write
  · rw [if_pos hw, d, hw]
    cases pteA pte <;> simp
  · rw [if_neg hw]
    cases pteA pte <;> simp [hw]

section
variable {pte addr va : Word} {acc : Access} {s w : State}

theorem updateAD_kept (h : touchPte pte acc = pte) : updateAD pte addr acc va s = .ok pte s := by
  rw [updateAD, if_neg fun k => (needsTouch_iff pte acc).1 k h]

theorem updateAD_written (h : touchPte pte acc ≠ pte)
    (hw : physWrite addr 8 (touchPte pte acc) s = some w) :
    updateAD pte addr acc va s = .ok (touchPte pte acc) w := by
  rw [updateAD, if_pos ((needsTouch_iff pte acc).2 h), hw]

theorem updateAD_unmapped (h : touchPte pte acc ≠ pte) (hm : Unmapped s addr.toNat 8) :
    updateAD pte addr acc va s = .raise ⟨accessCause acc, va⟩ s := by
  rw [updateAD, if_pos ((needsTouch_iff pte acc).2 h), physWrite_unmapped hm, accessFault_eq]

end

theorem exists_physWrites {pa : Word} {n : Nat} {s : State} (hw : Memory.wf s.mem)
    (hm : ¬Unmapped s pa.toNat n) (v : Word) : ∃ w, physWrite pa n v s = some w ∧ PhysWrites pa n v s w := by
  cases e : physWrite pa n v s with
  | none => exact absurd (unmapped_of_physWrite e) hm
  | some w => exact ⟨w, rfl, physWrites_of_physWrite hw (.refl n v) e⟩

theorem PhysWrites.tlb_eq {pa v : Word} {n : Nat} {s w : State} (h : PhysWrites pa n v s w) :
    w.tlb = s.tlb := by cases h <;> rfl

theorem PhysReads.tlb_eq {pa : Word} {n v : Nat} {s w : State} (h : PhysReads pa n s v w) :
    w.tlb = s.tlb := by
  cases h with
  | ram => rfl
  | device =>
    show (drawDeviceRead s).2.tlb = s.tlb
    rw [drawDeviceRead_state]

theorem PhysReads.mapped {pa : Word} {n v : Nat} {s w : State} (h : PhysReads pa n s v w) :
    ¬Unmapped s pa.toNat n := by
  intro hm
  cases h with
  | ram h => obtain ⟨r, hr, -⟩ := h; cases hm.symm.trans hr
  | device d h => obtain ⟨r, hr, -⟩ := h; cases hm.symm.trans hr

/-! ### A TLB hit -/

theorem tlbSetRaw_self (e : TlbEntry) (s : State) : tlbSetRaw e e.raw s = s := by
  have h : (fun d => if d = e then { d with raw := e.raw } else d) = id := by
    funext d
    split
    · next hd => rw [hd]; rfl
    · rfl
  rw [tlbSetRaw, h, List.map_id]
  rfl

section
variable {e : TlbEntry} {va : Word} {acc : Access} {p : Priv} {s : State}

theorem tlbHit_denied (h : Denied e.raw acc p s.hart.csr.mstatus) :
    tlbHit e va acc p s = .raise ⟨pageCause acc, va⟩ s := by
  rw [← pageFault_eq]
  exact if_neg fun k => (permits_iff ..).1 k h

variable (h : ¬Denied e.raw acc p s.hart.csr.mstatus)
include h

theorem tlbHit_permitted : tlbHit e va acc p s =
    (updateAD e.raw e.pteAddr acc va s).bind fun raw t =>
      .ok ⟨e.base + (va &&& (e.size - 1)), writtenBack e.raw raw e.pteAddr⟩ (tlbSetRaw e raw t) :=
  if_pos ((permits_iff ..).2 h)

theorem tlbHit_kept (hk : touchPte e.raw acc = e.raw) :
    tlbHit e va acc p s = .ok ⟨e.base + (va &&& (e.size - 1)), none⟩ s := by
  simp only [tlbHit_permitted h, updateAD_kept hk, Attempt.bind, tlbSetRaw_self, writtenBack, if_true]

theorem tlbHit_unmapped (hk : touchPte e.raw acc ≠ e.raw) (hm : Unmapped s e.pteAddr.toNat 8) :
    tlbHit e va acc p s = .raise ⟨accessCause acc, va⟩ s := by
  simp only [tlbHit_permitted h, updateAD_unmapped hk hm, Attempt.bind]

/-- A hit that sets A or D does so in the PTE and in the entry (20_memory R118). -/
theorem tlbHit_written (hw : Memory.wf s.mem) (hk : touchPte e.raw acc ≠ e.raw)
    (hm : ¬Unmapped s e.pteAddr.toNat 8) :
    ∃ w, PhysWrites e.pteAddr 8 (touchPte e.raw acc) s w ∧ tlbHit e va acc p s =
      .ok ⟨e.base + (va &&& (e.size - 1)), some e.pteAddr⟩ { w with
        tlb := s.tlb.map fun x => if x = e then { x with raw := touchPte e.raw acc } else x } := by
  obtain ⟨w, hp, hpw⟩ := exists_physWrites hw hm (touchPte e.raw acc)
  refine ⟨w, hpw, ?_⟩
  simp only [tlbHit_permitted h, updateAD_written hk hp, Attempt.bind, writtenBack, if_neg hk, ← hpw.tlb_eq]
  rfl

end

theorem drawTlbUse_cons {s : State} {k : Nat} {l : List Nat} (h : s.tape.tlbUse = k :: l) :
    drawTlbUse s = (k, { s with tape := { s.tape with tlbUse := l } }) := by
  simp only [drawTlbUse, h]

/-- Settles O59: the draw picks an entry, which is hit, or none, and the access walks. -/
theorem tlbHit_holds : Obligations.TlbHit := by
  intro va acc s hw
  refine ⟨fun _ _ => drawTlbUse_cons, fun m hm hp hs hl hu hne => ?_⟩
  have choice := tlbChoose_some (va := va) (s := s) hne
  have f := drawTlbUse_frame s
  have unmapped (e : TlbEntry) : Unmapped s e.pteAddr.toNat 8 ↔
      Unmapped (drawTlbUse s).2 e.pteAddr.toNat 8 := by rw [Unmapped, Unmapped, f.plat]
  have tlb : (drawTlbUse s).2.tlb = s.tlb := by rw [drawTlbUse_state]
  refine ⟨fun hn => ?_, fun e he => ?_⟩
  · exact translation_walks hm hp hs hl hu (choice.trans (congrArg (·, _) hn))
  · have hit := translation_hits hm hp hs hl hu (choice.trans (congrArg (·, _) he))
    simp only [hit, unmapped, ← f.csr_eq, ← tlb]
    exact ⟨tlbHit_denied, fun h => ⟨tlbHit_kept h, tlbHit_unmapped h, tlbHit_written h (f.memory hw)⟩⟩

/-! ### One level of the walk -/

/-- A PTE that is valid and of no reserved form (20_memory R115). -/
def ValidPte (pte : Word) : Prop := pteBit pte 0 = true ∧ ¬(pteBit pte 2 = true ∧ pteBit pte 1 = false)

/-- A PTE that ends the walk (20_memory R115). -/
def LeafPte (pte : Word) : Prop := pteBit pte 1 = true ∨ pteBit pte 3 = true

theorem invalidPte_iff (pte : Word) : (!pteV pte || (pteW pte && !pteR pte)) = true ↔ ¬ValidPte pte := by
  rw [ValidPte, not_and_or, not_not, Bool.not_eq_true]
  simp only [Bool.or_eq_true, Bool.and_eq_true, Bool.not_eq_true']
  rfl

theorem leafPte_iff (pte : Word) : (pteR pte || pteX pte) = true ↔ LeafPte pte := Bool.or_eq_true_iff

section
variable {va table pte : Word} {acc : Access} {p : Priv} {level : Nat} {s s1 : State}

theorem walk_unmapped (hm : Unmapped s (table + vpnIndex level va * 8#64).toNat 8) :
    walk va acc p (level + 1) table s = .raise ⟨accessCause acc, va⟩ s := by
  simp only [walk, physRead_unmapped hm, accessFault_eq]

variable (hr : physRead (table + vpnIndex level va * 8#64) 8 s = some (pte, s1))
include hr

theorem walk_invalid (hv : ¬ValidPte pte) :
    walk va acc p (level + 1) table s = .raise ⟨pageCause acc, va⟩ s1 := by
  simp only [walk, hr, (invalidPte_iff pte).2 hv, if_true, pageFault_eq]

variable (hv : ValidPte pte)
include hv

theorem walk_pointer (hl : ¬LeafPte pte) :
    walk va acc p (level + 1) table s = walk va acc p level (pteBase pte) s1 := by
  simp only [walk, hr, invalidPte_iff, hv, leafPte_iff, hl, not_true_eq_false, if_false]

variable (hl : LeafPte pte)
include hl

/-- At a leaf, permission and alignment decide, and then A and D are set and an entry is installed. -/
theorem walk_leaf : walk va acc p (level + 1) table s =
    if !permits pte acc p s1.hart.csr.mstatus then .raise ⟨pageCause acc, va⟩ s1
    else if !superpageAligned level pte then .raise ⟨pageCause acc, va⟩ s1
    else (updateAD pte (table + vpnIndex level va * 8#64) acc va s1).bind fun pte' t =>
      .ok ⟨pteBase pte + (va &&& (pageSize level - 1)),
          writtenBack pte pte' (table + vpnIndex level va * 8#64)⟩
        (tlbInstall { pteAddr := table + vpnIndex level va * 8#64, vpn := va >>> 12,
                      asid := t.hart.csr.satp.extractLsb' 44 16, hart := t.hart.id, base := pteBase pte,
                      size := pageSize level, raw := pte' } t) := by
  simp only [walk, hr, invalidPte_iff, hv, leafPte_iff, hl, not_true_eq_false, if_true, if_false,
    pageFault_eq]
  rfl

theorem walk_denied (hd : Denied pte acc p s1.hart.csr.mstatus) :
    walk va acc p (level + 1) table s = .raise ⟨pageCause acc, va⟩ s1 := by
  have hd : permits pte acc p s1.hart.csr.mstatus = false := by
    rw [← Bool.not_eq_true, permits_iff]
    exact not_not.2 hd
  rw [walk_leaf hr hv hl, hd]
  rfl

theorem walk_misaligned (ha : ptePage pte % 2 ^ (9 * level) ≠ 0) :
    walk va acc p (level + 1) table s = .raise ⟨pageCause acc, va⟩ s1 := by
  have ha : superpageAligned level pte = false := by
    rwa [← Bool.not_eq_true, superpageAligned_iff]
  rw [walk_leaf hr hv hl, ha]
  exact ite_self _

/-- A permitted leaf answers its page, with the PTE written back where A or D was not set
(20_memory R118 to R120). -/
theorem walk_permitted (hw : Memory.wf s1.mem) (hm : ¬Unmapped s1 (table + vpnIndex level va * 8#64).toNat 8)
    (hd : ¬Denied pte acc p s1.hart.csr.mstatus) (ha : ptePage pte % 2 ^ (9 * level) = 0) :
    let addr := table + vpnIndex level va * 8#64
    let touched := touchPte pte acc
    let e : TlbEntry :=
      { pteAddr := addr, vpn := va >>> 12, asid := s1.hart.csr.satp.extractLsb' 44 16, hart := s1.hart.id,
        base := pteBase pte, size := pageSize level, raw := touched }
    ∃ w, ((touched = pte ∧ w = s1) ∨ (touched ≠ pte ∧ PhysWrites addr 8 touched s1 w)) ∧
      walk va acc p (level + 1) table s =
        .ok ⟨pteBase pte + (va &&& (pageSize level - 1)), if touched = pte then none else some addr⟩
          { w with tlb := e :: s1.tlb.filter fun d => !d.sameKey e } := by
  intro addr touched e
  have run : walk va acc p (level + 1) table s = _ := walk_leaf hr hv hl
  rw [(permits_iff ..).2 hd, (superpageAligned_iff ..).2 ha] at run
  by_cases hk : touched = pte
  · refine ⟨s1, .inl ⟨hk, rfl⟩, run.trans ?_⟩
    simp only [updateAD_kept hk, Attempt.bind, writtenBack, e, hk]
    rfl
  · obtain ⟨w, hp, hpw⟩ := exists_physWrites hw hm touched
    have f := hpw.frame hw
    refine ⟨w, .inr ⟨hk, hpw⟩, run.trans ?_⟩
    simp only [updateAD_written hk hp, Attempt.bind, writtenBack, e, f.csr_eq, f.id_eq, ← hpw.tlb_eq]
    rfl

end

/-- Settles O57: what the PTE read says decides, case by case. -/
theorem walkLevel : Obligations.WalkLevel := by
  intro va acc p level table s hlevel hw addr walked size
  have haddr : table + vpnIndex level va * 8#64 = addr := by rw [vpnIndex_offset]
  refine ⟨congrArg (Attempt.raise · s) (pageFault_eq acc va), fun hm => walk_unmapped (haddr ▸ hm),
    fun v s1 hv => ?_⟩
  have hr := physRead_of_reads (by decide) hv
  have f := hv.frame (by decide)
  rw [← haddr] at hr
  refine ⟨walk_invalid hr, fun valid leaf => ?_, fun valid leaf hd => walk_denied hr valid leaf (f.csr_eq ▸ hd),
    walk_misaligned hr, fun valid leaf hd ha => ?_⟩
  · exact (walk_pointer hr valid leaf).trans (by rw [pteBase_eq])
  · have hm : ¬Unmapped s1 (table + vpnIndex level va * 8#64).toNat 8 := by
      rw [haddr, Unmapped, f.plat]
      exact hv.mapped
    obtain ⟨w, hpw, run⟩ := walk_permitted hr valid leaf (f.memory hw) hm (f.csr_eq ▸ hd) ha
    rw [haddr] at hpw
    refine ⟨w, hpw, run.trans ?_⟩
    rw [and_pageSize va hlevel, pteBase_eq, ← BitVec.ofNat_add, pageSize_eq, f.csr_eq, f.id_eq, hv.tlb_eq, haddr]
    rfl

end Sys2Proof.Machine
end

section
/-! PROOFS. The encoder and the decoder: each is the other's inverse on well-formed instructions and on
the words that decode (O46, O47), and the spec's example words (O45). -/

namespace Sys2Proof.Machine

/-! ### The arguments of an instruction and the operands of its row -/

/-- Cutting a value to `k` bits and widening it again masks it. -/
theorem setWidth_setWidth_eq_and {k : Nat} (x : InstrWord) :
    (x.setWidth k).setWidth 32 = x &&& ((BitVec.allOnes 32).setWidth k).setWidth 32 := by
  apply BitVec.eq_of_getLsbD_eq
  intro i hi
  simp only [BitVec.getLsbD_and, BitVec.getLsbD_setWidth, BitVec.getLsbD_allOnes, hi, decide_true,
    Bool.true_and, Bool.and_comm]

/-- The bits of each named value that the arguments of a mnemonic's instruction hold. -/
def argMask (m : Mnemonic) : OpName → InstrWord := (m.build fun _ => BitVec.allOnes 32).operand

/-- Building an instruction cuts each value to the bits of its argument. -/
theorem operand_build (m : Mnemonic) (v : OpName → InstrWord) (n : OpName) :
    (m.build v).operand n = v n &&& argMask m n := by
  have key : (m.build v).operands =
      (m.build fun _ => BitVec.allOnes 32).operands.map fun p => (p.1, v p.1 &&& p.2) := by
    cases m <;>
      simp only [Mnemonic.build, Instr.operands, List.map_cons, List.map_nil, ← setWidth_setWidth_eq_and]
  rw [argMask, Instr.operand, Instr.operand, key, List.find?_map]
  generalize (m.build fun _ => BitVec.allOnes 32).operands = l
  show (Option.map _ (Option.map _ (l.find? fun p => p.1 == n))).getD 0 = _
  cases h : l.find? fun p => p.1 == n with
  | none => exact BitVec.and_zero.symm
  | some p =>
    have hn : p.1 = n := by simpa using List.find?_some h
    simp [hn]

/-- An instruction is what its mnemonic builds of its operand values. -/
theorem build_operand (i : Instr) : i.mnemonic.build i.operand = i := by
  cases i <;> simp [Instr.mnemonic, Mnemonic.build, Instr.operand, Instr.operands]

theorem operand_and_argMask (i : Instr) (n : OpName) :
    i.operand n &&& argMask i.mnemonic n = i.operand n := by
  rw [← operand_build, build_operand]

/-- The arguments hold every bit an operand's value can have, and each is named by an operand. -/
theorem registry_argMask {d : Definition} (h : d ∈ registry) :
    (∀ o ∈ d.operands, o.valueMask &&& argMask d.mnemonic o.name = o.valueMask) ∧
    ∀ p ∈ (d.mnemonic.build fun _ => BitVec.allOnes 32).operands, ∃ o ∈ d.operands, o.name = p.1 := by
  have key : (registry.all fun d =>
      (d.operands.all fun o => o.valueMask &&& argMask d.mnemonic o.name == o.valueMask) &&
      (d.mnemonic.build fun _ => BitVec.allOnes 32).operands.all fun p =>
        d.operands.any fun o => o.name == p.1) = true := by decide +kernel
  simpa using List.all_eq_true.1 key d h

/-- An instruction has no value of a name its row has no operand of. -/
theorem operand_eq_zero {d : Definition} (hd : d ∈ registry) {i : Instr} (hi : d.mnemonic = i.mnemonic)
    {n : OpName} (hn : ∀ o ∈ d.operands, o.name ≠ n) : i.operand n = 0 := by
  have none : (d.mnemonic.build fun _ => BitVec.allOnes 32).operands.find? (fun p => p.1 == n) = none := by
    rw [List.find?_eq_none]
    intro p hp e
    obtain ⟨o, ho, he⟩ := (registry_argMask hd).2 p hp
    exact hn o ho (he.trans (by simpa using e))
  have mask : argMask d.mnemonic n = 0 := by rw [argMask, Instr.operand, none]; rfl
  rw [← operand_and_argMask, ← hi, mask]
  exact BitVec.and_zero

/-! ### Well-formed instructions -/

/-- The operands that cannot have every value of their argument: an immediate with low zeros (30_encoding
R162, R165) or an exclusion set (30_encoding R158). -/
def constrainedOperands : Mnemonic → List Operand
  | .LUI | .AUIPC => [opImmU]
  | .JAL => [opImmJ]
  | .BEQ | .BNE | .BLT | .BGE | .BLTU | .BGEU => [opImmB]
  | .C_ADDI4SPN => [opCAddi4spn]
  | .C_FLD | .C_LD | .C_FSD | .C_SD => [opCOff8]
  | .C_LW | .C_SW => [opCOff4]
  | .C_ADDI | .C_ADDIW => [opCRdNot0]
  | .C_ADDI16SP => [opCAddi16sp]
  | .C_LUI => [opCRdNot2, opCLui]
  | .C_J => [opCJump]
  | .C_BEQZ | .C_BNEZ => [opCBranch]
  | .C_FLDSP => [opCLoadSp8]
  | .C_LWSP => [opCRdNot0, opCLoadSp4]
  | .C_LDSP => [opCRdNot0, opCLoadSp8]
  | .C_JR | .C_JALR => [opCRs1Not0]
  | .C_MV | .C_ADD => [opCRs2Not0]
  | .C_FSDSP | .C_SDSP => [opCStoreSp8]
  | .C_SWSP => [opCStoreSp4]
  | _ => []

/-- Every other operand of a row has its whole argument and excludes nothing. -/
theorem registry_constrainedOperands {d : Definition} (h : d ∈ registry) :
    (∀ o ∈ constrainedOperands d.mnemonic, o ∈ d.operands) ∧
    ∀ o ∈ d.operands, o ∈ constrainedOperands d.mnemonic ∨
      o.exclude = [] ∧ o.valueMask = argMask d.mnemonic o.name := by
  have key : (registry.all fun d =>
      (constrainedOperands d.mnemonic).all (fun o => decide (o ∈ d.operands)) &&
      d.operands.all fun o => decide (o ∈ constrainedOperands d.mnemonic) ||
        (o.exclude == [] && o.valueMask == argMask d.mnemonic o.name)) = true := by decide +kernel
  simpa using List.all_eq_true.1 key d h

/-- A value of `k` bits is inside the mask of the bits from `j` on where its low `j` bits are zero. -/
theorem and_mask_eq_iff {k j : Nat} (hj : j ≤ k) (hk : k ≤ 32) (x : BitVec k) :
    x.setWidth 32 &&& (onesMask (k - j) <<< j) = x.setWidth 32 ↔ x.extractLsb' 0 j = 0#j := by
  have bit (i : Nat) : (x.setWidth 32 &&& (onesMask (k - j) <<< j)).getLsbD i =
      (decide (j ≤ i) && (x.setWidth 32).getLsbD i) := by
    rw [BitVec.getLsbD_and, getLsbD_mask, BitVec.getLsbD_setWidth, Bool.eq_iff_iff]
    simp only [Bool.and_eq_true, decide_eq_true_eq]
    constructor
    · rintro ⟨⟨h, hx⟩, h1, -⟩
      exact ⟨h1, h, hx⟩
    · rintro ⟨h1, h, hx⟩
      exact ⟨⟨h, hx⟩, h1, by have := BitVec.lt_of_getLsbD hx; omega, h⟩
  constructor
  · intro h
    apply BitVec.eq_of_getLsbD_eq
    intro i hi
    have low := bit i
    rw [h, decide_eq_false (by omega), Bool.false_and, BitVec.getLsbD_setWidth,
      decide_eq_true (by omega), Bool.true_and] at low
    rw [BitVec.getLsbD_extractLsb', Nat.zero_add, low, Bool.and_false, BitVec.getLsbD_zero]
  · intro h
    apply BitVec.eq_of_getLsbD_eq
    intro i _
    rw [bit]
    by_cases hi : j ≤ i
    · rw [decide_eq_true hi, Bool.true_and]
    · have low := congrArg (BitVec.getLsbD · i) h
      simp only [BitVec.getLsbD_extractLsb', BitVec.getLsbD_zero, Nat.zero_add,
        decide_eq_true (Nat.lt_of_not_le hi), Bool.true_and] at low
      rw [BitVec.getLsbD_setWidth, low, Bool.and_false, Bool.and_false]

/-- An operand whose values are those of `k` bits with `j` low zeros, but for the excluded `l`. -/
def carries (o : Operand) {k : Nat} (j : Nat) (l : List (BitVec k)) : Bool :=
  decide (j ≤ k) && decide (k ≤ 32) && o.valueMask == onesMask (k - j) <<< j &&
    o.exclude == l.map (BitVec.setWidth 32)

/-- The values such an operand admits, where it stands first in a list and `f` gives the values. -/
theorem eq_all_admits {o : Operand} {os : List Operand} {f : OpName → InstrWord} {b : Bool} {k : Nat}
    (j : Nat) (l : List (BitVec k)) (x : BitVec k) (hf : f o.name = x.setWidth 32)
    (ho : carries o j l = true) (hb : b = os.all fun o => o.admits (f o.name)) :
    (x.extractLsb' 0 j == 0#j && !l.contains x && b) = (o :: os).all fun o => o.admits (f o.name) := by
  simp only [carries, Bool.and_eq_true, decide_eq_true_eq, beq_iff_eq] at ho
  obtain ⟨⟨⟨hj, hk⟩, hm⟩, he⟩ := ho
  have inj : Function.Injective (BitVec.setWidth 32 : BitVec k → InstrWord) := fun y z e => by
    simpa [BitVec.setWidth_setWidth_of_le _ hk] using congrArg (BitVec.setWidth k) e
  rw [hb, List.all_cons, Operand.admits, hf, hm, he, Bool.eq_iff_iff]
  simp [and_mask_eq_iff hj hk, inj.eq_iff]

theorem extractLsb'_zero_one {k : Nat} (x : BitVec k) : (x.extractLsb' 0 1 == 0#1) = !x.getLsbD 0 := by
  have : x.extractLsb' 0 1 = BitVec.ofBool (x.getLsbD 0) := by
    apply BitVec.eq_of_getLsbD_eq
    intro i hi
    obtain rfl : i = 0 := by omega
    simp
  rw [this]
  cases x.getLsbD 0 <;> rfl

/-- The rules of `Instr.wellFormed` are the constraints of the table. -/
theorem wellFormed_eq (i : Instr) :
    i.wellFormed = (constrainedOperands i.mnemonic).all fun o => o.admits (i.operand o.name) := by
  cases i with
  | lui _ imm | auipc _ imm =>
    exact Eq.trans (by simp [Instr.wellFormed]) (eq_all_admits 12 [] imm rfl (by decide) rfl)
  | jal _ imm | beq _ _ imm | bne _ _ imm | blt _ _ imm | bge _ _ imm | bltu _ _ imm | bgeu _ _ imm
  | cJ imm | cBeqz _ imm | cBnez _ imm =>
    exact Eq.trans (by simp [Instr.wellFormed, extractLsb'_zero_one])
      (eq_all_admits 1 [] imm rfl (by decide) rfl)
  | cFld _ _ imm | cLd _ _ imm | cFsd _ _ imm | cSd _ _ imm | cFldsp _ imm | cFsdsp _ imm | cSdsp _ imm =>
    exact Eq.trans (by simp [Instr.wellFormed]) (eq_all_admits 3 [] imm rfl (by decide) rfl)
  | cLw _ _ imm | cSw _ _ imm | cSwsp _ imm =>
    exact Eq.trans (by simp [Instr.wellFormed]) (eq_all_admits 2 [] imm rfl (by decide) rfl)
  | cAddi4spn _ imm =>
    exact Eq.trans (by simp [Instr.wellFormed, bne, beq_eq_decide])
      (eq_all_admits 2 [0] imm rfl (by decide) rfl)
  | cAddi16sp imm =>
    exact Eq.trans (by simp [Instr.wellFormed, bne, beq_eq_decide])
      (eq_all_admits 4 [0] imm rfl (by decide) rfl)
  | cAddi r _ | cAddiw r _ | cJr r | cJalr r | cMv _ r | cAdd _ r =>
    exact Eq.trans (by simp [Instr.wellFormed, bne, beq_eq_decide])
      (eq_all_admits 0 [0] r rfl (by decide) rfl)
  | cLui rd imm =>
    exact Eq.trans (by simp [Instr.wellFormed, bne, beq_eq_decide, Bool.and_assoc])
      (eq_all_admits 0 [2] rd rfl (by decide) (eq_all_admits 12 [0] imm rfl (by decide) rfl))
  | cLwsp rd imm =>
    exact Eq.trans (by simp [Instr.wellFormed, bne, beq_eq_decide])
      (eq_all_admits 0 [0] rd rfl (by decide) (eq_all_admits 2 [] imm rfl (by decide) rfl))
  | cLdsp rd imm =>
    exact Eq.trans (by simp [Instr.wellFormed, bne, beq_eq_decide])
      (eq_all_admits 0 [0] rd rfl (by decide) (eq_all_admits 3 [] imm rfl (by decide) rfl))
  | _ => rfl

/-- An instruction is well formed where every operand of its row admits its value. -/
theorem wellFormed_iff {d : Definition} (hd : d ∈ registry) {i : Instr} (hi : d.mnemonic = i.mnemonic) :
    WellFormed i ↔ ∀ o ∈ d.operands, o.admits (i.operand o.name) = true := by
  obtain ⟨sub, rest⟩ := registry_constrainedOperands hd
  rw [WellFormed, wellFormed_eq, List.all_eq_true, ← hi]
  refine ⟨fun h o ho => ?_, fun h o ho => h o (sub o ho)⟩
  rcases rest o ho with hc | ⟨he, hm⟩
  · exact h o hc
  · simp [Operand.admits, he, hm, hi, operand_and_argMask]

/-! ### Encoding -/

/-- Every mnemonic has its row. -/
theorem exists_row (m : Mnemonic) : ∃ d ∈ registry, d.mnemonic = m := by
  have key : (rowOf m).isSome = true := by cases m <;> rfl
  obtain ⟨d, hd⟩ := Option.isSome_iff_exists.1 key
  exact ⟨d, rowOf_mem hd⟩

section
variable {d : Definition} (hd : d ∈ registry) {i : Instr} (hi : d.mnemonic = i.mnemonic)
include hd hi

theorem encode_eq : encode i = d.assemble i.operand := by
  rw [encode, ← hi, rowOf_mnemonic hd]

theorem length_eq : i.length = d.length := by
  rw [Instr.length, ← hi, rowOf_mnemonic hd]

theorem operand_and_valueMask (h : WellFormed i) {o : Operand} (ho : o ∈ d.operands) :
    i.operand o.name &&& o.valueMask = i.operand o.name := by
  have := (wellFormed_iff hd hi).1 h o ho
  simp only [Operand.admits, Bool.and_eq_true, beq_iff_eq] at this
  exact this.1

/-- The values in a well-formed instruction's word are its own. -/
theorem value_encode (h : WellFormed i) : d.value (encode i) = i.operand := by
  funext n
  by_cases hn : ∃ o ∈ d.operands, o.name = n
  · obtain ⟨o, ho, rfl⟩ := hn
    have sound := registry_sound hd
    rw [encode_eq hd hi, Definition.value_of_mem sound _ ho, Definition.extract_assemble sound _ ho,
      operand_and_valueMask hd hi h ho]
  · have none (o) (ho : o ∈ d.operands) : o.name ≠ n := fun e => hn ⟨o, ho, e⟩
    rw [operand_eq_zero hd hi none, Definition.value,
      List.find?_eq_none.2 fun o ho => by simpa using none o ho]

/-- A well-formed instruction's word matches its row, where no row is disabled. -/
theorem matchesWord_encode (h : WellFormed i) : d.matchesWord [] .m64 i.length (encode i) = true := by
  rw [length_eq hd hi, encode_eq hd hi]
  refine matchesWord_assemble hd fun o ho => ?_
  have := (wellFormed_iff hd hi).1 h o ho
  simp only [Operand.admits, Bool.and_eq_true, Bool.not_eq_true'] at this
  rw [operand_and_valueMask hd hi h ho, this.2]

end

/-- RVC_DISABLED only takes rows away (30_encoding R153). -/
theorem matchesWord_disabled {d : Definition} {disabled : List Mnemonic} {mode : Mode} {len : Nat}
    {w : InstrWord} : d.matchesWord disabled mode len w = true ↔
      d.matchesWord [] mode len w = true ∧ d.mnemonic ∉ disabled := by
  simp [Definition.matchesWord]

/-- A word decodes by the row that matches it. -/
theorem decodeWord_eq_ok {disabled : List Mnemonic} {len : Nat} {w : InstrWord} {i : Instr} :
    decodeWord disabled len w = .ok i ↔
      ∃ d ∈ registry, d.matchesWord disabled .m64 len w = true ∧ d.mnemonic.build (d.value w) = i := by
  unfold decodeWord
  constructor
  · intro h
    split at h
    · next d hl =>
      cases h
      obtain ⟨hd, hm⟩ := lookup_eq_ok.1 hl
      exact ⟨d, hd, hm, rfl⟩
    · cases h
  · rintro ⟨d, hd, hm, rfl⟩
    rw [lookup_eq_ok.2 ⟨hd, hm⟩]

/-- A well-formed instruction's word decodes to it where its row is not disabled. -/
theorem decodeWord_encode {disabled : List Mnemonic} {i : Instr} (h : WellFormed i)
    (hm : i.mnemonic ∉ disabled) : decodeWord disabled i.length (encode i) = .ok i := by
  obtain ⟨d, hd, hi⟩ := exists_row i.mnemonic
  refine decodeWord_eq_ok.2 ⟨d, hd, matchesWord_disabled.2 ⟨matchesWord_encode hd hi h, hi ▸ hm⟩, ?_⟩
  rw [value_encode hd hi h, hi, build_operand]

/-- What decodes under RVC_DISABLED is of a row that it does not hold, and decodes without it. -/
theorem decodeWord_disabled {disabled : List Mnemonic} {len : Nat} {w : InstrWord} {i : Instr}
    (h : decodeWord disabled len w = .ok i) : decodeWord [] len w = .ok i ∧ i.mnemonic ∉ disabled := by
  obtain ⟨d, hd, hm, rfl⟩ := decodeWord_eq_ok.1 h
  obtain ⟨hm, hn⟩ := matchesWord_disabled.1 hm
  exact ⟨decodeWord_eq_ok.2 ⟨d, hd, hm, rfl⟩, by rwa [build_mnemonic]⟩

theorem decodeWord_ne_ambiguous (disabled : List Mnemonic) (len : Nat) (w : InstrWord) :
    decodeWord disabled len w ≠ .error .ambiguous := by
  unfold decodeWord
  split
  · simp
  · next e he =>
    intro h
    cases h
    exact lookup_ne_ambiguous _ _ _ _ he

/-- A well-formed instruction's word matches no row where its row is disabled. -/
theorem decodeWord_encode_disabled {disabled : List Mnemonic} {i : Instr} (h : WellFormed i)
    (hm : i.mnemonic ∈ disabled) : decodeWord disabled i.length (encode i) = .error .noMatch := by
  cases hr : decodeWord disabled i.length (encode i) with
  | ok j =>
    obtain ⟨hj, hn⟩ := decodeWord_disabled hr
    rw [decodeWord_encode h List.not_mem_nil] at hj
    cases hj
    exact absurd hm hn
  | error e =>
    cases e with
    | noMatch => rfl
    | ambiguous => exact (decodeWord_ne_ambiguous _ _ _ hr).elim

/-! ### The bytes of a word -/

/-- The row's mask has the two low bits, which give its length (30_encoding R159). -/
theorem registry_lowBits {d : Definition} (h : d ∈ registry) :
    d.mask &&& 3 = 3 ∧ d.length = if d.bits &&& 3 = 3 then 32 else 16 := by
  have key : (registry.all fun d =>
      d.mask &&& 3 == 3 && d.length == if d.bits &&& 3 = 3 then 32 else 16) = true := by decide +kernel
  simpa using List.all_eq_true.1 key d h

theorem and_wordMask {d : Definition} (h : d.Sound) (w : InstrWord) :
    w &&& d.wordMask = (w.setWidth d.length).setWidth 32 := by
  rw [setWidth_setWidth_eq_and, Definition.wordMask]
  rcases h.length with e | e <;> rw [e] <;> rfl

theorem setWidth_length_encode (i : Instr) : ((encode i).setWidth i.length).setWidth 32 = encode i := by
  obtain ⟨d, hd, hi⟩ := exists_row i.mnemonic
  rw [length_eq hd hi, encode_eq hd hi, ← and_wordMask (registry_sound hd),
    Definition.assemble_and_wordMask (registry_sound hd)]

theorem parcelLength_setWidth (w : InstrWord) :
    parcelLength (w.setWidth 16) = if w &&& 3 = 3 then 32 else 16 := by
  have low : w &&& 3 = 3 ↔ w.toNat % 4 = 3 := by
    rw [← BitVec.toNat_inj, BitVec.toNat_and, ← Nat.and_two_pow_sub_one_eq_mod w.toNat 2]
    rfl
  rw [← BitVec.ofNat_toNat]
  split
  · next h => exact parcelLength_of_three (low.1 h)
  · next h => exact parcelLength_of_not_three (mt low.2 h)

/-- An instruction's first parcel says its length. -/
theorem parcelLength_encode (i : Instr) : parcelLength ((encode i).setWidth 16) = i.length := by
  obtain ⟨d, hd, hi⟩ := exists_row i.mnemonic
  obtain ⟨hmask, hlen⟩ := registry_lowBits hd
  have low : encode i &&& 3 = d.bits &&& 3 := by
    rw [encode_eq hd hi, ← Definition.assemble_and_mask (registry_sound hd) i.operand, BitVec.and_assoc,
      hmask]
  rw [parcelLength_setWidth, low, length_eq hd hi, hlen]

theorem decodeBytes_parcel {disabled : List Mnemonic} {b0 b1 : Byte} {rest : List Byte}
    (h : parcelLength (b1 ++ b0) = 16) : decodeBytes disabled (b0 :: b1 :: rest) =
      ((decodeWord disabled 16 ((b1 ++ b0).setWidth 32)).map (·, rest)).mapError .word := by
  unfold decodeBytes
  simp only [if_pos h]
  cases decodeWord disabled 16 ((b1 ++ b0).setWidth 32) <;> rfl

theorem decodeBytes_parcels {disabled : List Mnemonic} {b0 b1 b2 b3 : Byte} {rest : List Byte}
    (h : parcelLength (b1 ++ b0) = 32) : decodeBytes disabled (b0 :: b1 :: b2 :: b3 :: rest) =
      ((decodeWord disabled 32 (b3 ++ b2 ++ b1 ++ b0)).map (·, rest)).mapError .word := by
  unfold decodeBytes
  simp only [h, Nat.reduceEqDiff, if_false]
  cases decodeWord disabled 32 (b3 ++ b2 ++ b1 ++ b0) <;> rfl

/-- The bytes of a word of the length its first parcel says decode as the word does. -/
theorem decodeBytes_wordBytes (disabled : List Mnemonic) {len : Nat} {w : InstrWord}
    (hl : parcelLength (w.setWidth 16) = len) (hw : (w.setWidth len).setWidth 32 = w) (rest : List Byte) :
    decodeBytes disabled (wordBytes (len / 8) w ++ rest) =
      ((decodeWord disabled len w).map (·, rest)).mapError .word := by
  have parcel : w.extractLsb' 8 8 ++ w.extractLsb' 0 8 = w.setWidth 16 := by
    rw [BitVec.extractLsb'_append_extractLsb'_eq_extractLsb' (by decide), BitVec.setWidth_eq_extractLsb' (by decide)]
  have word : w.extractLsb' 24 8 ++ w.extractLsb' 16 8 ++ w.extractLsb' 8 8 ++ w.extractLsb' 0 8 = w := by
    rw [BitVec.extractLsb'_append_extractLsb'_eq_extractLsb' (by decide),
      BitVec.extractLsb'_append_extractLsb'_eq_extractLsb' (by decide),
      BitVec.extractLsb'_append_extractLsb'_eq_extractLsb' (by decide), BitVec.extractLsb'_eq_self]
  have two : len = 16 ∨ len = 32 := by
    rw [← hl, parcelLength_setWidth]
    split <;> simp
  rcases two with rfl | rfl
  · show decodeBytes disabled (w.extractLsb' 0 8 :: w.extractLsb' 8 8 :: rest) = _
    rw [decodeBytes_parcel (parcel ▸ hl), parcel, hw]
  · show decodeBytes disabled
      (w.extractLsb' 0 8 :: w.extractLsb' 8 8 :: w.extractLsb' 16 8 :: w.extractLsb' 24 8 :: rest) = _
    rw [decodeBytes_parcels (parcel ▸ hl), word]

/-- Settles O46: an instruction's row reads back the values it was assembled from, and no other row
matches. -/
theorem decodeOfEncode : Obligations.DecodeOfEncode := by
  intro disabled i h
  have bytes (rest) := decodeBytes_wordBytes disabled (parcelLength_encode i) (setWidth_length_encode i) rest
  refine ⟨parcelLength_encode i, fun hm => ?_, fun hm => ?_⟩
  · have word := decodeWord_encode h hm
    exact ⟨word, fun rest => by rw [encodeBytes, bytes, word]; rfl⟩
  · have word := decodeWord_encode_disabled h hm
    exact ⟨word, fun rest => by rw [encodeBytes, bytes, word]; rfl⟩

/-! ### Decoding -/

/-- A row's instruction has the values read from the word. -/
theorem operand_build_value {d : Definition} (hd : d ∈ registry) (w : InstrWord) {o : Operand}
    (ho : o ∈ d.operands) : (d.mnemonic.build (d.value w)).operand o.name = o.extract w := by
  rw [operand_build, Definition.value_of_mem (registry_sound hd) w ho, ← o.extract_and_valueMask,
    BitVec.and_assoc, (registry_argMask hd).1 o ho]

/-- A word with its row's fixed bits is the word of the instruction its row makes of it. -/
theorem encode_build_value {d : Definition} (hd : d ∈ registry) {w : InstrWord}
    (hbits : w &&& d.mask = d.bits) (hw : (w.setWidth d.length).setWidth 32 = w) :
    encode (d.mnemonic.build (d.value w)) = w := by
  have sound := registry_sound hd
  have same : d.assemble (d.mnemonic.build (d.value w)).operand = d.assemble (d.value w) := by
    rw [Definition.assemble_eq, Definition.assemble_eq]
    congr 1
    refine orMap_congr fun o ho => ?_
    rw [operand_build_value hd w ho, Definition.value_of_mem sound w ho]
  rw [encode_eq hd (build_mnemonic ..).symm, same,
    Definition.assemble_value sound hbits ((and_wordMask sound w).trans hw)]

/-- Settles O47: the row that matches admits the values read, and they assemble to the word. -/
theorem encodeOfDecode : Obligations.EncodeOfDecode := by
  intro disabled len w hlen
  refine ⟨decodeWord_ne_ambiguous disabled len w, fun i h => ?_⟩
  have hw : (w.setWidth len).setWidth 32 = w := by
    rcases hlen with rfl | ⟨rfl, hlt⟩
    · simp
    · apply BitVec.eq_of_toNat_eq
      simp only [BitVec.toNat_setWidth]
      omega
  have length := length_of_decodeWord h
  obtain ⟨d, hd, hm, rfl⟩ := decodeWord_eq_ok.1 h
  simp only [Definition.matchesWord, Bool.and_eq_true, beq_iff_eq, List.all_eq_true,
    Bool.not_eq_true'] at hm
  obtain ⟨⟨⟨⟨rfl, -⟩, hbits⟩, hex⟩, -⟩ := hm
  refine ⟨(wellFormed_iff hd (build_mnemonic ..).symm).2 fun o ho => ?_, length,
    encode_build_value hd hbits hw⟩
  rw [operand_build_value hd w ho]
  exact o.admits_extract (hex o ho)

/-- Settles O45, by running the decoder on each word. -/
theorem knownWordsDecode : Obligations.KnownWordsDecode := by
  unfold Obligations.KnownWordsDecode
  decide +kernel

end Sys2Proof.Machine
end

section
/-! PROOFS. Integer computation (O1 to O4): each instruction runs as one `retireX`, so it writes its
value, advances the pc and changes nothing else; what is left is the value, in exact integers. -/

namespace Sys2Proof.Machine

/-! ### Instructions that write one register -/

/-- An instruction that writes `v` to `x[rd]` and retires runs as the rules say of any value equal to
`v`. -/
theorem RunsTo.of_retireX {i : Instr} {s : State} {len : Word} {rd : RegNum} {v w : Word}
    (he : exec i s = .next (retireX len rd v s)) (e : v = w) :
    RunsTo i s (WroteX rd w (s.hart.pc + len) s) :=
  ⟨_, he, (wroteX_retireX s len rd v).of_eq e⟩

/-! ### Values -/

theorem sextWord_eq_ofInt {n : Nat} (b : BitVec n) : sextWord b = BitVec.ofInt 64 b.toInt := rfl

theorem sext32_eq_ofInt (v : BitVec 32) : sext32 v = BitVec.ofInt 64 v.toInt := rfl

theorem shiftLeft_shift6 (a b : Word) :
    a <<< shift6 b = BitVec.ofNat 64 (a.toNat * 2 ^ (b.toNat % 64)) := by
  rw [shift6_eq, shiftLeft_eq_ofNat]

theorem shiftRight_shift6 (a b : Word) :
    a >>> shift6 b = BitVec.ofNat 64 (a.toNat / 2 ^ (b.toNat % 64)) := by
  rw [shift6_eq, shiftRight_eq_ofNat]

theorem sshiftRight_shift6 (a b : Word) :
    a.sshiftRight (shift6 b) = BitVec.ofInt 64 (a.toInt / 2 ^ (b.toNat % 64)) := by
  rw [shift6_eq, sshiftRight_eq_ofInt]

/-- Shift amounts of the word forms come from the low word, which has the same low five bits. -/
theorem shift5_eq_low32 (v : Word) : shift5 v = (low32 v).toNat % 32 := by
  rw [shift5_eq, low32, BitVec.toNat_setWidth, Nat.mod_mod_of_dvd _ (by decide)]

theorem low32_add_sextWord {n : Nat} (hn : n ≤ 32) (a : Word) (b : BitVec n) :
    low32 (a + sextWord b) = BitVec.ofInt 32 ((low32 a).toInt + b.toInt) := by
  rw [low32_add, low32_sextWord, add_eq_ofInt, BitVec.toInt_signExtend_of_le hn]

theorem sext32_shiftLeft (a : BitVec 32) (k : Nat) :
    sext32 (a <<< k) = BitVec.ofInt 64 (BitVec.ofNat 32 (a.toNat * 2 ^ k)).toInt := by
  rw [sext32_eq_ofInt, shiftLeft_eq_ofNat]

theorem sext32_shiftRight (a : BitVec 32) (k : Nat) :
    sext32 (a >>> k) = BitVec.ofInt 64 (BitVec.ofNat 32 (a.toNat / 2 ^ k)).toInt := by
  rw [sext32_eq_ofInt, shiftRight_eq_ofNat]

theorem sext32_sshiftRight (a : BitVec 32) (k : Nat) :
    sext32 (a.sshiftRight k) = BitVec.ofInt 64 (a.toInt / 2 ^ k) :=
  signExtend_sshiftRight 64 a k

/-! ### The semihosting backdoor words -/

theorem isBackdoorSet_eq_false {rd rs1 : RegNum} {sh : BitVec 6} (h : ¬(rd = 0 ∧ rs1 = 0 ∧ sh = 31)) :
    isBackdoorSet rd rs1 sh = false := by
  simpa [isBackdoorSet] using h

theorem isBackdoorClear_eq_false {rd rs1 : RegNum} {sh : BitVec 6} (h : ¬(rd = 0 ∧ rs1 = 0 ∧ sh = 7)) :
    isBackdoorClear rd rs1 sh = false := by
  simpa [isBackdoorClear] using h

theorem exec_slli {rd rs1 : RegNum} {sh : BitVec 6} (h : isBackdoorSet rd rs1 sh = false) (s : State) :
    exec (.slli rd rs1 sh) s = .next (retireX 4 rd (readX rs1 s <<< sh.toNat) s) :=
  if_neg (Bool.eq_false_iff.1 h)

theorem exec_srai {rd rs1 : RegNum} {sh : BitVec 6} (h : isBackdoorClear rd rs1 sh = false) (s : State) :
    exec (.srai rd rs1 sh) s = .next (retireX 4 rd ((readX rs1 s).sshiftRight sh.toNat) s) :=
  if_neg (Bool.eq_false_iff.1 h)

/-! ### The statements -/

/-- Settles O1: the sums are those of exact integers cut to 64 bits, the comparisons those of the
sign-extended immediate. -/
theorem integerImmediateResults : Obligations.IntegerImmediateResults := by
  intro rd rs1 imm upper s
  have lui := sextWord_eq_ofInt upper
  have auipc := add_sextWord s.hart.pc upper
  have addi := add_sextWord (readX rs1 s) imm
  have slti := boolWord_slt_sextWord (by decide) (readX rs1 s) imm
  have sltiu := boolWord_ult (readX rs1 s) (sextWord imm)
  exact ⟨.of_retireX rfl lui, .of_retireX rfl auipc, .of_retireX rfl addi, .of_retireX rfl slti,
    .of_retireX rfl sltiu, .of_retireX rfl rfl, .of_retireX rfl rfl, .of_retireX rfl rfl⟩

/-- Settles O2: apart from the two backdoor words, a left shift multiplies by a power of two and a
right shift divides by one. -/
theorem shiftImmediateResults : Obligations.ShiftImmediateResults := by
  intro rd rs1 sh shw s low
  have slli := shiftLeft_eq_ofNat (readX rs1 s) sh.toNat
  have srli := shiftRight_eq_ofNat (readX rs1 s) sh.toNat
  have srai := sshiftRight_eq_ofInt (readX rs1 s) sh.toNat
  have slliw := sext32_shiftLeft low shw.toNat
  have srliw := sext32_shiftRight low shw.toNat
  have sraiw := sext32_sshiftRight low shw.toNat
  exact ⟨fun h => .of_retireX (exec_slli (isBackdoorSet_eq_false h) s) slli, .of_retireX rfl srli,
    fun h => .of_retireX (exec_srai (isBackdoorClear_eq_false h) s) srai,
    .of_retireX rfl slliw, .of_retireX rfl srliw, .of_retireX rfl sraiw,
    ⟨_, rfl, onlyMovedPc_retire (s.setSemihost true) 4⟩,
    ⟨_, rfl, onlyMovedPc_retire (s.setSemihost false) 4⟩⟩

/-- Settles O3: sums, differences and comparisons are those of exact integers, shift amounts the
second source modulo 64. -/
theorem registerResults : Obligations.RegisterResults := by
  intro rd rs1 rs2 s a b
  exact ⟨.of_retireX rfl (add_eq_ofInt a b), .of_retireX rfl (sub_eq_ofInt a b),
    .of_retireX rfl (shiftLeft_shift6 a b), .of_retireX rfl (boolWord_slt a b),
    .of_retireX rfl (boolWord_ult a b), .of_retireX rfl rfl, .of_retireX rfl (shiftRight_shift6 a b),
    .of_retireX rfl (sshiftRight_shift6 a b), .of_retireX rfl rfl, .of_retireX rfl rfl⟩

/-- Settles O4: cutting a sum or difference to its low word is the sum or difference of the low words,
and the shifts take their amount from the low word too. -/
theorem wordResults : Obligations.WordResults := by
  intro rd rs1 rs2 imm s a b
  have addiw := congrArg sext32 (low32_add_sextWord (by decide) (readX rs1 s) imm)
  have addw := congrArg sext32 ((low32_add (readX rs1 s) (readX rs2 s)).trans (add_eq_ofInt a b))
  have subw := congrArg sext32 ((low32_sub (readX rs1 s) (readX rs2 s)).trans (sub_eq_ofInt a b))
  have amount : shift5 (readX rs2 s) = b.toNat % 32 := shift5_eq_low32 _
  have sllw := sext32_shiftLeft a (shift5 (readX rs2 s))
  have srlw := sext32_shiftRight a (shift5 (readX rs2 s))
  have sraw := sext32_sshiftRight a (shift5 (readX rs2 s))
  rw [← amount]
  exact ⟨.of_retireX rfl addiw, .of_retireX rfl addw, .of_retireX rfl subw, .of_retireX rfl sllw,
    .of_retireX rfl srlw, .of_retireX rfl sraw⟩

end Sys2Proof.Machine
end

section
/-! PROOFS. Control transfer (O7, O8): a jump runs as one `jumpLink`, a branch as one `branch`, so the
frame is theirs; what is left is the target and the condition, in exact integers. -/

namespace Sys2Proof.Machine

/-! ### Jumps and branches -/

/-- An instruction that links and jumps to `target` runs as the rules say of any address equal to
`target`. -/
theorem RunsTo.of_jumpLink {i : Instr} {s : State} {rd : RegNum} {link target p : Word}
    (he : exec i s = .next (jumpLink rd link target s)) (e : target = p) :
    RunsTo i s (WroteX rd link p s) :=
  ⟨_, he, e ▸ wroteX_jumpLink s rd link target⟩

/-- A branch moves the pc by its sign-extended offset where the condition it tests holds, and by the
instruction's length elsewhere. -/
theorem RunsTo.of_branch {i : Instr} {s : State} {n : Nat} {off : BitVec n} {len : Word} {taken : Bool}
    {c : Prop} [Decidable c] (he : exec i s = .next (branch len taken (sextWord off) s))
    (hc : taken = true ↔ c) :
    RunsTo i s (OnlyMovedPc
      (if c then BitVec.ofInt 64 (s.hart.pc.toInt + off.toInt) else s.hart.pc + len) s) := by
  have target : (s.hart.pc + if taken then sextWord off else len) =
      if c then BitVec.ofInt 64 (s.hart.pc.toInt + off.toInt) else s.hart.pc + len := by
    simp only [hc, apply_ite (s.hart.pc + ·), add_sextWord]
  exact ⟨_, he, target ▸ onlyMovedPc_branch s len (sextWord off) taken⟩

/-! ### Targets and conditions -/

/-- Clearing bit 0 of a register plus an immediate gives the even part of the exact sum's word. -/
theorem clearBit0_add_sextWord {n : Nat} (a : Word) (b : BitVec n) :
    clearBit0 (a + sextWord b) =
      BitVec.ofNat 64 ((BitVec.ofInt 64 (a.toInt + b.toInt)).toNat / 2 * 2) := by
  rw [clearBit0_eq, add_sextWord]

theorem not_slt_iff_toInt_ge {n : Nat} (a b : BitVec n) : (!a.slt b) = true ↔ a.toInt ≥ b.toInt := by
  rw [← BitVec.sle_eq_not_slt, BitVec.sle_iff_toInt_le]

theorem not_ult_iff_toNat_ge {n : Nat} (a b : BitVec n) : (!a.ult b) = true ↔ a.toNat ≥ b.toNat := by
  rw [← BitVec.ule_eq_not_ult, BitVec.ule_iff_toNat_le]

/-! ### The statements -/

/-- Settles O7: `jumpLink` takes a target computed in the state before the link is written. -/
theorem jumpResults : Obligations.JumpResults := by
  intro rd rs1 off imm s
  have jal := add_sextWord s.hart.pc off
  have jalr := clearBit0_add_sextWord (readX rs1 s) imm
  exact ⟨.of_jumpLink rfl jal, .of_jumpLink rfl jalr⟩

/-- Settles O8: each is a branch on a comparison of words, which is that of their signed or unsigned
values. -/
theorem branchResults : Obligations.BranchResults := by
  intro rs1 rs2 off s a b taken
  exact ⟨.of_branch rfl beq_iff_eq, .of_branch rfl bne_iff_ne,
    .of_branch rfl BitVec.slt_iff_toInt_lt, .of_branch rfl (not_slt_iff_toInt_ge a b),
    .of_branch rfl BitVec.ult_iff_toNat_lt, .of_branch rfl (not_ult_iff_toNat_ge a b)⟩

end Sys2Proof.Machine
end

section
/-! PROOFS. Loads and stores in RAM, untranslated (O9, O10). The tables of forms say that each runs as
one MemRead or MemWrite at its address; a plain one reads the little-endian value with no effect, or is
one write to RAM, and then the instruction retires. -/

namespace Sys2Proof.Machine

/-! ### Plain loads -/

section
variable {p : LoadForm} {s : State}

/-- A plain load extends the little-endian value in memory, writes its register and retires. -/
theorem LoadForm.Runs.exec_plain {write : RegNum → Word → State → State} (h : p.Runs write s)
    (hp : PlainAccess p.addr p.width .read s) :
    exec p.instr s = .next (retire p.len (write p.rd (p.ext (leNat s.mem p.addr.toNat p.width)) s)) := by
  obtain ⟨ext, he, hx⟩ := h.runs
  have read := memRead_plain hp
  rw [Memory.readLE_eq_ofNat _ _ h.width] at read
  simp only [he, read, Attempt.bind, settle, hx _ (leNat_lt ..)]

theorem LoadForm.Runs.wroteX_plain (h : p.Runs writeX s) (hp : PlainAccess p.addr p.width .read s) :
    RunsTo p.instr s
      (WroteX p.rd (p.ext (leNat s.mem p.addr.toNat p.width)) (s.hart.pc + p.len) s) :=
  ⟨_, h.exec_plain hp, wroteX_retireX ..⟩

end

/-! ### Plain stores -/

section
variable {a n : Nat} {v len : Word} {s t u : State}

/-- A write to RAM touches nothing of the hart but its reservation. -/
theorem HartWroteX.of_ramWritten {rd : RegNum} {x target : Word}
    (h : HartWroteX rd x target (ramWritten a n v s) t) : HartWroteX rd x target s t :=
  ⟨h.result, h.frame, h.fprs, h.csrs, h.pc, h.retired, { h.mode with }⟩

/-- What keeps all the harts share keeps the bytes stored. -/
theorem StoredAt.of_keepsShared (h : StoredAt a n v s t) (k : KeepsShared t u) : StoredAt a n v s u where
  stored i hi := (k.memory _).trans (h.stored i hi)
  frame b hb := (k.memory b).trans (h.frame b hb)
  others := k.others.trans h.others
  tlb := k.tlb.trans h.tlb
  mtime := k.mtime.trans h.mtime
  plat := k.plat.trans h.plat
  bus := k.bus.trans h.bus

/-- An instruction that writes to RAM and then only moves the pc is a store. -/
theorem OnlyMovedPc.stored (hw : Memory.wf s.mem)
    (h : OnlyMovedPc (s.hart.pc + len) (ramWritten a n v s) t) : Stored a n v len s t where
  hart := h.hart.of_ramWritten
  memory := (ramWritten_storedAt a v hw).of_keepsShared h.shared
  res := h.res.trans (congrArg Hart.res (ramWritten_hart a n v s))

/-- A plain store stores the bytes its word shares with the form's value. -/
theorem StoreForm.Runs.stored {p : StoreForm} (h : p.Runs s) (hw : Memory.wf s.mem)
    (hp : PlainAccess p.addr p.width .write s) :
    RunsTo p.instr s (Stored p.addr.toNat p.width p.value p.len s) := by
  obtain ⟨x, hx, he⟩ := h
  have run : exec p.instr s = .next (retire p.len (ramWritten p.addr.toNat p.width x s)) := by
    simp only [he, storeValue, memWrite_plain hp, Attempt.bind, settle]
  have stored : Stored p.addr.toNat p.width x p.len s _ :=
    OnlyMovedPc.stored hw (onlyMovedPc_retire (ramWritten p.addr.toNat p.width x s) p.len)
  exact ⟨_, run, { stored with memory := stored.memory.sameBytes hx }⟩

end

/-! ### The statements -/

/-- Settles O9: each is a form of load, whose table gives its extension of the value read. -/
theorem loadResults : Obligations.LoadResults := by
  intro rd rs1 imm s va
  have loads := loadForms_run rs1 rd 0 0 imm 0 0 0 s
  simp only [loadForms, List.forall_mem_cons] at loads
  obtain ⟨lb, lh, lw, ld, lbu, lhu, lwu, -⟩ := loads
  exact ⟨lb.wroteX_plain, lh.wroteX_plain, lw.wroteX_plain, ld.wroteX_plain, lbu.wroteX_plain,
    lhu.wroteX_plain, lwu.wroteX_plain⟩

/-- Settles O10: each is a form of store, one write to RAM of its low bytes. -/
theorem storeResults : Obligations.StoreResults := by
  intro rs1 rs2 imm s hw va
  have stores := storeForms_run rs1 rs2 0 0 imm 0 0 0 s
  simp only [storeForms, List.forall_mem_cons] at stores
  obtain ⟨sb, sh, sw, sd, -⟩ := stores
  exact ⟨sb.stored hw, sh.stored hw, sw.stored hw, sd.stored hw⟩

end Sys2Proof.Machine
end

section
/-! PROOFS. Multiply and divide (O5, O6): each instruction runs as one `retireX`, so none traps and the
frame is `retireX`'s; what is left is the product, quotient or remainder in exact integers, where a zero
divisor and the signed overflow are cases of the value alone. -/

namespace Sys2Proof.Machine

/-! ### Products -/

/-- The high half of an unsigned product, which is a natural number. -/
theorem highProduct_natCast (a b : Nat) : highProduct a b = BitVec.ofNat 64 (a * b / 2 ^ 64) := by
  rw [highProduct_eq, ← BitVec.ofInt_natCast]
  push_cast
  rfl

theorem low32_mul_low32 (a b : Word) :
    low32 a * low32 b = BitVec.ofNat 32 (a.toNat % 2 ^ 32 * (b.toNat % 2 ^ 32)) := by
  apply BitVec.eq_of_toNat_eq
  rw [BitVec.toNat_mul, low32, low32, BitVec.toNat_setWidth, BitVec.toNat_setWidth, BitVec.toNat_ofNat]

/-! ### Quotients and remainders of words -/

theorem sext32_allOnes : sext32 (BitVec.allOnes 32) = -1 := by decide

theorem sext32_divSigned (a b : BitVec 32) :
    sext32 (divSigned a b) = if b.toInt = 0 then -1
      else BitVec.ofInt 64 (BitVec.ofInt 32 (a.toInt.tdiv b.toInt)).toInt := by
  rw [divSigned_eq, apply_ite sext32, sext32_allOnes, sext32_eq_ofInt]

theorem sext32_divUnsigned (a b : BitVec 32) :
    sext32 (divUnsigned a b) = if b.toNat = 0 then -1
      else BitVec.ofInt 64 (BitVec.ofNat 32 (a.toNat / b.toNat)).toInt := by
  rw [divUnsigned_eq, apply_ite sext32, sext32_allOnes, sext32_eq_ofInt]

/-- A signed remainder fits the width of its operands, so cutting it to that width loses nothing. -/
theorem toInt_remSigned {n : Nat} (a b : BitVec (n + 1)) :
    (remSigned a b).toInt = a.toInt.tmod b.toInt := by
  rw [remSigned_eq, ← BitVec.toInt_srem, BitVec.ofInt_toInt]

theorem sext32_remSigned (a b : BitVec 32) :
    sext32 (remSigned a b) = BitVec.ofInt 64 (a.toInt.tmod b.toInt) := by
  rw [sext32_eq_ofInt, toInt_remSigned]

theorem sext32_remUnsigned (a b : BitVec 32) :
    sext32 (remUnsigned a b) = BitVec.ofInt 64 (BitVec.ofNat 32 (a.toNat % b.toNat)).toInt := by
  rw [sext32_eq_ofInt, remUnsigned_eq]

/-! ### The statements -/

/-- Settles O5: a low half is the product of words, a high half the exact product divided by `2 ^ 64`. -/
theorem multiplyResults : Obligations.MultiplyResults := by
  intro rd rs1 rs2 s a b
  exact ⟨.of_retireX rfl (mul_eq_ofInt a b), .of_retireX rfl (highProduct_eq a.toInt b.toInt),
    .of_retireX rfl (highProduct_eq a.toInt b.toNat),
    .of_retireX rfl (highProduct_natCast a.toNat b.toNat),
    .of_retireX rfl (congrArg sext32 (low32_mul_low32 a b))⟩

/-- Settles O6: the overflow is the exact quotient cut to the width and the exact remainder 0; of a zero
divisor only the quotient is a case of its own, as the exact remainder by 0 is the dividend. -/
theorem divideResults : Obligations.DivideResults := by
  intro rd rs1 rs2 s a b aw bw
  exact ⟨.of_retireX rfl (divSigned_eq a b), .of_retireX rfl (divUnsigned_eq a b),
    .of_retireX rfl (remSigned_eq a b), .of_retireX rfl (remUnsigned_eq a b),
    .of_retireX rfl (sext32_divSigned aw bw), .of_retireX rfl (sext32_divUnsigned aw bw),
    .of_retireX rfl (sext32_remSigned aw bw), .of_retireX rfl (sext32_remUnsigned aw bw)⟩

end Sys2Proof.Machine
end

section
/-! PROOFS. Atomics in RAM, untranslated (O12 to O14). An access there is one the rules describe with the
physical address x[rs1] and no effect of translation, so each outcome is a case of the outcomes of LR, SC
and AMO; a write to RAM then leaves the bytes stored and the reservations it does not overlap. -/

namespace Sys2Proof.Machine

theorem RunsTo.imp {i : Instr} {s : State} {post post' : State → Prop} (h : RunsTo i s post)
    (k : ∀ t, post t → post' t) : RunsTo i s post' :=
  Exists.imp (fun t ht => ⟨ht.1, k t ht.2⟩) h

/-! ### Writes to RAM -/

section
variable {rd : RegNum} {va v x : Word} {n : Nat} {s t : State}

/-- A write to RAM is one the rules describe. -/
theorem InRam.physWrites_ramWritten (h : InRam s va.toNat n) (hw : Memory.wf s.mem) (v : Word) :
    PhysWrites va n v s (ramWritten va.toNat n v s) :=
  physWrites_of_physWrite hw (.refl n v) (physWrite_ram h)

/-- A write to RAM, kept by what follows it, stores the bytes. -/
theorem KeepsShared.storedAt_of_ramWritten {a : Nat} (h : KeepsShared (ramWritten a n v s) t)
    (hw : Memory.wf s.mem) : StoredAt a n v s t :=
  (ramWritten_storedAt a v hw).of_keepsShared h

/-- An instruction that writes to RAM and then only writes `x[rd]` and moves the pc is an AMO. -/
theorem WroteX.amo (h : WroteX rd x (s.hart.pc + 4) (ramWritten va.toNat n v s) t)
    (hw : Memory.wf s.mem) : Amo rd va n x v s t where
  hart := h.hart.of_ramWritten
  memory := h.shared.storedAt_of_ramWritten hw
  res := h.res.trans (congrArg Hart.res (ramWritten_hart va.toNat n v s))

end

/-! ### Plain atomics -/

section
variable {i : Instr} {rd : RegNum} {va v : Word} {n : Nat} {op ext : Word → Word} {new x : Word}
  {s : State}

/-- A plain LR loads the little-endian value in memory and reserves its own address. -/
theorem RunsTo.of_loadReserved (he : exec i s = loadReserved rd va n ext s) (hn : n ≤ 8)
    (hx : ext (BitVec.ofNat 64 (leNat s.mem va.toNat n)) = x) (h : PlainAtomic va n .read s) :
    RunsTo i s fun t => HartWroteX rd x (s.hart.pc + 4) s t ∧ t.hart.res = some ⟨va, n⟩ ∧
      KeepsShared s t := by
  obtain ⟨loads, -⟩ := loadReserved_outcomes hn he (fun _ => rfl) h.aligned
  exact hx ▸ loads va s _ s (translate_untranslated h.identity) (.ram h.inRam)

/-- A plain SC whose reservation is its own address and width is one write to RAM. -/
theorem RunsTo.of_storeConditional (he : exec i s = storeConditional rd va n v s)
    (hw : Memory.wf s.mem) (h : PlainAtomic va n .write s) (hr : s.hart.res = some ⟨va, n⟩) :
    RunsTo i s fun t => HartWroteX rd 0 (s.hart.pc + 4) s t ∧ t.hart.res = none ∧
      StoredAt va.toNat n v s t := by
  obtain ⟨stores, -⟩ := (storeConditional_outcomes hw he h.aligned).1 va s
    (translate_untranslated h.identity)
  exact (stores hr _ (h.inRam.physWrites_ramWritten hw v)).imp fun t ⟨hart, res, shared⟩ =>
    ⟨hart.of_ramWritten, res, shared.storedAt_of_ramWritten hw⟩

/-- An untranslated aligned SC without that reservation fails, in RAM or not. -/
theorem RunsTo.of_storeConditional_lost (he : exec i s = storeConditional rd va n v s)
    (hw : Memory.wf s.mem) (hu : Untranslated .write s) (ha : va.toNat % n = 0)
    (hr : s.hart.res ≠ some ⟨va, n⟩) :
    RunsTo i s fun t => HartWroteX rd 1 (s.hart.pc + 4) s t ∧ t.hart.res = none ∧ KeepsShared s t := by
  obtain ⟨-, -, fails⟩ := (storeConditional_outcomes hw he ha).1 va s (translate_untranslated hu)
  exact fails hr

/-- A plain AMO reads the little-endian value in memory and is one write to RAM. -/
theorem RunsTo.of_amo (he : exec i s = amo rd va n op ext s) (hn : n ≤ 8) (hw : Memory.wf s.mem)
    (hop : op (BitVec.ofNat 64 (leNat s.mem va.toNat n)) = new)
    (hx : ext (BitVec.ofNat 64 (leNat s.mem va.toNat n)) = x) (h : PlainAtomic va n .write s) :
    RunsTo i s (Amo rd va n x new s) := by
  obtain ⟨amos, -⟩ := amo_outcomes hn hw he (fun _ => rfl) (fun _ => rfl) h.aligned
  have run := amos va s _ s _ (translate_untranslated h.identity) (.ram h.inRam)
    (h.inRam.physWrites_ramWritten hw _)
  exact run.imp fun _ ht => hx ▸ hop ▸ ht.amo hw

end

section
variable {rd r q : RegNum} {aq rl : BitVec 1} {s : State}

/-- A word AMO stores its operation on the old word and the low word of x[rs2]. -/
theorem amoWords_run (hw : Memory.wf s.mem) (h : PlainAtomic (readX r s) 4 .write s) :
    let old : BitVec 32 := BitVec.ofNat 32 (leNat s.mem (readX r s).toNat 4)
    ∀ p ∈ amoWords rd r q aq rl, RunsTo p.1 s (Amo rd (readX r s) 4 (BitVec.ofInt 64 old.toInt)
      ((p.2 old ((readX q s).setWidth 32)).setWidth 64) s) := by
  intro old p hp
  have stored := congrArg (fun b => zextWord (p.2 b (low32 (readX q s))))
    (low32_ofNat (leNat s.mem (readX r s).toNat 4))
  exact .of_amo (exec_amoWords rd r q aq rl s p hp) (by decide) hw stored (sext32_low32_ofNat _) h

/-- A doubleword AMO stores its operation on the old doubleword and x[rs2]. -/
theorem amoDoubles_run (hw : Memory.wf s.mem) (h : PlainAtomic (readX r s) 8 .write s) :
    let old : Word := BitVec.ofNat 64 (leNat s.mem (readX r s).toNat 8)
    ∀ p ∈ amoDoubles rd r q aq rl,
      RunsTo p.1 s (Amo rd (readX r s) 8 old (p.2 old (readX q s)) s) :=
  fun p hp => .of_amo (exec_amoDoubles rd r q aq rl s p hp) (by decide) hw rfl rfl h

end

/-! ### The statements -/

/-- Settles O12: LR is one read, SC by its reservation one write or nothing, at x[rs1] itself. -/
theorem reservedResults : Obligations.ReservedResults := by
  intro rd rs1 rs2 aq rl s hw va v
  exact ⟨.of_loadReserved (n := 4) rfl (by decide) (sext32_low32_ofNat _),
    .of_loadReserved (n := 8) rfl (by decide) rfl,
    .of_storeConditional rfl hw, .of_storeConditional rfl hw,
    .of_storeConditional_lost rfl hw, .of_storeConditional_lost rfl hw⟩

/-- Settles O13: each is a row of the word AMOs. -/
theorem amoWordResults : Obligations.AmoWordResults := by
  intro rd rs1 rs2 aq rl s hw h va old b result
  have amos := amoWords_run (rd := rd) (q := rs2) (aq := aq) (rl := rl) hw h
  simp only [amoWords, List.forall_mem_cons] at amos
  obtain ⟨swap, add, xor, and, or, min, max, minu, maxu, -⟩ := amos
  exact ⟨swap, add, xor, and, or, min, max, minu, maxu⟩

/-- Settles O14: each is a row of the doubleword AMOs. -/
theorem amoDoubleResults : Obligations.AmoDoubleResults := by
  intro rd rs1 rs2 aq rl s hw h va old b
  have amos := amoDoubles_run (rd := rd) (q := rs2) (aq := aq) (rl := rl) hw h
  simp only [amoDoubles, List.forall_mem_cons] at amos
  obtain ⟨swap, add, xor, and, or, min, max, minu, maxu, -⟩ := amos
  exact ⟨swap, add, xor, and, or, min, max, minu, maxu⟩

end Sys2Proof.Machine
end

section
/-! PROOFS. System instructions (O17, O23 to O28): what taking a resolved exception, a trap return, WFI's
test and a flush each leave, once; every statement is then the instruction's privilege gate and one of
these. -/

namespace Sys2Proof.Machine

/-! ### Frames -/

/-- A draw changes nothing that an instruction moving only the pc keeps. -/
theorem OnlyMovedPc.of_drawn {s t : State} {p : Word} {tape : Tape} {tick : Nat}
    (h : OnlyMovedPc p { s with tape := tape, tick := tick } t) : OnlyMovedPc p s t where
  hart := { h.hart with mode := { h.hart.mode with } }
  res := h.res
  shared := { h.shared with }

/-! ### Taking an exception -/

theorem statusTrapM_trapped (p : Priv) (v : Word) : StatusTrappedM p v (statusTrapM p v) := by
  intro i _
  rw [getLsbD_statusTrapM]
  grind

theorem statusTrapS_trapped {p : Priv} (hp : p = .U ∨ p = .S) (v : Word) :
    StatusTrappedS p v (statusTrapS p v) := by
  intro i _
  have spp : (p != .U) = (privBits p).getLsbD 0 := by
    rcases hp with rfl | rfl <;> rfl
  rw [getLsbD_statusTrapS, spp]
  grind

section
variable {interrupt : Bool} {code : Nat} (tval epc : Word) {s : State}

theorem trapEntry_keepsShared (interrupt : Bool) (code : Nat) (s : State) :
    KeepsShared s (trapEntry interrupt code tval epc s) := by
  obtain ⟨-, -, -, -, others, mem, tlb, mtime, plat, bus, -⟩ :=
    trapEntry_frame interrupt code tval epc s
  exact ⟨others, fun a => by rw [mem], tlb, mtime, plat, bus⟩

/-- A trap whose target has a vector base is resolved. -/
theorem trapEntry_resolved {x : Priv} (hx : trapTarget interrupt code s = x)
    (hb : baseOf (trapVector x s) ≠ 0) : trapEntry interrupt code tval epc s =
      ((((saveTrap x interrupt code tval epc s).setPriv x).setPc
        (targetOf (trapVector x s) interrupt code)).setWfi false).setRes none := by
  subst hx
  rw [← vectorBase_eq] at hb
  rw [trapEntry, if_neg hb, vectorTarget_eq]

theorem trapEntry_enteredS (hc : code < 64) (hd : DelegatedToS interrupt code s)
    (hb : baseOf s.hart.csr.stvec ≠ 0) :
    EnteredS interrupt code tval epc s (trapEntry interrupt code tval epc s) := by
  have shared := trapEntry_keepsShared tval epc interrupt code s
  have e := trapEntry_resolved tval epc ((trapTarget_eq_S ..).2 hd) hb
  rw [e] at shared ⊢
  refine ⟨⟨_, statusTrapS_trapped hd.1 _, ?_⟩, rfl, rfl, rfl, rfl, by simp, shared⟩
  simp [saveTrap_csr, clearBit0_eq, causeWord_eq interrupt hc]

theorem trapEntry_enteredM (hc : code < 64) (hd : ¬DelegatedToS interrupt code s)
    (hb : baseOf s.hart.csr.mtvec ≠ 0) :
    EnteredM interrupt code tval epc s (trapEntry interrupt code tval epc s) := by
  have target : trapTarget interrupt code s = .M :=
    (trapTarget_cases interrupt code s).resolve_left fun h => hd ((trapTarget_eq_S ..).1 h)
  have shared := trapEntry_keepsShared tval epc interrupt code s
  have e := trapEntry_resolved tval epc target hb
  rw [e] at shared ⊢
  refine ⟨⟨_, statusTrapM_trapped s.hart.priv _, ?_⟩, rfl, rfl, rfl, rfl, by simp, shared⟩
  simp [saveTrap_csr, clearBit0_eq, causeWord_eq interrupt hc]

end

/-- Taking an exception is its trap entry, but for the note that the step has trapped. -/
theorem takeException_with_note (tr : Trap) (s : State) : { takeException tr s with note := s.note } =
    trapEntry false (causeCode tr.cause) tr.tval s.hart.pc s := by
  obtain ⟨-, -, -, -, -, -, -, -, -, -, note⟩ :=
    trapEntry_frame false (causeCode tr.cause) tr.tval s.hart.pc s
  rw [← note]
  rfl

theorem causeCode_lt (c : Cause) : causeCode c < 64 := by cases c <;> decide

/-- The cause of ECALL by the privilege, and then its code (45_system R349). -/
theorem ecallCause_eq (p : Priv) :
    ecallCause p = if p = .U then .ecallU else if p = .S then .ecallS else .ecallM := by
  cases p <;> rfl

theorem causeCode_ecallCause (p : Priv) :
    causeCode (ecallCause p) = if p = .U then 8 else if p = .S then 9 else 11 := by
  cases p <;> rfl

/-! ### Privileged instructions -/

section
variable {i : Instr} {allowed : Bool} {run : State → Attempt Unit} {s : State}

/-- A privileged instruction runs where its privilege is held. -/
theorem exec_privileged (he : exec i s = settle (privileged i allowed run s)) (ha : allowed = true) :
    exec i s = settle (run s) := by
  rw [he, privileged, if_pos ha]

/-- A privileged instruction is illegal where its privilege is lacking. -/
theorem Traps.of_privileged {w : Word} (he : exec i s = settle (privileged i allowed run s))
    (ha : allowed = false) (hw : (encode i).setWidth 64 = w) : Traps i s .illegalInstr w s := by
  rw [Traps, he, privileged, if_neg (Bool.eq_false_iff.1 ha), ← hw]
  rfl

end

theorem ne_U_of_S_or_M {p : Priv} (h : p = .S ∨ p = .M) : (p != .U) = true := by
  rcases h with rfl | rfl <;> rfl

/-- The word of SFENCE.VMA is its row's bits with rs1 at 19:15 and rs2 at 24:20 (30_encoding R162). -/
theorem encode_sfenceVma (rs1 rs2 : RegNum) : (encode (.sfenceVma rs1 rs2)).setWidth 64 =
    BitVec.ofNat 64 (0x12000073 + rs1.toNat * 2 ^ 15 + rs2.toNat * 2 ^ 20) := by
  have word : encode (.sfenceVma rs1 rs2) = 0x12000073#32 ||| opRs1.deposit (rs1.setWidth 32) |||
      opRs2.deposit (rs2.setWidth 32) := rfl
  have fields : ∀ r q : RegNum, (0x12000073#32 ||| opRs1.deposit (r.setWidth 32) |||
      opRs2.deposit (q.setWidth 32)).setWidth 64 =
        BitVec.ofNat 64 (0x12000073 + r.toNat * 2 ^ 15 + q.toNat * 2 ^ 20) := by decide +kernel
  rw [word, fields]

/-! ### Trap returns -/

theorem privOf_privBits (p : Priv) : privOf (privBits p) = p := by cases p <;> rfl

section
variable {s : State} {status : Word → Word → Prop}

/-- A return replaces the status, the privilege and the pc, and clears the reservation. -/
theorem returned_of_status {p : Priv} {w target : Word} (hs : status s.hart.csr.mstatus w) :
    Returned p status target s
      (noteRetired ((((setCsr .mstatus w s).setRes none).setPriv p).setPc target)) :=
  ⟨⟨w, hs, rfl⟩, rfl, rfl, rfl, ⟨rfl, rfl, rfl, rfl, rfl, rfl⟩, rfl,
    ⟨rfl, fun _ => rfl, rfl, rfl, rfl, rfl⟩⟩

theorem returnM_returned {p : Priv} (hp : privOf (statusMPP s.hart.csr.mstatus) = p)
    (hs : status s.hart.csr.mstatus (statusMret p s.hart.csr.mstatus)) :
    Returned p status s.hart.csr.mepc s (noteRetired (returnM s)) := by
  subst hp
  exact returned_of_status hs

theorem returnS_returned (hs : status s.hart.csr.mstatus (statusSret s.hart.csr.mstatus)) :
    Returned (if s.hart.csr.mstatus.getLsbD 8 then .S else .U) status s.hart.csr.sepc s
      (noteRetired (returnS s)) := returned_of_status hs

end

/-! ### EBREAK -/

/-- A breakpoint draw changes only the tape and the tick. -/
theorem drawBreakpoint_keeps (s : State) : (drawBreakpoint s).2.hart = s.hart ∧
    KeepsShared s (drawBreakpoint s).2 ∧ (drawBreakpoint s).2.note = s.note := by
  rw [drawBreakpoint_state]
  exact ⟨rfl, ⟨rfl, fun _ => rfl, rfl, rfl, rfl, rfl⟩, rfl⟩

section
variable {i : Instr} {len : Word} {s : State}

/-- A semihosting call gives x10 and memory what the host answers. -/
theorem breakpoint_semihosted (he : exec i s = settle (breakpoint len s))
    (hs : s.hart.semihost = true) :
    RunsTo i s fun t => HartWroteX 10 (Config.semihost s.tick s.hart s.mem).a0 (s.hart.pc + len) s t ∧
      t.hart.res = s.hart.res ∧
      KeepsShared { s with mem := Memory.normalise (Config.semihost s.tick s.hart s.mem).mem } t := by
  have called := wroteX_retireX (s.nextTick.setMem (Memory.normalise
    (Config.semihost s.tick s.hart s.mem).mem)) len 10 (Config.semihost s.tick s.hart s.mem).a0
  refine ⟨_, by rw [he, breakpoint, if_pos hs]; rfl, ?_, called.res, { called.shared with }⟩
  exact { called.hart with mode := { called.hart.mode with } }

/-- Without the semihosting flag, EBREAK's draw decides. -/
theorem breakpoint_drawn (he : exec i s = settle (breakpoint len s)) (hs : s.hart.semihost = false) :
    exec i s = if (drawBreakpoint s).1 then .next (drawBreakpoint s).2
      else .next (takeException ⟨.breakpoint, s.hart.pc⟩ (drawBreakpoint s).2) := by
  rw [he, breakpoint, if_neg (Bool.eq_false_iff.1 hs)]
  rcases drawBreakpoint s with ⟨_ | _, _⟩ <;> rfl

end

/-! ### WFI -/

/-- MSI or MTI, in its bit of mip, is masked out exactly where it is not both enabled and set. -/
theorem input_and_eq_zero {k : Nat} (hk : k = 3 ∨ k = 7) (b : Bool) (mie : Word) :
    (if b then BitVec.twoPow 64 k else 0#64) &&& mie &&& takenIrqMask = 0#64 ↔
      (mie.getLsbD k && b) = false := by
  cases b
  · simp
  · rw [if_pos rfl, BitVec.twoPow_and, Bool.and_true]
    rcases hk with rfl | rfl <;> cases mie.getLsbD _ <;> decide

/-- The wake condition fails exactly where mip, with the sampled inputs in their bits, has no enabled
bit that can be taken (60_exceptions R536). -/
theorem wakeCondition_eq_false (c : ClintSample) (s : State) : wakeCondition c s = false ↔
    (s.hart.csr.mip ||| (if c.msip then 8#64 else 0#64) ||| (if c.mtip then 0x80#64 else 0#64)) &&&
      s.hart.csr.mie &&& takenIrqMask = 0#64 := by
  have msi := input_and_eq_zero (.inl rfl) c.msip s.hart.csr.mie
  have mti := input_and_eq_zero (.inr rfl) c.mtip s.hart.csr.mie
  rw [show BitVec.twoPow 64 3 = 8#64 by decide] at msi
  rw [show BitVec.twoPow 64 7 = 0x80#64 by decide] at mti
  simp only [BitVec.and_or_distrib_right, BitVec.or_eq_zero_iff, msi, mti, wakeCondition,
    Bool.or_eq_false_iff, bne_eq_false_iff_eq]
  rfl

/-- WFI samples the inputs, sets the wait flag unless the wake condition holds, and retires. -/
theorem waitForInterrupt_eq_retire (s : State) : waitForInterrupt s =
    retire 4 ((sampleClint s).2.setWfi
      (s.hart.wfi || !wakeCondition (sampleClint s).1 (sampleClint s).2)) := by
  unfold waitForInterrupt
  cases h : wakeCondition (sampleClint s).1 (sampleClint s).2
  · simp only [h, Bool.not_false, Bool.or_true, Bool.false_eq_true, if_false]
  · simp only [h, Bool.not_true, Bool.or_false, if_true]
    have same := sampleClint_hart s
    rw [← same]
    rfl

/-! ### SFENCE.VMA -/

/-- The entries a flush removes (20_memory R123). -/
theorem flushed_iff (e : TlbEntry) (h : Nat) (va : Word) (asid : BitVec 16) :
    e.flushed h va asid = true ↔ e.hart = h ∧ (va = 0 ∨ e.covers (va >>> 12) = true) ∧
      (asid = 0 ∨ e.asid = asid ∨ e.raw.getLsbD 5 = true) := by
  simp only [TlbEntry.flushed, pteG, Bool.and_eq_true, Bool.or_eq_true, beq_iff_eq, and_assoc, or_assoc]

/-! ### The statements -/

/-- Settles O17: each retires and does nothing else. -/
theorem fencesOnlyAdvance : Obligations.FencesOnlyAdvance := by
  intro rd rs1 fm pred succ imm s
  have advanced := onlyMovedPc_retire s 4
  exact ⟨⟨_, rfl, advanced⟩, ⟨_, rfl, advanced⟩⟩

/-- Settles O23: ECALL is one trap entry with the cause of the privilege. -/
theorem ecallTakesException : Obligations.EcallTakesException := by
  intro s code cause saved
  have hcause : ecallCause s.hart.priv = cause := ecallCause_eq _
  have hcode : causeCode cause = code := hcause ▸ causeCode_ecallCause _
  have run : exec .ecall s = .next (takeException ⟨cause, 0⟩ s) := hcause ▸ rfl
  have small : code < 64 := hcode ▸ causeCode_lt cause
  have entered {post : State → Prop} (h : post (trapEntry false code 0 s.hart.pc s)) :
      RunsTo .ecall s fun t => post (saved t) ∧ t.note.trapped = true := by
    refine ⟨_, run, ?_, rfl⟩
    rw [← hcode, ← takeException_with_note ⟨cause, 0⟩ s] at h
    exact h
  exact ⟨fun _ => ⟨hcode, run⟩, fun _ hd hb => entered (trapEntry_enteredS 0 s.hart.pc small hd hb),
    fun _ hd hb => entered (trapEntry_enteredM 0 s.hart.pc small hd hb)⟩

/-- Settles O24: the flag decides, then the draw, which only moves the tape. -/
theorem ebreakOutcomes : Obligations.EbreakOutcomes := by
  intro s p hp answer drawn
  have run : exec p.1 s = settle (breakpoint p.2 s) := by
    revert p
    simp only [List.forall_mem_cons]
    exact ⟨rfl, rfl, nofun⟩
  obtain ⟨hart, shared, note⟩ := drawBreakpoint_keeps s
  refine ⟨breakpoint_semihosted run, fun hs hd => ⟨?_, hart, shared, note⟩,
    fun hs hd => ⟨?_, hart, shared⟩, drawBreakpoint_none s⟩
  · rw [breakpoint_drawn run hs, if_pos hd]
  · rw [Traps, breakpoint_drawn run hs, if_neg (Bool.eq_false_iff.1 hd)]

/-- Settles O25: each return is its status word, bit by bit, with the saved privilege and pc. -/
theorem trapReturns : Obligations.TrapReturns := by
  intro s st
  refine ⟨fun p hM hp _ => ?_, fun hSM => ?_⟩
  · have run := exec_privileged (i := .mret) rfl (beq_iff_eq.2 hM)
    have saved : privOf (statusMPP st) = p := by
      rw [← privOf_privBits p, hp]; rfl
    refine ⟨_, run, returnM_returned saved fun i _ => ?_⟩
    rw [getLsbD_statusMret]
    grind
  · have run := exec_privileged (i := .sret) rfl (ne_U_of_S_or_M hSM)
    refine ⟨_, run, returnS_returned fun i _ => ?_⟩
    rw [getLsbD_statusSret]
    grind

/-- Settles O26: WFI's test is one sample, and what it does beside is set the flag and retire. -/
theorem wfiResults : Obligations.WfiResults := by
  intro s hSM c mip waits
  have run := exec_privileged (i := .wfi) rfl (ne_U_of_S_or_M hSM)
  have flag : (!wakeCondition c (sampleClint s).2) = waits := by
    rw [Bool.eq_iff_iff, Bool.not_eq_true', wakeCondition_eq_false, sampleClint_hart]
    exact decide_eq_true_iff.symm
  refine ⟨sampleClint_sampled s, _, run, ?_⟩
  rw [waitForInterrupt_eq_retire, flag]
  refine ⟨rfl, rfl, ?_⟩
  have moved := onlyMovedPc_retire ((sampleClint s).2.setWfi (s.hart.wfi || waits)) 4
  rw [sampleClint_state] at moved ⊢
  exact .of_drawn moved

/-- Settles O27: a flush keeps, in their order, the entries it does not remove. -/
theorem sfenceFlushes : Obligations.SfenceFlushes := by
  intro rs1 rs2 s hSM va asid
  have run := exec_privileged (i := .sfenceVma rs1 rs2) rfl (ne_U_of_S_or_M hSM)
  refine ⟨_, run, onlyMovedPc_retire (tlbFlush s.hart.id va asid s) 4, List.filter_sublist, fun e => ?_⟩
  rw [← flushed_iff, Bool.not_eq_true, ← Bool.not_eq_true']
  exact List.mem_filter

/-- Settles O28: each fails its privilege gate, and its word is the tval. -/
theorem privilegedInstructionsTrap : Obligations.PrivilegedInstructionsTrap := by
  intro rs1 rs2 s
  refine ⟨fun h => ?_, fun hU => ?_⟩
  · have below : (s.hart.priv == .M) = false := by
      rcases h with h | h <;> rw [h] <;> rfl
    exact .of_privileged rfl below rfl
  · have user : (s.hart.priv != .U) = false := by rw [hU]; rfl
    exact ⟨.of_privileged rfl user rfl, .of_privileged rfl user rfl,
      .of_privileged rfl user (encode_sfenceVma rs1 rs2)⟩

end Sys2Proof.Machine
end

section
/-! PROOFS. Floating point (O29 to O38). Every instruction of F and D opens with the FS gate, and each row
with a rounding-mode field resolves it next: said once over the instructions, these give the illegal ones.
The others write one register through `writeFp`, `resultF`, `accrue` or `retireX`, which give the frame;
what is left is the value: boxed singles, signs and classes in plain arithmetic. -/

namespace Sys2Proof.Machine

/-! ### How floating-point instructions run -/

/-- An instruction runs behind the FS gate and, where its row has a rounding-mode field, as a rounded
operation by that field (46_float R380, R382). -/
inductive FpRuns (i : Instr) (s : State) : Prop
  | rounded {rm : BitVec 3} {fmt : FpFmt} {op : FpOp} {ops : List Word}
      {finish : FpResult → State → State}
      (field : (i.operand .rm).setWidth 3 = rm) (runs : exec i s = fpRounded i rm fmt op ops finish s)
  | unrounded {run : State → Attempt Unit} (row : i.mnemonic ∉ roundedMnemonics)
      (runs : exec i s = settle (fpGate i run s))

theorem fpRuns_of_mem {i : Instr} (h : i.mnemonic ∈ fpMnemonics) (s : State) : FpRuns i s := by
  cases i with
  | fmaddS | fmsubS | fnmsubS | fnmaddS | faddS | fsubS | fmulS | fdivS | fsqrtS
  | fmaddD | fmsubD | fnmsubD | fnmaddD | faddD | fsubD | fmulD | fdivD | fsqrtD
  | fcvtWS | fcvtWuS | fcvtLS | fcvtLuS | fcvtSW | fcvtSWu | fcvtSL | fcvtSLu | fcvtSD
  | fcvtWD | fcvtWuD | fcvtLD | fcvtLuD | fcvtDW | fcvtDWu | fcvtDL | fcvtDLu | fcvtDS =>
    exact .rounded (setWidth_setWidth_self (by decide) _) rfl
  | flw | fsw | fld | fsd | cFld | cFsd | cFldsp | cFsdsp
  | fsgnjS | fsgnjnS | fsgnjxS | fminS | fmaxS | fleS | fltS | feqS | fclassS | fmvXW | fmvWX
  | fsgnjD | fsgnjnD | fsgnjxD | fminD | fmaxD | fleD | fltD | feqD | fclassD | fmvXD | fmvDX =>
    exact .unrounded (by rw [Instr.mnemonic]; decide +kernel) rfl
  | _ => exact absurd h (by rw [Instr.mnemonic]; decide +kernel)

theorem mem_fpMnemonics_of_rounded : ∀ m ∈ roundedMnemonics, m ∈ fpMnemonics := by decide +kernel

/-- FS is Off, as the gate tests it, where the statements say it is not on (46_float R380). -/
theorem statusFS_eq_zero_of_not_fpOn {s : State} (h : ¬FpOn s) : statusFS s.hart.csr.mstatus = 0 := by
  apply BitVec.eq_of_toNat_eq
  rw [statusFS, field, BitVec.extractLsb'_toNat, Nat.shiftRight_eq_div_pow]
  exact Decidable.not_not.1 h

/-- While FS is Off the gate raises, whatever stands behind it. -/
theorem Traps.of_fpGate {i : Instr} {s : State} {run : State → Attempt Unit} (h : ¬FpOn s)
    (he : exec i s = settle (fpGate i run s)) :
    Traps i s .illegalInstr ((encode i).setWidth 64) s := by
  rw [Traps, he, fpGate_off (statusFS_eq_zero_of_not_fpOn h)]
  rfl

/-! ### Rounding modes -/

theorem staticMode_eq_some {rm : BitVec 3} {mode : RoundingMode} (h : rm.toNat = roundingCode mode) :
    staticMode rm = some mode := by
  obtain rfl : rm = BitVec.ofNat 3 (roundingCode mode) := by
    rw [← h, BitVec.ofNat_toNat, BitVec.setWidth_eq]
  cases mode <;> rfl

theorem staticMode_eq_none : ∀ {rm : BitVec 3}, 5 ≤ rm.toNat → staticMode rm = none := by decide

theorem toNat_fcsrFrm (v : Word) : (fcsrFrm v).toNat = v.toNat / 32 % 8 := by
  rw [fcsrFrm, field, BitVec.extractLsb'_toNat, Nat.shiftRight_eq_div_pow]

theorem resolveMode_static {rm : BitVec 3} (h : rm.toNat ≠ 7) (frm : BitVec 3) :
    resolveMode rm frm = staticMode rm := if_neg fun e => h (congrArg BitVec.toNat e)

theorem resolveMode_dynamic {rm : BitVec 3} (h : rm.toNat = 7) (frm : BitVec 3) :
    resolveMode rm frm = staticMode frm := if_pos (BitVec.eq_of_toNat_eq h)

theorem roundingCode_lt (mode : RoundingMode) : roundingCode mode < 5 := by cases mode <;> decide

theorem RoundsBy.resolveMode {rm : BitVec 3} {mode : RoundingMode} {s : State} (h : RoundsBy rm mode s) :
    resolveMode rm (fcsrFrm s.hart.csr.fcsr) = some mode := by
  rcases h with static | ⟨dynamic, frm⟩
  · have := roundingCode_lt mode
    rw [resolveMode_static (by omega), staticMode_eq_some static]
  · rw [resolveMode_dynamic dynamic, staticMode_eq_some ((toNat_fcsrFrm _).trans frm)]

theorem BadRounding.resolveMode {rm : BitVec 3} {s : State} (h : BadRounding rm s) :
    resolveMode rm (fcsrFrm s.hart.csr.fcsr) = none := by
  rcases h with five | six | ⟨dynamic, frm⟩
  · rw [resolveMode_static (by omega), staticMode_eq_none (by omega)]
  · rw [resolveMode_static (by omega), staticMode_eq_none (by omega)]
  · rw [resolveMode_dynamic dynamic, staticMode_eq_none (by rwa [toNat_fcsrFrm])]

/-! ### Values -/

theorem zextWord_low32 (v : Word) : zextWord (low32 v) = BitVec.ofNat 64 (v.toNat % 2 ^ 32) := by
  apply BitVec.eq_of_toNat_eq
  rw [zextWord, low32, BitVec.toNat_setWidth, BitVec.toNat_setWidth, BitVec.toNat_ofNat]

theorem low32_zextWord (v : BitVec 32) : low32 (zextWord v) = v := by
  rw [low32, zextWord, BitVec.setWidth_setWidth_of_le _ (by decide), BitVec.setWidth_eq]

/-- The single an FPR holds, zero-extended (10_state R36). -/
theorem zextWord_unboxSingle (v : Word) : zextWord (unboxSingle v) = singleOf v := by
  have high : field 32 32 v = 0xFFFFFFFF#32 ↔ v.toNat / 2 ^ 32 = 2 ^ 32 - 1 := by
    rw [← BitVec.toNat_inj, field, BitVec.extractLsb'_toNat, Nat.shiftRight_eq_div_pow, BitVec.toNat_ofNat]
    have := v.isLt
    omega
  simp only [unboxSingle, singleOf, high]
  split
  · exact zextWord_low32 v
  · rfl

theorem toNat_singleOf (v : Word) : (singleOf v).toNat = (unboxSingle v).toNat := by
  rw [← zextWord_unboxSingle, zextWord, BitVec.toNat_setWidth_of_le (by decide)]

theorem msb_unboxSingle (v : Word) : (unboxSingle v).msb = (singleOf v).getLsbD 31 := by
  rw [← zextWord_unboxSingle, zextWord, BitVec.getLsbD_setWidth, BitVec.msb_eq_getLsbD_last]
  rfl

theorem fpOperand_single (r : RegNum) (s : State) : fpOperand .S r s = singleOf (readF r s) :=
  zextWord_unboxSingle _

theorem fpBox_single (v : Word) : fpBox .S v = boxed v := boxSingle_low32 v

theorem boxSingle_eq_boxed (v : BitVec 32) : boxSingle v = boxed (zextWord v) := by
  rw [← boxSingle_low32, low32_zextWord]

theorem zextWord_field_one (v : Word) : zextWord (field 0 1 v) = BitVec.ofNat 64 (v.toNat % 2) := by
  apply BitVec.eq_of_toNat_eq
  rw [zextWord, BitVec.toNat_setWidth, field, BitVec.extractLsb'_toNat, BitVec.toNat_ofNat,
    Nat.shiftRight_zero, Nat.pow_one]

/-- A sign in front of the low `k` bits, as a word. -/
theorem zextWord_bit1_append {n k : Nat} (sign : Bool) (a : BitVec n) :
    zextWord (bit1 sign ++ a.extractLsb' 0 k) =
      BitVec.ofNat 64 (a.toNat % 2 ^ k + if sign then 2 ^ k else 0) := by
  apply BitVec.eq_of_toNat_eq
  rw [zextWord, BitVec.toNat_setWidth, BitVec.toNat_append, BitVec.extractLsb'_toNat, Nat.shiftRight_zero,
    ← Nat.shiftLeft_add_eq_or_of_lt (Nat.mod_lt _ (Nat.two_pow_pos k)), Nat.shiftLeft_eq, Nat.add_comm,
    BitVec.toNat_ofNat]
  cases sign
  · simp [bit1]
  · simp [bit1]

/-! ### Classes -/

section
variable (fmt : FpFmt) (v : Word)

theorem fmtSignBit_eq : fmtSignBit fmt = 2 ^ (fmtPrecision fmt - 1) * 2 ^ fmtExpBits fmt := by
  cases fmt <;> rfl

/-- The datum of a pattern, by its sign, exponent and fraction fields. -/
theorem unpackFp_eq : unpackFp fmt v =
    let e := fmtExpBits fmt
    let m := fmtPrecision fmt - 1
    let negative := decide (v.toNat / 2 ^ (e + m) % 2 = 1)
    let exponent := v.toNat / 2 ^ m % 2 ^ e
    let fraction := v.toNat % 2 ^ m
    if exponent = 2 ^ e - 1 then
      if fraction = 0 then .inf negative else .nan (decide (fraction < 2 ^ m / 2))
    else if exponent = 0 then
      if fraction = 0 then .zero negative else .fin negative fraction (fmtQmin fmt)
    else .fin negative (2 ^ m + fraction) (fmtQmin fmt + ((exponent : Int) - 1)) := by
  have magnitude : v.toNat % (2 * fmtSignBit fmt) % fmtSignBit fmt = v.toNat % fmtSignBit fmt :=
    Nat.mod_mod_of_dvd _ (Dvd.intro_left _ rfl)
  have exponent : v.toNat % fmtSignBit fmt / 2 ^ (fmtPrecision fmt - 1) =
      v.toNat / 2 ^ (fmtPrecision fmt - 1) % 2 ^ fmtExpBits fmt := by
    rw [fmtSignBit_eq, Nat.mod_mul_right_div_self]
  have fraction : v.toNat % fmtSignBit fmt % 2 ^ (fmtPrecision fmt - 1) =
      v.toNat % 2 ^ (fmtPrecision fmt - 1) := by
    rw [fmtSignBit_eq, Nat.mod_mul_right_mod]
  have negative : fmtSignBit fmt ≤ v.toNat % (2 * fmtSignBit fmt) ↔
      v.toNat / 2 ^ (fmtExpBits fmt + (fmtPrecision fmt - 1)) % 2 = 1 := by
    rw [Nat.add_comm, Nat.pow_add, ← fmtSignBit_eq, Nat.mul_comm 2, Nat.mod_mul]
    have low : v.toNat % fmtSignBit fmt < fmtSignBit fmt := Nat.mod_lt _ (by cases fmt <;> decide)
    rcases Nat.mod_two_eq_zero_or_one (v.toNat / fmtSignBit fmt) with h | h <;> rw [h] <;> omega
  simp only [unpackFp, magnitude, exponent, fraction, negative]

/-- The class mask is the class of the three fields (46_float R384). -/
theorem classMask_eq_classOf :
    classMask fmt v = classOf (fmtExpBits fmt) (fmtPrecision fmt - 1) v.toNat := by
  have normal (fraction : Nat) :
      ¬2 ^ (fmtPrecision fmt - 1) + fraction < 2 ^ (fmtPrecision fmt - 1) := by omega
  have subnormal : v.toNat % 2 ^ (fmtPrecision fmt - 1) < 2 ^ (fmtPrecision fmt - 1) :=
    Nat.mod_lt _ (Nat.two_pow_pos _)
  have half : 2 ^ (fmtPrecision fmt - 1) / 2 = 2 ^ (fmtPrecision fmt - 1 - 1) := by cases fmt <;> rfl
  simp only [classMask, unpackFp_eq, classOf, half]
  by_cases negative : v.toNat / 2 ^ (fmtExpBits fmt + (fmtPrecision fmt - 1)) % 2 = 1
  · -- both sides branch on the same three fields; the classes of a datum agree branch by branch
    simp only [negative, decide_true, if_true]
    split_ifs <;> simp [*]
  · simp only [negative, decide_false, if_false]
    split_ifs <;> simp [*]

end

/-! ### Instructions behind an open gate -/

/-- With FS on, an instruction runs to what stands behind the gate. -/
theorem RunsTo.of_fpGate {i : Instr} {s t : State} {run : State → Attempt Unit} {post : State → Prop}
    (h : FpOn s) (he : exec i s = settle (fpGate i run s)) (hr : run s = .ok () t) (hp : post t) :
    RunsTo i s post := ⟨t, by rw [he, settle_fpGate h, hr]; rfl, hp⟩

/-- A value equal to the one written may stand in its place. -/
theorem WroteF.of_eq {rd : RegNum} {v w len : Word} {flags : BitVec 5} {s t : State}
    (h : WroteF rd v flags len s t) (e : v = w) : WroteF rd w flags len s t := e ▸ h

/-! ### Results of FP_ARITH -/

section
variable (s : State) (rd : RegNum) (r : FpResult)

theorem wroteF_single : WroteF rd (boxed r.value) r.flags 4 s (retire 4 (resultF .S rd r s)) :=
  fpBox_single r.value ▸ wroteF_retire_resultF s .S rd r 4

theorem wroteF_double : WroteF rd r.value r.flags 4 s (retire 4 (resultF .D rd r s)) :=
  wroteF_retire_resultF s .D rd r 4

theorem wroteXFlags_word : WroteXFlags rd (BitVec.ofInt 64 (r.value.setWidth 32 : BitVec 32).toInt) r.flags s
    (retire 4 (resultWord rd r s)) := wroteXFlags_retire_accrue s rd _ r.flags

theorem wroteXFlags_long : WroteXFlags rd r.value r.flags s (retire 4 (resultLong rd r s)) :=
  wroteXFlags_retire_accrue s rd _ r.flags

theorem wroteXFlags_bit : WroteXFlags rd (BitVec.ofNat 64 (r.value.toNat % 2)) r.flags s
    (retire 4 (resultBit rd r s)) :=
  zextWord_field_one r.value ▸ wroteXFlags_retire_accrue s rd _ r.flags

end

section
variable {i : Instr} {s : State} {rd : RegNum} {rm : BitVec 3} {mode : RoundingMode} {fmt : FpFmt} {op : FpOp}
  {ops : List Word} {finish : FpResult → State → State} {post : State → Prop}

/-- A rounded operation finishes with the result of FP_ARITH in the mode that its field resolves to. -/
theorem RunsTo.of_fpRounded (h : FpOn s) (hm : RoundsBy rm mode s)
    (he : exec i s = fpRounded i rm fmt op ops finish s)
    (hp : post (retire 4 (finish (fpArith fmt op ops (some mode) s) s))) : RunsTo i s post :=
  ⟨_, he.trans (fpRounded_ok h.gate hm.resolveMode), hp⟩

theorem RunsTo.of_fpUnrounded (h : FpOn s) (he : exec i s = fpUnrounded i fmt op ops finish s)
    (hp : post (retire 4 (finish (fpArith fmt op ops none s) s))) : RunsTo i s post :=
  ⟨_, he.trans (fpUnrounded_ok h.gate), hp⟩

theorem RunsTo.of_roundedSingle (h : FpOn s) (hm : RoundsBy rm mode s)
    (he : exec i s = fpRounded i rm .S op ops (resultF .S rd) s) :
    let r := fpArith .S op ops (some mode) s
    RunsTo i s (WroteF rd (boxed r.value) r.flags 4 s) := .of_fpRounded h hm he (wroteF_single ..)

theorem RunsTo.of_roundedDouble (h : FpOn s) (hm : RoundsBy rm mode s)
    (he : exec i s = fpRounded i rm .D op ops (resultF .D rd) s) :
    let r := fpArith .D op ops (some mode) s
    RunsTo i s (WroteF rd r.value r.flags 4 s) := .of_fpRounded h hm he (wroteF_double ..)

end

/-! ### Loads -/

/-- A plain floating-point load writes the extended little-endian value and retires. -/
theorem LoadForm.Runs.wroteF_plain {p : LoadForm} {s : State} (h : p.Runs writeFp s)
    (hp : PlainAccess p.addr p.width .read s) :
    RunsTo p.instr s (WroteF p.rd (p.ext (leNat s.mem p.addr.toNat p.width)) 0 p.len s) :=
  ⟨_, h.exec_plain hp, wroteF_retire_writeFp ..⟩

/-! ### Sign injection -/

/-- Sign injection on doubles, by a sign in plain terms. -/
theorem RunsTo.of_fpSignDouble {i : Instr} {s : State} {rd rs1 rs2 : RegNum} {sign : Word → Word → Bool}
    {c : Prop} [Decidable c] (h : FpOn s)
    (he : exec i s = settle (fpGate i (fpSignDouble sign rd rs1 rs2) s))
    (hc : sign (readF rs1 s) (readF rs2 s) = true ↔ c) :
    RunsTo i s (WroteF rd
      (BitVec.ofNat 64 ((readF rs1 s).toNat % 2 ^ 63 + if c then 2 ^ 63 else 0)) 0 4 s) := by
  have value := zextWord_bit1_append (k := 63) (sign (readF rs1 s) (readF rs2 s)) (readF rs1 s)
  simp only [hc] at value
  exact .of_fpGate h he rfl ((wroteF_retire_writeFp s rd _ 4).of_eq ((BitVec.setWidth_eq _).symm.trans value))

/-- Sign injection on singles, by a sign in plain terms. -/
theorem RunsTo.of_fpSignSingle {i : Instr} {s : State} {rd rs1 rs2 : RegNum}
    {sign : BitVec 32 → BitVec 32 → Bool} {c : Prop} [Decidable c] (h : FpOn s)
    (he : exec i s = settle (fpGate i (fpSignSingle sign rd rs1 rs2) s))
    (hc : sign (unboxSingle (readF rs1 s)) (unboxSingle (readF rs2 s)) = true ↔ c) :
    RunsTo i s (WroteF rd (boxed
      (BitVec.ofNat 64 ((singleOf (readF rs1 s)).toNat % 2 ^ 31 + if c then 2 ^ 31 else 0))) 0 4 s) := by
  have value := zextWord_bit1_append (k := 31)
    (sign (unboxSingle (readF rs1 s)) (unboxSingle (readF rs2 s))) (unboxSingle (readF rs1 s))
  simp only [hc, ← toNat_singleOf] at value
  exact .of_fpGate h he rfl
    ((wroteF_retire_writeFp s rd _ 4).of_eq ((boxSingle_eq_boxed _).trans (congrArg boxed value)))

/-! ### The statements -/

/-- Settles O29: the gate stands before all else an instruction of F or D does. -/
theorem fpOffTraps : Obligations.FpOffTraps := by
  intro i s hi off
  cases fpRuns_of_mem hi s with
  | rounded _ runs => exact .of_fpGate off runs
  | unrounded _ runs => exact .of_fpGate off runs

/-- Settles O30: a rounded operation resolves the mode of its field, and none is the answer. -/
theorem badRoundingTraps : Obligations.BadRoundingTraps := by
  intro i s hi _ bad
  cases fpRuns_of_mem (mem_fpMnemonics_of_rounded _ hi) s with
  | rounded field runs => exact runs.trans (fpRounded_badMode (field ▸ bad.resolveMode))
  | unrounded row _ => exact absurd hi row

/-- Settles O31: each is a form of load or store, whose tables give the value and its boxing. -/
theorem fpLoadStoreResults : Obligations.FpLoadStoreResults := by
  intro r q cr cq imm u8 u9 s hw h va c8 p9 cf
  have loads := fpLoadForms_run r q cr cq imm u8 u9 s h
  have stores := fpStoreForms_run r q cr cq imm u8 u9 s h
  simp only [fpLoadForms, fpStoreForms, List.forall_mem_cons] at loads stores
  obtain ⟨flw, fld, cFld, cFldsp, -⟩ := loads
  obtain ⟨fsw, fsd, cFsd, cFsdsp, -⟩ := stores
  exact ⟨flw.wroteF_plain, fld.wroteF_plain, cFld.wroteF_plain, cFldsp.wroteF_plain,
    fsw.stored hw, fsd.stored hw, cFsd.stored hw, cFsdsp.stored hw⟩

/-- Settles O32: each is one sign in front of the first operand's magnitude. -/
theorem fpSignInjectionResults : Obligations.FpSignInjectionResults := by
  intro rd rs1 rs2 s h a b x y
  have msb (r : RegNum) : (unboxSingle (readF r s)).msb = (singleOf (readF r s)).getLsbD 31 :=
    msb_unboxSingle _
  have signS : (unboxSingle (readF rs2 s)).msb = true ↔ b.getLsbD 31 = true := by rw [msb]
  have negS : (!(unboxSingle (readF rs2 s)).msb) = true ↔ b.getLsbD 31 = false := by
    rw [msb, Bool.not_eq_true']
  have xorS : ((unboxSingle (readF rs1 s)).msb != (unboxSingle (readF rs2 s)).msb) = true ↔
      a.getLsbD 31 ≠ b.getLsbD 31 := by rw [msb, msb, bne_iff_ne]
  exact ⟨.of_fpSignSingle h rfl signS, .of_fpSignSingle h rfl negS, .of_fpSignSingle h rfl xorS,
    .of_fpSignDouble h rfl Iff.rfl, .of_fpSignDouble h rfl (Bool.not_eq_true' _).to_iff,
    .of_fpSignDouble h rfl bne_iff_ne⟩

/-- Settles O33: a move copies bits, and the class mask is the class of the three fields. -/
theorem fpMoveClassResults : Obligations.FpMoveClassResults := by
  intro rd rs1 s h
  have box := boxSingle_low32 (readX rs1 s)
  have classS : classMask .S (fpOperand .S rs1 s) = classOf 8 23 (singleOf (readF rs1 s)).toNat := by
    rw [← fpOperand_single]
    exact classMask_eq_classOf .S _
  have classD := classMask_eq_classOf .D (readF rs1 s)
  have retireX_eq {v w : Word} (e : v = w) : WroteX rd w (s.hart.pc + 4) s (retireX 4 rd v s) :=
    (wroteX_retireX s 4 rd v).of_eq e
  have writeFp_eq {v w : Word} (e : v = w) : WroteF rd w 0 4 s (retire 4 (writeFp rd v s)) :=
    (wroteF_retire_writeFp s rd v 4).of_eq e
  exact ⟨.of_fpGate h rfl rfl (retireX_eq rfl), .of_fpGate h rfl rfl (retireX_eq rfl),
    .of_fpGate h rfl rfl (writeFp_eq box), .of_fpGate h rfl rfl (writeFp_eq rfl),
    .of_fpGate h rfl rfl (retireX_eq classS), .of_fpGate h rfl rfl (retireX_eq classD)⟩

/-- Settles O34: each is a rounded operation on three operands with a result for an FPR. -/
theorem fpFusedResults : Obligations.FpFusedResults := by
  intro rd rs1 rs2 rs3 rm mode s h hm
  simp only [← fpOperand_single]
  exact ⟨.of_roundedSingle h hm rfl, .of_roundedSingle h hm rfl, .of_roundedSingle h hm rfl,
    .of_roundedSingle h hm rfl, .of_roundedDouble h hm rfl, .of_roundedDouble h hm rfl,
    .of_roundedDouble h hm rfl, .of_roundedDouble h hm rfl⟩

/-- Settles O35: each is a rounded operation on one or two operands with a result for an FPR. -/
theorem fpArithmeticResults : Obligations.FpArithmeticResults := by
  intro rd rs1 rs2 rm mode s h hm
  simp only [← fpOperand_single]
  exact ⟨.of_roundedSingle h hm rfl, .of_roundedSingle h hm rfl, .of_roundedSingle h hm rfl,
    .of_roundedSingle h hm rfl, .of_roundedDouble h hm rfl, .of_roundedDouble h hm rfl,
    .of_roundedDouble h hm rfl, .of_roundedDouble h hm rfl, .of_roundedSingle h hm rfl,
    .of_roundedDouble h hm rfl⟩

/-- Settles O36: each is a rounded operation on an integer, extended to a word, or on a value of the other
format. -/
theorem fpConversionResults : Obligations.FpConversionResults := by
  intro rd rs1 rm mode s h hm
  rw [← zextWord_low32, ← fpOperand_single]
  exact ⟨.of_roundedSingle h hm rfl, .of_roundedSingle h hm rfl, .of_roundedSingle h hm rfl,
    .of_roundedSingle h hm rfl, .of_roundedDouble h hm rfl, .of_roundedDouble h hm rfl,
    .of_roundedDouble h hm rfl, .of_roundedDouble h hm rfl, .of_roundedSingle h hm rfl,
    .of_roundedDouble h hm rfl⟩

/-- Settles O37: each is a rounded operation with a 32-bit or 64-bit result for a general register. -/
theorem fpToIntegerResults : Obligations.FpToIntegerResults := by
  intro rd rs1 rm mode s h hm
  rw [← fpOperand_single]
  have word {i fmt op ops} (he : exec i s = fpRounded i rm fmt op ops (resultWord rd) s) :=
    RunsTo.of_fpRounded h hm he (wroteXFlags_word ..)
  have long {i fmt op ops} (he : exec i s = fpRounded i rm fmt op ops (resultLong rd) s) :=
    RunsTo.of_fpRounded h hm he (wroteXFlags_long ..)
  exact ⟨word rfl, word rfl, long rfl, long rfl, word rfl, word rfl, long rfl, long rfl⟩

/-- Settles O38: no mode is resolved, and a comparison's result is bit 0 of FP_ARITH's. -/
theorem fpCompareMinMaxResults : Obligations.FpCompareMinMaxResults := by
  intro rd rs1 rs2 s h
  simp only [← fpOperand_single]
  have single {i op ops} (he : exec i s = fpUnrounded i .S op ops (resultF .S rd) s) :=
    RunsTo.of_fpUnrounded h he (wroteF_single ..)
  have double {i op ops} (he : exec i s = fpUnrounded i .D op ops (resultF .D rd) s) :=
    RunsTo.of_fpUnrounded h he (wroteF_double ..)
  have bit {i fmt op ops} (he : exec i s = fpUnrounded i fmt op ops (resultBit rd) s) :=
    RunsTo.of_fpUnrounded h he (wroteXFlags_bit ..)
  exact ⟨single rfl, single rfl, double rfl, double rfl, bit rfl, bit rfl, bit rfl, bit rfl, bit rfl,
    bit rfl⟩

end Sys2Proof.Machine
end

section
/-! PROOFS. Compressed instructions (O39 to O42). Each runs as its base instruction does, with length 2:
one `retireX`, `branch` or `jumpLink`, or a row of the tables of loads and stores; what is its own is the
register a three-bit field names and the unsigned immediate. -/

namespace Sys2Proof.Machine

/-! ### Values -/

/-- A register plus a zero-extended immediate. -/
theorem add_zextWord {n : Nat} (a : Word) (b : BitVec n) :
    a + zextWord b = BitVec.ofNat 64 (a.toNat + b.toNat) := by
  apply BitVec.eq_of_toNat_eq
  simp only [zextWord, BitVec.toNat_add, BitVec.toNat_setWidth, BitVec.toNat_ofNat, Nat.add_mod_mod]

theorem low32_ofInt (z : Int) : low32 (BitVec.ofInt 64 z) = BitVec.ofInt 32 z := by
  apply BitVec.eq_of_toNat_eq
  rw [low32, BitVec.toNat_setWidth, BitVec.toNat_ofInt, BitVec.toNat_ofInt]
  omega

/-- The word forms cut a 64-bit result to its low word and extend that (47_compressed R471, R482,
R483). -/
theorem sext32_low32_of_eq_ofInt {v : Word} {z : Int} (h : v = BitVec.ofInt 64 z) :
    sext32 (low32 v) = BitVec.ofInt 64 (BitVec.ofInt 32 z).toInt := by
  rw [h, low32_ofInt, sext32_eq_ofInt]

theorem beq_zero_iff_toNat (v : Word) : (v == 0) = true ↔ v.toNat = 0 := by
  rw [beq_iff_eq, ← BitVec.toNat_inj]
  rfl

theorem bne_zero_iff_toNat (v : Word) : (v != 0) = true ↔ ¬v.toNat = 0 := by
  rw [← beq_zero_iff_toNat, bne, Bool.not_eq_true', Bool.not_eq_true]

/-! ### The statements -/

/-- Settles O39: the base instruction's value in the named register, two bytes further. -/
theorem compressedImmediateResults : Obligations.CompressedImmediateResults := by
  intro rd rc i6 sh u10 s10 i18 s
  rw [ofNat_eight_add]
  intro q
  have addi4spn := add_zextWord (readX 2 s) u10
  have addi := add_sextWord (readX rd s) i6
  have addiw := sext32_low32_of_eq_ofInt addi
  have addi16sp := add_sextWord (readX 2 s) s10
  have srli := shiftRight_eq_ofNat (readX q s) sh.toNat
  have srai := sshiftRight_eq_ofInt (readX q s) sh.toNat
  have slli := shiftLeft_eq_ofNat (readX rd s) sh.toNat
  exact ⟨.of_retireX rfl addi4spn, ⟨_, rfl, onlyMovedPc_retire s 2⟩, .of_retireX rfl addi,
    .of_retireX rfl addiw, .of_retireX rfl (sextWord_eq_ofInt i6), .of_retireX rfl addi16sp,
    .of_retireX rfl (sextWord_eq_ofInt i18), .of_retireX rfl srli, .of_retireX rfl srai,
    .of_retireX rfl rfl, .of_retireX rfl slli⟩

/-- Settles O40: sums and differences are those of exact integers, cut to the low word in the word
forms. -/
theorem compressedRegisterResults : Obligations.CompressedRegisterResults := by
  intro rd rs2 rc r2 s
  rw [ofNat_eight_add, ofNat_eight_add]
  intro q a b
  have sub := sub_eq_ofInt a b
  have sum := add_eq_ofInt a b
  have add := add_eq_ofInt (readX rd s) (readX rs2 s)
  exact ⟨.of_retireX rfl sub, .of_retireX rfl rfl, .of_retireX rfl rfl, .of_retireX rfl rfl,
    .of_retireX rfl (sext32_low32_of_eq_ofInt sub), .of_retireX rfl (sext32_low32_of_eq_ofInt sum),
    .of_retireX rfl rfl, .of_retireX rfl add⟩

/-- Settles O41: the branches compare with zero, and the register jumps take their target before the
link is written. -/
theorem compressedJumpResults : Obligations.CompressedJumpResults := by
  intro r rc o12 o9 s
  rw [ofNat_eight_add]
  intro v even near
  have target : clearBit0 (readX r s) = even := clearBit0_eq _
  have bnez := RunsTo.of_branch (i := .cBnez rc o9) (s := s) rfl (bne_zero_iff_toNat v)
  rw [ite_not] at bnez
  exact ⟨⟨_, rfl, add_sextWord s.hart.pc o12 ▸ onlyMovedPc_retireTo s _⟩,
    .of_branch rfl (beq_zero_iff_toNat v), bnez,
    ⟨_, rfl, target ▸ onlyMovedPc_retireTo s _⟩, .of_jumpLink rfl target⟩

/-- Settles O42: each is a form of load or store of the tables. -/
theorem compressedLoadStoreResults : Obligations.CompressedLoadStoreResults := by
  intro r cr cq u7 u8 u9 s hw c7 c8 p8 p9 q word double
  have loads := loadForms_run 0 r cr cq 0 u7 u8 u9 s
  have stores := storeForms_run 0 r cr cq 0 u7 u8 u9 s
  simp only [loadForms, List.forall_mem_cons] at loads
  simp only [storeForms, List.forall_mem_cons] at stores
  obtain ⟨-, -, -, -, -, -, -, lw, ld, lwsp, ldsp, -⟩ := loads
  obtain ⟨-, -, -, -, sw, sd, swsp, sdsp, -⟩ := stores
  exact ⟨lw.wroteX_plain, ld.wroteX_plain, lwsp.wroteX_plain, ldsp.wroteX_plain, sw.stored hw,
    sd.stored hw, swsp.stored hw, sdsp.stored hw⟩

end Sys2Proof.Machine
end

section
/-! PROOFS. Taking a trap (O51, O52): a trap whose target has a vector base is the resolved entry of the
system instructions' proofs; one whose target has none is the unresolved trap, which halts the hart. -/

namespace Sys2Proof.Machine

/-- A trap that is not delegated goes to M (60_exceptions R527). -/
theorem trapTarget_eq_M {interrupt : Bool} {code : Nat} {s : State} (h : ¬DelegatedToS interrupt code s) :
    trapTarget interrupt code s = .M :=
  (trapTarget_cases interrupt code s).resolve_left fun e => h ((trapTarget_eq_S ..).1 e)

section
variable (interrupt : Bool) (code : Nat) (tval epc : Word) (s : State)

/-- A trap whose target has no vector base is unresolved (60_exceptions R531). -/
theorem trapEntry_unresolved {x : Priv} (hx : trapTarget interrupt code s = x)
    (hb : baseOf (trapVector x s) = 0) :
    trapEntry interrupt code tval epc s = unresolvedTrap x interrupt code tval epc s := by
  subst hx
  rw [← vectorBase_eq] at hb
  exact if_pos hb

theorem unresolvedTrap_wfi (x : Priv) :
    (unresolvedTrap x interrupt code tval epc s).hart.wfi = s.hart.wfi := by
  unfold unresolvedTrap
  split <;> rfl

theorem unresolvedTrap_res (x : Priv) :
    (unresolvedTrap x interrupt code tval epc s).hart.res = s.hart.res := by
  unfold unresolvedTrap
  split <;> rfl

/-- Of the CSRs an unresolved trap into S may write mstatus, sepc, scause and stval alone. -/
theorem unresolvedTrap_get_S {r : CsrReg} (hr : r ∉ [CsrReg.mstatus, .sepc, .scause, .stval]) :
    (unresolvedTrap .S interrupt code tval epc s).hart.csr.get r = s.hart.csr.get r := by
  simp only [List.mem_cons, List.not_mem_nil, or_false, not_or] at hr
  obtain ⟨mstatus, sepc, scause, stval⟩ := hr
  simp [unresolvedTrap, CsrFile.get_put, mstatus, sepc, scause, stval]

/-- Of the CSRs an unresolved trap into M may write mstatus, mepc, mcause and mtval alone. -/
theorem unresolvedTrap_get_M {r : CsrReg} (hr : r ∉ [CsrReg.mstatus, .mepc, .mcause, .mtval]) :
    (unresolvedTrap .M interrupt code tval epc s).hart.csr.get r = s.hart.csr.get r := by
  simp only [List.mem_cons, List.not_mem_nil, or_false, not_or] at hr
  obtain ⟨mstatus, mepc, mcause, mtval⟩ := hr
  simp [unresolvedTrap, CsrFile.get_put, mstatus, mepc, mcause, mtval]

end

/-! ### The statements -/

/-- Settles O51: trap entry by its target, and an exception is trap entry at the pc. -/
theorem trapEntryState : Obligations.TrapEntryState := by
  intro interrupt code tval epc s hc
  refine ⟨trapEntry_enteredS tval epc hc, trapEntry_enteredM tval epc hc, fun cause => ?_⟩
  obtain ⟨-, -, -, -, -, -, -, -, -, -, note⟩ := trapEntry_frame false (causeCode cause) tval s.hart.pc s
  rw [← note]
  rfl

/-- Settles O52: an unresolved trap leaves, beside the frame of every trap entry, the wait flag and the
reservation, and every CSR but its target's. -/
theorem unresolvedTrapHalts : Obligations.UnresolvedTrapHalts := by
  intro interrupt code tval epc s h t
  obtain ⟨id, x, f, semihost, others, -, -, -, -, -, note⟩ := trapEntry_frame interrupt code tval epc s
  have toS (hd : DelegatedToS interrupt code s) : t = unresolvedTrap .S interrupt code tval epc s :=
    trapEntry_unresolved _ _ _ _ _ ((trapTarget_eq_S ..).2 hd)
      ((h.resolve_right fun m => m.1 hd).2)
  have toM (hd : ¬DelegatedToS interrupt code s) : t = unresolvedTrap .M interrupt code tval epc s :=
    trapEntry_unresolved _ _ _ _ _ (trapTarget_eq_M hd) ((h.resolve_left fun m => hd m.1).2)
  obtain ⟨p, unresolved⟩ : ∃ p, t = unresolvedTrap p interrupt code tval epc s := by
    by_cases hd : DelegatedToS interrupt code s
    · exact ⟨_, toS hd⟩
    · exact ⟨_, toM hd⟩
  have halted : t.hart.halted = some ⟨interrupt, BitVec.ofNat 64 code, tval, epc⟩ := by
    rw [unresolved, unresolvedTrap_halted]
  have wfi : t.hart.wfi = s.hart.wfi := by rw [unresolved, unresolvedTrap_wfi]
  have res : t.hart.res = s.hart.res := by rw [unresolved, unresolvedTrap_res]
  refine ⟨halted, x, f, id, semihost, wfi, res, trapEntry_keepsShared tval epc interrupt code s, note,
    fun hd r hr => ?_, fun hd r hr => ?_, fun hall => step_halted (List.forall_mem_cons.2 ⟨?_, ?_⟩)⟩
  · rw [toS hd, unresolvedTrap_get_S _ _ _ _ _ hr]
  · rw [toM hd, unresolvedTrap_get_M _ _ _ _ _ hr]
  · rw [halted]
    exact Option.some_ne_none _
  · rw [others]
    exact hall

end Sys2Proof.Machine
end

section
/-! PROOFS. The interrupt check (O53): a sample, a wake and a choice. The wake is a product of three bits,
and the choice is the head of a list of interrupt codes, so that each clause is what `Option.or` answers. -/

namespace Sys2Proof.Machine

/-! ### The wake -/

/-- The interrupt of a code is pending and enabled in mie, in a sample (60_exceptions R533, R534). -/
def codePending (c : ClintSample) (csr : CsrFile) (k : Nat) : Bool :=
  csr.mie.getLsbD k && (if k = 3 then c.msip else if k = 7 then c.mtip else csr.mip.getLsbD k)

theorem irqPending_eq (c : ClintSample) (s : State) (i : Irq) :
    irqPending c s i = codePending c s.hart.csr (irqCode i) := by cases i <;> rfl

theorem and_twoPow_eq_zero (v : Word) {k : Nat} (hk : k < 64) :
    v &&& BitVec.twoPow 64 k = 0#64 ↔ v.getLsbD k = false := by
  rw [BitVec.and_twoPow]
  cases v.getLsbD k
  · simp
  · simp [← BitVec.toNat_inj, BitVec.toNat_twoPow_of_lt hk]

/-- Of mip's stored bits, the wake condition looks at SSIP and STIP (60_exceptions R536). -/
theorem and_takenIrqMask_bne_zero {mip : Word} (h : mip &&& ~~~0x222#64 = 0) (mie : Word) :
    (mip &&& mie &&& takenIrqMask != 0) =
      (mie.getLsbD 1 && mip.getLsbD 1 || mie.getLsbD 5 && mip.getLsbD 5) := by
  have looked : 0x222#64 &&& takenIrqMask = BitVec.twoPow 64 1 ||| BitVec.twoPow 64 5 := by decide
  have bits : mip &&& mie &&& takenIrqMask =
      mie &&& mip &&& BitVec.twoPow 64 1 ||| mie &&& mip &&& BitVec.twoPow 64 5 := by
    rw [← BitVec.and_or_distrib_left, ← looked]
    conv_lhs => rw [← and_eq_of_masked h]
    ac_rfl
  rw [Bool.eq_iff_iff, bits, bne_iff_ne, ← not_iff_not, not_ne_iff]
  simp [BitVec.or_eq_zero_iff, and_twoPow_eq_zero, -BitVec.getLsbD_eq_getElem]

/-- The wake condition is that some interrupt is pending and enabled in mie. -/
theorem wakeCondition_eq_any {s : State} (h : s.hart.csr.mip &&& ~~~0x222#64 = 0) (c : ClintSample) :
    wakeCondition c s = [3, 7, 1, 5].any (codePending c s.hart.csr) := by
  have stored := and_takenIrqMask_bne_zero h s.hart.csr.mie
  have pending : wakeCondition c s = ((s.hart.csr.mip &&& s.hart.csr.mie &&& takenIrqMask != 0) ||
    codePending c s.hart.csr 3 || codePending c s.hart.csr 7) := rfl
  have codes : ([3, 7, 1, 5].any (codePending c s.hart.csr)) = (codePending c s.hart.csr 3 ||
    (codePending c s.hart.csr 7 || (codePending c s.hart.csr 1 || codePending c s.hart.csr 5))) := by
    simp
  rw [pending, codes, stored]
  show (codePending c s.hart.csr 1 || codePending c s.hart.csr 5 || _ || _) = _
  ac_rfl

/-- A waiting hart goes on waiting where neither the condition nor the draw wakes it. -/
theorem wakeCheck_wfi (c : ClintSample) (s : State) : (wakeCheck c s).hart.wfi =
    (s.hart.wfi && !wakeCondition c s && !(drawWake s).1) := by
  have drawn : (drawWake s).2.hart = s.hart := by rw [drawWake_state]
  unfold wakeCheck
  cases waiting : s.hart.wfi
  · exact waiting
  · cases wakeCondition c s
    · cases woken : (drawWake s).1
      · simp [woken, drawn, waiting]
      · simp [woken]
    · rfl

theorem drawWake_of_tape {s : State} {w : Bool} {l : List Bool} (h : s.tape.wake = w :: l) :
    (drawWake s).1 = w := by simp only [drawWake, h]

theorem sampleClint_tape_wake (s : State) : (sampleClint s).2.tape.wake = s.tape.wake := by
  unfold sampleClint drawClint
  cases s.tape.clint <;> rfl

/-- The state in which the check looks for an interrupt: the inputs sampled, the wake made. -/
def sampledAndWoken (s : State) : State := wakeCheck (sampleClint s).1 (sampleClint s).2

/-- Before the interrupt only the sample, the draw and the wait flag change. -/
theorem sampledAndWoken_state (s : State) : sampledAndWoken s = { s with
    hart := { s.hart with wfi := (sampledAndWoken s).hart.wfi }
    mtime := (sampledAndWoken s).mtime
    tape := (sampledAndWoken s).tape
    tick := (sampledAndWoken s).tick } := by
  have woken : sampledAndWoken s = _ := wakeCheck_state (sampleClint s).1 (sampleClint s).2
  have sampled := sampleClint_state s
  change sampledAndWoken s = { (sampleClint s).2 with
    hart := { (sampleClint s).2.hart with wfi := (sampledAndWoken s).hart.wfi }
    tape := (sampledAndWoken s).tape, tick := (sampledAndWoken s).tick } at woken
  generalize sampledAndWoken s = u at woken ⊢
  rw [woken, sampled]

theorem sampledAndWoken_mtime (s : State) : (sampledAndWoken s).mtime = (sampleClint s).1.mtime := by
  rw [sampledAndWoken, wakeCheck_state, sampleClint_mtime]

theorem sampledAndWoken_wfi (s : State) : (sampledAndWoken s).hart.wfi =
    (s.hart.wfi && !wakeCondition (sampleClint s).1 (sampleClint s).2 &&
      !(drawWake (sampleClint s).2).1) := by
  rw [sampledAndWoken, wakeCheck_wfi, sampleClint_hart]

/-! ### The choice -/

/-- The codes of the interrupts for M that are pending, in their order (60_exceptions R534). -/
def codesForM (c : ClintSample) (csr : CsrFile) : List Nat :=
  [3, 7, 1, 5].filter fun k => codePending c csr k && !csr.mideleg.getLsbD k

/-- The codes of the interrupts for S that are pending, in their order (60_exceptions R534). -/
def codesForS (c : ClintSample) (csr : CsrFile) : List Nat :=
  [1, 5].filter fun k => codePending c csr k && csr.mideleg.getLsbD k

theorem codesForM_eq_map (c : ClintSample) (s : State) : codesForM c s.hart.csr =
    ([Irq.msi, .mti, .ssi, .sti].filter fun i => irqPending c s i && !irqDelegated s i).map irqCode := by
  simp only [irqPending_eq]
  exact List.filter_map (f := irqCode) (l := [.msi, .mti, .ssi, .sti])

theorem codesForS_eq_map (c : ClintSample) (s : State) : codesForS c s.hart.csr =
    ([Irq.ssi, .sti].filter fun i => irqPending c s i && irqDelegated s i).map irqCode := by
  simp only [irqPending_eq]
  exact List.filter_map (f := irqCode) (l := [.ssi, .sti])

/-- The code picked is the first for M, where M's interrupts are enabled, or else the first for S, where
S's are. -/
theorem pickIrq_code (c : ClintSample) (s : State) : (pickIrq c s).map irqCode =
    (if enabledM s then (codesForM c s.hart.csr).head? else none).or
      (if enabledS s then (codesForS c s.hart.csr).head? else none) := by
  simp only [pickIrq, Option.map_or, apply_ite (Option.map irqCode), Option.map_none, codesForM_eq_map,
    codesForS_eq_map, List.head?_map, List.head?_filter]

theorem enabledM_iff (s : State) :
    enabledM s = true ↔ s.hart.priv ≠ .M ∨ s.hart.csr.mstatus.getLsbD 3 = true := by
  rw [enabledM, Bool.or_eq_true, bne_iff_ne]
  rfl

theorem enabledS_iff (s : State) : enabledS s = true ↔
    s.hart.priv = .U ∨ (s.hart.priv = .S ∧ s.hart.csr.mstatus.getLsbD 1 = true) := by
  rw [enabledS, Bool.or_eq_true, Bool.and_eq_true, beq_iff_eq, beq_iff_eq]
  rfl

/-- The check takes, at the pc, the first code for M, or else for S, as the state it begins in has them:
the sample and the wake change neither the privilege nor the CSRs. -/
theorem interruptCheck_eq (s : State) : interruptCheck s =
    ((if enabledM s then (codesForM (sampleClint s).1 s.hart.csr).head? else none).or
      (if enabledS s then (codesForS (sampleClint s).1 s.hart.csr).head? else none)).elim
      (sampledAndWoken s) fun k => trapEntry true k 0 s.hart.pc (sampledAndWoken s) := by
  have pc : (sampledAndWoken s).hart.pc = s.hart.pc := by rw [sampledAndWoken_state]
  have picked : (pickIrq (sampleClint s).1 (sampledAndWoken s)).map irqCode =
      (if enabledM s then (codesForM (sampleClint s).1 s.hart.csr).head? else none).or
        (if enabledS s then (codesForS (sampleClint s).1 s.hart.csr).head? else none) := by
    rw [pickIrq_code, sampledAndWoken_state]
    rfl
  rw [← picked, ← pc]
  simp only [interruptCheck, sampledAndWoken]
  cases pickIrq (sampleClint s).1 (wakeCheck (sampleClint s).1 (sampleClint s).2) <;> rfl

/-- A target whose list of codes is empty, or that is not enabled, gives none. -/
theorem ite_head?_eq_none {l : List Nat} {enabled : Bool} {p : Prop} (h : l = [] ∨ ¬p)
    (he : enabled = true ↔ p) : (if enabled then l.head? else none) = none := by
  rcases h with rfl | hp
  · exact ite_self none
  · exact if_neg fun e => hp (he.1 e)

/-- A target that is enabled gives the first of its codes. -/
theorem ite_head?_eq_some {l t : List Nat} {k : Nat} {enabled : Bool} {p : Prop} (h : l = k :: t)
    (hp : p) (he : enabled = true ↔ p) : (if enabled then l.head? else none) = some k := by
  rw [h, if_pos (he.2 hp), List.head?_cons]

/-! ### The statement -/

/-- Settles O53: the wake is `wakeCheck`'s three bits, the choice the heads of the two lists. -/
theorem interruptPriority : Obligations.InterruptPriority := by
  intro s _ hmip c csr pend deleg enM enS forM forS
  have wfi := sampledAndWoken_wfi s
  rw [wakeCondition_eq_any (by rw [sampleClint_hart]; exact hmip), sampleClint_hart] at wfi
  change (sampledAndWoken s).hart.wfi =
    (s.hart.wfi && !([3, 7, 1, 5].any pend) && !(drawWake (sampleClint s).2).1) at wfi
  have check : interruptCheck s = ((if enabledM s then forM.head? else none).or
      (if enabledS s then forS.head? else none)).elim (sampledAndWoken s)
        fun k => trapEntry true k 0 s.hart.pc (sampledAndWoken s) := interruptCheck_eq s
  refine ⟨sampleClint_sampled s, sampledAndWoken s, (sampledAndWoken s).hart.wfi,
    sampledAndWoken_state s, sampledAndWoken_mtime s, fun waits => ?_, fun pending => ?_,
    fun w l ht hw idle => ?_, fun k l hM en => ?_, fun k l hS en noM => ?_, fun noM noS => ?_⟩
  · rw [wfi, Bool.and_eq_true, Bool.and_eq_true] at waits
    exact waits.1.1
  · rw [wfi, pending, Bool.not_true, Bool.and_false, Bool.false_and]
  · rw [wfi, hw, idle, drawWake_of_tape ((sampleClint_tape_wake s).trans ht), Bool.not_false,
      Bool.true_and, Bool.true_and]
  · rw [check, ite_head?_eq_some hM en (enabledM_iff s), Option.some_or]
    rfl
  · rw [check, ite_head?_eq_none noM (enabledM_iff s), Option.none_or,
      ite_head?_eq_some hS en (enabledS_iff s)]
    rfl
  · rw [check, ite_head?_eq_none noM (enabledM_iff s), Option.none_or,
      ite_head?_eq_none noS (enabledS_iff s)]
    rfl

end Sys2Proof.Machine
end

section
/-! PROOFS. Reset (O49, O50): a hart right after reset is legal, and the host's reset, whichever place the
hart stands in, replaces that hart and its part of the TLB alone. -/

namespace Sys2Proof.Machine

/-! ### A hart after reset -/

theorem Hart.reset_legal (id : Nat) {entry : Word} (h : entry.toNat % 2 = 0) :
    (Hart.reset id entry).legal :=
  ⟨Vector.getElem_replicate _, (even_iff entry).2 h, Priv.noConfusion, (by decide : CsrFile.legal {}),
    nofun⟩

theorem Hart.reset_csr_get (id : Nat) (entry : Word) (r : CsrReg) : (Hart.reset id entry).csr.get r = 0 := by
  cases r <;> rfl

/-! ### The host's reset -/

theorem hostReset_even {entry : Word} (h : entry.toNat % 2 = 0) (id : Nat) (s : State) :
    hostReset id entry s = some (onHart id (fun t => { t with
      hart := Hart.reset id entry, tlb := t.tlb.filter fun e => e.hart != id }) s) :=
  if_neg (Bool.eq_false_iff.1 ((even_iff_bit entry).1 ((even_iff entry).2 h)))

theorem hostReset_odd {entry : Word} (h : entry.toNat % 2 = 1) (id : Nat) (s : State) :
    hostReset id entry s = none := by
  refine if_pos (Bool.not_eq_false _ ▸ fun even => ?_)
  have := (even_iff entry).1 ((even_iff_bit entry).2 even)
  omega

section
variable {id k : Nat} {g : Hart} {s : State}

/-- The host acts on the first of the other harts that has the id. -/
theorem onHart_others (f : State → State) (hs : s.hart.id ≠ id) (hk : s.others[k]? = some g)
    (hg : g.id = id) (first : ∀ j g', j < k → s.others[j]? = some g' → g'.id ≠ id) :
    onHart id f s = swapHart k (f (swapHart k s)) := by
  obtain ⟨inside, hk⟩ := List.getElem?_eq_some_iff.1 hk
  have index : s.others.findIdx (fun h => h.id == id) = k := by
    rw [List.findIdx_eq inside, hk, beq_iff_eq]
    exact ⟨hg, fun j hj => beq_eq_false_iff_ne.2 (first j _ hj (List.getElem?_eq_getElem _))⟩
  simp only [onHart, if_neg hs, index, if_pos inside]

/-- To bring a hart to the front, replace it there and bring it back is to replace it in its place. -/
theorem swapHart_replace (h : Hart) (tlb : List TlbEntry) (hk : s.others[k]? = some g) :
    swapHart k { swapHart k s with hart := h, tlb := tlb } =
      { s with others := s.others.set k h, tlb := tlb } := by
  obtain ⟨inside, -⟩ := List.getElem?_eq_some_iff.1 hk
  rw [swapHart_some hk, swapHart_some (h := s.hart) (List.getElem?_set_self inside)]
  simp only [List.set_set]

/-- Reset of a hart among the others. -/
theorem hostReset_others {entry : Word} (he : entry.toNat % 2 = 0) (hs : s.hart.id ≠ id)
    (hk : s.others[k]? = some g) (hg : g.id = id)
    (first : ∀ j g', j < k → s.others[j]? = some g' → g'.id ≠ id) :
    hostReset id entry s = some { s with
      others := s.others.set k (Hart.reset id entry), tlb := s.tlb.filter fun e => e.hart != id } := by
  have tlb : (swapHart k s).tlb = s.tlb := by rw [swapHart_eq]
  rw [hostReset_even he, onHart_others _ hs hk hg first, swapHart_replace _ _ hk, tlb]

end

/-! ### The statements -/

/-- Settles O49: every hart is one after reset, memory is what the host loaded in canonical form, and
the TLB is empty. -/
theorem invariantAtReset : Obligations.InvariantAtReset := by
  refine ⟨⟨Memory.wf_nil, Hart.reset_legal 0 (by decide), nofun, .nil, rfl⟩,
    fun plat first rest cells hf hr => ⟨Memory.normalise_wf cells, Hart.reset_legal 0 hf, fun h hh => ?_,
      .nil, rfl⟩⟩
  obtain ⟨k, hk, rfl⟩ := List.mem_mapIdx.1 hh
  exact Hart.reset_legal (k + 1) (hr _ (List.getElem_mem hk))

/-- Settles O50: the reset hart's fields, what its status, misa and id read, and the host's reset by the
place of the hart. -/
theorem resetState : Obligations.ResetState := by
  refine ⟨fun id entry s => ?_, rfl, rfl, rfl⟩
  intro h
  have registers (r : Fin 32) : h.x[r] = 0 ∧ h.f[r] = 0 :=
    ⟨Vector.getElem_replicate _, Vector.getElem_replicate _⟩
  have view (e : s.hart = h) : statusView s.hart.csr.mstatus = 0xA00000000#64 := by
    rw [e]
    show statusView 0 = _
    decide
  refine ⟨rfl, rfl, registers, rfl, rfl, rfl, rfl, rfl, Hart.reset_csr_get id entry,
    fun e => ⟨?_, ?_, ?_, ?_⟩, fun he hid => ?_, fun he hid k g hk hg first => ?_,
    fun ho => hostReset_odd ho id s⟩
  · exact csrRead_row (h := .plain .mstatus) rfl rfl (by decide) ((and_allOnes64 _).trans (view e)) rfl
  · exact csrRead_row (h := .plain .mstatus) rfl rfl (by decide)
      (congrArg (· &&& sstatusMask) (view e)) rfl
  · exact csrRead_computed .misa rfl (by decide)
  · rw [csrRead_computed .hartId rfl (by decide)]
    show Except.ok (BitVec.ofNat 64 s.hart.id, s) = _
    rw [e]
    rfl
  · rw [hostReset_even he, onHart, if_pos hid]
  · exact hostReset_others he hid hk hg first

end Sys2Proof.Machine
end
